-- ==== Sys2Proof/Word.lean ====
section
/-! DEFINITION. The widths of the cycle counter and of an EdgeEvent word (00_scope.md R6, parameter `W`), and a byte.
A W-bit value is a natural number in `[0, 2^W)` (R8), and all arithmetic on it is on mathematical integers (R9);
the wrapping operations stand in Machine/Operands.lean. -/

namespace Sys2Proof

/-- A byte is 8 bits (00_scope.md R8). -/
abbrev Byte := BitVec 8

/-- The legal values of the parameter `W` (00_scope.md R6: "32 or 64"). -/
inductive Width where
  | w32
  | w64
  deriving DecidableEq, Repr

/-- `W` itself. -/
def Width.bits : Width → Nat
  | .w32 => 32
  | .w64 => 64

/-- `2^W`, written out so that `omega` reads it as a numeral. -/
def Width.modulus : Width → Nat
  | .w32 => 4294967296
  | .w64 => 18446744073709551616

/-- `2^(W-1)`, the first value that `s_W` reads as negative (00_scope.md R9). -/
def Width.half : Width → Nat
  | .w32 => 2147483648
  | .w64 => 9223372036854775808

end Sys2Proof
end

