-- ==== Sys2Proof/Config.lean ====
section
/-! DEFINITION. The implementation parameters of 00_scope.md R6. The per-platform ones are the fields of `Params`,
which State carries unchanged from reset on, so that a statement about every state holds for every legal parameter
(log entries 1 and 2). `NB` and `NE` are arguments of CONSTRUCT and stand in the instance. The one value the spec
leaves without any law, the level of a plain input that nothing drives, is an opaque constant (log entry 14). -/

namespace Sys2Proof

/-- When PUMP calls the receive callback (00_scope.md R6 `ONRECEIVE_MODE`; 42_read_api.md R186). -/
inductive OnReceiveMode where
  | newly
  | level
  deriving DecidableEq, Repr

/-- The parameters of 00_scope.md R6 that belong to the platform. -/
structure Params where
  /-- `W` -/
  width : Width
  /-- `F_HZ`, an integer of at least 1,000,000 -/
  fHz : Nat
  /-- `VALID_PINS`, a finite set of naturals; only membership is read -/
  validPins : List Nat
  /-- `STOP_SYNTH_DELTA`, as what it adds to its lower bound: entries `((k, B), extra)`, and the spec's default
  wherever no entry stands (log entry 2) -/
  synthExtra : List ((Int × Nat) × Nat)
  /-- `AVAIL_YIELD_US`, as entries `(B, microseconds)`, and the spec's default wherever none stands (log entry 2) -/
  availYield : List (Nat × Nat)
  /-- `ONRECEIVE_MODE` -/
  onReceiveMode : OnReceiveMode
  /-- `COALESCE` -/
  coalesce : Bool
  deriving DecidableEq, Repr

/-- The default parameters of 00_scope.md R6 in configuration TC1. -/
def Params.default : Params where
  width := .w32
  fHz := 1000000
  validPins := [0, 1, 2, 3, 4, 5, 12, 13, 14, 15]
  synthExtra := []
  availYield := []
  onReceiveMode := .newly
  coalesce := true

/-- A legal choice of parameters: the one bound of 00_scope.md R6 that the types do not already give. -/
def Params.legal (p : Params) : Bool := decide (1000000 ≤ p.fHz)

/-- The level of pin `p` in plain input mode when neither a wire nor the environment drives it: 60_exceptions.md
R301 states a level for an undriven `input_pullup` pin only. Nothing in Lean can evaluate it (log entry 14). -/
opaque Config.floatingLevel : Nat → Bool

end Sys2Proof
end

