-- ==== Sys2Proof/Syntax.lean ====
section
/-! DEFINITION. The operations of the unit: one constructor per row of the opcode map (30_encoding.md R100), two for
SYNTH_STOP, each with the instance identifier every command carries (R99) and its operands in the order and with the
types of R101. -/

namespace Sys2Proof

/-- The operand `ev` of REPLAY_EDGE (30_encoding.md R101): a word from the edge ring, or a synthesized pair that is
never packed (R94). -/
inductive EdgeEvent where
  | packed (w : Nat)
  | pair (ts : Nat) (level : Bool)
  deriving DecidableEq, Repr

/-- Every operation of 30_encoding.md R100. `s` is the instance identifier. SYNTH_STOP has two forms: `synthStop` without
operands (41_decoder.md R155) and `synthStopAt` with the operand `now` that R100 lists (log entry 5). -/
inductive Instr where
  | construct (s rxPin txPin : Nat) (invert : Bool) (bufCap edgeCap : Nat)
  | start (s : Nat) (baud : Int)
  | stop (s : Nat)
  | destruct (s : Nat)
  | enableRx (s : Nat) (on : Bool)
  | enableTx (s : Nat) (on : Bool)
  | setTxEnablePin (s pin : Nat)
  | baudrate (s : Nat)
  | available (s : Nat)
  | read (s : Nat)
  | peek (s : Nat)
  | flush (s : Nat)
  | overflow (s : Nat)
  | onReceive (s : Nat) (cb : Option Nat)
  | pump (s : Nat)
  | write (s : Nat) (bytes : List Byte)
  | capture (s : Nat)
  | rxbits (s : Nat)
  | replayEdge (s : Nat) (ev : EdgeEvent)
  | synthStop (s : Nat)
  | synthStopAt (s now : Nat)
  | waitBitCycles (s deadline : Nat)
  deriving DecidableEq, Repr

/-- The instance a command names (30_encoding.md R99). -/
def Instr.target : Instr → Nat
  | .construct s _ _ _ _ _ => s
  | .start s _ => s
  | .stop s => s
  | .destruct s => s
  | .enableRx s _ => s
  | .enableTx s _ => s
  | .setTxEnablePin s _ => s
  | .baudrate s => s
  | .available s => s
  | .read s => s
  | .peek s => s
  | .flush s => s
  | .overflow s => s
  | .onReceive s _ => s
  | .pump s => s
  | .write s _ => s
  | .capture s => s
  | .rxbits s => s
  | .replayEdge s _ => s
  | .synthStop s => s
  | .synthStopAt s _ => s
  | .waitBitCycles s _ => s

/-- Host commands are opcodes 0x01 to 0x20; the operations 0x40 to 0x44 are not host-issuable (30_encoding.md R100,
R103). -/
def Instr.hostIssuable : Instr → Bool
  | .construct _ _ _ _ _ _ => true
  | .start _ _ => true
  | .stop _ => true
  | .destruct _ => true
  | .enableRx _ _ => true
  | .enableTx _ _ => true
  | .setTxEnablePin _ _ => true
  | .baudrate _ => true
  | .available _ => true
  | .read _ => true
  | .peek _ => true
  | .flush _ => true
  | .overflow _ => true
  | .onReceive _ _ => true
  | .pump _ => true
  | .write _ _ => true
  | .capture _ => false
  | .rxbits _ => false
  | .replayEdge _ _ => false
  | .synthStop _ => false
  | .synthStopAt _ _ => false
  | .waitBitCycles _ _ => false

/-! The pseudo-instructions of 30_encoding.md R107, each by its expansion. -/

/-- `WRITE1 b` = `WRITE [b]`. -/
def Instr.write1 (s : Nat) (b : Byte) : Instr := .write s [b]
/-- `ENABLE_RECEIVE on` = `ENABLE_RX on`. -/
def Instr.enableReceive (s : Nat) (on : Bool) : Instr := .enableRx s on
/-- `BEGIN baud` = `START baud`. -/
def Instr.beginPort (s : Nat) (baud : Int) : Instr := .start s baud
/-- `END` = `STOP`. -/
def Instr.endPort (s : Nat) : Instr := .stop s

end Sys2Proof
end

