-- ==== Sys2Proof/WellFormed.lean ====
section
/-! DEFINITION. Which instructions are well formed: the operands whose type in 30_encoding.md R101 is a W-bit value
(`now` and `deadline` are "W-bit counter values", a word of `E` is a W-bit word) lie in `[0, 2^W)`. Every other
operand's type is its Lean type. -/

namespace Sys2Proof

/-- The operand `ev` fits the width: the packed word or the pair's timestamp is a W-bit value. -/
def EdgeEvent.wf (w : Width) : EdgeEvent → Bool
  | .packed v => decide (v < w.modulus)
  | .pair ts _ => decide (ts < w.modulus)

/-- An instruction is well formed when its W-bit operands are W-bit values. -/
def Instr.wf (w : Width) : Instr → Bool
  | .construct _ _ _ _ _ _ => true
  | .start _ _ => true
  | .stop _ => true
  | .destruct _ => true
  | .enableRx _ _ => true
  | .enableTx _ _ => true
  | .setTxEnablePin _ _ => true
  | .baudrate _ => true
  | .available _ => true
  | .read _ => true
  | .peek _ => true
  | .flush _ => true
  | .overflow _ => true
  | .onReceive _ _ => true
  | .pump _ => true
  | .write _ _ => true
  | .capture _ => true
  | .rxbits _ => true
  | .replayEdge _ ev => ev.wf w
  | .synthStop _ => true
  | .synthStopAt _ now => decide (now < w.modulus)
  | .waitBitCycles _ d => decide (d < w.modulus)

end Sys2Proof
end

