-- ==== Sys2Proof/Decode.lean ====
section
/-! DEFINITION. The command encoding of 30_encoding.md R99 to R107: the command as the host presents it (an opcode
byte, an instance identifier, an operand list, each operand a number, a bracketed list or `none`, R106), the decoder,
total on every command, the encoder, and the textual syntax. The spec gives operands as typed values and never as
bits (R101), so a command is this record and not a byte string (log entry 4). -/

namespace Sys2Proof

/-- One operand as the syntax of 30_encoding.md R106 writes it. -/
inductive Operand where
  | num (n : Int)
  | list (l : List Int)
  | none
  deriving DecidableEq, Repr

/-- One command: bits `[7:0]` of the command word, the instance identifier, the operand list (30_encoding.md R99). -/
structure Command where
  op : BitVec 8
  inst : Nat
  args : List Operand
  deriving DecidableEq, Repr

/-- Why a command decodes to no instruction. -/
inductive DecodeError where
  /-- The opcode value is not in the map of 30_encoding.md R100 (R102). The machine raises `Fault(UNKNOWN_OPCODE)`:
  the spec's own outcome. -/
  | unknownOpcode
  /-- The opcode is assigned and the operand list is not one that R101 gives it: no command of the spec has this
  form, so there is no instruction to run. -/
  | badOperands
  deriving DecidableEq, Repr

/-- A natural operand: pins, capacities, W-bit counter values (30_encoding.md R101). -/
def Operand.toNat? : Operand → Option Nat
  | .num n => if 0 ≤ n then some n.toNat else Option.none
  | .list _ => Option.none
  | .none => Option.none

/-- A boolean operand, written 0 or 1 (30_encoding.md R101, R106). -/
def Operand.toBool? : Operand → Option Bool
  | .num n => if n = 0 then some false else if n = 1 then some true else Option.none
  | .list _ => Option.none
  | .none => Option.none

/-- The operand `baud`, an integer (30_encoding.md R101). -/
def Operand.toInt? : Operand → Option Int
  | .num n => some n
  | .list _ => Option.none
  | .none => Option.none

/-- The operand `cb`, a callback identifier or `none` (30_encoding.md R101). -/
def Operand.toCallback? : Operand → Option (Option Nat)
  | .num n => if 0 ≤ n then some (some n.toNat) else Option.none
  | .list _ => Option.none
  | .none => some Option.none

/-- The elements of a byte list, each 0 to 255. -/
def bytesOfInts : List Int → Option (List Byte)
  | [] => some []
  | z :: zs =>
    if 0 ≤ z ∧ z < 256 then (bytesOfInts zs).map (BitVec.ofNat 8 z.toNat :: ·) else Option.none

/-- The operand `bytes`, "a finite list of bytes, possibly empty" (30_encoding.md R101). -/
def Operand.toBytes? : Operand → Option (List Byte)
  | .num _ => Option.none
  | .list l => bytesOfInts l
  | .none => Option.none

/-- The operand `ev`: a packed word, or a synthesized pair `(ts, L)` (30_encoding.md R94, R101). -/
def Operand.toEvent? : Operand → Option EdgeEvent
  | .num n => if 0 ≤ n then some (.packed n.toNat) else Option.none
  | .list [t, l] =>
    if 0 ≤ t then
      if l = 0 then some (.pair t.toNat false) else if l = 1 then some (.pair t.toNat true) else Option.none
    else Option.none
  | .list _ => Option.none
  | .none => Option.none

/-- Is the opcode value in the map of 30_encoding.md R100? -/
def opcodeAssigned (op : Nat) : Bool :=
  (decide (0x01 ≤ op) && decide (op ≤ 0x08)) || (decide (0x10 ≤ op) && decide (op ≤ 0x16)) || op == 0x20 ||
    (decide (0x40 ≤ op) && decide (op ≤ 0x44))

/-- May the host issue the opcode? "Host-issuable commands occupy 0x01 to 0x20" (30_encoding.md R100, R103). -/
def opcodeHostIssuable (op : Nat) : Bool := opcodeAssigned op && decide (op ≤ 0x20)

/-- The instruction of an assigned opcode from its operand list (30_encoding.md R100, R101), `none` where the list
is not one that R101 gives the opcode. -/
def decodeOperands (op s : Nat) (args : List Operand) : Option Instr :=
  match op, args with
  | 0x01, [a, b, i, n, e] =>
    match a.toNat?, b.toNat?, i.toBool?, n.toNat?, e.toNat? with
    | some rx, some tx, some inv, some nb, some ne => some (.construct s rx tx inv nb ne)
    | _, _, _, _, _ => none
  | 0x02, [a] => a.toInt?.map (.start s)
  | 0x03, [] => some (.stop s)
  | 0x04, [] => some (.destruct s)
  | 0x05, [a] => a.toBool?.map (.enableRx s)
  | 0x06, [a] => a.toBool?.map (.enableTx s)
  | 0x07, [a] => a.toNat?.map (.setTxEnablePin s)
  | 0x08, [] => some (.baudrate s)
  | 0x10, [] => some (.available s)
  | 0x11, [] => some (.read s)
  | 0x12, [] => some (.peek s)
  | 0x13, [] => some (.flush s)
  | 0x14, [] => some (.overflow s)
  | 0x15, [a] => a.toCallback?.map (.onReceive s)
  | 0x16, [] => some (.pump s)
  | 0x20, [a] => a.toBytes?.map (.write s)
  | 0x40, [] => some (.capture s)
  | 0x41, [] => some (.rxbits s)
  | 0x42, [a] => a.toEvent?.map (.replayEdge s)
  | 0x43, [] => some (.synthStop s)
  | 0x43, [a] => a.toNat?.map (.synthStopAt s)
  | 0x44, [a] => a.toNat?.map (.waitBitCycles s)
  | _, _ => none

/-- The decoder, total on every command. -/
def decode (c : Command) : Except DecodeError Instr :=
  if opcodeAssigned c.op.toNat then
    match decodeOperands c.op.toNat c.inst c.args with
    | some i => .ok i
    | none => .error .badOperands
  else .error .unknownOpcode

/-! ## The encoder -/

def ofBool : Bool → Operand
  | true => .num 1
  | false => .num 0

def ofCallback : Option Nat → Operand
  | some cb => .num cb
  | none => .none

def ofEvent : EdgeEvent → Operand
  | .packed w => .num w
  | .pair ts true => .list [ts, 1]
  | .pair ts false => .list [ts, 0]

/-- The opcode of each operation, column `op` of 30_encoding.md R100. -/
def Instr.opcode : Instr → BitVec 8
  | .construct _ _ _ _ _ _ => 0x01#8
  | .start _ _ => 0x02#8
  | .stop _ => 0x03#8
  | .destruct _ => 0x04#8
  | .enableRx _ _ => 0x05#8
  | .enableTx _ _ => 0x06#8
  | .setTxEnablePin _ _ => 0x07#8
  | .baudrate _ => 0x08#8
  | .available _ => 0x10#8
  | .read _ => 0x11#8
  | .peek _ => 0x12#8
  | .flush _ => 0x13#8
  | .overflow _ => 0x14#8
  | .onReceive _ _ => 0x15#8
  | .pump _ => 0x16#8
  | .write _ _ => 0x20#8
  | .capture _ => 0x40#8
  | .rxbits _ => 0x41#8
  | .replayEdge _ _ => 0x42#8
  | .synthStop _ => 0x43#8
  | .synthStopAt _ _ => 0x43#8
  | .waitBitCycles _ _ => 0x44#8

/-- The operand list of each operation, column `operands` of 30_encoding.md R100. -/
def Instr.operands : Instr → List Operand
  | .construct _ rx tx inv nb ne => [.num rx, .num tx, ofBool inv, .num nb, .num ne]
  | .start _ baud => [.num baud]
  | .stop _ => []
  | .destruct _ => []
  | .enableRx _ on => [ofBool on]
  | .enableTx _ on => [ofBool on]
  | .setTxEnablePin _ pin => [.num pin]
  | .baudrate _ => []
  | .available _ => []
  | .read _ => []
  | .peek _ => []
  | .flush _ => []
  | .overflow _ => []
  | .onReceive _ cb => [ofCallback cb]
  | .pump _ => []
  | .write _ bytes => [.list (bytes.map fun b => (b.toNat : Int))]
  | .capture _ => []
  | .rxbits _ => []
  | .replayEdge _ ev => [ofEvent ev]
  | .synthStop _ => []
  | .synthStopAt _ now => [.num now]
  | .waitBitCycles _ d => [.num d]

/-- The command of an instruction (30_encoding.md R99). -/
def encode (i : Instr) : Command := ⟨i.opcode, i.target, i.operands⟩

/-! ## Words numbered as the opcode table numbers them -/

/-- Operands of zeros for an opcode: 0 for a number or boolean, the empty list for `bytes`. -/
def zeroOperands (op : Nat) : List Operand :=
  match op with
  | 0x01 => [.num 0, .num 0, .num 0, .num 0, .num 0]
  | 0x02 => [.num 0]
  | 0x05 => [.num 0]
  | 0x06 => [.num 0]
  | 0x07 => [.num 0]
  | 0x15 => [.num 0]
  | 0x20 => [.list []]
  | 0x42 => [.num 0]
  | 0x44 => [.num 0]
  | _ => []

/-- The command whose command word is `w`: bits `[7:0]` are the opcode, the instance identifier and every operand
are 0 (log entry 4). -/
def tableCommand (w : Nat) : Command := ⟨BitVec.ofNat 8 w, 0, zeroOperands (w % 256)⟩

/-- What the decoder reads from the table's word `w`. A command word has no bits above `[7:0]` (30_encoding.md R99,
R105), so a word with one set is none of the table's. -/
def decodeTableWord (nbits w : Nat) : Option Instr :=
  if w < 2 ^ nbits ∧ w < 256 then
    match decode (tableCommand w) with
    | .ok i => some i
    | .error _ => none
  else none

/-! ## Textual syntax -/

/-- The mnemonic of each operation (30_encoding.md R100). -/
def Instr.mnemonic : Instr → String
  | .construct _ _ _ _ _ _ => "CONSTRUCT"
  | .start _ _ => "START"
  | .stop _ => "STOP"
  | .destruct _ => "DESTRUCT"
  | .enableRx _ _ => "ENABLE_RX"
  | .enableTx _ _ => "ENABLE_TX"
  | .setTxEnablePin _ _ => "SET_TX_ENABLE_PIN"
  | .baudrate _ => "BAUDRATE"
  | .available _ => "AVAILABLE"
  | .read _ => "READ"
  | .peek _ => "PEEK"
  | .flush _ => "FLUSH"
  | .overflow _ => "OVERFLOW"
  | .onReceive _ _ => "ON_RECEIVE"
  | .pump _ => "PUMP"
  | .write _ _ => "WRITE"
  | .capture _ => "CAPTURE"
  | .rxbits _ => "RXBITS"
  | .replayEdge _ _ => "REPLAY_EDGE"
  | .synthStop _ => "SYNTH_STOP"
  | .synthStopAt _ _ => "SYNTH_STOP"
  | .waitBitCycles _ _ => "WAIT_BIT_CYCLES"

/-- Texts separated by a comma and a space. -/
def commaSeparated : List String → String
  | [] => ""
  | [t] => t
  | t :: ts => t ++ ", " ++ commaSeparated ts

/-- One operand in the syntax of 30_encoding.md R106: a number in decimal, a list in brackets, or `none`. -/
def Operand.render : Operand → String
  | .num n => toString n
  | .list l => "[" ++ commaSeparated (l.map toString) ++ "]"
  | .none => "none"

/-- The textual form of a command (30_encoding.md R106): the mnemonic, then the operands separated by commas, with
the prefix `pN.` when the program uses more than one instance. -/
def Instr.render (manyInstances : Bool) (i : Instr) : String :=
  (if manyInstances then "p" ++ toString i.target ++ "." else "") ++ i.mnemonic ++
    (if i.operands.isEmpty then "" else " " ++ commaSeparated (i.operands.map Operand.render))

/-! ### Reading the textual syntax -/

/-- The mnemonics of 30_encoding.md R100 with their opcodes. -/
def mnemonicTable : List (String × BitVec 8) :=
  [("CONSTRUCT", 0x01#8), ("START", 0x02#8), ("STOP", 0x03#8), ("DESTRUCT", 0x04#8), ("ENABLE_RX", 0x05#8),
    ("ENABLE_TX", 0x06#8), ("SET_TX_ENABLE_PIN", 0x07#8), ("BAUDRATE", 0x08#8), ("AVAILABLE", 0x10#8),
    ("READ", 0x11#8), ("PEEK", 0x12#8), ("FLUSH", 0x13#8), ("OVERFLOW", 0x14#8), ("ON_RECEIVE", 0x15#8),
    ("PUMP", 0x16#8), ("WRITE", 0x20#8), ("CAPTURE", 0x40#8), ("RXBITS", 0x41#8), ("REPLAY_EDGE", 0x42#8),
    ("SYNTH_STOP", 0x43#8), ("WAIT_BIT_CYCLES", 0x44#8)]

/-- The opcode listed for a mnemonic. -/
def lookupMnemonic (m : String) : List (String × BitVec 8) → Option (BitVec 8)
  | [] => none
  | e :: es => if e.1 = m then some e.2 else lookupMnemonic m es

/-- The value of a digit in bases up to 16. -/
def digitValue (base : Nat) (c : Char) : Option Nat :=
  let v :=
    if '0' ≤ c ∧ c ≤ '9' then c.toNat - '0'.toNat
    else if 'a' ≤ c ∧ c ≤ 'f' then c.toNat - 'a'.toNat + 10
    else if 'A' ≤ c ∧ c ≤ 'F' then c.toNat - 'A'.toNat + 10
    else 16
  if v < base then some v else none

/-- A nonempty run of digits after the digits already read. -/
def readDigits (base : Nat) : Nat → List Char → Option Nat
  | _, [] => none
  | acc, [c] => (digitValue base c).map (acc * base + ·)
  | acc, c :: cs =>
    match digitValue base c with
    | some v => readDigits base (acc * base + v) cs
    | none => none

/-- A natural "in decimal or with prefix `0x`" (30_encoding.md R106). -/
def readNat : List Char → Option Nat
  | '0' :: 'x' :: cs => readDigits 16 0 cs
  | cs => readDigits 10 0 cs

/-- An integer. -/
def readInt : List Char → Option Int
  | '-' :: cs => (readNat cs).map fun n => -(n : Int)
  | cs => (readNat cs).map fun n => (n : Int)

/-- A text without the spaces around it. -/
def trimSpaces (cs : List Char) : List Char :=
  ((cs.dropWhile (· == ' ')).reverse.dropWhile (· == ' ')).reverse

/-- The parts between the commas that stand outside brackets; `part` is what has been read of the present one, last
character first. -/
def splitCommas : Bool → List Char → List Char → List (List Char)
  | _, part, [] => [trimSpaces part.reverse]
  | bracketed, part, c :: cs =>
    if c = ',' ∧ bracketed = false then trimSpaces part.reverse :: splitCommas false [] cs
    else splitCommas ((bracketed || c == '[') && c != ']') (c :: part) cs

/-- Reads every text of a list. -/
def readAll {α : Type} (f : List Char → Option α) : List (List Char) → Option (List α)
  | [] => some []
  | t :: ts =>
    match f t, readAll f ts with
    | some v, some vs => some (v :: vs)
    | _, _ => none

/-- A byte list: what stands between its brackets. -/
def readList (cs : List Char) : Option Operand :=
  match cs.reverse with
  | ']' :: inner =>
    if (trimSpaces inner).isEmpty then some (.list [])
    else (readAll readInt (splitCommas false [] inner.reverse)).map .list
  | _ => Option.none

/-- One operand; a callback identifier may be written `cb1` (42_read_api.md R185). -/
def readOperand : List Char → Option Operand
  | ['n', 'o', 'n', 'e'] => some .none
  | '[' :: cs => readList cs
  | 'c' :: 'b' :: cs => (readNat cs).map fun n => .num n
  | cs => (readInt cs).map .num

/-- The operand list that follows a mnemonic. -/
def readOperands (cs : List Char) : Option (List Operand) :=
  if (trimSpaces cs).isEmpty then some [] else readAll readOperand (splitCommas false [] cs)

/-- The opcode and operands of a mnemonic, or of a pseudo-instruction by its expansion (30_encoding.md R107). -/
def expand (m : String) (args : List Operand) : Option (BitVec 8 × List Operand) :=
  if m = "WRITE1" then
    match args with
    | [.num b] => some (0x20#8, [.list [b]])
    | _ => none
  else if m = "ENABLE_RECEIVE" then some (0x05#8, args)
  else if m = "BEGIN" then some (0x02#8, args)
  else if m = "END" then some (0x03#8, args)
  else (lookupMnemonic m mnemonicTable).map fun op => (op, args)

/-- The instance of a line and what follows it: the prefix `pN.`, or instance 0 (30_encoding.md R106). -/
def readInstance (cs : List Char) : Nat × List Char :=
  match cs with
  | 'p' :: rest =>
    match readNat (rest.takeWhile (· != '.')), rest.dropWhile (· != '.') with
    | some n, '.' :: body => (n, body)
    | _, _ => (0, cs)
  | _ => (0, cs)

/-- The command of one line of the textual syntax (30_encoding.md R106, R107). -/
def assemble (line : List Char) : Option Command :=
  let r := readInstance (trimSpaces line)
  match readOperands (r.2.dropWhile (· != ' ')) with
  | some args => (expand (String.ofList (r.2.takeWhile (· != ' '))) args).map fun e => ⟨e.1, r.1, e.2⟩
  | none => none

end Sys2Proof
end

