-- ==== Sys2Proof/Machine/State.lean ====
section
/-! DEFINITION. The state of the unit: a map from instance identifiers to instance states, and one platform state
(10_state.md R20), beside them the environment's inputs and the outputs of the run. Everything is plain data.
Finite maps and sparse storage are lists of (key, value) pairs in one canonical form: keys strictly rising, and no
entry equal to what an unlisted key reads as (`Memory.wf`). INVENTORY.md lists every field with its rule. -/

namespace Sys2Proof.Machine

/-! ## The parts of an instance (10_state.md sections 2 to 5) -/

/-- `fstate` (R21). -/
inductive FacadeState where
  | unconfigured
  | configured
  | tornDown
  deriving DecidableEq, Repr

/-- `seq` (R40): idle, or slot `i` of byte `j`. -/
inductive Seq where
  | idle
  | slot (j i : Nat)
  deriving DecidableEq, Repr

/-- The edge ring's slots, `E[0..NE-1]`, each a W-bit EdgeEvent word (R31). -/
abbrev EdgeSlots := List (Nat × Nat)

/-- The byte ring's slots, `Q[0..NB-1]`, each a byte (R32). -/
abbrev ByteSlots := List Host.Cell

/-- The state of one instance (10_state.md R21 to R41). Bits are Booleans: `true` is 1, and a high level. -/
structure Inst where
  fstate : FacadeState
  rxPin : Nat
  txPin : Nat
  invert : Bool
  oneWire : Bool
  /-- `B`, the bit period in counter cycles (R23) -/
  bitPeriod : Nat
  rxValid : Bool
  txValid : Bool
  txEnablePin : Nat
  txEnableValid : Bool
  /-- `NB`, the slot count of the byte ring (R26) -/
  byteCap : Nat
  /-- `NE`, the slot count of the edge ring (R26) -/
  edgeCap : Nat
  rxEnabled : Bool
  curBit : Int
  curByte : Byte
  lastTs : Nat
  /-- `E` (R31) -/
  edges : EdgeSlots
  inE : Nat
  outE : Nat
  /-- `Q` (R32) -/
  bytes : ByteSlots
  inB : Nat
  outB : Nat
  edgeOvf : Bool
  byteOvf : Bool
  rxCallback : Option Nat
  txBusy : Bool
  seq : Seq
  deadline : Nat
  prevLevel : Bool
  savedMask : Bool
  inYield : Bool
  deriving DecidableEq, Repr

/-- The reset values of 70_reset_and_hazards.md R320, with every CONSTRUCT argument 0. CONSTRUCT writes the
arguments over them. `txEnablePin`, `deadline` and `savedMask` are unspecified there: 0 is a DESIGN CHOICE (log entry
12), and so is what an unwritten ring slot reads as (log entry 11). -/
def Inst.blank : Inst where
  fstate := .unconfigured
  rxPin := 0
  txPin := 0
  invert := false
  oneWire := false
  bitPeriod := 0
  rxValid := false
  txValid := false
  txEnablePin := 0
  txEnableValid := false
  byteCap := 0
  edgeCap := 0
  rxEnabled := false
  curBit := 8
  curByte := 0#8
  lastTs := 0
  edges := []
  inE := 0
  outE := 0
  bytes := []
  inB := 0
  outB := 0
  edgeOvf := false
  byteOvf := false
  rxCallback := none
  txBusy := false
  seq := .idle
  deadline := 0
  prevLevel := true
  savedMask := false
  inYield := false

/-! ## The parts of the platform (10_state.md section 6) -/

/-- `mode[p]` (R42). -/
inductive PinMode where
  | input
  | inputPullup
  | output
  deriving DecidableEq, Repr

/-- The mode and the output latch of one pin (R42). -/
structure Pin where
  mode : PinMode
  latch : Bool
  deriving DecidableEq, Repr

/-- A pin nothing has written: the boot values are unspecified (R42, R321), and input with latch 0 is a DESIGN
CHOICE (log entry 13). -/
def Pin.boot : Pin := ⟨.input, false⟩

/-- `pending[p]` (R44) as a count, and the time from which its capture may run once its latency has been drawn
(60_exceptions.md R291; `due` is the model's own, log entry 17). -/
structure Pending where
  count : Nat
  due : Option Nat
  deriving DecidableEq, Repr

/-- No transition waits. -/
def Pending.clear : Pending := ⟨0, none⟩

/-- `ctx` (R47). -/
inductive Context where
  | normal
  | interrupt
  deriving DecidableEq, Repr

/-- Who issued the operation of the step: the host, or the unit itself and the interrupt layer (30_encoding.md R103).
The model's own field (log entry 15). -/
inductive Issuer where
  | host
  | unit
  deriving DecidableEq, Repr

/-- The fault codes of 60_exceptions.md R284. -/
inductive FaultCode where
  | badBaud
  | notStarted
  | oneWireTxNotEnabled
  | wrongContext
  | reentrant
  | tornDown
  | unknownOpcode
  | noInstance
  | instanceExists
  | internalIndex
  deriving DecidableEq, Repr

/-- The numbers of 60_exceptions.md R284. -/
def FaultCode.code : FaultCode → Nat
  | .badBaud => 0x81
  | .notStarted => 0x82
  | .oneWireTxNotEnabled => 0x83
  | .wrongContext => 0x84
  | .reentrant => 0x85
  | .tornDown => 0x86
  | .unknownOpcode => 0x87
  | .noInstance => 0x88
  | .instanceExists => 0x89
  | .internalIndex => 0x8A

/-! ## Outputs and inputs of a run -/

/-- What a command returns to the host (30_encoding.md R108). -/
inductive Result where
  | nothing
  | natural (n : Nat)
  | integer (z : Int)
  | boolean (b : Bool)
  deriving DecidableEq, Repr

/-- What the outside world can observe, each with its time: "the command results, the pin levels over time"
(70_reset_and_hazards.md R326), a pin level being made of the latch and the mode, and the receive callback's calls
(60_exceptions.md R308). -/
inductive Output where
  | returned (time s : Nat) (r : Result)
  | pinWrite (time pin : Nat) (level : Bool)
  | pinMode (time pin : Nat) (mode : PinMode)
  | callback (time s cb count : Nat)
  deriving DecidableEq, Repr

/-- From `time` on the environment drives `pin` at `level`, or with `none` no longer drives it (60_exceptions.md R303:
"a list of `(time, level)` changes per pin"). -/
structure InputChange where
  time : Nat
  pin : Nat
  level : Option Bool
  deriving DecidableEq, Repr

/-- A command the host will issue: not before `time`, in context `ctx`, and at a nesting of at most `level` (0: the
main line of the host; k: host code inside k yields or receive callbacks, 60_exceptions.md R304, R305, R308). -/
structure HostCommand where
  time : Nat
  ctx : Context
  level : Nat
  cmd : Command
  deriving DecidableEq, Repr

/-- The draws of 00_scope.md R12 that are not inputs of the environment, each list in the order of use. Where a list
has run out the draw is the ideal one (log entry 7). -/
structure Draws where
  /-- `lat`, the latency of each capture -/
  lat : List Nat
  /-- `late`, the lateness of each spin exit -/
  late : List Nat
  /-- `y`, the duration of each cooperative yield -/
  yieldFor : List Nat
  /-- `d`, the time between two consecutive micro-steps of the main-line agent -/
  overhead : List Nat
  /-- whether an input change at the very time of a micro-step or command comes after it (nonzero) or before it -/
  hold : List Nat
  /-- which of several captures due at one time runs first (60_exceptions.md R291) -/
  order : List Nat
  /-- the time between the last thing host code does in a receive callback and the callback's return
  (60_exceptions.md R308: "the time it takes is a draw"; log entry 20) -/
  callback : List Nat
  deriving DecidableEq, Repr

/-- The ideal draw (00_scope.md R12). -/
def Draws.ideal : Draws := ⟨[], [], [], [], [], [], []⟩

/-! ## The state -/

structure State where
  /-- the parameters of 00_scope.md R6; no operation writes them -/
  params : Params
  /-- `inst`, the constructed instances by identifier (R20) -/
  insts : List (Nat × Inst)
  /-- `mode[p]` and `latch[p]` (R42) -/
  pins : List (Nat × Pin)
  /-- the attached pins (60_exceptions.md R290) -/
  attached : List Nat
  /-- `pending[p]` (R44) -/
  pending : List (Nat × Pending)
  /-- `REG[p]` (R45) -/
  reg : List (Nat × Nat)
  /-- `IM` (R43) -/
  im : Bool
  /-- `tau` (R46) -/
  tau : Nat
  /-- `ctx` (R47) -/
  ctx : Context
  /-- who issued the operation being executed (the model's own) -/
  issuer : Issuer
  /-- `fault` (R48) -/
  fault : Option FaultCode
  /-- the level the environment drives now on each pin it drives (60_exceptions.md R301, R303) -/
  driven : List (Nat × Bool)
  /-- wirings, (output pin, input pin) (60_exceptions.md R302) -/
  wires : List (Nat × Nat)
  /-- the changes the environment will still make -/
  inputs : List InputChange
  /-- the commands the host will still issue, first one first -/
  hostQueue : List HostCommand
  draws : Draws
  /-- the result of the last command that returned -/
  result : Option Result
  /-- the observable outputs so far, last one first -/
  outputs : List Output
  deriving DecidableEq, Repr

/-- The platform boot state of 70_reset_and_hazards.md R321: "`tau = 0`, `IM = 0`, `pending[p] = 0` and `REG[p] = none`
for every pin, no pin attached, `fault = none`, and no instance constructed". The parameters are the spec's
defaults (log entry 1); the environment drives nothing, no command waits, and the draws are ideal. -/
def State.reset : State where
  params := .default
  insts := []
  pins := []
  attached := []
  pending := []
  reg := []
  im := false
  tau := 0
  ctx := .normal
  issuer := .host
  fault := none
  driven := []
  wires := []
  inputs := []
  hostQueue := []
  draws := .ideal
  result := none
  outputs := []

/-! ## The ways a step can stop -/

/-- Raised by every meaning and by `step` in a state whose `fault` is set, and by nothing else. -/
inductive Fault where
  /-- `fault` holds `code`: "A state with `fault != none` is stopped: no agent takes another step"
  (60_exceptions.md R283). Safe: the spec's own stuck state. -/
  | stopped (code : FaultCode)
  deriving DecidableEq, Repr

/-- No meaning for what the host presented. -/
inductive Refusal where
  /-- Raised by an arm of `exec` whose instruction has no meaning yet. Safe. -/
  | notModelled (mnemonic : String)
  /-- Raised when the host presents an opcode it may issue with an operand list that 30_encoding.md R101 does not give it:
  "no command can express it" (93_implementation_defined.md, treatment `refuse`). Safe. -/
  | badOperands
  deriving DecidableEq, Repr

/-- What a meaning and a step answer. -/
abbrev Out := Host.Outcome State Fault Refusal

/-! ## The canonical form of lists of cells -/

/-- The keys rise strictly. -/
abbrev Cells.rising {α : Type} (m : List (Nat × α)) : Prop := m.Pairwise fun a b => a.1 < b.1

/-- The keys rise strictly and no entry equals what an unlisted key reads as. -/
abbrev Cells.wf {α : Type} (unlisted : α) (m : List (Nat × α)) : Prop :=
  Cells.rising m ∧ ∀ e ∈ m, e.2 ≠ unlisted

/-- What a slot of `E` that nothing has written reads as (log entry 11). -/
def unwrittenEdge : Nat := 0

/-- What a slot of `Q` that nothing has written reads as (log entry 11). -/
def unwrittenByte : Byte := 0#8

/-- Both rings of an instance are in canonical form. -/
abbrev Inst.cellsWf (x : Inst) : Prop := Cells.wf unwrittenEdge x.edges ∧ Cells.wf unwrittenByte x.bytes

/-- Every list of cells of the state is in canonical form, the attached pins rise strictly. -/
abbrev Memory.wf (s : State) : Prop :=
  Cells.rising s.insts ∧ (∀ e ∈ s.insts, e.2.cellsWf) ∧ Cells.wf Pin.boot s.pins ∧
    Cells.wf Pending.clear s.pending ∧ Cells.rising s.reg ∧ Cells.rising s.driven ∧ s.attached.Pairwise (· < ·)

end Sys2Proof.Machine
end

