-- ==== Sys2Proof/Machine/Operands.lean ====
section
/-! DEFINITION. Operand forms and the arithmetic on them: W-bit wrapping arithmetic (00_scope.md R9), the EdgeEvent
word (30_encoding.md R90 to R94), the UART frame (R95, R96), pin validity and the bit period (44_port_facade.md R242,
R245), and the two function-valued parameters of 00_scope.md R6. -/

namespace Sys2Proof.Machine

/-! ## W-bit arithmetic (R9) -/

/-- The W-bit value of a natural: `v mod 2^W`. -/
def wrap (w : Width) (v : Nat) : Nat := v % w.modulus

/-- `a -_W b`, "the wrapping subtraction the source requires". -/
def subW (w : Width) (a b : Nat) : Nat := (a % w.modulus + (w.modulus - b % w.modulus)) % w.modulus

/-- `a +_W b`. -/
def addW (w : Width) (a b : Nat) : Nat := (a + b) % w.modulus

/-- `s_W(v)`, the two's complement reading of a W-bit value. -/
def signedW (w : Width) (v : Nat) : Int := if v < w.half then (v : Int) else (v : Int) - w.modulus

/-! ## The EdgeEvent word -/

/-- `pack(c, pinLevel) = (c & ~1) | (1 - pinLevel)` (30_encoding.md R91). -/
def packEdge (c : Nat) (level : Bool) : Nat := c - c % 2 + (if level then 0 else 1)

/-- `tsOf(w) = w & ~1` (30_encoding.md R92). -/
def tsOf (v : Nat) : Nat := v - v % 2

/-- `levelOf(w) = (1 - w[0]) ^ invert`, the logical level (30_encoding.md R92; 00_scope.md R14). -/
def levelOf (invert : Bool) (v : Nat) : Bool := xor (v % 2 == 0) invert

/-- The pin level of a logical level: `L ^ invert` (00_scope.md R14, 30_encoding.md R95). -/
def pinLevelOf (invert level : Bool) : Bool := xor level invert

/-- The timestamp of the operand `ev` (41_decoder.md R143; 30_encoding.md R94). -/
def eventTs : EdgeEvent → Nat
  | .packed w => tsOf w
  | .pair ts _ => ts

/-- The logical level of the operand `ev`. A synthesized pair carries its logical level as it is (41_decoder.md
R156). -/
def eventLevel (invert : Bool) : EdgeEvent → Bool
  | .packed w => levelOf invert w
  | .pair _ level => level

/-! ## The UART frame -/

/-- `frame(b)`, slots 0 to 9 (30_encoding.md R96): the start bit, data bits least significant first, the stop bit. -/
def frame (b : Byte) : List Bool :=
  [false, b.getLsbD 0, b.getLsbD 1, b.getLsbD 2, b.getLsbD 3, b.getLsbD 4, b.getLsbD 5, b.getLsbD 6, b.getLsbD 7,
    true]

/-- Positions `i`, `i + 1`, … of byte `j` with the levels given for them. -/
def numberSlots (j : Nat) : Nat → List Bool → List (Nat × Nat × Bool)
  | _, [] => []
  | i, l :: ls => (j, i, l) :: numberSlots j (i + 1) ls

/-- The concatenated slot sequence of a byte stream whose first byte has index `j`, "with no idle slots between
frames" (30_encoding.md R96), each slot with its sequencer position (10_state.md R40). -/
def frameSlots : Nat → List Byte → List (Nat × Nat × Bool)
  | _, [] => []
  | j, b :: bs => numberSlots j 0 (frame b) ++ frameSlots (j + 1) bs

/-! ## Checks and derived operands -/

/-- Is the pin in `VALID_PINS`? (44_port_facade.md R242) -/
def pinValid (p : Params) (pin : Nat) : Bool := p.validPins.contains pin

/-- `F_HZ div baud`, and 0 for a baud rate of 0 or less, which START refuses as well (44_port_facade.md R245). -/
def bitPeriodOf (p : Params) (baud : Int) : Nat := if baud ≤ 0 then 0 else p.fHz / baud.toNat

/-- `F_HZ div B` when `B >= 1`, else 0 (44_port_facade.md R249). -/
def baudOf (p : Params) (period : Nat) : Nat := if 1 ≤ period then p.fHz / period else 0

/-- `CYC_US` (00_scope.md R6). -/
def cyclesPerMicro (p : Params) : Nat := p.fHz / 1000000

/-- The value of the first entry with the given key. -/
def entryOf {κ α : Type} [DecidableEq κ] (k : κ) : List (κ × α) → Option α
  | [] => none
  | e :: es => if e.1 = k then some e.2 else entryOf k es

/-- The lower bound of every legal `STOP_SYNTH_DELTA(k, B)`: `(7-k)*B + floor(B/2)` (00_scope.md R6). -/
def synthBound (k : Int) (period : Nat) : Nat := (7 - k).toNat * period + period / 2

/-- `STOP_SYNTH_DELTA(k, B)` (00_scope.md R6): the bound and what the parameters add to it; with no entry,
`(10 - k) * B` (41_decoder.md R158). -/
def synthDelta (p : Params) (k : Int) (period : Nat) : Nat :=
  match entryOf (k, period) p.synthExtra with
  | some extra => synthBound k period + extra
  | none => (10 - k).toNat * period

/-- `AVAIL_YIELD_US(B)` (00_scope.md R6). -/
def availYieldUs (p : Params) (period : Nat) : Nat :=
  match entryOf period p.availYield with
  | some us => us
  | none => period / (2 * cyclesPerMicro p)

/-- The next draw of a list, or the ideal one when the list has run out (00_scope.md R12; log entry 7). -/
def takeDraw (ideal : Nat) : List Nat → Nat × List Nat
  | [] => (ideal, [])
  | n :: ns => (n, ns)

end Sys2Proof.Machine
end

