-- ==== Sys2Proof/Machine/Flags.lean ====
section
/-! DEFINITION. The unit's flags (10_state.md R51): the two sticky overflow latches with their only setters and
readers, and the status codes by which 60_exceptions.md R281 labels outcomes. The unit has no condition codes. -/

namespace Sys2Proof.Machine

/-- Sets the edge ring's latch: only CAPTURE does (10_state.md R33). -/
def latchEdgeOvf (x : Inst) : Inst := { x with edgeOvf := true }

/-- Sets the byte ring's latch: only REPLAY_EDGE does (10_state.md R34). -/
def latchByteOvf (x : Inst) : Inst := { x with byteOvf := true }

/-- What OVERFLOW returns: `edgeOvf | byteOvf` (10_state.md R51). -/
def overflowed (x : Inst) : Bool := x.edgeOvf || x.byteOvf

/-- Clears both latches: OVERFLOW and START do (10_state.md R33, R34). -/
def clearOvf (x : Inst) : Inst := { x with edgeOvf := false, byteOvf := false }

/-- The status codes of 60_exceptions.md R281. -/
inductive Status where
  | ok
  | cfgRxInvalid
  | cfgTxInvalid
  | edgeOverflow
  | byteOverflow
  | noData
  | txUnavailable
  deriving DecidableEq, Repr

/-- The numbers of 60_exceptions.md R281. -/
def Status.number : Status → Nat
  | .ok => 0
  | .cfgRxInvalid => 1
  | .cfgTxInvalid => 2
  | .edgeOverflow => 3
  | .byteOverflow => 4
  | .noData => 5
  | .txUnavailable => 6

/-- The configuration errors a constructed instance carries (60_exceptions.md R281, codes 1 and 2). -/
def constructStatus (x : Inst) : List Status :=
  match x.rxValid, x.txValid with
  | true, true => [.ok]
  | true, false => [.cfgTxInvalid]
  | false, true => [.cfgRxInvalid]
  | false, false => [.cfgRxInvalid, .cfgTxInvalid]

/-- The overflows the latches record (60_exceptions.md R281, codes 3 and 4). -/
def overflowStatus (x : Inst) : List Status :=
  (if x.edgeOvf then [.edgeOverflow] else []) ++ (if x.byteOvf then [.byteOverflow] else [])

/-- The label of a result of READ or PEEK on a port that can receive (60_exceptions.md R281, code 5). -/
def readStatus (z : Int) : Status := if z = -1 then .noData else .ok

/-- The label of a WRITE (60_exceptions.md R281, code 6). -/
def writeStatus (x : Inst) : Status := if x.txValid then .ok else .txUnavailable

end Sys2Proof.Machine
end

