-- ==== Sys2Proof/Machine/Ops.lean ====
section
/-! DEFINITION. The named operations over the state: lists of cells, instances, the two rings (20_memory.md), raising
a fault (60_exceptions.md R283), the pins and lines (R300 to R302), the edge interrupt (R289 to R295) with the capture
step itself (40_capture.md R122), the passing of time (00_scope.md R11), the HAL calls (R300), and the entry checks
(R297). Where an operation of the main-line agent touches what the capture agent shares with it, or calls the HAL,
a micro-step boundary precedes it (`tick`; log entry 8). -/

namespace Sys2Proof.Machine

/-! ## Cells: finite maps and sparse storage -/

/-- The value listed under a key. -/
def cellGet {α : Type} : List (Nat × α) → Nat → Option α
  | [], _ => none
  | e :: m, k => if e.1 = k then some e.2 else cellGet m k

/-- Lists a value under a key. -/
def cellSet {α : Type} : List (Nat × α) → Nat → α → List (Nat × α)
  | [], k, v => [(k, v)]
  | e :: m, k, v => if k < e.1 then (k, v) :: e :: m else if k = e.1 then (k, v) :: m else e :: cellSet m k v

/-- Lists nothing under a key. -/
def cellDel {α : Type} (m : List (Nat × α)) (k : Nat) : List (Nat × α) := m.filter fun e => e.1 ≠ k

/-- Changes the value listed under a key, where one is. -/
def cellMod {α : Type} (m : List (Nat × α)) (k : Nat) (f : α → α) : List (Nat × α) :=
  m.map fun e => if e.1 = k then (e.1, f e.2) else e

/-- Reads storage whose unlisted cells hold `unlisted`. -/
def cellRead {α : Type} (unlisted : α) (m : List (Nat × α)) (k : Nat) : α := (cellGet m k).getD unlisted

/-- Writes such storage, keeping the canonical form. -/
def cellWrite {α : Type} [DecidableEq α] (unlisted : α) (m : List (Nat × α)) (k : Nat) (v : α) : List (Nat × α) :=
  if v = unlisted then cellDel m k else cellSet m k v

/-- Adds a pin to a rising list of pins. -/
def pinInsert : List Nat → Nat → List Nat
  | [], p => [p]
  | q :: qs, p => if p < q then p :: q :: qs else if p = q then q :: qs else q :: pinInsert qs p

/-! ## Instances -/

/-- Has the identifier been constructed, in any facade state? (44_port_facade.md R243) -/
def State.constructed (s : State) (id : Nat) : Bool := (cellGet s.insts id).isSome

/-- The state of an instance. -/
def State.inst (s : State) (id : Nat) : Inst := (cellGet s.insts id).getD Inst.blank

/-- Creates an instance, or replaces its state whole. -/
def State.putInst (id : Nat) (x : Inst) (s : State) : State := { s with insts := cellSet s.insts id x }

/-- Changes the state of a constructed instance. -/
def State.modInst (id : Nat) (f : Inst → Inst) (s : State) : State := { s with insts := cellMod s.insts id f }

/-! ## Faults

The unit has no exception vector and no return from an exception: a fault is recorded in `fault` and "is never
cleared" (R283), so raising one is the whole of it. -/

/-- `raise Fault(code)` (60_exceptions.md R283): `fault <- code`; what called it ends there. -/
def State.raise (code : FaultCode) (s : State) : State := { s with fault := some code }

/-- A state with `fault != none` is stopped (R283). -/
def State.stopped (s : State) : Bool := s.fault.isSome

/-- Runs operations in program order; "`raise Fault(code)` … ends the running command at once, without its remaining
steps" (R283). -/
def runAll : List (State → State) → State → State
  | [], s => s
  | f :: fs, s => if s.stopped then s else runAll fs (f s)

/-- `if c: f`. -/
def whenever (c : Bool) (f : State → State) (s : State) : State := if c then f s else s

/-- `return r` (00_scope.md R10): the result is recorded and shown to the host. -/
def State.ret (id : Nat) (r : Result) (s : State) : State :=
  { s with result := some r, outputs := .returned s.tau id r :: s.outputs }

/-! ## The rings (20_memory.md R60 to R63) -/

/-- The index after `i` in a ring of `n` slots: "a compare, not a modulo" (92_eei_decisions.md D36). -/
def ringNext (n i : Nat) : Nat := if i + 1 = n then 0 else i + 1

/-- `count(in, out, N) = (in - out) mod N` (R61), for indices in `[0, N)`. -/
def ringCount (n i o : Nat) : Nat := if o ≤ i then i - o else i + n - o

/-- `MemRead(E, i)`. -/
def edgeAt (x : Inst) (i : Nat) : Nat := cellRead unwrittenEdge x.edges i

/-- `MemRead(Q, i)`. -/
def byteAt (x : Inst) (i : Nat) : Byte := cellRead unwrittenByte x.bytes i

/-- `Enqueue(E, v)` with latch `edgeOvf` (R62). `none` is `Fault(INTERNAL_INDEX)` (R60). -/
def enqueueEdge (v : Nat) (x : Inst) : Option Inst :=
  if ringNext x.edgeCap x.inE = x.outE then some (latchEdgeOvf x)
  else if x.inE < x.edgeCap then
    some { x with edges := cellWrite unwrittenEdge x.edges x.inE v, inE := ringNext x.edgeCap x.inE }
  else none

/-- `Enqueue(Q, v)` with latch `byteOvf` (R62). `none` is `Fault(INTERNAL_INDEX)` (R60). -/
def enqueueByte (v : Byte) (x : Inst) : Option Inst :=
  if ringNext x.byteCap x.inB = x.outB then some (latchByteOvf x)
  else if x.inB < x.byteCap then
    some { x with bytes := cellWrite unwrittenByte x.bytes x.inB v, inB := ringNext x.byteCap x.inB }
  else none

/-- The move of `outE` in `Dequeue(E)` (R63). -/
def advanceOutE (x : Inst) : Inst := { x with outE := ringNext x.edgeCap x.outE }

/-- The move of `outB` in `Dequeue(Q)` (R63). -/
def advanceOutB (x : Inst) : Inst := { x with outB := ringNext x.byteCap x.outB }

/-- Replaces an instance by what an operation on it gives, or raises `Fault(INTERNAL_INDEX)` where it formed an
index outside its ring (R60; unreachable under the invariant of Safety.lean). -/
def State.applyInst (id : Nat) (f : Inst → Option Inst) (s : State) : State :=
  match f (s.inst id) with
  | some y => s.modInst id fun _ => y
  | none => s.raise .internalIndex

/-! ## Pins and lines (60_exceptions.md R300 to R302) -/

/-- `mode[p]` and `latch[p]`. -/
def State.pin (s : State) (p : Nat) : Pin := cellRead Pin.boot s.pins p

/-- Writes `mode[p]` and `latch[p]`. -/
def State.setPin (p : Nat) (v : Pin) (s : State) : State := { s with pins := cellWrite Pin.boot s.pins p v }

/-- The first output pin wired to `p` (R302). -/
def wiredSource (s : State) (p : Nat) : Option Nat :=
  (s.wires.find? fun w => w.2 = p ∧ (s.pin w.1).mode = .output).map Prod.fst

/-- The line level of a pin that does not drive its line: the output wired to it, else the environment's level, else 1
for an `input_pullup` pin (R301, R302), else a level nothing is known of. -/
def inputLevel (s : State) (p : Nat) : Bool :=
  match wiredSource s p with
  | some q => (s.pin q).latch
  | none =>
    match cellGet s.driven p with
    | some level => level
    | none => if (s.pin p).mode = .inputPullup then true else Config.floatingLevel p

/-- The line level of a pin: "`latch[p]` when `mode[p] = output`" (R301). -/
def State.lineLevel (s : State) (p : Nat) : Bool :=
  if (s.pin p).mode = .output then (s.pin p).latch else inputLevel s p

/-! ## The edge interrupt (60_exceptions.md R289 to R295) -/

/-- `pending[p]`. -/
def State.pend (s : State) (p : Nat) : Pending := cellRead Pending.clear s.pending p

def State.setPend (p : Nat) (v : Pending) (s : State) : State :=
  { s with pending := cellWrite Pending.clear s.pending p v }

/-- The platform detects a transition on an attached pin (R290): the count rises, to 1 at most with
`COALESCE = true` (R292). -/
def notePending (p : Nat) (s : State) : State :=
  s.setPend p { s.pend p with count := if s.params.coalesce then 1 else (s.pend p).count + 1 }

/-- Transitions are changes of the line level (R302): every attached pin whose level differs from what it was in
`before` gets one. -/
def noteTransitions (before s : State) : State :=
  s.attached.foldl (fun t p => if before.lineLevel p = s.lineLevel p then t else notePending p t) s

/-- The instance whose capture pin `p` triggers, when the conditions of 40_capture.md R120 hold: `pending[p] >= 1`,
`IM = 0`, `REG[p] = s`, `s.rxPin = p`, `s.rxEnabled = 1`. -/
def triggered (s : State) (p : Nat) : Option Nat :=
  match cellGet s.reg p with
  | some id =>
    if s.im = false ∧ 1 ≤ (s.pend p).count ∧ s.constructed id = true ∧ (s.inst id).rxPin = p ∧
        (s.inst id).rxEnabled = true then some id else none
  | none => none

/-- The latency of a capture that has become ready is drawn: it runs at `t_ready + lat` (R291). -/
def armPin (p : Nat) (s : State) : State :=
  if (triggered s p).isSome ∧ (s.pend p).due = none then
    let draw := takeDraw 0 s.draws.lat
    ({ s with draws := { s.draws with lat := draw.2 } } : State).setPend p
      { s.pend p with due := some (s.tau + draw.1) }
  else s

/-- Arms every pending pin, lower pins first. -/
def armAll (s : State) : State := (s.pending.map Prod.fst).foldl (fun t p => armPin p t) s

/-- The pseudocode of CAPTURE (40_capture.md R122), then the latency of the next capture on the pin if transitions
still wait. -/
def captureBody (id : Nat) (s : State) : State :=
  let p := (s.inst id).rxPin
  let s1 := s.setPend p ⟨if s.params.coalesce then 0 else (s.pend p).count - 1, none⟩
  let c := wrap s.params.width s1.tau
  let level := s1.lineLevel p
  armAll (s1.applyInst id (enqueueEdge (packEdge c level)))

/-- CAPTURE of an instance where its trigger holds; where it does not, "no CAPTURE of `s` runs" (40_capture.md R120,
R128). -/
def captureStep (id : Nat) (s : State) : State :=
  if triggered s (s.inst id).rxPin = some id then captureBody id s else s

/-- The captures that may run before time `bound`, as (time, pin, instance). A capture runs at its `due` time, or now
where that has passed: it was overdue when `IM` returned to 0 (60_exceptions.md R291). -/
def dueCaptures (bound : Nat) (s : State) : List (Nat × Nat × Nat) :=
  s.pending.filterMap fun e =>
    match e.2.due with
    | some d =>
      if max s.tau d < bound then (triggered s e.1).map fun id => (max s.tau d, e.1, id) else none
    | none => none

/-- The earliest time of a list of captures. -/
def earliestDue : List (Nat × Nat × Nat) → Nat
  | [] => 0
  | [c] => c.1
  | c :: cs => min c.1 (earliestDue cs)

/-- The captures of a list that run first. -/
def firstDue (cs : List (Nat × Nat × Nat)) : List (Nat × Nat × Nat) := cs.filter fun c => c.1 = earliestDue cs

/-- The next capture to run before `bound`: the earliest one, and of several at one time the one the draw names
(R291: "the captures run one at a time in an order that is a draw"). -/
def nextCapture (bound : Nat) (s : State) : Option ((Nat × Nat × Nat) × State) :=
  match firstDue (dueCaptures bound s) with
  | [] => none
  | [c] => some (c, s)
  | c :: cs =>
    let draw := takeDraw 0 s.draws.order
    some ((c :: cs).getD (draw.1 % (cs.length + 1)) c, { s with draws := { s.draws with order := draw.2 } })

/-- How many captures wait, over all pins. -/
def pendingTotal (s : State) : Nat := (s.pending.map fun e => e.2.count).sum

/-- Time goes on to `t`, and never back (00_scope.md R11). -/
def State.atTime (t : Nat) (s : State) : State := { s with tau := max s.tau t }

/-- Runs up to `fuel` of the captures that run before `bound`, each at its time. -/
def runCaptures : Nat → Nat → State → State
  | 0, _, s => s
  | fuel + 1, bound, s =>
    if s.stopped then s else
    match nextCapture bound s with
    | none => s
    | some (c, s1) => runCaptures fuel bound (captureStep c.2.2 (s1.atTime c.1))

/-- The environment changes the level it drives on a pin (R303). -/
def applyInput (c : InputChange) (s : State) : State :=
  let s1 : State := match c.level with
    | some level => { s with driven := cellSet s.driven c.pin level }
    | none => { s with driven := cellDel s.driven c.pin }
  armAll (noteTransitions s s1)

/-! ## The passing of time (00_scope.md R11) -/

/-- Time passes to `t`: the input changes before `bound` happen at their times, and the captures that may run before
`bound` run at theirs, after the changes of the same time (log entry 17). A change that comes late, at a time not after
the present one, comes before every capture: none runs in the past. -/
def passInputs : List InputChange → Nat → Nat → State → State
  | [], bound, t, s => if s.stopped then s else (runCaptures (pendingTotal s) bound s).atTime t
  | c :: cs, bound, t, s =>
    if s.stopped then s
    else if c.time < bound then
      let s1 := runCaptures (pendingTotal s) c.time s
      if s1.stopped then s1
      else passInputs cs bound t (applyInput c (({ s1 with inputs := cs } : State).atTime c.time))
    else (runCaptures (pendingTotal s) bound s).atTime t

/-- Time passes to `t`, and to now at least. -/
def advanceTo (t : Nat) (s : State) : State := passInputs s.inputs (max s.tau t + 1) (max s.tau t) s

/-- Captures that may run at the present time do so before the next micro-step (60_exceptions.md R291, R293), after the
input changes of this time; where none may, those changes can still wait. -/
def settle (s : State) : State := if (dueCaptures (s.tau + 1) s).isEmpty then s else advanceTo s.tau s

/-- Time passes to `t`, but the input changes of the time `t` itself are still to come, unless a capture is due then:
the level a capture reads at `t` is the one driven at `t` (R301, R303). -/
def advanceToBefore (t : Nat) (s : State) : State := settle (passInputs s.inputs (max s.tau t) (max s.tau t) s)

/-- The host's next command comes at `t`, or now: whether the input changes of that very time come before it is a
draw (log entry 8). -/
def arriveAt (t : Nat) (s : State) : State :=
  let h := takeDraw 0 s.draws.hold
  let s1 : State := { s with draws := { s.draws with hold := h.2 } }
  if h.1 = 0 then advanceTo t s1 else advanceToBefore t s1

/-- The boundary between two micro-steps of the main-line agent: the draw `d` passes (00_scope.md R12), and the
captures whose latency has elapsed run, which have "priority over every main-line micro-step" (R293). Whether an
input change at the very time of the next micro-step comes before or after it is a draw too (20_memory.md R73: any
interleaving; log entry 8). -/
def tick (s : State) : State :=
  let d := takeDraw 0 s.draws.overhead
  let h := takeDraw 0 s.draws.hold
  let s1 : State := { s with draws := { s.draws with overhead := d.2, hold := h.2 } }
  if h.1 = 0 then advanceTo (s.tau + d.1) s1 else advanceToBefore (s.tau + d.1) s1

/-! ## HAL calls (60_exceptions.md R300), each one micro-step -/

/-- `readCycleCounter()` at the time of the state: `tau mod 2^W` (R298). -/
def State.counter (s : State) : Nat := wrap s.params.width s.tau

/-- The state after a HAL call that has changed `before` into `s`: transitions are noted and captures delivered. -/
def afterHal (before s : State) : State := settle (armAll (noteTransitions before s))

/-- `writePinLevel(p, v)`: `latch[p] <- v`. -/
def writePinLevel (p : Nat) (v : Bool) (s : State) : State :=
  let s1 := tick s
  if s1.stopped then s1
  else afterHal s1
    { s1.setPin p { s1.pin p with latch := v } with outputs := .pinWrite s1.tau p v :: s1.outputs }

/-- `setPinMode(p, m)`: `mode[p] <- m`. -/
def setPinMode (p : Nat) (m : PinMode) (s : State) : State :=
  let s1 := tick s
  if s1.stopped then s1
  else afterHal s1
    { s1.setPin p { s1.pin p with mode := m } with outputs := .pinMode s1.tau p m :: s1.outputs }

/-- `attachEdgeInterrupt(p)`: later transitions set `pending[p]` (R290). -/
def attachEdgeInterrupt (p : Nat) (s : State) : State :=
  let s1 := tick s
  if s1.stopped then s1 else { s1 with attached := pinInsert s1.attached p }

/-- `detachInterrupt(p)`: `p` not attached, `pending[p] <- 0` (R290). -/
def detachInterrupt (p : Nat) (s : State) : State :=
  let s1 := tick s
  if s1.stopped then s1
  else { s1.setPend p Pending.clear with attached := s1.attached.filter fun q => q ≠ p }

/-- `maskInterrupts()`: `IM <- 1`. -/
def maskInterrupts (s : State) : State :=
  let s1 := tick s
  if s1.stopped then s1 else { s1 with im := true }

/-- `unmaskInterrupts()`: `IM <- 0`; "pending captures become deliverable". -/
def unmaskInterrupts (s : State) : State :=
  let s1 := tick s
  if s1.stopped then s1 else settle (armAll { s1 with im := false })

/-- What host code does while the main line is in its hands: inside a yield until the time given, inside a receive
callback with none. -/
abbrev HostCode := Option Nat → State → State

/-- `cooperativeYield(us)` (R304): `y` cycles pass, ideally `us * CYC_US`; host code may run in them, and captures
when `IM = 0`. -/
def cooperativeYield (host : HostCode) (us : Nat) (s : State) : State :=
  let draw := takeDraw (us * cyclesPerMicro s.params) s.draws.yieldFor
  let tEnd := s.tau + draw.1
  runAll [host (some tEnd), advanceTo tEnd] { s with draws := { s.draws with yieldFor := draw.2 } }

/-! ## Issuing an operation (60_exceptions.md R297) -/

/-- The entry checks of a host command other than CONSTRUCT, in their order (R285). The first check of R297 is
`internalOperation`'s. -/
def entryFault (id : Nat) (s : State) : Option FaultCode :=
  if s.ctx = .interrupt then some .wrongContext
  else if s.constructed id = false then some .noInstance
  else if (s.inst id).fstate = .tornDown then some .tornDown
  else if (s.inst id).inYield = true then some .reentrant
  else none

/-- A host command other than CONSTRUCT: nothing runs in a stopped state; the entry checks; then its own steps. -/
def hostOperation (id : Nat) (body : State → State) (s : State) : Out :=
  match s.fault with
  | some code => .fault (.stopped code)
  | none =>
    match entryFault id s with
    | some code => .next (s.raise code)
    | none => .next (body s)

/-- CONSTRUCT's entry: "only from `ctx = normal` with no fault recorded" (44_port_facade.md R243). -/
def constructOperation (body : State → State) (s : State) : Out :=
  match s.fault with
  | some code => .fault (.stopped code)
  | none => if s.ctx = .interrupt then .next (s.raise .wrongContext) else .next (body s)

/-- An operation 0x40 to 0x44: issued by the host it raises `Fault(UNKNOWN_OPCODE)` (30_encoding.md R103); issued by
the unit it runs its pseudocode. On an identifier never constructed, for which the unit issues nothing, it raises
`Fault(NO_INSTANCE)` (log entry 15). -/
def internalOperation (id : Nat) (body : State → State) (s : State) : Out :=
  match s.fault with
  | some code => .fault (.stopped code)
  | none =>
    if s.issuer = .host then .next (s.raise .unknownOpcode)
    else if s.constructed id = false then .next (s.raise .noInstance)
    else .next (body s)

end Sys2Proof.Machine
end

