-- ==== Sys2Proof/Machine/Capture.lean ====
section
/-! DEFINITION. CAPTURE (40_capture.md). The step itself is `captureStep` of Ops.lean, because the main-line agent's
micro-step boundaries run it too; here it is the meaning of the operation 0x40, which the interrupt layer issues. -/

namespace Sys2Proof.Machine

/-- CAPTURE (40_capture.md R120 to R128). -/
def execCapture (id : Nat) (s : State) : Out := internalOperation id (captureStep id) s

end Sys2Proof.Machine
end

