-- ==== Sys2Proof/Machine/Facade.lean ====
section
/-! DEFINITION. The port facade (44_port_facade.md): CONSTRUCT, START, STOP, DESTRUCT, ENABLE_RX, ENABLE_TX,
SET_TX_ENABLE_PIN, BAUDRATE. -/

namespace Sys2Proof.Machine

/-! ## CONSTRUCT -/

/-- The instance CONSTRUCT creates (R241), its directions enabled by R242. -/
def freshInst (p : Params) (rxPin txPin : Nat) (invert : Bool) (bufCap edgeCap : Nat) : Inst :=
  { Inst.blank with
    rxPin := rxPin
    txPin := txPin
    invert := invert
    oneWire := decide (rxPin = txPin)
    byteCap := bufCap
    edgeCap := edgeCap
    rxValid := pinValid p rxPin && decide (1 ≤ bufCap) && decide (1 ≤ edgeCap)
    txValid := pinValid p txPin }

/-- CONSTRUCT's own check and its steps (R241, R243); the time they take passes before the instance is there
(70_reset_and_hazards.md R325; log entry 8). -/
def construct (id rxPin txPin : Nat) (invert : Bool) (bufCap edgeCap : Nat) (s : State) : State :=
  if s.constructed id then s.raise .instanceExists
  else
    runAll
      [tick, fun t => t.putInst id (freshInst t.params rxPin txPin invert bufCap edgeCap),
        fun t => t.ret id .nothing] s

/-- CONSTRUCT (R241 to R243). -/
def execConstruct (id rxPin txPin : Nat) (invert : Bool) (bufCap edgeCap : Nat) (s : State) : Out :=
  constructOperation (construct id rxPin txPin invert bufCap edgeCap) s

/-! ## Attaching and detaching the receiver (R252) -/

/-- `s.curBit <- 8; s.curByte <- 0`. -/
def decoderIdle (x : Inst) : Inst := { x with curBit := 8, curByte := 0#8 }

/-- `REG[p] <- s`. -/
def registerPin (p id : Nat) (s : State) : State := { s with reg := cellSet s.reg p id }

/-- `REG[p] <- none`. -/
def unregisterPin (p : Nat) (s : State) : State := { s with reg := cellDel s.reg p }

/-- The pin's previous owner is replaced (R253). Until its `rxEnabled` is cleared it still captures, so a micro-step
boundary precedes that write. -/
def evictOwner (p id : Nat) (s : State) : State :=
  match cellGet s.reg p with
  | some other =>
    if other = id then s
    else runAll [tick, fun t => t.modInst other fun y => { y with rxEnabled := false }, detachInterrupt p] s
  | none => s

/-- ENABLE_RX(true) on an instance that can receive and is configured. -/
def attachReceiver (id : Nat) (s : State) : State :=
  let x := s.inst id
  if x.rxEnabled = true ∧ cellGet s.reg x.rxPin = some id then s
  else
    runAll
      [fun t => t.modInst id decoderIdle,
        setPinMode x.rxPin .inputPullup,
        evictOwner x.rxPin id,
        registerPin x.rxPin id,
        attachEdgeInterrupt x.rxPin,
        fun t => t.modInst id fun y => { y with rxEnabled := true }] s

/-- ENABLE_RX(false) on an instance that can receive and is configured. -/
def detachReceiver (id : Nat) (s : State) : State :=
  let x := s.inst id
  runAll
    [whenever (decide (x.rxEnabled = true ∧ cellGet s.reg x.rxPin = some id))
        (runAll [detachInterrupt x.rxPin, unregisterPin x.rxPin]),
      fun t => t.modInst id fun y => { y with rxEnabled := false }] s

/-- The steps of ENABLE_RX (R252), which START, STOP, ENABLE_TX and DESTRUCT run too. -/
def enableRx (id : Nat) (on : Bool) (s : State) : State :=
  let x := s.inst id
  if x.rxValid = false ∨ x.fstate ≠ .configured then s
  else if on then attachReceiver id s else detachReceiver id s

/-- ENABLE_RX (R252, R253). -/
def execEnableRx (id : Nat) (on : Bool) (s : State) : Out :=
  hostOperation id (runAll [enableRx id on, fun t => t.ret id .nothing]) s

/-! ## START, STOP, DESTRUCT, BAUDRATE -/

/-- What START writes to the instance before it touches a pin: the bit period, both rings empty, both latches clear,
the decoder idle (R244 to R246). -/
def restartInst (period : Nat) (x : Inst) : Inst :=
  clearOvf (decoderIdle { x with bitPeriod := period, inE := 0, outE := 0, inB := 0, outB := 0 })

/-- The steps of START (R244); a two-pin port's transmit pin is driven idle before it becomes an output (R247). The
boundary stands for the time of its accesses to the indices and latches, where no HAL call follows them. -/
def start (id : Nat) (baud : Int) (s : State) : State :=
  let period := bitPeriodOf s.params baud
  let x := s.inst id
  if period = 0 then s.raise .badBaud
  else
    runAll
      [whenever (decide (x.fstate = .configured)) (enableRx id false),
        tick,
        fun t => t.modInst id (restartInst period),
        whenever (x.txValid && !x.oneWire)
          (runAll [writePinLevel x.txPin (pinLevelOf x.invert true), setPinMode x.txPin .output]),
        fun t => t.modInst id fun y => { y with fstate := .configured },
        whenever x.rxValid (enableRx id true),
        fun t => t.ret id .nothing] s

/-- START (R244 to R248). -/
def execStart (id : Nat) (baud : Int) (s : State) : Out := hostOperation id (start id baud) s

/-- STOP: "`ENABLE_RX(s, 0)` (rule R252) and nothing else" (R250). -/
def execStop (id : Nat) (s : State) : Out :=
  hostOperation id (runAll [enableRx id false, fun t => t.ret id .nothing]) s

/-- DESTRUCT (R251). -/
def execDestruct (id : Nat) (s : State) : Out :=
  hostOperation id
    (runAll
      [enableRx id false, fun t => t.modInst id fun y => { y with fstate := .tornDown },
        fun t => t.ret id .nothing]) s

/-- BAUDRATE (R249). -/
def execBaudrate (id : Nat) (s : State) : Out :=
  hostOperation id (fun t => t.ret id (.natural (baudOf t.params (t.inst id).bitPeriod))) s

/-! ## ENABLE_TX, SET_TX_ENABLE_PIN -/

/-- The steps of ENABLE_TX (R254). -/
def enableTx (id : Nat) (on : Bool) (s : State) : State :=
  let x := s.inst id
  let idle := pinLevelOf x.invert true
  if x.oneWire = false ∨ x.txValid = false ∨ x.fstate ≠ .configured then s
  else if on then runAll [enableRx id false, writePinLevel x.txPin idle, setPinMode x.txPin .output] s
  else runAll [writePinLevel x.txPin idle, setPinMode x.txPin .inputPullup, enableRx id true] s

/-- ENABLE_TX (R254 to R256). -/
def execEnableTx (id : Nat) (on : Bool) (s : State) : Out :=
  hostOperation id (runAll [enableTx id on, fun t => t.ret id .nothing]) s

/-- The steps of SET_TX_ENABLE_PIN (R257). -/
def setTxEnablePin (id pin : Nat) (s : State) : State :=
  if pinValid s.params pin then
    runAll
      [fun t => t.modInst id fun y => { y with txEnablePin := pin, txEnableValid := true },
        writePinLevel pin false, setPinMode pin .output] s
  else s.modInst id fun y => { y with txEnableValid := false }

/-- SET_TX_ENABLE_PIN (R257). -/
def execSetTxEnablePin (id pin : Nat) (s : State) : Out :=
  hostOperation id (runAll [setTxEnablePin id pin, fun t => t.ret id .nothing]) s

end Sys2Proof.Machine
end

