-- ==== Sys2Proof/Machine/Decoder.lean ====
section
/-! DEFINITION. The bit decoder (41_decoder.md): REPLAY_EDGE as a function of the instance alone, RXBITS and SYNTH_STOP
over the state. -/

namespace Sys2Proof.Machine

/-! ## REPLAY_EDGE -/

/-- The level that hidden bits repeat, as the byte of ones to be put above the accumulator: `hb == 1 ?
(0xFF << (8 - h)) & 0xFF : 0` (41_decoder.md R143, R149). -/
def hiddenFill (hb : Bool) (h : Nat) : Byte := if hb then 0xFF#8 <<< (8 - h) else 0#8

/-- The hidden bits of the data state (R148): how many there are, 0 when less than a bit period has passed. -/
def hiddenCount (x : Inst) (cycles : Int) : Nat :=
  if (x.bitPeriod : Int) ≤ cycles then min (cycles / (x.bitPeriod : Int)) (7 - x.curBit) |>.toNat else 0

/-- Shifts `h` hidden bits in (R148). -/
def shiftHidden (h : Nat) (x : Inst) : Inst :=
  { x with
    curByte := (x.curByte >>> h) ||| hiddenFill x.curByte.msb h
    curBit := x.curBit + h }

/-- Takes the explicit bit from the edge's level (R150). -/
def shiftExplicit (level : Bool) (x : Inst) : Inst :=
  { x with
    curByte := (x.curByte >>> 1) ||| (if level then 0x80#8 else 0#8)
    curBit := x.curBit + 1 }

/-- A data-state step: hidden bits, then the explicit bit if `curBit < 7`; the cycles left with it. -/
def dataStep (level : Bool) (cycles : Int) (x : Inst) : Inst × Int :=
  let h := hiddenCount x cycles
  let x1 := shiftHidden h x
  let c1 := cycles - h * x.bitPeriod
  if x1.curBit < 7 then (shiftExplicit level x1, c1 - x.bitPeriod) else (x1, c1)

/-- A finalize step (R151): the byte is enqueued or lost to the full ring, and the accumulator reset either way. -/
def finalizeStep (x : Inst) : Option Inst :=
  (enqueueByte x.curByte x).map fun y => { y with curByte := 0#8, curBit := 8 }

/-- An idle step (R152): an edge at the start level begins a byte. -/
def idleStep (level : Bool) (x : Inst) : Inst := if level then x else { x with curBit := -1 }

/-- The loop of R143. With a bit period of at least 1 it makes at most three iterations (R154); the count given to it
only makes the recursion structural (log entry 16). -/
def replayLoop : Nat → Bool → Int → Inst → Option Inst
  | 0, _, _, x => some x
  | fuel + 1, level, cycles, x =>
    if -1 ≤ x.curBit ∧ x.curBit ≤ 6 then
      let r := dataStep level cycles x
      if r.2 < 0 then some r.1 else replayLoop fuel level r.2 r.1
    else if x.curBit = 7 then
      match finalizeStep x with
      | none => none
      | some y => if cycles - x.bitPeriod < 0 then some y else replayLoop fuel level (cycles - x.bitPeriod) y
    else some (idleStep level x)

/-- REPLAY_EDGE(ts, L) on the instance (R143): an edge too close to the last accepted one is discarded inside a byte
(R145), any other is accepted (R146) and replayed. `none` is `Fault(INTERNAL_INDEX)`. -/
def replayEdge (w : Width) (ts : Nat) (level : Bool) (x : Inst) : Option Inst :=
  let delta := subW w ts x.lastTs
  let cycles : Int := (delta : Int) - (x.bitPeriod / 2 : Nat)
  if cycles < 0 ∧ x.curBit ≠ 8 then some x
  else replayLoop 10 level cycles { x with lastTs := ts }

/-- REPLAY_EDGE over the state. -/
def replayOn (id ts : Nat) (level : Bool) (s : State) : State :=
  s.applyInst id (replayEdge s.params.width ts level)

/-- The operand `ev` replayed (R143). -/
def replayEvent (id : Nat) (ev : EdgeEvent) (s : State) : State :=
  replayOn id (wrap s.params.width (eventTs ev)) (eventLevel (s.inst id).invert ev) s

/-! ## SYNTH_STOP -/

/-- SYNTH_STOP from its emptiness test on, at the counter value `now` (R155). -/
def synthAt (id now : Nat) (s : State) : State :=
  let s1 := tick s
  let x := s1.inst id
  let delta := synthDelta s1.params x.curBit x.bitPeriod
  if s1.stopped then s1
  else if x.inE ≠ x.outE then s1
  else if delta < subW s1.params.width now x.lastTs then
    replayOn id (addW s1.params.width x.lastTs delta) true s1
  else s1

/-- SYNTH_STOP (R155): the counter is read before the emptiness test, with a micro-step boundary between them (R157). -/
def synthStop (id : Nat) (s : State) : State :=
  if (s.inst id).curBit = 8 then s
  else
    let s1 := tick s
    if s1.stopped then s1 else synthAt id s1.counter s1

/-- SYNTH_STOP with the operand `now` of 30_encoding.md R100: `now` is the counter value that R155 reads (log entry 5). -/
def synthStopAt (id now : Nat) (s : State) : State :=
  if (s.inst id).curBit = 8 then s else synthAt id (wrap s.params.width now) s

/-! ## RXBITS -/

/-- Dequeues one event and replays it (R141). -/
def replayNext (id : Nat) (s : State) : State :=
  let s1 := tick s
  let x := s1.inst id
  if s1.stopped then s1
  else if x.outE < x.edgeCap then
    let v := edgeAt x x.outE
    runAll [tick, fun s2 => s2.modInst id advanceOutE, replayOn id (tsOf v) (levelOf x.invert v)] s1
  else s1.raise .internalIndex

/-- Replays `n` queued events. -/
def replayQueued (id : Nat) : Nat → State → State
  | 0, s => s
  | n + 1, s => if s.stopped then s else replayQueued id n (replayNext id s)

/-- RXBITS (R141): a snapshot of the queue's length, that many replays, then SYNTH_STOP. It runs only on an instance
with `rxValid = 1` (R140). -/
def rxbits (id : Nat) (s : State) : State :=
  if (s.inst id).rxValid then
    let s1 := tick s
    let x := s1.inst id
    runAll [replayQueued id (ringCount x.edgeCap x.inE x.outE), synthStop id] s1
  else s

/-! ## The meanings of the operations 0x41 to 0x43 -/

/-- RXBITS (R141). -/
def execRxbits (id : Nat) (s : State) : Out := internalOperation id (rxbits id) s

/-- REPLAY_EDGE (R143). -/
def execReplayEdge (id : Nat) (ev : EdgeEvent) (s : State) : Out := internalOperation id (replayEvent id ev) s

/-- SYNTH_STOP (R155). -/
def execSynthStop (id : Nat) (s : State) : Out := internalOperation id (synthStop id) s

/-- SYNTH_STOP with the operand `now` (30_encoding.md R100; log entry 5). -/
def execSynthStopAt (id now : Nat) (s : State) : Out := internalOperation id (synthStopAt id now) s

end Sys2Proof.Machine
end

