-- ==== Sys2Proof/Machine/ReadApi.lean ====
section
/-! DEFINITION. The byte-level read API (42_read_api.md): READ, PEEK, FLUSH, OVERFLOW, ON_RECEIVE, and the steps of
AVAILABLE and PUMP, which hand the main line to host code and get their meanings in Nesting.lean. -/

namespace Sys2Proof.Machine

/-- The number of bytes in the byte ring (20_memory.md R61). -/
def queuedBytes (x : Inst) : Nat := ringCount x.byteCap x.inB x.outB

/-- The no-data sentinel (30_encoding.md R108). -/
def noData : Int := -1

/-! ## READ and PEEK -/

/-- READ after its decoder pass (R181). -/
def takeByte (id : Nat) (s : State) : State :=
  let x := s.inst id
  if x.inB = x.outB then s.ret id (.integer noData)
  else if x.outB < x.byteCap then
    (s.modInst id advanceOutB).ret id (.integer (byteAt x x.outB).toNat)
  else s.raise .internalIndex

/-- PEEK after its decoder pass (R182). -/
def showByte (id : Nat) (s : State) : State :=
  let x := s.inst id
  if x.inB = x.outB then s.ret id (.integer noData)
  else if x.outB < x.byteCap then s.ret id (.integer (byteAt x x.outB).toNat)
  else s.raise .internalIndex

/-- The steps of READ. The accesses after the pass take time, too (70_reset_and_hazards.md R325): a boundary stands before
them (log entry 8). -/
def readByte (id : Nat) (s : State) : State :=
  if (s.inst id).rxValid then runAll [rxbits id, tick, takeByte id] s else s.ret id (.integer noData)

/-- The steps of PEEK, with the same boundary. -/
def peekByte (id : Nat) (s : State) : State :=
  if (s.inst id).rxValid then runAll [rxbits id, tick, showByte id] s else s.ret id (.integer noData)

/-- READ (R181). -/
def execRead (id : Nat) (s : State) : Out := hostOperation id (readByte id) s

/-- PEEK (R182). -/
def execPeek (id : Nat) (s : State) : Out := hostOperation id (peekByte id) s

/-! ## FLUSH, OVERFLOW, ON_RECEIVE -/

/-- The edge ring emptied from the consumer side (R183). -/
def flushEdges (x : Inst) : Inst := { x with outE := x.inE }

/-- The byte ring emptied from the consumer side, and the decoder idle (R183). -/
def flushBytes (x : Inst) : Inst := { x with outB := x.inB, curBit := 8, curByte := 0#8 }

/-- The steps of FLUSH. The first boundary stands between its read of `inE` and its write of `outE`: "an edge captured
between FLUSH's read of `inE` and its write of `outE` is discarded with the rest" (R183; log entry 10). An edge captured
at the second is "captured after" and kept (70_reset_and_hazards.md R345). -/
def flush (id : Nat) (s : State) : State :=
  if (s.inst id).rxValid then
    runAll
      [tick, fun t => t.modInst id flushEdges, tick, fun t => t.modInst id flushBytes, fun t => t.ret id .nothing] s
  else s.ret id .nothing

/-- FLUSH (R183). -/
def execFlush (id : Nat) (s : State) : Out := hostOperation id (flush id) s

/-- The one step of OVERFLOW, "indivisible with respect to CAPTURE" (R184). -/
def readOverflow (id : Nat) (s : State) : State :=
  (s.modInst id clearOvf).ret id (.boolean (overflowed (s.inst id)))

/-- OVERFLOW (R184); the time its step takes passes before it (70_reset_and_hazards.md R325). -/
def execOverflow (id : Nat) (s : State) : Out := hostOperation id (runAll [tick, readOverflow id]) s

/-- ON_RECEIVE (R185). -/
def execOnReceive (id : Nat) (cb : Option Nat) (s : State) : Out :=
  hostOperation id (fun t => (t.modInst id fun y => { y with rxCallback := cb }).ret id .nothing) s

/-! ## AVAILABLE and PUMP -/

/-- `return count(s.inB, s.outB, s.NB)`. -/
def retCount (id : Nat) (s : State) : State := s.ret id (.natural (queuedBytes (s.inst id)))

/-- The yield of AVAILABLE between its two passes (R180). -/
def availableRetry (host : HostCode) (id : Nat) (s : State) : State :=
  runAll
    [fun t => t.modInst id fun y => { y with inYield := true },
      fun t => cooperativeYield host (availYieldUs t.params (t.inst id).bitPeriod) t,
      fun t => t.modInst id fun y => { y with inYield := false },
      rxbits id] s

/-- The steps of AVAILABLE (R180), with a boundary before the accesses of the count it returns. -/
def available (host : HostCode) (id : Nat) (s : State) : State :=
  if (s.inst id).rxValid then
    runAll
      [rxbits id,
        fun t => whenever (decide (queuedBytes (t.inst id) = 0)) (availableRetry host id) t,
        tick,
        retCount id] s
  else s.ret id (.natural 0)

/-- Does the pass that has raised the count from `a0` to `a1` call the receive callback? (R186) -/
def pumpFires (mode : OnReceiveMode) (a0 a1 : Nat) : Bool :=
  match mode with
  | .newly => decide (a0 < a1)
  | .level => decide (0 < a1)

/-- The receive callback returns: what is left of the time it takes, a draw, passes (60_exceptions.md R308). -/
def callbackReturns (s : State) : State :=
  let draw := takeDraw 0 s.draws.callback
  advanceTo (s.tau + draw.1) { s with draws := { s.draws with callback := draw.2 } }

/-- The call of the receive callback (R186; 60_exceptions.md R308): host code runs, then PUMP goes on. -/
def callReceiver (host : HostCode) (id a1 : Nat) (s : State) : State :=
  match (s.inst id).rxCallback with
  | some cb => runAll [host none, callbackReturns] { s with outputs := .callback s.tau id cb a1 :: s.outputs }
  | none => s

/-- The steps of PUMP (R186), with a boundary before the accesses of the second count. -/
def pump (host : HostCode) (id : Nat) (s : State) : State :=
  if (s.inst id).rxValid then
    let a0 := queuedBytes (s.inst id)
    runAll
      [rxbits id,
        tick,
        fun t => whenever (pumpFires t.params.onReceiveMode a0 (queuedBytes (t.inst id)))
          (callReceiver host id (queuedBytes (t.inst id))) t,
        fun t => t.ret id .nothing] s
  else s.ret id .nothing

end Sys2Proof.Machine
end

