-- ==== Sys2Proof/Machine/Transmitter.lean ====
section
/-! DEFINITION. The transmitter (43_transmitter.md): the steps of WRITE and WAIT_BIT_CYCLES. Both hand the main line to
host code in their yields and get their meanings in Nesting.lean. -/

namespace Sys2Proof.Machine

/-! ## WAIT_BIT_CYCLES -/

/-- `s_W(d -_W readCycleCounter())`, the signed cycles to the deadline (R220, R223). -/
def cyclesTo (d : Nat) (s : State) : Int := signedW s.params.width (subW s.params.width d s.counter)

/-- The yield portion (R221): interrupts are unmasked in it unless WRITE found them masked. -/
def yieldPortion (host : HostCode) (id micro : Nat) (s : State) : State :=
  runAll
    [fun t => whenever (!(t.inst id).savedMask) unmaskInterrupts t,
      fun t => t.modInst id fun y => { y with inYield := true },
      cooperativeYield host micro,
      fun t => t.modInst id fun y => { y with inYield := false },
      maskInterrupts] s

/-- The spin portion (R222): the counter is read until the deadline is reached, and the draw `late` after that the spin
is left. -/
def spinUntil (d : Nat) (s : State) : State :=
  let s1 := tick s
  if s1.stopped then s1
  else
    let s2 := advanceTo (s1.tau + (cyclesTo d s1).toNat) s1
    if s2.stopped then s2
    else
      let draw := takeDraw 0 s2.draws.late
      advanceTo (s2.tau + draw.1) { s2 with draws := { s2.draws with late := draw.2 } }

/-- The steps of WAIT_BIT_CYCLES (R220). Whether there is a yield portion is decided by the cycles that remain, as R220 and
R221 say, and not by the bit period. R231 and 70_reset_and_hazards.md R333 say that no wait has one where `B < CYC_US`,
which does not follow for a wait over several slots of one level; that R220 is followed there is a DESIGN CHOICE (log
entry 31). -/
def waitBitCycles (host : HostCode) (id d : Nat) (s : State) : State :=
  let s1 := tick s
  let micro := (cyclesTo d s1).toNat / cyclesPerMicro s1.params
  runAll [whenever (decide (0 < micro)) (yieldPortion host id micro), spinUntil d] s1

/-! ## WRITE -/

/-- `s.deadline <- s.deadline +_W s.B`. -/
def nextDeadline (w : Width) (x : Inst) : Inst := { x with deadline := addW w x.deadline x.bitPeriod }

/-- One slot of the waveform (R212, R217): where the level changes, wait until the slot's start, then flip the pin. -/
def sendSlot (host : HostCode) (id j i : Nat) (level : Bool) (s : State) : State :=
  let s1 := s.modInst id fun y => { y with seq := .slot j i }
  let x := s1.inst id
  runAll
    [whenever (decide (level ≠ x.prevLevel))
        (runAll
          [waitBitCycles host id x.deadline,
            writePinLevel x.txPin (pinLevelOf x.invert level),
            fun t => t.modInst id fun y => { y with prevLevel := level }]),
      fun t => t.modInst id (nextDeadline t.params.width)] s1

/-- The slots of the waveform, in order. -/
def sendSlots (host : HostCode) (id : Nat) : List (Nat × Nat × Bool) → State → State
  | [], s => s
  | (j, i, level) :: rest, s => if s.stopped then s else sendSlots host id rest (sendSlot host id j i level s)

/-- `txBusy <- 1; prevLevel <- 1; deadline <- readCycleCounter()` (R212). -/
def beginWaveform (id : Nat) (s : State) : State :=
  let s1 := s.modInst id fun y => { y with txBusy := true, prevLevel := true }
  let s2 := tick s1
  if s2.stopped then s2 else s2.modInst id fun y => { y with deadline := s2.counter }

/-- WRITE once its checks have passed (R212). -/
def transmit (host : HostCode) (id : Nat) (bytes : List Byte) (s : State) : State :=
  let x := s.inst id
  runAll
    [whenever x.rxValid (rxbits id),
      whenever x.txEnableValid (writePinLevel x.txEnablePin true),
      fun t => t.modInst id fun y => { y with savedMask := t.im },
      maskInterrupts,
      beginWaveform id,
      sendSlots host id (frameSlots 0 bytes),
      fun t => waitBitCycles host id (t.inst id).deadline t,
      fun t => whenever (!(t.inst id).savedMask) unmaskInterrupts t,
      whenever x.txEnableValid (writePinLevel x.txEnablePin false),
      fun t => t.modInst id fun y => { y with txBusy := false, seq := .idle },
      fun t => t.ret id (.natural bytes.length)] s

/-- The steps of WRITE, its checks in the order of R212. -/
def write (host : HostCode) (id : Nat) (bytes : List Byte) (s : State) : State :=
  let x := s.inst id
  if x.txValid = false then s.ret id (.natural 0)
  else if x.fstate = .unconfigured then s.raise .notStarted
  else if x.oneWire = true ∧ (s.pin x.txPin).mode ≠ .output then s.raise .oneWireTxNotEnabled
  else if bytes = [] then s.ret id (.natural 0)
  else transmit host id bytes s

end Sys2Proof.Machine
end

