-- ==== Sys2Proof/Machine/Nesting.lean ====
section
/-! DEFINITION. Host code inside yields and receive callbacks (60_exceptions.md R304, R305, R308): it issues the
commands at the head of the host's queue that are marked for such a nesting. AVAILABLE, PUMP, WRITE and
WAIT_BIT_CYCLES get their meanings here, each over the host code its yields or its callback run. -/

namespace Sys2Proof.Machine

/-! ## The four operations that hand the main line to host code -/

/-- AVAILABLE with the given host code (42_read_api.md R180). -/
def availableWith (host : HostCode) (id : Nat) (s : State) : Out := hostOperation id (available host id) s

/-- PUMP with the given host code (42_read_api.md R186). -/
def pumpWith (host : HostCode) (id : Nat) (s : State) : Out := hostOperation id (pump host id) s

/-- WRITE with the given host code (43_transmitter.md R212). -/
def writeWith (host : HostCode) (id : Nat) (bytes : List Byte) (s : State) : Out :=
  hostOperation id (write host id bytes) s

/-- WAIT_BIT_CYCLES with the given host code (43_transmitter.md R220). -/
def waitBitCyclesWith (host : HostCode) (id d : Nat) (s : State) : Out :=
  internalOperation id (waitBitCycles host id (wrap s.params.width d)) s

/-! ## Issuing a command -/

/-- Runs one operation, with the given host code in its yields and its callback. -/
def dispatchWith (host : HostCode) (i : Instr) (s : State) : Out :=
  match i with
  | .construct id rx tx inv nb ne => execConstruct id rx tx inv nb ne s
  | .start id baud => execStart id baud s
  | .stop id => execStop id s
  | .destruct id => execDestruct id s
  | .enableRx id on => execEnableRx id on s
  | .enableTx id on => execEnableTx id on s
  | .setTxEnablePin id pin => execSetTxEnablePin id pin s
  | .baudrate id => execBaudrate id s
  | .available id => availableWith host id s
  | .read id => execRead id s
  | .peek id => execPeek id s
  | .flush id => execFlush id s
  | .overflow id => execOverflow id s
  | .onReceive id cb => execOnReceive id cb s
  | .pump id => pumpWith host id s
  | .write id bytes => writeWith host id bytes s
  | .capture id => execCapture id s
  | .rxbits id => execRxbits id s
  | .replayEdge id ev => execReplayEdge id ev s
  | .synthStop id => execSynthStop id s
  | .synthStopAt id now => execSynthStopAt id now s
  | .waitBitCycles id d => waitBitCyclesWith host id d s

/-- The host issues a command. An opcode that is unassigned or internal raises `Fault(UNKNOWN_OPCODE)` whatever its
operands (30_encoding.md R102, R103; the first check of 60_exceptions.md R297); any other is decoded, and the operation
runs in the context the host issued it from. -/
def issue (run : Instr → State → Out) (c : HostCommand) (s : State) : Out :=
  let s1 : State := { s with ctx := c.ctx, issuer := .host }
  if opcodeHostIssuable c.cmd.op.toNat then
    match decode c.cmd with
    | .ok i => run i s1
    | .error .unknownOpcode => .next (s1.raise .unknownOpcode)
    | .error .badOperands => .refused .badOperands
  else .next (s1.raise .unknownOpcode)

/-- Does host code at this nesting, inside a yield that ends at `tEnd` or inside a callback, issue the command now?
One whose operands are of no command is left for `step` to refuse. -/
def issuesHere (level : Nat) (tEnd : Option Nat) (c : HostCommand) (s : State) : Bool :=
  decide (level ≤ c.level) &&
    (match tEnd with
      | some t => decide (max c.time s.tau ≤ t)
      | none => true) &&
    (!opcodeHostIssuable c.cmd.op.toNat ||
      match decode c.cmd with
      | .error .badOperands => false
      | .error .unknownOpcode => true
      | .ok _ => true)

/-- The state a nested command leaves. -/
def nextOr (s : State) : Out → State
  | .next t => t
  | .fault _ => s
  | .refused _ => s

/-- Host code at a nesting level: the commands at the head of the queue that belong here are issued one after another,
each at its time, "each after the previous one has returned (or from inside a yield, … or from a receive callback)"
(60_exceptions.md R305). After them the operation that was interrupted goes on in its own context. A command that faults
stops the machine, the interrupted operation with it, as R283 says; 43_transmitter.md R233 says that no fault of another
instance stops a WRITE, and that R283 is followed there is a DESIGN CHOICE (log entry 32). So is it that a command from an
interrupt handler of the host's own (`ctx = interrupt`, R297) comes here or between two commands, in the queue's order, and
never between two other micro-steps (log entry 33). -/
def hostCode : Nat → Nat → HostCode
  | 0, _, _, s => s
  | fuel + 1, level, tEnd, s =>
    match s.hostQueue with
    | [] => s
    | c :: rest =>
      if s.stopped then s
      else if issuesHere level tEnd c s then
        let s1 := arriveAt c.time { s with hostQueue := rest }
        if s1.stopped then s1
        else
          let s2 := nextOr s1 (issue (dispatchWith (hostCode fuel (level + 1))) c s1)
          if s2.stopped then s2
          else hostCode fuel level tEnd { s2 with ctx := s.ctx, issuer := s.issuer }
      else s

/-- The host code of the outermost nesting; every command it issues is taken from the queue, so the queue's length
bounds it. -/
def outerHost (s : State) : HostCode := hostCode s.hostQueue.length 1

/-! ## Their meanings -/

/-- AVAILABLE (42_read_api.md R180). -/
def execAvailable (id : Nat) (s : State) : Out := availableWith (outerHost s) id s

/-- PUMP (42_read_api.md R186). -/
def execPump (id : Nat) (s : State) : Out := pumpWith (outerHost s) id s

/-- WRITE (43_transmitter.md R212). -/
def execWrite (id : Nat) (bytes : List Byte) (s : State) : Out := writeWith (outerHost s) id bytes s

/-- WAIT_BIT_CYCLES (43_transmitter.md R220). -/
def execWaitBitCycles (id d : Nat) (s : State) : Out := waitBitCyclesWith (outerHost s) id d s

end Sys2Proof.Machine
end

