-- ==== Sys2Proof/Machine/Agents.lean ====
section
/-! DEFINITION. Which agent moves next (00_scope.md R13): the environment, the capture agent, the host's main line, or
time alone; and how a word of the opcode table is presented so that the next step runs it. -/

namespace Sys2Proof.Machine

/-- The time of the next thing that can happen while the main line is idle: an input change, a due capture, or a
command. -/
def nextEventTime (s : State) : Option Nat :=
  let times := (s.inputs.take 1).map InputChange.time ++ (s.hostQueue.take 1).map HostCommand.time ++
    s.pending.filterMap fun e => if (triggered s e.1).isSome then e.2.due else none
  match times with
  | [] => none
  | t :: ts => some (ts.foldl min t)

/-- No agent has a step at the present time: time goes on to the next event, by one cycle if none is left. -/
def idleUntilNext (s : State) : State :=
  match nextEventTime s with
  | some t => { s with tau := max (s.tau + 1) t }
  | none => { s with tau := s.tau + 1 }

/-- The host's main line: the first queued command is issued once its time has come. That a command from an interrupt
handler of the host's own (60_exceptions.md R297) also waits for its turn here, or in a yield or callback, is a DESIGN
CHOICE (log entry 33). -/
def hostStep (run : Instr → State → Out) (s : State) : Out :=
  match s.hostQueue with
  | [] => .next (idleUntilNext s)
  | c :: rest =>
    if c.time ≤ s.tau then issue run c { s with hostQueue := rest } else .next (idleUntilNext s)

/-- Does the host's next command go before an input change that falls on the present time? The order is a draw, used
only where both can happen and no capture is due, since a capture sees the change (log entry 8). -/
def commandFirst (c : InputChange) (s : State) : Bool × State :=
  if c.time = s.tau ∧ (s.hostQueue.head?.any fun h => decide (h.time ≤ s.tau)) = true ∧
      dueCaptures (s.tau + 1) s = [] then
    let draw := takeDraw 0 s.draws.hold
    (decide (draw.1 ≠ 0), { s with draws := { s.draws with hold := draw.2 } })
  else (false, s)

/-- The capture agent's next capture, and if none may run by now what `others` do: a capture "has priority over every
main-line micro-step" (60_exceptions.md R293). -/
def captureOr (run : Instr → State → Out) (others : State → Out) (s : State) : Out :=
  match nextCapture (s.tau + 1) s with
  | some (c, s1) => run (.capture c.2.2) { s1 with ctx := .interrupt, issuer := .unit }
  | none => others s

/-- One step (log entry 9): none in a stopped state (60_exceptions.md R283). Where an input change has come due (R303):
that change, unless the command of the same time goes first; the captures that run now come after it (log entry 17).
Where none has: a capture that is due, else the host's main line. -/
def stepWith (run : Instr → State → Out) (s : State) : Out :=
  match s.fault with
  | some code => .fault (.stopped code)
  | none =>
    match s.inputs with
    | [] => captureOr run (hostStep run) s
    | c :: rest =>
      if c.time ≤ s.tau then
        let r := commandFirst c s
        if r.1 then hostStep run r.2 else .next (applyInput c { r.2 with inputs := rest })
      else captureOr run (hostStep run) s

/-- A capture due by now is left for the next cycle: one cycle more of its latency, which is a draw (60_exceptions.md
R291). -/
def postponeDue (tau : Nat) (e : Nat × Pending) : Nat × Pending :=
  (e.1, { e.2 with due := e.2.due.map (max (tau + 1)) })

/-- The command presented as the next one the host issues, at once, from normal context and its main line; captures
and input changes that would come first are left for the next cycle. -/
def presentCommand (cmd : Command) (s : State) : State :=
  { s with
    pending := s.pending.map (postponeDue s.tau)
    inputs := s.inputs.map fun c => { c with time := max (s.tau + 1) c.time }
    hostQueue := ⟨s.tau, .normal, 0, cmd⟩ :: s.hostQueue }

/-- The command a table word stands for: bits `[7:0]` are the opcode, what the word does not give is 0. A word with
higher bits set is no command word; its low byte 0x00, which is unassigned, stands for it. -/
def presentedWord (nbits w : Nat) : Command :=
  if w < 2 ^ nbits ∧ w < 256 then tableCommand w else ⟨0#8, 0, []⟩

end Sys2Proof.Machine
end

