-- ==== Sys2Proof/Machine/Dispatch.lean ====
section
/-! DEFINITION. One arm per operation of 30_encoding.md R100. -/

namespace Sys2Proof.Machine

def exec (i : Instr) (s : State) : Host.Outcome State Fault Refusal :=
  match i with
  | .construct id rx tx inv nb ne => Sys2Proof.Machine.execConstruct id rx tx inv nb ne s
  | .start id baud => Sys2Proof.Machine.execStart id baud s
  | .stop id => Sys2Proof.Machine.execStop id s
  | .destruct id => Sys2Proof.Machine.execDestruct id s
  | .enableRx id on => Sys2Proof.Machine.execEnableRx id on s
  | .enableTx id on => Sys2Proof.Machine.execEnableTx id on s
  | .setTxEnablePin id pin => Sys2Proof.Machine.execSetTxEnablePin id pin s
  | .baudrate id => Sys2Proof.Machine.execBaudrate id s
  | .available id => Sys2Proof.Machine.execAvailable id s
  | .read id => Sys2Proof.Machine.execRead id s
  | .peek id => Sys2Proof.Machine.execPeek id s
  | .flush id => Sys2Proof.Machine.execFlush id s
  | .overflow id => Sys2Proof.Machine.execOverflow id s
  | .onReceive id cb => Sys2Proof.Machine.execOnReceive id cb s
  | .pump id => Sys2Proof.Machine.execPump id s
  | .write id bytes => Sys2Proof.Machine.execWrite id bytes s
  | .capture id => Sys2Proof.Machine.execCapture id s
  | .rxbits id => Sys2Proof.Machine.execRxbits id s
  | .replayEdge id ev => Sys2Proof.Machine.execReplayEdge id ev s
  | .synthStop id => Sys2Proof.Machine.execSynthStop id s
  | .synthStopAt id now => Sys2Proof.Machine.execSynthStopAt id now s
  | .waitBitCycles id d => Sys2Proof.Machine.execWaitBitCycles id d s

end Sys2Proof.Machine
end

