-- ==== Sys2Proof/Machine/Step.lean ====
section
/-! DEFINITION. One step of the machine, and the machine with a word of the opcode table where its next step finds
it. -/

namespace Sys2Proof.Machine

def step (s : State) : Host.Outcome State Fault Refusal := stepWith exec s

def State.withFetchWord (s : State) (nbits w : Nat) : State := presentCommand (presentedWord nbits w) s

end Sys2Proof.Machine
end

