-- ==== Sys2Proof/Safety.lean ====
section
/-! DEFINITION. The terms in which claims are made: the invariants of 10_state.md R49, R50 and R52, when a host command
passes the entry checks (60_exceptions.md R297), when nothing of the environment interferes with an operation, and
which parts of an instance the capture agent can change. -/

namespace Sys2Proof.Machine

/-! ## Invariants -/

/-- What holds of one instance between any two operations (10_state.md R49, R50, R52 (a) to (c)). -/
structure Inst.Inv (p : Params) (x : Inst) : Prop where
  /-- R52 (a) -/
  curBit_range : -1 ≤ x.curBit ∧ x.curBit ≤ 8
  /-- R52 (b) -/
  curByte_zero : x.curBit = -1 ∨ x.curBit = 8 → x.curByte = 0#8
  /-- R52 (c) -/
  indices : x.rxValid = true → x.inE < x.edgeCap ∧ x.outE < x.edgeCap ∧ x.inB < x.byteCap ∧ x.outB < x.byteCap
  /-- R242: which directions the instance has -/
  rxValid_iff : x.rxValid = (pinValid p x.rxPin && decide (1 ≤ x.byteCap) && decide (1 ≤ x.edgeCap))
  txValid_iff : x.txValid = pinValid p x.txPin
  /-- R22 -/
  oneWire_iff : x.oneWire = decide (x.rxPin = x.txPin)
  /-- R23, R50 -/
  period_le : x.bitPeriod ≤ p.fHz
  period_configured : x.fstate = .configured → 1 ≤ x.bitPeriod
  /-- R7: nothing that divides by `B` can run while `B = 0` -/
  idle_before_start : x.bitPeriod = 0 → x.curBit = 8 ∧ x.inE = x.outE ∧ x.inB = x.outB
  /-- R240: an attached receiver belongs to a configured instance that can receive -/
  enabled_configured : x.rxEnabled = true → x.fstate = .configured ∧ x.rxValid = true
  /-- R50: `txEnablePin` is in `VALID_PINS` when `txEnableValid = 1` -/
  txEnable_valid : x.txEnableValid = true → pinValid p x.txEnablePin = true
  /-- R30, R31, R40: the W-bit values -/
  lastTs_lt : x.lastTs < p.width.modulus
  deadline_lt : x.deadline < p.width.modulus
  edges_lt : ∀ e ∈ x.edges, e.2 < p.width.modulus

/-- The part of the invariant that holds at every micro-step: legal parameters, canonical lists, every instance sound. -/
structure State.Core (s : State) : Prop where
  legal : s.params.legal = true
  memory : Memory.wf s
  insts : ∀ id x, cellGet s.insts id = some x → x.Inv s.params

/-- The pin registry (10_state.md R27, R45; 44_port_facade.md R253): a pin's entry names the constructed instance that
receives on it and is enabled, every enabled instance is the one its pin names, exactly the registered pins are
attached, and transitions wait on attached pins only. -/
structure State.Registry (s : State) : Prop where
  owner : ∀ p id, cellGet s.reg p = some id →
    s.constructed id = true ∧ (s.inst id).rxPin = p ∧ (s.inst id).rxEnabled = true
  owned : ∀ id, s.constructed id = true → (s.inst id).rxEnabled = true → cellGet s.reg (s.inst id).rxPin = some id
  attached : ∀ p, p ∈ s.attached ↔ (cellGet s.reg p).isSome = true
  pending : ∀ p, 1 ≤ (s.pend p).count → p ∈ s.attached
  /-- R44: "1 bit per pin", unless `COALESCE = false` -/
  coalesced : s.params.coalesce = true → ∀ p, (s.pend p).count ≤ 1

/-- The invariant that every step keeps. -/
structure State.Inv (s : State) : Prop where
  core : s.Core
  registry : s.Registry
  /-- R23: "While `fstate = Unconfigured`, `B = 0`" (START sets `B` a few micro-steps before `fstate`, so this holds
  between operations only) -/
  unconfigured : ∀ id, (s.inst id).fstate = .unconfigured → (s.inst id).bitPeriod = 0
  /-- R52 (e) -/
  busy : ∀ id, (s.inst id).txBusy = true → (s.inst id).seq ≠ .idle

/-- Between two commands of the host's main line, in a machine that has not stopped, no WRITE is in progress and
nothing is left of one: interrupts are unmasked (10_state.md R43, R40, R41). -/
def State.Between (s : State) : Prop :=
  s.fault = none →
    s.im = false ∧
      ∀ id, (s.inst id).txBusy = false ∧ (s.inst id).inYield = false ∧ (s.inst id).seq = .idle

/-! ## When a command runs -/

/-- The entry checks of 60_exceptions.md R297 pass for a command on `id`, in a machine that has not stopped. -/
structure State.Accepts (s : State) (id : Nat) : Prop where
  running : s.fault = none
  normal : s.ctx = .normal
  built : s.constructed id = true
  alive : (s.inst id).fstate ≠ .tornDown
  outside : (s.inst id).inYield = false

/-- An operation that only the unit or the interrupt layer issues, issued by it on a constructed instance. -/
structure State.AcceptsInternal (s : State) (id : Nat) : Prop where
  running : s.fault = none
  fromUnit : s.issuer = .unit
  built : s.constructed id = true

/-- Host code issues nothing in a yield or a callback: the next queued command, if there is one, is one of the host's main
line (log entry 20). -/
abbrev State.HostWaits (s : State) : Prop := ∀ c ∈ s.hostQueue.head?, c.level = 0

/-- The environment stays out of the operation: no input change and no pending capture is left, the micro-steps of the
main-line agent take no time (the ideal draw, 00_scope.md R12), and host code issues nothing in a yield or a
callback. -/
structure State.Calm (s : State) : Prop where
  inputs : s.inputs = []
  pending : s.pending = []
  draws : s.draws = .ideal
  queue : s.HostWaits

/-! ## What the capture agent can change -/

/-- From `x` to `y` only captures have happened: they write `E`, `inE` and `edgeOvf`, and set the latch only
(40_capture.md R123). -/
structure Inst.CapturedTo (x y : Inst) : Prop where
  rest : y = { x with edges := y.edges, inE := y.inE, edgeOvf := y.edgeOvf }
  latch : x.edgeOvf = true → y.edgeOvf = true
  detached : x.rxEnabled = false → y = x

/-- From `s` to `t` the main-line agent has done nothing: time has passed, the environment has changed input levels,
captures have run. -/
structure State.EnvTo (s t : State) : Prop where
  params : t.params = s.params
  pins : t.pins = s.pins
  attached : t.attached = s.attached
  reg : t.reg = s.reg
  im : t.im = s.im
  ctx : t.ctx = s.ctx
  issuer : t.issuer = s.issuer
  wires : t.wires = s.wires
  hostQueue : t.hostQueue = s.hostQueue
  result : t.result = s.result
  outputs : t.outputs = s.outputs
  tau : s.tau ≤ t.tau
  keys : t.insts.map Prod.fst = s.insts.map Prod.fst
  insts : ∀ id, (s.inst id).CapturedTo (t.inst id)

/-- From `s` to `t` captures have happened, time has passed, and the decoder of instance `id` has run. -/
structure State.DecodeTo (id : Nat) (s t : State) : Prop where
  params : t.params = s.params
  pins : t.pins = s.pins
  attached : t.attached = s.attached
  reg : t.reg = s.reg
  im : t.im = s.im
  ctx : t.ctx = s.ctx
  issuer : t.issuer = s.issuer
  wires : t.wires = s.wires
  hostQueue : t.hostQueue = s.hostQueue
  result : t.result = s.result
  outputs : t.outputs = s.outputs
  tau : s.tau ≤ t.tau
  keys : t.insts.map Prod.fst = s.insts.map Prod.fst
  others : ∀ j, j ≠ id → (s.inst j).CapturedTo (t.inst j)
  inst : t.inst id =
    { s.inst id with
      edges := (t.inst id).edges, inE := (t.inst id).inE, edgeOvf := (t.inst id).edgeOvf,
      outE := (t.inst id).outE, curBit := (t.inst id).curBit, curByte := (t.inst id).curByte,
      lastTs := (t.inst id).lastTs, bytes := (t.inst id).bytes, inB := (t.inst id).inB,
      byteOvf := (t.inst id).byteOvf }
  edgeLatch : (s.inst id).edgeOvf = true → (t.inst id).edgeOvf = true
  byteLatch : (s.inst id).byteOvf = true → (t.inst id).byteOvf = true

/-- What a facade command, a HAL call or a transmission leaves alone besides pins, registry, mask and instances: no
fault is raised, no context changes, no command is taken from the queue, no instance is created or removed. -/
structure State.RunsTo (s t : State) : Prop where
  running : t.fault = none
  params : t.params = s.params
  ctx : t.ctx = s.ctx
  issuer : t.issuer = s.issuer
  wires : t.wires = s.wires
  hostQueue : t.hostQueue = s.hostQueue
  tau : s.tau ≤ t.tau
  keys : t.insts.map Prod.fst = s.insts.map Prod.fst

/-- From `s` to `t` every instance but `id` has only captured. -/
def State.OthersCapture (id : Nat) (s t : State) : Prop := ∀ j, j ≠ id → (s.inst j).CapturedTo (t.inst j)

/-- From `s` to `t` the mode and latch of every pin not in the list are unchanged. -/
def State.SamePins (touched : List Nat) (s t : State) : Prop := ∀ q, q ∉ touched → t.pin q = s.pin q

/-- From `s` to `t` the registry entry and the attachment of every pin but `p` are unchanged. -/
def State.SameRegistry (p : Nat) (s t : State) : Prop :=
  ∀ q, q ≠ p → cellGet t.reg q = cellGet s.reg q ∧ (q ∈ t.attached ↔ q ∈ s.attached)

/-- From `s` to `t` every instance but `id` has only captured, and the one that owned pin `p` has lost it (44_port_facade.md
R253). -/
def State.OthersEvict (p id : Nat) (s t : State) : Prop :=
  ∀ j, j ≠ id → ∃ z, (s.inst j).CapturedTo z ∧
    t.inst j = if cellGet s.reg p = some j then { z with rxEnabled := false } else z

/-- `t` is `s` with the state of instance `id` replaced by `y`. -/
structure State.Sets (id : Nat) (y : Inst) (s t : State) : Prop where
  rest : t = { s with insts := t.insts }
  inst : t.inst id = y
  others : ∀ j, j ≠ id → t.inst j = s.inst j
  keys : t.insts.map Prod.fst = s.insts.map Prod.fst

/-- `t` is `s` with the state of instance `id` replaced by `y`, and `r` returned. -/
def State.Returns (id : Nat) (r : Result) (y : Inst) (s t : State) : Prop :=
  ∃ u, State.Sets id y s u ∧ t = u.ret id r

/-- The draws are ideal (00_scope.md R12) and host code issues nothing in a yield or a callback; the inputs, the wiring
and the captures are arbitrary. -/
structure State.Ideal (s : State) : Prop where
  draws : s.draws = .ideal
  queue : s.HostWaits

/-! ## Queues and waveforms -/

/-- The bytes queued in the byte ring, oldest first: `n` of them from index `i` on. -/
def byteWindow (x : Inst) : Nat → Nat → List Byte
  | 0, _ => []
  | n + 1, i => byteAt x i :: byteWindow x n (ringNext x.byteCap i)

/-- The contents of the byte ring (20_memory.md R81). -/
def byteQueue (x : Inst) : List Byte := byteWindow x (ringCount x.byteCap x.inB x.outB) x.outB

/-- The words queued in the edge ring, oldest first: `n` of them from index `i` on. -/
def edgeWindow (x : Inst) : Nat → Nat → List Nat
  | 0, _ => []
  | n + 1, i => edgeAt x i :: edgeWindow x n (ringNext x.edgeCap i)

/-- The contents of the edge ring (20_memory.md R81). -/
def edgeQueue (x : Inst) : List Nat := edgeWindow x (ringCount x.edgeCap x.inE x.outE) x.outE

/-- What Enqueue does to the byte ring (20_memory.md R62, R64): `b` joins the queue, or, where the ring already holds
`NB - 1` bytes, is dropped and latched. -/
structure Inst.PushesByte (b : Byte) (x y : Inst) : Prop where
  outB : y.outB = x.outB
  stored : (byteQueue x).length + 1 < x.byteCap → byteQueue y = byteQueue x ++ [b] ∧ y.byteOvf = x.byteOvf
  dropped : x.byteCap ≤ (byteQueue x).length + 1 → y.bytes = x.bytes ∧ y.inB = x.inB ∧ y.byteOvf = true

/-- What Enqueue does to the edge ring (20_memory.md R62, R64). -/
structure Inst.PushesEdge (v : Nat) (x y : Inst) : Prop where
  outE : y.outE = x.outE
  stored : (edgeQueue x).length + 1 < x.edgeCap → edgeQueue y = edgeQueue x ++ [v] ∧ y.edgeOvf = x.edgeOvf
  dropped : x.edgeCap ≤ (edgeQueue x).length + 1 → y.edges = x.edges ∧ y.inE = x.inE ∧ y.edgeOvf = true

/-- The level of slot `k` of the concatenated frames of a byte stream: `frame(b_{k div 10})[k mod 10]` (43_transmitter.md
R224), and the idle level 1 outside them (30_encoding.md R97). -/
def slotLevel (bytes : List Byte) (k : Nat) : Bool :=
  match bytes[k / 10]? with
  | some b => if k % 10 = 0 then false else if k % 10 = 9 then true else b.getLsbD (k % 10 - 1)
  | none => true

/-- Does slot `k` have another level than the slot before it, "slot -1 being the idle level 1" (30_encoding.md R97)? -/
def slotFlips (bytes : List Byte) (k : Nat) : Bool :=
  slotLevel bytes k != (if k = 0 then true else slotLevel bytes (k - 1))

/-- The slots of a byte stream at which the line changes. -/
def flipSlots (bytes : List Byte) : List Nat := (List.range (10 * bytes.length)).filter (slotFlips bytes)

/-- The pin writes of the ideal waveform of a byte stream that starts at `t0` (43_transmitter.md R224), in order. -/
def waveform (pin : Nat) (invert : Bool) (period t0 : Nat) (bytes : List Byte) : List Output :=
  (flipSlots bytes).map fun k => .pinWrite (t0 + k * period) pin (pinLevelOf invert (slotLevel bytes k))

/-- The edges of that waveform as the receiver sees them when it captures each one exactly: the counter value and the
logical level. -/
def waveEdges (w : Width) (period t0 : Nat) (bytes : List Byte) : List (Nat × Bool) :=
  (flipSlots bytes).map fun k => (wrap w (t0 + k * period), slotLevel bytes k)

/-- Replays edges one after another; `none` if one of them formed an index outside a ring. -/
def replayAll (w : Width) : List (Nat × Bool) → Inst → Option Inst
  | [], x => some x
  | e :: es, x => (replayEdge w e.1 e.2 x).bind (replayAll w es)

/-- The queued words of the edge ring as the edges they stand for (30_encoding.md R92). -/
def queuedEdges (x : Inst) : List (Nat × Bool) := (edgeQueue x).map fun v => (tsOf v, levelOf x.invert v)

/-- The instance after SYNTH_STOP with an empty edge ring at counter value `now` (41_decoder.md R155). -/
def synthesized (p : Params) (now : Nat) (x : Inst) : Option Inst :=
  let delta := synthDelta p x.curBit x.bitPeriod
  if x.curBit ≠ 8 ∧ delta < subW p.width now x.lastTs then
    replayEdge p.width (addW p.width x.lastTs delta) true x
  else some x

end Sys2Proof.Machine
end

