-- ==== Sys2Proof/Certificates/Slice0/Obligations.lean ====
section
/-! DEFINITION. The statements for the provers. Each docstring names the rules of spec/ it formalises. -/

open Sys2Proof Sys2Proof.Machine

/-! ## Encoding -/

/-- A command and an instruction stand for each other exactly when the command is the instruction's encoding
(30_encoding.md R99 to R101): no operand is dropped or changed, and no second command has the same meaning. -/
def Obligations.DecodeEncodeAgree : Prop := ∀ (c : Command) (i : Instr), decode c = .ok i ↔ c = encode i

/-- Commands written out from 30_encoding.md R100, R101 decode to the operations they stand for, an unassigned opcode to
none (R102). Two clauses are the model's choice: that a synthesized pair is written as a list of two numbers (log entry
4), and that an operand list R101 does not give is the error `badOperands` (log entry 18). -/
def Obligations.DecodedCommands : Prop :=
  decode ⟨0x01#8, 3, [.num 4, .num 5, .num 1, .num 8, .num 32]⟩ = .ok (.construct 3 4 5 true 8 32) ∧
    decode ⟨0x02#8, 0, [.num 10000]⟩ = .ok (.start 0 10000) ∧
    decode ⟨0x06#8, 1, [.num 1]⟩ = .ok (.enableTx 1 true) ∧
    decode ⟨0x15#8, 0, [.none]⟩ = .ok (.onReceive 0 none) ∧
    decode ⟨0x20#8, 0, [.list [0x55, 0]]⟩ = .ok (.write 0 [0x55#8, 0#8]) ∧
    decode ⟨0x42#8, 2, [.list [2100, 1]]⟩ = .ok (.replayEdge 2 (.pair 2100 true)) ∧
    decode ⟨0x44#8, 0, [.num 6000]⟩ = .ok (.waitBitCycles 0 6000) ∧
    decode ⟨0x00#8, 0, []⟩ = .error .unknownOpcode ∧
    decode ⟨0x05#8, 0, [.num 2]⟩ = .error .badOperands

/-- An EdgeEvent word (30_encoding.md R91, R92): packing clears bit 0 of the counter and puts the inverted pin level
there; unpacking clears it again and gives the logical level. For both widths. -/
def Obligations.EdgeEventWords : Prop :=
  (∀ (c : BitVec 32) (level invert : Bool),
      packEdge c.toNat level = ((c &&& ~~~1#32) ||| (if level then 0#32 else 1#32)).toNat ∧
        tsOf c.toNat = (c &&& ~~~1#32).toNat ∧ levelOf invert c.toNat = xor (!c.getLsbD 0) invert ∧
        tsOf (packEdge c.toNat level) = tsOf c.toNat ∧ levelOf invert (packEdge c.toNat level) = xor level invert) ∧
    ∀ (c : BitVec 64) (level invert : Bool),
      packEdge c.toNat level = ((c &&& ~~~1#64) ||| (if level then 0#64 else 1#64)).toNat ∧
        tsOf c.toNat = (c &&& ~~~1#64).toNat ∧ levelOf invert c.toNat = xor (!c.getLsbD 0) invert ∧
        tsOf (packEdge c.toNat level) = tsOf c.toNat ∧ levelOf invert (packEdge c.toNat level) = xor level invert

/-- The slots WRITE walks are the concatenated frames (30_encoding.md R95, R96; 43_transmitter.md R216): slot
`10*j + i` is slot `i` of byte `j`, and its level is the start bit, the data bit `i - 1`, or the stop bit. -/
def Obligations.FrameSlots : Prop :=
  ∀ bytes : List Byte,
    frameSlots 0 bytes = (List.range (10 * bytes.length)).map fun k => (k / 10, k % 10, slotLevel bytes k)

/-! ## The step -/

/-- Where the host's main line has the next step, and its next command decodes to an instruction, the step is that
instruction's meaning, run on the state with the command taken from the queue and its context set (30_encoding.md R99;
60_exceptions.md R297, R305). -/
def Obligations.StepRunsDecoded : Prop :=
  ∀ (s s' : State) (c : HostCommand) (rest : List HostCommand) (i : Instr),
    s.fault = none → nextCapture (s.tau + 1) s = none → (∀ e ∈ s.inputs.head?, s.tau < e.time) →
    s.hostQueue = c :: rest → c.time ≤ s.tau → decode c.cmd = .ok i →
    s' = { s with hostQueue := rest, ctx := c.ctx, issuer := .host } → step s = exec i s'

/-- A capture whose latency has elapsed is what the step runs, in interrupt context, whatever else waits (60_exceptions.md
R291, R293, R296). Only an input change that has come due comes before it, so that it reads the level driven at its time
(R301, R303); that order at one time is the model's reading of the two rules (log entry 17). -/
def Obligations.StepRunsDueCapture : Prop :=
  ∀ (s u : State) (t p id : Nat), s.fault = none → (∀ e ∈ s.inputs.head?, s.tau < e.time) →
    nextCapture (s.tau + 1) s = some ((t, p, id), u) →
    step s = exec (.capture id) { u with ctx := .interrupt, issuer := .unit }

/-- A word of the opcode table placed by `withFetchWord` is what the very next step runs, whatever captures and input
changes wait. -/
def Obligations.FetchedWordRuns : Prop :=
  ∀ (s : State) (nbits w : Nat) (i : Instr), s.fault = none → decodeTableWord nbits w = some i →
    step (s.withFetchWord nbits w) =
      exec i
        { s with
          pending := s.pending.map (postponeDue s.tau)
          inputs := s.inputs.map fun c => { c with time := max (s.tau + 1) c.time }
          ctx := .normal
          issuer := .host }

/-- A command with an opcode that 30_encoding.md R100 does not list raises `Fault(UNKNOWN_OPCODE)` and does nothing else
(R102). -/
def Obligations.UnassignedOpcodesFault : Prop :=
  ∀ (s s' : State) (c : HostCommand) (rest : List HostCommand),
    s.fault = none → nextCapture (s.tau + 1) s = none → (∀ e ∈ s.inputs.head?, s.tau < e.time) →
    s.hostQueue = c :: rest → c.time ≤ s.tau →
    c.cmd.op.toNat ∉ [0x01, 0x02, 0x03, 0x04, 0x05, 0x06, 0x07, 0x08, 0x10, 0x11, 0x12, 0x13, 0x14, 0x15, 0x16, 0x20,
      0x40, 0x41, 0x42, 0x43, 0x44] →
    s' = { s with hostQueue := rest, ctx := c.ctx, issuer := .host, fault := some .unknownOpcode } →
    step s = .next s'

/-- The operations 0x40 to 0x44 are not host-issuable: issued by the host they raise `Fault(UNKNOWN_OPCODE)`, before any
other check, and a command with such an opcode does whatever its operands are (30_encoding.md R103; 60_exceptions.md R284,
R297). -/
def Obligations.InternalOpcodesFault : Prop :=
  (∀ (s : State) (i : Instr), s.fault = none → s.issuer = .host →
    0x40 ≤ (encode i).op.toNat → exec i s = .next { s with fault := some .unknownOpcode }) ∧
  ∀ (s s' : State) (c : HostCommand) (rest : List HostCommand),
    s.fault = none → nextCapture (s.tau + 1) s = none → (∀ e ∈ s.inputs.head?, s.tau < e.time) →
    s.hostQueue = c :: rest → c.time ≤ s.tau → 0x40 ≤ c.cmd.op.toNat → c.cmd.op.toNat ≤ 0x44 →
    s' = { s with hostQueue := rest, ctx := c.ctx, issuer := .host, fault := some .unknownOpcode } →
    step s = .next s'

/-- A state whose `fault` is set takes no further step: every operation and `step` itself stop, and `fault` is never
cleared (60_exceptions.md R283). -/
def Obligations.StoppedStaysStopped : Prop :=
  ∀ (s : State) (code : FaultCode), s.fault = some code →
    step s = .fault (.stopped code) ∧ ∀ i, exec i s = .fault (.stopped code)

/-- The entry checks of every host command but CONSTRUCT, in their order (60_exceptions.md R297, R285): context, then
existence, then teardown, then re-entry. The raising command has done nothing else (R283). -/
def Obligations.EntryChecksInOrder : Prop :=
  ∀ (i : Instr) (s : State), s.fault = none → i.hostIssuable = true → (encode i).op ≠ 0x01#8 →
    (s.ctx = .interrupt → exec i s = .next { s with fault := some .wrongContext }) ∧
    (s.ctx = .normal → s.constructed i.target = false → exec i s = .next { s with fault := some .noInstance }) ∧
    (s.ctx = .normal → s.constructed i.target = true → (s.inst i.target).fstate = .tornDown →
      exec i s = .next { s with fault := some .tornDown }) ∧
    (s.ctx = .normal → s.constructed i.target = true → (s.inst i.target).fstate ≠ .tornDown →
      (s.inst i.target).inYield = true → exec i s = .next { s with fault := some .reentrant })

/-- Faults are precise (60_exceptions.md R283): where a host command ends in a fault, the state is the one before it with
`fault` set. In every sound state in which host code issues nothing in the command's own yields or callback. -/
def Obligations.FaultsArePrecise : Prop :=
  ∀ (i : Instr) (s t : State) (code : FaultCode), s.Core → s.HostWaits → i.hostIssuable = true →
    exec i s = .next t → t.fault = some code → t = { s with fault := some code }

/-! ## Reset, invariants, whole-machine rules -/

/-- The platform boot state of 70_reset_and_hazards.md R321, and no operation is owed or running. -/
def Obligations.ResetState : Prop :=
  State.reset.tau = 0 ∧ State.reset.im = false ∧ State.reset.fault = none ∧ State.reset.attached = [] ∧
    (∀ p, (State.reset.pend p).count = 0) ∧ (∀ p, cellGet State.reset.reg p = none) ∧
    ∀ id, State.reset.constructed id = false

/-- The reset state is sound, and no WRITE is in progress in it. -/
def Obligations.ResetSound : Prop := State.reset.Inv ∧ State.reset.Between

/-- Every step keeps the invariants of 10_state.md R49, R50, R52, of the pin registry (R45; 44_port_facade.md R253), and the
canonical form of every list, whatever the inputs, the draws and the host's commands. -/
def Obligations.StepKeepsInvariant : Prop := ∀ s t : State, s.Inv → step s = .next t → t.Inv

/-- Between two commands of the host's main line no WRITE is in progress: interrupts are unmasked, every sequencer is
idle and no instance is in a yield (10_state.md R40, R41, R43; 43_transmitter.md R218). -/
def Obligations.StepLeavesNothingInProgress : Prop :=
  ∀ s t : State, s.Inv → s.Between → step s = .next t → t.Between

/-- `tau` never decreases (00_scope.md R11; 60_exceptions.md R298). -/
def Obligations.TimeNeverDecreases : Prop := ∀ s t : State, step s = .next t → s.tau ≤ t.tau

/-- What CONSTRUCT fixes stays fixed (44_port_facade.md R243, R259; 10_state.md R22, R24, R26), `TornDown` is final
(R240), and the parameters of the platform are never written. -/
def Obligations.ConfigurationFixed : Prop :=
  ∀ s t : State, step s = .next t → t.params = s.params ∧
    ∀ id, s.constructed id = true → t.constructed id = true ∧
      (t.inst id).rxPin = (s.inst id).rxPin ∧ (t.inst id).txPin = (s.inst id).txPin ∧
      (t.inst id).invert = (s.inst id).invert ∧ (t.inst id).oneWire = (s.inst id).oneWire ∧
      (t.inst id).byteCap = (s.inst id).byteCap ∧ (t.inst id).edgeCap = (s.inst id).edgeCap ∧
      (t.inst id).rxValid = (s.inst id).rxValid ∧ (t.inst id).txValid = (s.inst id).txValid ∧
      ((s.inst id).fstate = .tornDown → (t.inst id).fstate = .tornDown)

/-! ## The rings -/

/-- `count(in, out, N) = (in - out) mod N`, a natural in `[0, N)`; a ring is empty iff `in = out` (20_memory.md R61). -/
def Obligations.RingCount : Prop :=
  ∀ n i o : Nat, i < n → o < n →
    (ringCount n i o : Int) = ((i : Int) - (o : Int)) % (n : Int) ∧ ringCount n i o < n ∧
      (ringCount n i o = 0 ↔ i = o)

/-- Both rings are first in, first out, hold `N - 1` values at most, and latch what they drop (20_memory.md R62 to
R65). -/
def Obligations.RingsAreQueues : Prop :=
  (∀ (x : Inst) (b : Byte), x.inB < x.byteCap → x.outB < x.byteCap →
      (∃ y, enqueueByte b x = some y ∧ x.PushesByte b y) ∧ (byteQueue x).length < x.byteCap ∧
        ∀ c rest, byteQueue x = c :: rest → byteAt x x.outB = c ∧ byteQueue (advanceOutB x) = rest) ∧
    ∀ (x : Inst) (v : Nat), x.inE < x.edgeCap → x.outE < x.edgeCap →
      (∃ y, enqueueEdge v x = some y ∧ x.PushesEdge v y) ∧ (edgeQueue x).length < x.edgeCap ∧
        ∀ c rest, edgeQueue x = c :: rest → edgeAt x x.outE = c ∧ edgeQueue (advanceOutE x) = rest

/-! ## Capture and the line -/

/-- The line level of a pin (60_exceptions.md R301, R302), whatever the wiring: its latch while it is an output; else the
level of the one output wired to it; where no output is wired to it, what the environment drives, and 1 for an input with
pull-up that nothing drives. (Two outputs wired together, and an input that the environment drives besides the output
wired to it, are outside the spec, R302; that the output wins in the second case is the model's choice, log entry 22. An
undriven plain input has the free level of log entry 14.) -/
def Obligations.LineLevels : Prop :=
  ∀ (s : State) (p : Nat),
    ((s.pin p).mode = .output → s.lineLevel p = (s.pin p).latch) ∧
    (∀ q, (s.pin p).mode ≠ .output → (q, p) ∈ s.wires → (s.pin q).mode = .output →
      (∀ r, (r, p) ∈ s.wires → (s.pin r).mode = .output → r = q) → s.lineLevel p = (s.pin q).latch) ∧
    ((s.pin p).mode ≠ .output → (∀ q, (q, p) ∈ s.wires → (s.pin q).mode ≠ .output) →
      (∀ level, cellGet s.driven p = some level → s.lineLevel p = level) ∧
        (cellGet s.driven p = none → (s.pin p).mode = .inputPullup → s.lineLevel p = true))

/-- A change of a line level by the environment sets `pending` of that pin if it is attached, and of no other
(60_exceptions.md R290, R292, R302, R303). Nothing else but the level driven and the draws changes, and no time passes.
It comes before every capture that may run by now (log entry 17), and the draw of log entry 8 may put a command of that time
first: both are the model's. -/
def Obligations.InputChangeSetsPending : Prop :=
  ∀ (s : State) (c : InputChange) (rest : List InputChange), s.Core → s.fault = none →
    s.inputs = c :: rest → c.time ≤ s.tau → (commandFirst c s).1 = false →
    ∃ t, step s = .next t ∧
      t = { s with inputs := rest, driven := t.driven, pending := t.pending, draws := t.draws } ∧
      (∀ p, cellGet t.driven p = if p = c.pin then c.level else cellGet s.driven p) ∧
      ∀ p, (t.pend p).count =
        if p ∈ s.attached ∧ t.lineLevel p ≠ s.lineLevel p then
          (if s.params.coalesce then 1 else (s.pend p).count + 1)
        else (s.pend p).count

/-- CAPTURE where its trigger holds (40_capture.md R120, R122, R123; 60_exceptions.md R294): one transition is consumed, the
counter and the inverted level at this step are packed and enqueued, or dropped and latched where the ring is full.
Everything but the instance's `E`, `inE`, `edgeOvf`, the pin's pending transitions and the latency draws is
unchanged. -/
def Obligations.CaptureStoresEdge : Prop :=
  ∀ (s : State) (id p : Nat), s.Core → s.AcceptsInternal id → (s.inst id).rxPin = p → s.im = false →
    1 ≤ (s.pend p).count → cellGet s.reg p = some id → (s.inst id).rxEnabled = true →
    ∃ t, exec (.capture id) s = .next t ∧
      (s.inst id).PushesEdge (packEdge (s.tau % s.params.width.modulus) (s.lineLevel p)) (t.inst id) ∧
      t.inst id = { s.inst id with
        edges := (t.inst id).edges, inE := (t.inst id).inE, edgeOvf := (t.inst id).edgeOvf } ∧
      (∀ j, j ≠ id → t.inst j = s.inst j) ∧
      (∀ q, (t.pend q).count =
        if q = p then (if s.params.coalesce then 0 else (s.pend p).count - 1) else (s.pend q).count) ∧
      t = { s with insts := t.insts, pending := t.pending, draws := t.draws }

/-- No CAPTURE of an instance runs, and nothing is recorded, while interrupts are masked, no transition is pending on its
pin, another instance owns the pin, or the receiver is detached (40_capture.md R120, R128). The rules say that no CAPTURE
runs then; that `exec` of one answers the same state is the model's choice (log entry 15). -/
def Obligations.NoCaptureWithoutTrigger : Prop :=
  ∀ (s : State) (id : Nat), s.AcceptsInternal id →
    (s.im = true ∨ (s.pend (s.inst id).rxPin).count = 0 ∨ cellGet s.reg (s.inst id).rxPin ≠ some id ∨
      (s.inst id).rxEnabled = false) →
    exec (.capture id) s = .next s

/-! ## The decoder -/

/-- RXBITS, SYNTH_STOP (both forms) and REPLAY_EDGE run without a fault from every sound state, and write nothing of the
state but the instance's decoder registers, `outE`, `Q`, `inB` and `byteOvf` (41_decoder.md R140, R141, R164; 20_memory.md R66); the
captures of 40_capture.md R123 may run between their micro-steps. REPLAY_EDGE and SYNTH_STOP run on an instance that can
receive (R140), REPLAY_EDGE with a bit period (00_scope.md R7). Two clauses are the model's choice: that SYNTH_STOP runs
with the operand `now` of 30_encoding.md R100, which 41_decoder.md R155 does not give it (log entry 5), and that RXBITS
runs, and changes nothing, where `rxValid = 0`, since R140 runs it only with `rxValid = 1` (log entry 15). -/
def Obligations.DecoderRuns : Prop :=
  ∀ (s : State) (id : Nat), s.Core → s.AcceptsInternal id →
    (∃ t, exec (.rxbits id) s = .next t ∧ t.fault = none ∧ t.Core ∧ State.DecodeTo id s t) ∧
    ((s.inst id).rxValid = false → exec (.rxbits id) s = .next s) ∧
    ((s.inst id).rxValid = true →
      (∃ t, exec (.synthStop id) s = .next t ∧ t.fault = none ∧ t.Core ∧ State.DecodeTo id s t) ∧
        ∀ now, ∃ t, exec (.synthStopAt id now) s = .next t ∧ t.fault = none ∧ t.Core ∧ State.DecodeTo id s t) ∧
    ∀ ev : EdgeEvent, ev.wf s.params.width = true → (s.inst id).rxValid = true → 1 ≤ (s.inst id).bitPeriod →
      ∃ t, exec (.replayEdge id ev) s = .next t ∧ t.fault = none ∧ t.Core ∧ State.DecodeTo id s t ∧
        t.tau = s.tau ∧ ∀ j, j ≠ id → t.inst j = s.inst j

/-- A decoder pass with a quiet environment replays exactly the queued events, oldest first, empties the edge ring, and
ends with the synthesized stop edge where its threshold has passed (41_decoder.md R141, R142, R155). -/
def Obligations.RxbitsReplaysQueue : Prop :=
  ∀ (s : State) (id : Nat), s.Core → s.AcceptsInternal id → s.Calm → (s.inst id).rxValid = true →
    ∃ t y z, exec (.rxbits id) s = .next t ∧ State.Sets id z s t ∧
      replayAll s.params.width (queuedEdges (s.inst id)) { s.inst id with outE := (s.inst id).inE } = some y ∧
      synthesized s.params (s.tau % s.params.width.modulus) y = some z

/-- A second pass at the same time with no new edges is a no-op (41_decoder.md R159). -/
def Obligations.RxbitsIdempotent : Prop :=
  ∀ (s t : State) (id : Nat), s.Core → s.AcceptsInternal id → s.Calm → exec (.rxbits id) s = .next t →
    exec (.rxbits id) t = .next t

/-- SYNTH_STOP with a quiet environment (41_decoder.md R155, R156), at the counter value `n` it reads: it does nothing while
no byte is in progress, while an edge is queued, or until more than the threshold has passed; then the missing data bits
are filled with the level of the last one, the byte is pushed, and the decoder is idle with the synthesized edge's
timestamp. The form without operands reads the counter; that the operand `now` of 30_encoding.md R100, in the form that
has it, is that counter value is the model's choice (log entry 5). -/
def Obligations.SynthStopCompletesByte : Prop :=
  ∀ (s : State) (id : Nat) (i : Instr) (x : Inst) (delta h n : Nat), s.Core → s.AcceptsInternal id → s.Calm →
    x = s.inst id → x.rxValid = true → delta = synthDelta s.params x.curBit x.bitPeriod → h = (7 - x.curBit).toNat →
    (i = .synthStop id ∧ n = s.tau % s.params.width.modulus ∨
      ∃ now, i = .synthStopAt id now ∧ n = now % s.params.width.modulus) →
    ∃ t, exec i s = .next t ∧
      (x.curBit = 8 ∨ x.inE ≠ x.outE ∨ subW s.params.width n x.lastTs ≤ delta → t = s) ∧
      (x.curBit ≠ 8 → x.inE = x.outE → delta < subW s.params.width n x.lastTs →
        State.Sets id (t.inst id) s t ∧
          x.PushesByte ((x.curByte >>> h) ||| (if x.curByte.getLsbD 7 then 0xFF#8 <<< (8 - h) else 0#8)) (t.inst id) ∧
          t.inst id = { x with
            curBit := 8, curByte := 0#8, lastTs := (x.lastTs + delta) % s.params.width.modulus,
            bytes := (t.inst id).bytes, inB := (t.inst id).inB, byteOvf := (t.inst id).byteOvf })

/-- REPLAY_EDGE of an edge closer than half a bit period to the last accepted one inside a byte writes nothing; in the idle
state no edge is discarded: a start level begins a byte, a stop level only moves `lastTs` (41_decoder.md R145, R146,
R152). -/
def Obligations.ReplayDiscardsOrStarts : Prop :=
  ∀ (s : State) (id : Nat) (ev : EdgeEvent) (x : Inst) (ts : Nat), s.AcceptsInternal id → x = s.inst id →
    ts = eventTs ev → ts < s.params.width.modulus →
    ∃ t, exec (.replayEdge id ev) s = .next t ∧
      (x.curBit ≠ 8 → subW s.params.width ts x.lastTs < x.bitPeriod / 2 → State.Sets id x s t) ∧
      (x.curBit = 8 →
        State.Sets id { x with lastTs := ts, curBit := if eventLevel x.invert ev then 8 else -1 } s t)

/-- REPLAY_EDGE inside a byte that the edge does not complete (41_decoder.md R144, R146, R148, R149, R150): the hidden bits
repeat the last level, the edge's own level is one more data bit. -/
def Obligations.ReplayShiftsDataBits : Prop :=
  ∀ (s : State) (id : Nat) (ev : EdgeEvent) (x : Inst) (ts cycles h : Nat), s.AcceptsInternal id → x = s.inst id →
    ts = eventTs ev → ts < s.params.width.modulus → 1 ≤ x.bitPeriod → -1 ≤ x.curBit → x.curBit ≤ 6 →
    subW s.params.width ts x.lastTs = x.bitPeriod / 2 + cycles →
    h = min (cycles / x.bitPeriod) (7 - x.curBit).toNat → x.curBit + h < 7 →
    ∃ t, exec (.replayEdge id ev) s = .next t ∧
      State.Sets id
        { x with
          lastTs := ts
          curBit := x.curBit + h + 1
          curByte := (((x.curByte >>> h) ||| (if x.curByte.getLsbD 7 then 0xFF#8 <<< (8 - h) else 0#8)) >>> 1) |||
            (if eventLevel x.invert ev then 0x80#8 else 0#8) } s t

/-- REPLAY_EDGE of the edge that completes a byte (41_decoder.md R148, R150, R151, R153): no explicit bit is taken once the
hidden bits have brought `curBit` to 7, the byte is enqueued or lost, and if a bit period is still left the edge is also
examined as the next start bit. -/
def Obligations.ReplayFinalizesByte : Prop :=
  ∀ (s : State) (id : Nat) (ev : EdgeEvent) (x : Inst) (ts cycles h : Nat), s.Core → s.AcceptsInternal id →
    x = s.inst id → x.rxValid = true → ts = eventTs ev → ts < s.params.width.modulus → 1 ≤ x.bitPeriod →
    -1 ≤ x.curBit → x.curBit ≤ 7 → subW s.params.width ts x.lastTs = x.bitPeriod / 2 + cycles →
    h = min (cycles / x.bitPeriod) (7 - x.curBit).toNat → x.curBit + h = 7 →
    ∃ t, exec (.replayEdge id ev) s = .next t ∧ State.Sets id (t.inst id) s t ∧
      x.PushesByte ((x.curByte >>> h) ||| (if x.curByte.getLsbD 7 then 0xFF#8 <<< (8 - h) else 0#8)) (t.inst id) ∧
      t.inst id = { x with
        lastTs := ts
        curByte := 0#8
        curBit := if x.bitPeriod ≤ cycles - h * x.bitPeriod ∧ eventLevel x.invert ev = false then -1 else 8
        bytes := (t.inst id).bytes, inB := (t.inst id).inB, byteOvf := (t.inst id).byteOvf }

/-- The timing tolerance of one interval (41_decoder.md R160): in the data state an edge `n*B + e` cycles after the last
accepted one is taken as `n` slots exactly when `floor(B/2) - B <= e < floor(B/2)`. -/
def Obligations.IntervalTolerance : Prop :=
  ∀ (s : State) (id : Nat) (ev : EdgeEvent) (x : Inst) (ts n : Nat) (e : Int), s.Core → s.AcceptsInternal id →
    x = s.inst id → x.rxValid = true → ts = eventTs ev → ts < s.params.width.modulus → 1 ≤ x.bitPeriod →
    -1 ≤ x.curBit → 1 ≤ n → x.curBit + n ≤ 7 →
    (subW s.params.width ts x.lastTs : Int) = n * x.bitPeriod + e →
    ∃ t, exec (.replayEdge id ev) s = .next t ∧
      ((t.inst id).curBit = x.curBit + n ↔
        ((x.bitPeriod / 2 : Nat) : Int) - x.bitPeriod ≤ e ∧ e < ((x.bitPeriod / 2 : Nat) : Int))

/-- Decoding does not see where the counter wraps (41_decoder.md R144, R161): moving every timestamp by the same number of
cycles modulo `2^W` moves nothing but `lastTs`. -/
def Obligations.WrapInvariance : Prop :=
  ∀ (w : Width) (ts c : Nat) (level : Bool) (x : Inst), ts < w.modulus → x.lastTs < w.modulus →
    replayEdge w (addW w ts c) level { x with lastTs := addW w x.lastTs c } =
      (replayEdge w ts level x).map fun y => { y with lastTs := addW w y.lastTs c }

/-- An ideal waveform captured exactly is received exactly (41_decoder.md R160, with every deviation 0; 30_encoding.md R97,
R98): replaying its edges on an idle decoder with room in the byte ring, and then the synthesized stop edge where one is
due, queues the bytes sent and leaves the decoder idle. -/
def Obligations.WaveformReceived : Prop :=
  ∀ (p : Params) (t0 now : Nat) (bytes : List Byte) (x : Inst),
    2 ≤ x.bitPeriod → 10 * x.bitPeriod < p.width.modulus → x.curBit = 8 → x.curByte = 0#8 → x.inB < x.byteCap →
    x.outB < x.byteCap → (byteQueue x).length + bytes.length < x.byteCap →
    ∃ y, replayAll p.width (waveEdges p.width x.bitPeriod t0 bytes) x = some y ∧
      ((y.curBit ≠ 8 → synthDelta p y.curBit y.bitPeriod < subW p.width now y.lastTs) →
        ∃ z, synthesized p now y = some z ∧ byteQueue z = byteQueue x ++ bytes ∧ z.curBit = 8)

/-! ## The read API -/

/-- AVAILABLE, READ, PEEK, FLUSH and PUMP on an instance that cannot receive return 0, -1, -1, nothing and nothing, and do
nothing else (42_read_api.md R180 to R183, R186). -/
def Obligations.DisabledReceiveResults : Prop :=
  ∀ (s : State) (id : Nat), s.Accepts id → (s.inst id).rxValid = false →
    exec (.available id) s = .next (s.ret id (.natural 0)) ∧ exec (.read id) s = .next (s.ret id (.integer (-1))) ∧
      exec (.peek id) s = .next (s.ret id (.integer (-1))) ∧ exec (.flush id) s = .next (s.ret id .nothing) ∧
      exec (.pump id) s = .next (s.ret id .nothing)

/-- READ (42_read_api.md R181; 60_exceptions.md R286): a decoder pass (`w`), then, after the draw `d` that its accesses take
(70_reset_and_hazards.md R325, `u`), the oldest byte leaves the ring and is returned, or -1 where there is none. -/
def Obligations.ReadTakesOldest : Prop :=
  ∀ (s w u : State) (id : Nat), s.Core → s.Accepts id → (s.inst id).rxValid = true → w = rxbits id s → u = tick w →
    u.fault = none ∧ State.DecodeTo id s u ∧ u.tau = w.tau + (takeDraw 0 w.draws.overhead).1 ∧
      ∃ t, exec (.read id) s = .next t ∧
        (byteQueue (u.inst id) = [] → t = u.ret id (.integer (-1))) ∧
        ∀ b rest, byteQueue (u.inst id) = b :: rest →
          State.Returns id (.integer b.toNat) { u.inst id with outB := (t.inst id).outB } u t ∧
            byteQueue (t.inst id) = rest

/-- PEEK (42_read_api.md R182): as READ, but the byte stays. -/
def Obligations.PeekShowsOldest : Prop :=
  ∀ (s w u : State) (id : Nat), s.Core → s.Accepts id → (s.inst id).rxValid = true → w = rxbits id s → u = tick w →
    u.fault = none ∧ State.DecodeTo id s u ∧ u.tau = w.tau + (takeDraw 0 w.draws.overhead).1 ∧
      (byteQueue (u.inst id) = [] → exec (.peek id) s = .next (u.ret id (.integer (-1)))) ∧
      ∀ b rest, byteQueue (u.inst id) = b :: rest → exec (.peek id) s = .next (u.ret id (.integer b.toNat))

/-- AVAILABLE completes (42_read_api.md R180; 60_exceptions.md R304): a decoder pass (`u`); where it leaves bytes, their
number is the result; where it leaves none, `inYield` is set (`a`), one cooperative yield of `AVAIL_YIELD_US(B)` passes,
which lasts its draw `y` (`b`), `inYield` is cleared (`c`), a second pass follows (`v`), and the result is the number of
bytes then queued. It is at most `NB - 1`. Before it returns, the draw `d` of the count's accesses passes, in which only the
environment acts (70_reset_and_hazards.md R325). Host code issues nothing in the yield. -/
def Obligations.AvailableCounts : Prop :=
  ∀ (s u a b c v : State) (id us : Nat), s.Core → s.Accepts id → s.HostWaits → (s.inst id).rxValid = true →
    u = rxbits id s → us = availYieldUs s.params (s.inst id).bitPeriod →
    a = u.modInst id (fun x => { x with inYield := true }) → b = cooperativeYield (outerHost s) us a →
    c = b.modInst id (fun x => { x with inYield := false }) → v = rxbits id c →
    (byteQueue (u.inst id) ≠ [] →
      exec (.available id) s = .next ((tick u).ret id (.natural (byteQueue (u.inst id)).length)) ∧
        (tick u).fault = none ∧ u.EnvTo (tick u) ∧ (tick u).tau = u.tau + (takeDraw 0 u.draws.overhead).1) ∧
    (byteQueue (u.inst id) = [] →
      exec (.available id) s = .next ((tick v).ret id (.natural (byteQueue (v.inst id)).length)) ∧
        (tick v).fault = none ∧ v.EnvTo (tick v) ∧ (tick v).tau = v.tau + (takeDraw 0 v.draws.overhead).1) ∧
    u.fault = none ∧ State.DecodeTo id s u ∧ b.fault = none ∧ a.EnvTo b ∧
    b.tau = u.tau + (takeDraw (us * cyclesPerMicro s.params) u.draws.yieldFor).1 ∧
    v.fault = none ∧ State.DecodeTo id c v ∧ State.DecodeTo id s v ∧
    (byteQueue (u.inst id)).length < (s.inst id).byteCap ∧ (byteQueue (v.inst id)).length < (s.inst id).byteCap

/-- PUMP (42_read_api.md R186, R185; 60_exceptions.md R308): a decoder pass (`w`), then, after the draw `d` of the count's
accesses (70_reset_and_hazards.md R325, `u`), the receive callback is called once with the number of queued bytes when the
mode says so, and not otherwise. The callback takes the time of its draw, in which only the environment acts: host code
issues nothing in it. -/
def Obligations.PumpCallsReceiver : Prop :=
  ∀ (s w u : State) (id : Nat), s.Core → s.Accepts id → s.HostWaits → (s.inst id).rxValid = true →
    w = rxbits id s → u = tick w →
    u.fault = none ∧ State.DecodeTo id s u ∧ u.tau = w.tau + (takeDraw 0 w.draws.overhead).1 ∧
      (∀ cb, (s.inst id).rxCallback = some cb →
        (match s.params.onReceiveMode with
          | .newly => (byteQueue (s.inst id)).length < (byteQueue (u.inst id)).length
          | .level => 0 < (byteQueue (u.inst id)).length) →
        ∃ v, exec (.pump id) s = .next (v.ret id .nothing) ∧ v.fault = none ∧
          State.EnvTo { u with outputs := .callback u.tau id cb (byteQueue (u.inst id)).length :: u.outputs } v ∧
          v.tau = u.tau + (takeDraw 0 u.draws.callback).1) ∧
      ((s.inst id).rxCallback = none ∨
        (match s.params.onReceiveMode with
          | .newly => (byteQueue (u.inst id)).length ≤ (byteQueue (s.inst id)).length
          | .level => (byteQueue (u.inst id)).length = 0) →
        exec (.pump id) s = .next (u.ret id .nothing))

/-- FLUSH (42_read_api.md R183; 70_reset_and_hazards.md R345): after some time of the environment (`u`) the edge ring is
emptied from the consumer side, and after some more (`v`) the byte ring, and the decoder is idle; `lastTs` and both latches
are not written. An edge captured at `v` is kept, none else. That one captured before `u` is discarded too follows the prose
of R183 (log entry 10). -/
def Obligations.FlushEmptiesRings : Prop :=
  ∀ (s : State) (id : Nat), s.Core → s.Accepts id → (s.inst id).rxValid = true →
    ∃ t u e v, exec (.flush id) s = .next t ∧ u.fault = none ∧ s.EnvTo u ∧
      State.Sets id { u.inst id with outE := (u.inst id).inE } u e ∧ edgeQueue (e.inst id) = [] ∧
      v.fault = none ∧ e.EnvTo v ∧
      State.Returns id .nothing { v.inst id with outB := (v.inst id).inB, curBit := 8, curByte := 0#8 } v t ∧
      byteQueue (t.inst id) = [] ∧ edgeQueue (t.inst id) = edgeQueue (v.inst id) ∧
      ((v.inst id).inE = (e.inst id).inE → edgeQueue (t.inst id) = [])

/-- OVERFLOW (42_read_api.md R184; 10_state.md R51): after the draw `d` its step takes (70_reset_and_hazards.md R325, `u`), it
returns whether either latch is set and clears both, and nothing else changes. -/
def Obligations.OverflowReportsAndClears : Prop :=
  ∀ (s : State) (id : Nat), s.Core → s.Accepts id →
    ∃ t u, exec (.overflow id) s = .next t ∧ u.fault = none ∧ s.EnvTo u ∧
      u.tau = s.tau + (takeDraw 0 s.draws.overhead).1 ∧
      State.Returns id (.boolean ((u.inst id).edgeOvf || (u.inst id).byteOvf))
        { u.inst id with edgeOvf := false, byteOvf := false } u t

/-- ON_RECEIVE stores its operand, `none` included, and does nothing else (42_read_api.md R185). -/
def Obligations.OnReceiveStores : Prop :=
  ∀ (s : State) (id : Nat) (cb : Option Nat), s.Accepts id →
    ∃ t, exec (.onReceive id cb) s = .next t ∧ State.Returns id .nothing { s.inst id with rxCallback := cb } s t

/-! ## The facade -/

/-- CONSTRUCT creates the instance in its reset state (44_port_facade.md R241, R242; 70_reset_and_hazards.md R320, the
elements it specifies), after the draw `d` its steps take (R325, `u`), in which only the environment acts; every other
instance and everything else is unchanged. -/
def Obligations.ConstructCreates : Prop :=
  ∀ (s : State) (id rx tx nb ne : Nat) (inv : Bool), s.Core → s.fault = none → s.ctx = .normal →
    s.constructed id = false →
    ∃ t u x, exec (.construct id rx tx inv nb ne) s = .next t ∧ u.fault = none ∧ s.EnvTo u ∧
      u.tau = s.tau + (takeDraw 0 s.draws.overhead).1 ∧
      t = ({ u with insts := t.insts } : State).ret id .nothing ∧ t.constructed id = true ∧ t.inst id = x ∧
      (∀ j, j ≠ id → t.inst j = u.inst j ∧ t.constructed j = s.constructed j) ∧
      x.fstate = .unconfigured ∧ x.rxPin = rx ∧ x.txPin = tx ∧ x.invert = inv ∧ x.byteCap = nb ∧ x.edgeCap = ne ∧
      (x.oneWire = true ↔ rx = tx) ∧ (x.rxValid = true ↔ rx ∈ s.params.validPins ∧ 1 ≤ nb ∧ 1 ≤ ne) ∧
      (x.txValid = true ↔ tx ∈ s.params.validPins) ∧ x.bitPeriod = 0 ∧ x.inE = 0 ∧ x.outE = 0 ∧ x.inB = 0 ∧
      x.outB = 0 ∧ x.edgeOvf = false ∧ x.byteOvf = false ∧ x.curBit = 8 ∧ x.curByte = 0#8 ∧ x.lastTs = 0 ∧
      x.rxEnabled = false ∧ x.txEnableValid = false ∧ x.rxCallback = none ∧ x.txBusy = false ∧ x.seq = .idle ∧
      x.prevLevel = true ∧ x.inYield = false

/-- CONSTRUCT is accepted only in normal context and for an identifier never constructed before (44_port_facade.md
R243). -/
def Obligations.ConstructChecks : Prop :=
  ∀ (s : State) (id rx tx nb ne : Nat) (inv : Bool), s.fault = none →
    (s.ctx = .interrupt → exec (.construct id rx tx inv nb ne) s = .next { s with fault := some .wrongContext }) ∧
    (s.ctx = .normal → s.constructed id = true →
      exec (.construct id rx tx inv nb ne) s = .next { s with fault := some .instanceExists })

/-- START sets `B = F_HZ div baud`; a baud rate of 0 or less, or one that would give `B = 0`, raises `Fault(BAD_BAUD)`
before any state changes (44_port_facade.md R245). -/
def Obligations.StartBitPeriod : Prop :=
  ∀ (s : State) (id : Nat) (baud : Int), s.Core → s.Accepts id →
    (baud ≤ 0 ∨ s.params.fHz < baud → exec (.start id baud) s = .next { s with fault := some .badBaud }) ∧
    (0 < baud → baud ≤ s.params.fHz →
      ∃ t, exec (.start id baud) s = .next t ∧ t.fault = none ∧ 1 ≤ (t.inst id).bitPeriod ∧
        ((t.inst id).bitPeriod : Int) = (s.params.fHz : Int) / baud)

/-- START's whole effect (44_port_facade.md R244, R246, R247, R252, R253; 70_reset_and_hazards.md R323): the instance is
configured with empty rings, clear latches and an idle decoder, `lastTs`, the callback and the transmit enable kept; a
two-pin port's transmit pin drives the idle level; a receiver is attached and owns its pin, which becomes an input with
pull-up. Other pins, registry entries and instances are unchanged but for captures and the pin's previous owner. -/
def Obligations.StartConfigures : Prop :=
  ∀ (s : State) (id : Nat) (baud : Int) (x : Inst), s.Inv → s.Accepts id → x = s.inst id → 0 < baud →
    baud ≤ s.params.fHz →
    ∃ t, exec (.start id baud) s = .next t ∧ s.RunsTo t ∧ t.result = some .nothing ∧ t.im = s.im ∧
      t.inst id = { x with
        fstate := .configured, bitPeriod := s.params.fHz / baud.toNat, inE := 0, outE := 0, inB := 0, outB := 0,
        edgeOvf := false, byteOvf := false, curBit := 8, curByte := 0#8, rxEnabled := x.rxValid,
        edges := (t.inst id).edges } ∧
      (x.txValid = true → x.oneWire = false → t.pin x.txPin = ⟨.output, !x.invert⟩) ∧
      (x.rxValid = true → t.pin x.rxPin = ⟨.inputPullup, (s.pin x.rxPin).latch⟩ ∧
        cellGet t.reg x.rxPin = some id ∧ x.rxPin ∈ t.attached ∧ (t.pend x.rxPin).count = 0) ∧
      (x.rxValid = false → t.reg = s.reg ∧ t.attached = s.attached) ∧
      State.SamePins ((if x.txValid && !x.oneWire then [x.txPin] else []) ++ (if x.rxValid then [x.rxPin] else []))
        s t ∧
      State.SameRegistry x.rxPin s t ∧
      (x.rxValid = true → State.OthersEvict x.rxPin id s t) ∧ (x.rxValid = false → State.OthersCapture id s t)

/-- ENABLE_RX(true) (44_port_facade.md R252, R253): nothing happens where the instance cannot receive, is not configured, or
is attached already; otherwise it takes its pin over in the idle state. -/
def Obligations.EnableRxAttaches : Prop :=
  ∀ (s : State) (id : Nat) (x : Inst), s.Inv → s.Accepts id → x = s.inst id →
    ((x.rxValid = false ∨ x.fstate ≠ .configured ∨ x.rxEnabled = true) →
      exec (.enableRx id true) s = .next (s.ret id .nothing)) ∧
    (x.rxValid = true → x.fstate = .configured → x.rxEnabled = false →
      ∃ t, exec (.enableRx id true) s = .next t ∧ s.RunsTo t ∧ t.result = some .nothing ∧ t.im = s.im ∧
        t.inst id = { x with curBit := 8, curByte := 0#8, rxEnabled := true } ∧
        t.pin x.rxPin = ⟨.inputPullup, (s.pin x.rxPin).latch⟩ ∧ State.SamePins [x.rxPin] s t ∧
        cellGet t.reg x.rxPin = some id ∧ x.rxPin ∈ t.attached ∧ (t.pend x.rxPin).count = 0 ∧
        State.SameRegistry x.rxPin s t ∧ State.OthersEvict x.rxPin id s t)

/-- ENABLE_RX(false) and STOP are the same operation (44_port_facade.md R250, R252): an attached receiver is detached, its
pin unregistered, its pending capture discarded; rings, latches, decoder, bit period, pins and facade state are kept but
for captures that came first. Otherwise nothing happens. -/
def Obligations.StopDetaches : Prop :=
  ∀ (s : State) (id : Nat) (x : Inst), s.Inv → s.Accepts id → x = s.inst id →
    exec (.stop id) s = exec (.enableRx id false) s ∧
    (x.rxEnabled = false → ∃ t, exec (.stop id) s = .next t ∧ State.Returns id .nothing x s t) ∧
    (x.rxEnabled = true →
      ∃ t z, exec (.stop id) s = .next t ∧ s.RunsTo t ∧ t.result = some .nothing ∧ t.im = s.im ∧ t.pins = s.pins ∧
        x.CapturedTo z ∧ t.inst id = { z with rxEnabled := false } ∧ cellGet t.reg x.rxPin = none ∧
        x.rxPin ∉ t.attached ∧ (t.pend x.rxPin).count = 0 ∧ State.SameRegistry x.rxPin s t ∧
        State.OthersCapture id s t)

/-- DESTRUCT is ENABLE_RX(false) and then `TornDown` (44_port_facade.md R251, R240). -/
def Obligations.DestructTearsDown : Prop :=
  ∀ (s : State) (id : Nat), s.Inv → s.Accepts id →
    ∃ t u, exec (.enableRx id false) s = .next u ∧ exec (.destruct id) s = .next t ∧ u.fault = none ∧
      State.Sets id { u.inst id with fstate := .tornDown } u t

/-- ENABLE_TX (44_port_facade.md R254, R255, R256): no effect on a two-pin port, one that cannot transmit, or one not
configured; on a one-wire port `true` detaches the receiver and lets the pin drive the idle level, `false` releases the
pin and attaches the receiver. -/
def Obligations.EnableTxTurnsLine : Prop :=
  ∀ (s : State) (id : Nat) (x : Inst), s.Inv → s.Accepts id → x = s.inst id →
    (∀ on, (x.oneWire = false ∨ x.txValid = false ∨ x.fstate ≠ .configured) →
      exec (.enableTx id on) s = .next (s.ret id .nothing)) ∧
    (x.oneWire = true → x.txValid = true → x.fstate = .configured →
      (∃ t z, exec (.enableTx id true) s = .next t ∧ s.RunsTo t ∧ t.result = some .nothing ∧ t.im = s.im ∧
        t.pin x.txPin = ⟨.output, !x.invert⟩ ∧ State.SamePins [x.txPin] s t ∧
        x.CapturedTo z ∧ t.inst id = { z with rxEnabled := false } ∧
        (x.rxEnabled = true → cellGet t.reg x.txPin = none ∧ x.txPin ∉ t.attached) ∧
        (x.rxEnabled = false → t.reg = s.reg ∧ t.attached = s.attached) ∧
        State.SameRegistry x.txPin s t ∧ State.OthersCapture id s t) ∧
      ∃ t z, exec (.enableTx id false) s = .next t ∧ s.RunsTo t ∧ t.result = some .nothing ∧ t.im = s.im ∧
        t.pin x.txPin = ⟨.inputPullup, !x.invert⟩ ∧ State.SamePins [x.txPin] s t ∧ x.CapturedTo z ∧
        (x.rxEnabled = true ∨ x.rxValid = false → t.inst id = z ∧ t.reg = s.reg ∧ t.attached = s.attached ∧
          State.OthersCapture id s t) ∧
        (x.rxEnabled = false → x.rxValid = true →
          t.inst id = { z with curBit := 8, curByte := 0#8, rxEnabled := true } ∧
            cellGet t.reg x.txPin = some id ∧ x.txPin ∈ t.attached ∧ State.SameRegistry x.txPin s t ∧
            State.OthersEvict x.txPin id s t))

/-- SET_TX_ENABLE_PIN (44_port_facade.md R257): a valid pin is recorded, driven inactive and made an output; any other
disables transmit enable and touches no pin. -/
def Obligations.SetTxEnablePinEffect : Prop :=
  ∀ (s : State) (id pin : Nat), s.Core → s.Accepts id →
    (pin ∈ s.params.validPins →
      ∃ t, exec (.setTxEnablePin id pin) s = .next t ∧ s.RunsTo t ∧ t.result = some .nothing ∧ t.im = s.im ∧
        t.reg = s.reg ∧ t.attached = s.attached ∧ t.pin pin = ⟨.output, false⟩ ∧ State.SamePins [pin] s t ∧
        Inst.CapturedTo { s.inst id with txEnablePin := pin, txEnableValid := true } (t.inst id) ∧
        State.OthersCapture id s t) ∧
    (pin ∉ s.params.validPins →
      ∃ t, exec (.setTxEnablePin id pin) s = .next t ∧
        State.Returns id .nothing { s.inst id with txEnableValid := false } s t)

/-- BAUDRATE returns `F_HZ div B` when `B >= 1`, else 0; no state is written (44_port_facade.md R249). -/
def Obligations.BaudrateReports : Prop :=
  ∀ (s : State) (id : Nat), s.Accepts id →
    (1 ≤ (s.inst id).bitPeriod →
      exec (.baudrate id) s = .next (s.ret id (.natural (s.params.fHz / (s.inst id).bitPeriod)))) ∧
    ((s.inst id).bitPeriod = 0 → exec (.baudrate id) s = .next (s.ret id (.natural 0)))

/-! ## The transmitter -/

/-- WRITE's checks in their order (43_transmitter.md R212, R213, R229, R230 (a)): 0 where the instance cannot transmit;
`Fault(NOT_STARTED)`; `Fault(ONE_WIRE_TX_NOT_ENABLED)`; 0 for no bytes. In each case nothing else happens. -/
def Obligations.WriteChecks : Prop :=
  ∀ (s : State) (id : Nat) (bytes : List Byte) (x : Inst), s.Accepts id → x = s.inst id →
    (x.txValid = false → exec (.write id bytes) s = .next (s.ret id (.natural 0))) ∧
    (x.txValid = true → x.fstate = .unconfigured →
      exec (.write id bytes) s = .next { s with fault := some .notStarted }) ∧
    (x.txValid = true → x.fstate = .configured → x.oneWire = true → (s.pin x.txPin).mode ≠ .output →
      exec (.write id bytes) s = .next { s with fault := some .oneWireTxNotEnabled }) ∧
    (x.txValid = true → x.fstate = .configured → (x.oneWire = true → (s.pin x.txPin).mode = .output) → bytes = [] →
      exec (.write id bytes) s = .next (s.ret id (.natural 0)))

/-- WRITE completes whatever the draws, the inputs and the captures (43_transmitter.md R212, R218, R228, R232, R233): it
returns the number of bytes, restores the mask, changes no pin's mode and no latch but those of its transmit and
transmit-enable pins, leaves the line idle, and its sequencer is idle again. Host code issues nothing in the yields, so no
command of another instance can fault in one; what such a fault does to the WRITE is log entry 32. -/
def Obligations.WriteCompletes : Prop :=
  ∀ (s : State) (id : Nat) (bytes : List Byte) (x : Inst), s.Core → s.Accepts id → s.HostWaits → x = s.inst id →
    x.txValid = true → x.fstate = .configured → (x.oneWire = true → (s.pin x.txPin).mode = .output) → bytes ≠ [] →
    ∃ t, exec (.write id bytes) s = .next t ∧ s.RunsTo t ∧ t.result = some (.natural bytes.length) ∧ t.im = s.im ∧
      t.reg = s.reg ∧ t.attached = s.attached ∧ (∀ q, (t.pin q).mode = (s.pin q).mode) ∧
      State.SamePins (x.txPin :: if x.txEnableValid then [x.txEnablePin] else []) s t ∧
      ((x.txEnableValid = true → x.txEnablePin ≠ x.txPin) → (t.pin x.txPin).latch = !x.invert) ∧
      (x.txEnableValid = true → (t.pin x.txEnablePin).latch = false) ∧
      t.inst id = { x with
        edges := (t.inst id).edges, inE := (t.inst id).inE, edgeOvf := (t.inst id).edgeOvf,
        outE := (t.inst id).outE, curBit := (t.inst id).curBit, curByte := (t.inst id).curByte,
        lastTs := (t.inst id).lastTs, bytes := (t.inst id).bytes, inB := (t.inst id).inB,
        byteOvf := (t.inst id).byteOvf, deadline := (t.inst id).deadline,
        txBusy := false, seq := .idle, prevLevel := true, savedMask := s.im } ∧
      State.OthersCapture id s t

/-- The ideal waveform (43_transmitter.md R215, R217, R219, R224, R226; 30_encoding.md R97): under the ideal draw, with the
start at the time of the command, the transmit pin is written exactly at the slots where the level changes, each at
`t0 + k*B` with the slot's level, transmit enable brackets the waveform, and WRITE returns at `t0 + 10*n*B`. The bit
period is short enough that no wait exceeds half the counter's range (R223). -/
def Obligations.WriteWaveform : Prop :=
  ∀ (s : State) (id : Nat) (bytes : List Byte) (x : Inst) (tEnd : Nat), s.Core → s.Accepts id → s.Ideal →
    x = s.inst id → x.txValid = true → x.fstate = .configured →
    (x.oneWire = true → (s.pin x.txPin).mode = .output) → bytes ≠ [] → 10 * x.bitPeriod < s.params.width.half →
    tEnd = s.tau + 10 * bytes.length * x.bitPeriod →
    ∃ t, exec (.write id bytes) s = .next t ∧ t.tau = tEnd ∧ (t.inst id).deadline = tEnd % s.params.width.modulus ∧
      t.outputs =
        .returned tEnd id (.natural bytes.length) ::
          ((if x.txEnableValid then [.pinWrite tEnd x.txEnablePin false] else []) ++
            (waveform x.txPin x.invert x.bitPeriod s.tau bytes).reverse ++
            (if x.txEnableValid then [.pinWrite s.tau x.txEnablePin true] else []) ++ s.outputs)

/-- WAIT_BIT_CYCLES (43_transmitter.md R220 to R223) under every draw: from the first reading of the counter at `call`, the
yield portion, if a whole microsecond remains, takes the draw `y` and ends at `tY`; the spin reads the counter first at
`tS`, which is `tY` but for the draw `d` of 00_scope.md R12; and it returns at `max(T_d, T_y) + late`, with
`T_d = call + remaining` or, for a deadline already past, `call`. The formula holds while the spin starts at most half
the counter's range after the deadline; beyond that the deadline reads as being in the future again and is waited for
(R223). Under the ideal draw that is the deadline itself. Only the environment acts meanwhile, and interrupts are masked
again: host code issues nothing in the yield. `ov k` is the `k`-th draw `d` of the operation. -/
def Obligations.WaitReachesDeadline : Prop :=
  ∀ (s : State) (id d call y tY tS late : Nat) (remaining : Int) (ov : Nat → Nat), s.Core → s.AcceptsInternal id →
    s.HostWaits → s.im = true → (s.inst id).inYield = false → d < s.params.width.modulus →
    ov = (fun k => (s.draws.overhead[k]?).getD 0) → late = (takeDraw 0 s.draws.late).1 →
    call = s.tau + ov 0 →
    remaining = signedW s.params.width (subW s.params.width d (call % s.params.width.modulus)) →
    y = (takeDraw (remaining.toNat / cyclesPerMicro s.params * cyclesPerMicro s.params) s.draws.yieldFor).1 →
    (remaining < cyclesPerMicro s.params ∧ tY = call ∧ tS = tY + ov 1 ∨
      (cyclesPerMicro s.params : Int) ≤ remaining ∧ (s.inst id).savedMask = true ∧ tY = call + y + ov 1 ∧
        tS = tY + ov 2 ∨
      (cyclesPerMicro s.params : Int) ≤ remaining ∧ (s.inst id).savedMask = false ∧ tY = call + ov 1 + y + ov 2 ∧
        tS = tY + ov 3) →
    ∃ t, exec (.waitBitCycles id d) s = .next t ∧ t.fault = none ∧ s.EnvTo t ∧
      ((tS : Int) ≤ call + remaining + s.params.width.half → t.tau = max (call + remaining.toNat) tS + late) ∧
      t.tau =
        tS + (signedW s.params.width (subW s.params.width d (tS % s.params.width.modulus))).toNat + late ∧
      (s.draws = .ideal → t.tau = s.tau + remaining.toNat)

/-- Interrupts are unmasked in the yield portion of WAIT_BIT_CYCLES and only there (43_transmitter.md R220, R221;
60_exceptions.md R291): under the ideal draw, and with no input change to come, a capture that waits for the mask runs at
the time of the call where at least one whole microsecond remains and WRITE had found interrupts unmasked, and does not run
where either fails. For an instance with `B < CYC_US` R231 and 70_reset_and_hazards.md R333 say otherwise of the first
clause; that R220 and R221 hold there too is the model's choice (log entry 31). -/
def Obligations.YieldPortionUnmasks : Prop :=
  ∀ (s : State) (id d p j : Nat) (remaining : Int), s.Core → s.AcceptsInternal id → s.Ideal → s.inputs = [] →
    s.im = true → (s.inst id).inYield = false → d < s.params.width.modulus →
    remaining = signedW s.params.width (subW s.params.width d (s.tau % s.params.width.modulus)) →
    s.pend p = ⟨1, none⟩ → cellGet s.reg p = some j → s.constructed j = true → (s.inst j).rxPin = p →
    (s.inst j).rxEnabled = true →
    ∃ t, exec (.waitBitCycles id d) s = .next t ∧ t.fault = none ∧ t.im = true ∧
      ((s.inst id).savedMask = false → (cyclesPerMicro s.params : Int) ≤ remaining →
        (t.pend p).count = 0 ∧
          (s.inst j).PushesEdge (packEdge (s.tau % s.params.width.modulus) (s.lineLevel p)) (t.inst j)) ∧
      ((s.inst id).savedMask = true ∨ remaining < cyclesPerMicro s.params →
        (t.pend p).count = 1 ∧ t.inst j = s.inst j)

/-! ## Time -/

/-- "Under the ideal draw, the only operations that let time pass are WAIT_BIT_CYCLES … and AVAILABLE's yield"
(70_reset_and_hazards.md R325): every other operation, CAPTURE included, ends at the time it begins. WRITE is left out
because it waits; host code issues nothing in a callback of PUMP. -/
def Obligations.IdealDrawTakesNoTime : Prop :=
  ∀ (i : Instr) (s t : State), s.Core → s.Ideal → (∀ id bytes, i ≠ .write id bytes) → (∀ id, i ≠ .available id) →
    (∀ id d, i ≠ .waitBitCycles id d) → exec i s = .next t → t.tau = s.tau
end

