-- ==== Sys2Proof/Laws/Cells.lean ====
section
/-! SUPPORT. The laws of lists of cells: what reads see after a write, and that every operation keeps the canonical
form. -/

namespace Sys2Proof.Machine

section Cells
variable {α : Type}

theorem cellGet_cellSet_same (m : List (Nat × α)) (k : Nat) (v : α) : cellGet (cellSet m k v) k = some v := by
  induction m with
  | nil => simp [cellSet, cellGet]
  | cons e m ih =>
    simp only [cellSet]
    split
    · simp [cellGet]
    · split
      · simp [cellGet]
      · simp only [cellGet]
        rw [if_neg (by omega)]
        exact ih

theorem cellGet_cellSet_other (m : List (Nat × α)) {k j : Nat} (v : α) (h : j ≠ k) :
    cellGet (cellSet m k v) j = cellGet m j := by
  induction m with
  | nil => simp [cellSet, cellGet, Ne.symm h]
  | cons e m ih =>
    simp only [cellSet]
    split
    · simp [cellGet, Ne.symm h]
    · split
      · rename_i h2
        simp [cellGet, Ne.symm h, ← h2]
      · simp only [cellGet, ih]

theorem cellGet_cellSet (m : List (Nat × α)) (k j : Nat) (v : α) :
    cellGet (cellSet m k v) j = if j = k then some v else cellGet m j := by
  split
  · next h => subst h; exact cellGet_cellSet_same m j v
  · next h => exact cellGet_cellSet_other m v h

theorem cellGet_cellDel (m : List (Nat × α)) (k j : Nat) :
    cellGet (cellDel m k) j = if j = k then none else cellGet m j := by
  induction m with
  | nil => simp [cellDel, cellGet]
  | cons e m ih =>
    simp only [cellDel] at ih ⊢
    by_cases he : e.1 = k
    · simp only [List.filter_cons, he, ne_eq, not_true_eq_false, decide_false, Bool.false_eq_true, if_false, ih,
        cellGet]
      by_cases hj : j = k
      · simp [hj]
      · simp [hj, Ne.symm hj]
    · simp only [List.filter_cons, he, ne_eq, not_false_eq_true, decide_true, if_true, cellGet, ih]
      by_cases hj : j = k
      · subst hj; simp [he]
      · simp [hj]

theorem cellGet_cellMod (m : List (Nat × α)) (k j : Nat) (f : α → α) :
    cellGet (cellMod m k f) j = if j = k then (cellGet m j).map f else cellGet m j := by
  induction m with
  | nil => simp [cellMod, cellGet]
  | cons e m ih =>
    simp only [cellMod, List.map_cons, cellGet] at ih ⊢
    by_cases he : e.1 = k
    · simp only [he, if_true]
      by_cases hj : j = k
      · simp [hj]
      · simp only [Ne.symm hj, if_false, ih, hj]
    · simp only [he, if_false]
      by_cases hj : e.1 = j
      · simp [hj, show j ≠ k from fun h => he (hj.trans h)]
      · simp only [hj, if_false, ih]

theorem cellMod_keys (m : List (Nat × α)) (k : Nat) (f : α → α) :
    (cellMod m k f).map Prod.fst = m.map Prod.fst := by
  simp only [cellMod, List.map_map]
  refine List.map_congr_left fun e _ => ?_
  simp only [Function.comp]
  split <;> simp_all

theorem cellGet_mem {m : List (Nat × α)} {k : Nat} {v : α} (h : cellGet m k = some v) : (k, v) ∈ m := by
  induction m with
  | nil => simp [cellGet] at h
  | cons e m ih =>
    simp only [cellGet] at h
    split at h
    · next he => cases h; subst he; exact List.mem_cons_self
    · exact List.mem_cons_of_mem _ (ih h)

theorem cellGet_of_mem {m : List (Nat × α)} {k : Nat} {v : α} (hr : Cells.rising m) (h : (k, v) ∈ m) :
    cellGet m k = some v := by
  induction m with
  | nil => simp at h
  | cons e m ih =>
    rw [Cells.rising, List.pairwise_cons] at hr
    simp only [cellGet]
    rcases List.mem_cons.1 h with h | h
    · subst h; simp
    · have := hr.1 _ h
      rw [if_neg (by simp at this; omega)]
      exact ih hr.2 h

theorem cellGet_isSome_iff (m : List (Nat × α)) (k : Nat) : (cellGet m k).isSome = true ↔ k ∈ m.map Prod.fst := by
  induction m with
  | nil => simp [cellGet]
  | cons e m ih =>
    simp only [cellGet, List.map_cons, List.mem_cons]
    split
    · next h => simp [h]
    · next h => rw [ih]; constructor
                · exact Or.inr
                · rintro (h' | h')
                  · exact absurd h'.symm h
                  · exact h'

/-! ### Default-valued storage -/

variable [DecidableEq α]

theorem cellRead_cellWrite (d : α) (m : List (Nat × α)) (k j : Nat) (v : α) :
    cellRead d (cellWrite d m k v) j = if j = k then v else cellRead d m j := by
  simp only [cellRead, cellWrite]
  split
  · next h => rw [cellGet_cellDel]; split <;> simp [h]
  · rw [cellGet_cellSet]; split <;> simp

@[simp] theorem cellRead_cellWrite_same (d : α) (m : List (Nat × α)) (k : Nat) (v : α) :
    cellRead d (cellWrite d m k v) k = v := by
  simp [cellRead_cellWrite]

theorem cellRead_cellWrite_other (d : α) (m : List (Nat × α)) {k j : Nat} (v : α) (h : j ≠ k) :
    cellRead d (cellWrite d m k v) j = cellRead d m j := by
  simp [cellRead_cellWrite, h]

end Cells

/-! ### The canonical form -/

section Canonical
variable {α : Type}

theorem mem_cellSet {m : List (Nat × α)} {k : Nat} {v : α} {e : Nat × α} (h : e ∈ cellSet m k v) :
    e = (k, v) ∨ e ∈ m := by
  induction m with
  | nil => simp [cellSet] at h; exact Or.inl h
  | cons a m ih =>
    simp only [cellSet] at h
    split at h
    · rcases List.mem_cons.1 h with h | h
      · exact Or.inl h
      · exact Or.inr h
    · split at h
      · rcases List.mem_cons.1 h with h | h
        · exact Or.inl h
        · exact Or.inr (List.mem_cons_of_mem _ h)
      · rcases List.mem_cons.1 h with h | h
        · exact Or.inr (h ▸ List.mem_cons_self)
        · rcases ih h with h | h
          · exact Or.inl h
          · exact Or.inr (List.mem_cons_of_mem _ h)

theorem cellSet_rising {m : List (Nat × α)} (k : Nat) (v : α) (h : Cells.rising m) :
    Cells.rising (cellSet m k v) := by
  induction m with
  | nil => simp [cellSet, Cells.rising]
  | cons a m ih =>
    have h' := List.pairwise_cons.1 h
    simp only [cellSet]
    split
    · next hk =>
      refine List.pairwise_cons.2 ⟨fun b hb => ?_, h⟩
      rcases List.mem_cons.1 hb with hb | hb
      · subst hb; exact hk
      · exact Nat.lt_trans hk (h'.1 b hb)
    · split
      · next hk hk2 =>
        refine List.pairwise_cons.2 ⟨fun b hb => ?_, h'.2⟩
        have := h'.1 b hb
        simp only; omega
      · next hk hk2 =>
        refine List.pairwise_cons.2 ⟨fun b hb => ?_, ih h'.2⟩
        rcases mem_cellSet hb with hb | hb
        · subst hb; simp only; omega
        · exact h'.1 b hb

theorem cellDel_rising {m : List (Nat × α)} (k : Nat) (h : Cells.rising m) : Cells.rising (cellDel m k) :=
  List.Pairwise.filter _ h

theorem mem_cellDel {m : List (Nat × α)} {k : Nat} {e : Nat × α} (h : e ∈ cellDel m k) : e ∈ m :=
  (List.mem_filter.1 h).1

theorem rising_of_keys {β : Type} {m : List (Nat × α)} {n : List (Nat × β)} (hk : n.map Prod.fst = m.map Prod.fst)
    (h : Cells.rising m) : Cells.rising n := by
  have h1 : (m.map Prod.fst).Pairwise (· < ·) := List.pairwise_map.2 h
  rw [← hk] at h1
  exact List.pairwise_map.1 h1

theorem cellMod_rising {m : List (Nat × α)} (k : Nat) (f : α → α) (h : Cells.rising m) :
    Cells.rising (cellMod m k f) :=
  rising_of_keys (cellMod_keys m k f) h

theorem cellWrite_wf [DecidableEq α] {d : α} {m : List (Nat × α)} (k : Nat) (v : α) (h : Cells.wf d m) :
    Cells.wf d (cellWrite d m k v) := by
  unfold cellWrite
  split
  · exact ⟨cellDel_rising k h.1, fun e he => h.2 e (mem_cellDel he)⟩
  · next hv =>
    refine ⟨cellSet_rising k v h.1, fun e he => ?_⟩
    rcases mem_cellSet he with rfl | he
    · exact hv
    · exact h.2 e he

theorem mem_cellWrite [DecidableEq α] {d : α} {m : List (Nat × α)} {k : Nat} {v : α} {e : Nat × α}
    (h : e ∈ cellWrite d m k v) : e = (k, v) ∨ e ∈ m := by
  unfold cellWrite at h
  split at h
  · exact Or.inr (mem_cellDel h)
  · exact mem_cellSet h

end Canonical

/-! ### Lists of pins -/

theorem mem_pinInsert (ps : List Nat) (p q : Nat) : q ∈ pinInsert ps p ↔ q = p ∨ q ∈ ps := by
  induction ps with
  | nil => simp [pinInsert]
  | cons a ps ih =>
    simp only [pinInsert]
    split
    · simp
    · split
      · next h => subst h; simp
      · simp only [List.mem_cons, ih]; tauto

theorem pinInsert_rising {ps : List Nat} (p : Nat) (h : ps.Pairwise (· < ·)) :
    (pinInsert ps p).Pairwise (· < ·) := by
  induction ps with
  | nil => simp [pinInsert]
  | cons a ps ih =>
    have h' := List.pairwise_cons.1 h
    simp only [pinInsert]
    split
    · next hk =>
      refine List.pairwise_cons.2 ⟨fun b hb => ?_, h⟩
      rcases List.mem_cons.1 hb with hb | hb
      · omega
      · exact Nat.lt_trans hk (h'.1 b hb)
    · split
      · exact h
      · refine List.pairwise_cons.2 ⟨fun b hb => ?_, ih h'.2⟩
        rcases (mem_pinInsert _ _ _).1 hb with hb | hb
        · omega
        · exact h'.1 b hb

end Sys2Proof.Machine
end

