-- ==== Sys2Proof/Laws/State.lean ====
section
/-! SUPPORT. One lemma per field per update of the state, true by `rfl`, and the same for the accessors, so that no
later proof unfolds a record update. -/

namespace Sys2Proof.Machine

/-! ### putInst -/

section
variable (s : State) (id : Nat) (x : Inst)

@[simp] theorem putInst_params : (s.putInst id x).params = s.params := rfl
@[simp] theorem putInst_insts : (s.putInst id x).insts = cellSet s.insts id x := rfl
@[simp] theorem putInst_pins : (s.putInst id x).pins = s.pins := rfl
@[simp] theorem putInst_attached : (s.putInst id x).attached = s.attached := rfl
@[simp] theorem putInst_pending : (s.putInst id x).pending = s.pending := rfl
@[simp] theorem putInst_reg : (s.putInst id x).reg = s.reg := rfl
@[simp] theorem putInst_im : (s.putInst id x).im = s.im := rfl
@[simp] theorem putInst_tau : (s.putInst id x).tau = s.tau := rfl
@[simp] theorem putInst_ctx : (s.putInst id x).ctx = s.ctx := rfl
@[simp] theorem putInst_issuer : (s.putInst id x).issuer = s.issuer := rfl
@[simp] theorem putInst_fault : (s.putInst id x).fault = s.fault := rfl
@[simp] theorem putInst_driven : (s.putInst id x).driven = s.driven := rfl
@[simp] theorem putInst_wires : (s.putInst id x).wires = s.wires := rfl
@[simp] theorem putInst_inputs : (s.putInst id x).inputs = s.inputs := rfl
@[simp] theorem putInst_hostQueue : (s.putInst id x).hostQueue = s.hostQueue := rfl
@[simp] theorem putInst_draws : (s.putInst id x).draws = s.draws := rfl
@[simp] theorem putInst_result : (s.putInst id x).result = s.result := rfl
@[simp] theorem putInst_outputs : (s.putInst id x).outputs = s.outputs := rfl
@[simp] theorem putInst_pin (q : Nat) : (s.putInst id x).pin q = s.pin q := rfl
@[simp] theorem putInst_pend (q : Nat) : (s.putInst id x).pend q = s.pend q := rfl
@[simp] theorem putInst_stopped : (s.putInst id x).stopped = s.stopped := rfl

end

/-! ### modInst -/

section
variable (s : State) (id : Nat) (f : Inst → Inst)

@[simp] theorem modInst_params : (s.modInst id f).params = s.params := rfl
@[simp] theorem modInst_insts : (s.modInst id f).insts = cellMod s.insts id f := rfl
@[simp] theorem modInst_pins : (s.modInst id f).pins = s.pins := rfl
@[simp] theorem modInst_attached : (s.modInst id f).attached = s.attached := rfl
@[simp] theorem modInst_pending : (s.modInst id f).pending = s.pending := rfl
@[simp] theorem modInst_reg : (s.modInst id f).reg = s.reg := rfl
@[simp] theorem modInst_im : (s.modInst id f).im = s.im := rfl
@[simp] theorem modInst_tau : (s.modInst id f).tau = s.tau := rfl
@[simp] theorem modInst_ctx : (s.modInst id f).ctx = s.ctx := rfl
@[simp] theorem modInst_issuer : (s.modInst id f).issuer = s.issuer := rfl
@[simp] theorem modInst_fault : (s.modInst id f).fault = s.fault := rfl
@[simp] theorem modInst_driven : (s.modInst id f).driven = s.driven := rfl
@[simp] theorem modInst_wires : (s.modInst id f).wires = s.wires := rfl
@[simp] theorem modInst_inputs : (s.modInst id f).inputs = s.inputs := rfl
@[simp] theorem modInst_hostQueue : (s.modInst id f).hostQueue = s.hostQueue := rfl
@[simp] theorem modInst_draws : (s.modInst id f).draws = s.draws := rfl
@[simp] theorem modInst_result : (s.modInst id f).result = s.result := rfl
@[simp] theorem modInst_outputs : (s.modInst id f).outputs = s.outputs := rfl
@[simp] theorem modInst_pin (q : Nat) : (s.modInst id f).pin q = s.pin q := rfl
@[simp] theorem modInst_pend (q : Nat) : (s.modInst id f).pend q = s.pend q := rfl
@[simp] theorem modInst_stopped : (s.modInst id f).stopped = s.stopped := rfl

end

/-! ### raise -/

section
variable (s : State) (c : FaultCode)

@[simp] theorem raise_params : (s.raise c).params = s.params := rfl
@[simp] theorem raise_insts : (s.raise c).insts = s.insts := rfl
@[simp] theorem raise_pins : (s.raise c).pins = s.pins := rfl
@[simp] theorem raise_attached : (s.raise c).attached = s.attached := rfl
@[simp] theorem raise_pending : (s.raise c).pending = s.pending := rfl
@[simp] theorem raise_reg : (s.raise c).reg = s.reg := rfl
@[simp] theorem raise_im : (s.raise c).im = s.im := rfl
@[simp] theorem raise_tau : (s.raise c).tau = s.tau := rfl
@[simp] theorem raise_ctx : (s.raise c).ctx = s.ctx := rfl
@[simp] theorem raise_issuer : (s.raise c).issuer = s.issuer := rfl
@[simp] theorem raise_fault : (s.raise c).fault = some c := rfl
@[simp] theorem raise_driven : (s.raise c).driven = s.driven := rfl
@[simp] theorem raise_wires : (s.raise c).wires = s.wires := rfl
@[simp] theorem raise_inputs : (s.raise c).inputs = s.inputs := rfl
@[simp] theorem raise_hostQueue : (s.raise c).hostQueue = s.hostQueue := rfl
@[simp] theorem raise_draws : (s.raise c).draws = s.draws := rfl
@[simp] theorem raise_result : (s.raise c).result = s.result := rfl
@[simp] theorem raise_outputs : (s.raise c).outputs = s.outputs := rfl
@[simp] theorem raise_inst (i : Nat) : (s.raise c).inst i = s.inst i := rfl
@[simp] theorem raise_constructed (i : Nat) : (s.raise c).constructed i = s.constructed i := rfl
@[simp] theorem raise_pin (q : Nat) : (s.raise c).pin q = s.pin q := rfl
@[simp] theorem raise_pend (q : Nat) : (s.raise c).pend q = s.pend q := rfl

end

/-! ### ret -/

section
variable (s : State) (id : Nat) (r : Result)

@[simp] theorem ret_params : (s.ret id r).params = s.params := rfl
@[simp] theorem ret_insts : (s.ret id r).insts = s.insts := rfl
@[simp] theorem ret_pins : (s.ret id r).pins = s.pins := rfl
@[simp] theorem ret_attached : (s.ret id r).attached = s.attached := rfl
@[simp] theorem ret_pending : (s.ret id r).pending = s.pending := rfl
@[simp] theorem ret_reg : (s.ret id r).reg = s.reg := rfl
@[simp] theorem ret_im : (s.ret id r).im = s.im := rfl
@[simp] theorem ret_tau : (s.ret id r).tau = s.tau := rfl
@[simp] theorem ret_ctx : (s.ret id r).ctx = s.ctx := rfl
@[simp] theorem ret_issuer : (s.ret id r).issuer = s.issuer := rfl
@[simp] theorem ret_fault : (s.ret id r).fault = s.fault := rfl
@[simp] theorem ret_driven : (s.ret id r).driven = s.driven := rfl
@[simp] theorem ret_wires : (s.ret id r).wires = s.wires := rfl
@[simp] theorem ret_inputs : (s.ret id r).inputs = s.inputs := rfl
@[simp] theorem ret_hostQueue : (s.ret id r).hostQueue = s.hostQueue := rfl
@[simp] theorem ret_draws : (s.ret id r).draws = s.draws := rfl
@[simp] theorem ret_result : (s.ret id r).result = some r := rfl
@[simp] theorem ret_outputs : (s.ret id r).outputs = .returned s.tau id r :: s.outputs := rfl
@[simp] theorem ret_inst (i : Nat) : (s.ret id r).inst i = s.inst i := rfl
@[simp] theorem ret_constructed (i : Nat) : (s.ret id r).constructed i = s.constructed i := rfl
@[simp] theorem ret_pin (q : Nat) : (s.ret id r).pin q = s.pin q := rfl
@[simp] theorem ret_pend (q : Nat) : (s.ret id r).pend q = s.pend q := rfl
@[simp] theorem ret_stopped : (s.ret id r).stopped = s.stopped := rfl

end

/-! ### setPin -/

section
variable (s : State) (p : Nat) (v : Pin)

@[simp] theorem setPin_params : (s.setPin p v).params = s.params := rfl
@[simp] theorem setPin_insts : (s.setPin p v).insts = s.insts := rfl
@[simp] theorem setPin_pins : (s.setPin p v).pins = cellWrite Pin.boot s.pins p v := rfl
@[simp] theorem setPin_attached : (s.setPin p v).attached = s.attached := rfl
@[simp] theorem setPin_pending : (s.setPin p v).pending = s.pending := rfl
@[simp] theorem setPin_reg : (s.setPin p v).reg = s.reg := rfl
@[simp] theorem setPin_im : (s.setPin p v).im = s.im := rfl
@[simp] theorem setPin_tau : (s.setPin p v).tau = s.tau := rfl
@[simp] theorem setPin_ctx : (s.setPin p v).ctx = s.ctx := rfl
@[simp] theorem setPin_issuer : (s.setPin p v).issuer = s.issuer := rfl
@[simp] theorem setPin_fault : (s.setPin p v).fault = s.fault := rfl
@[simp] theorem setPin_driven : (s.setPin p v).driven = s.driven := rfl
@[simp] theorem setPin_wires : (s.setPin p v).wires = s.wires := rfl
@[simp] theorem setPin_inputs : (s.setPin p v).inputs = s.inputs := rfl
@[simp] theorem setPin_hostQueue : (s.setPin p v).hostQueue = s.hostQueue := rfl
@[simp] theorem setPin_draws : (s.setPin p v).draws = s.draws := rfl
@[simp] theorem setPin_result : (s.setPin p v).result = s.result := rfl
@[simp] theorem setPin_outputs : (s.setPin p v).outputs = s.outputs := rfl
@[simp] theorem setPin_inst (i : Nat) : (s.setPin p v).inst i = s.inst i := rfl
@[simp] theorem setPin_constructed (i : Nat) : (s.setPin p v).constructed i = s.constructed i := rfl
@[simp] theorem setPin_pend (q : Nat) : (s.setPin p v).pend q = s.pend q := rfl
@[simp] theorem setPin_stopped : (s.setPin p v).stopped = s.stopped := rfl

end

/-! ### setPend -/

section
variable (s : State) (p : Nat) (v : Pending)

@[simp] theorem setPend_params : (s.setPend p v).params = s.params := rfl
@[simp] theorem setPend_insts : (s.setPend p v).insts = s.insts := rfl
@[simp] theorem setPend_pins : (s.setPend p v).pins = s.pins := rfl
@[simp] theorem setPend_attached : (s.setPend p v).attached = s.attached := rfl
@[simp] theorem setPend_pending : (s.setPend p v).pending = cellWrite Pending.clear s.pending p v := rfl
@[simp] theorem setPend_reg : (s.setPend p v).reg = s.reg := rfl
@[simp] theorem setPend_im : (s.setPend p v).im = s.im := rfl
@[simp] theorem setPend_tau : (s.setPend p v).tau = s.tau := rfl
@[simp] theorem setPend_ctx : (s.setPend p v).ctx = s.ctx := rfl
@[simp] theorem setPend_issuer : (s.setPend p v).issuer = s.issuer := rfl
@[simp] theorem setPend_fault : (s.setPend p v).fault = s.fault := rfl
@[simp] theorem setPend_driven : (s.setPend p v).driven = s.driven := rfl
@[simp] theorem setPend_wires : (s.setPend p v).wires = s.wires := rfl
@[simp] theorem setPend_inputs : (s.setPend p v).inputs = s.inputs := rfl
@[simp] theorem setPend_hostQueue : (s.setPend p v).hostQueue = s.hostQueue := rfl
@[simp] theorem setPend_draws : (s.setPend p v).draws = s.draws := rfl
@[simp] theorem setPend_result : (s.setPend p v).result = s.result := rfl
@[simp] theorem setPend_outputs : (s.setPend p v).outputs = s.outputs := rfl
@[simp] theorem setPend_inst (i : Nat) : (s.setPend p v).inst i = s.inst i := rfl
@[simp] theorem setPend_constructed (i : Nat) : (s.setPend p v).constructed i = s.constructed i := rfl
@[simp] theorem setPend_pin (q : Nat) : (s.setPend p v).pin q = s.pin q := rfl
@[simp] theorem setPend_stopped : (s.setPend p v).stopped = s.stopped := rfl

end

/-! ### atTime -/

section
variable (s : State) (t : Nat)

@[simp] theorem atTime_params : (s.atTime t).params = s.params := rfl
@[simp] theorem atTime_insts : (s.atTime t).insts = s.insts := rfl
@[simp] theorem atTime_pins : (s.atTime t).pins = s.pins := rfl
@[simp] theorem atTime_attached : (s.atTime t).attached = s.attached := rfl
@[simp] theorem atTime_pending : (s.atTime t).pending = s.pending := rfl
@[simp] theorem atTime_reg : (s.atTime t).reg = s.reg := rfl
@[simp] theorem atTime_im : (s.atTime t).im = s.im := rfl
@[simp] theorem atTime_tau : (s.atTime t).tau = max s.tau t := rfl
@[simp] theorem atTime_ctx : (s.atTime t).ctx = s.ctx := rfl
@[simp] theorem atTime_issuer : (s.atTime t).issuer = s.issuer := rfl
@[simp] theorem atTime_fault : (s.atTime t).fault = s.fault := rfl
@[simp] theorem atTime_driven : (s.atTime t).driven = s.driven := rfl
@[simp] theorem atTime_wires : (s.atTime t).wires = s.wires := rfl
@[simp] theorem atTime_inputs : (s.atTime t).inputs = s.inputs := rfl
@[simp] theorem atTime_hostQueue : (s.atTime t).hostQueue = s.hostQueue := rfl
@[simp] theorem atTime_draws : (s.atTime t).draws = s.draws := rfl
@[simp] theorem atTime_result : (s.atTime t).result = s.result := rfl
@[simp] theorem atTime_outputs : (s.atTime t).outputs = s.outputs := rfl
@[simp] theorem atTime_inst (i : Nat) : (s.atTime t).inst i = s.inst i := rfl
@[simp] theorem atTime_constructed (i : Nat) : (s.atTime t).constructed i = s.constructed i := rfl
@[simp] theorem atTime_pin (q : Nat) : (s.atTime t).pin q = s.pin q := rfl
@[simp] theorem atTime_pend (q : Nat) : (s.atTime t).pend q = s.pend q := rfl
@[simp] theorem atTime_stopped : (s.atTime t).stopped = s.stopped := rfl

end

/-! ### Reading back what an update wrote -/

theorem inst_putInst (s : State) (id : Nat) (x : Inst) (j : Nat) :
    (s.putInst id x).inst j = if j = id then x else s.inst j := by
  simp only [State.inst, putInst_insts, cellGet_cellSet]
  split <;> simp

theorem constructed_putInst (s : State) (id : Nat) (x : Inst) (j : Nat) :
    (s.putInst id x).constructed j = (decide (j = id) || s.constructed j) := by
  simp only [State.constructed, putInst_insts, cellGet_cellSet]
  split <;> simp_all

@[simp] theorem inst_modInst_same (s : State) (id : Nat) (f : Inst → Inst) (h : s.constructed id = true) :
    (s.modInst id f).inst id = f (s.inst id) := by
  simp only [State.inst, State.constructed, modInst_insts, cellGet_cellMod] at h ⊢
  obtain ⟨x, hx⟩ := Option.isSome_iff_exists.1 h
  simp [hx]

@[simp] theorem inst_modInst_other (s : State) {id j : Nat} (f : Inst → Inst) (h : j ≠ id) :
    (s.modInst id f).inst j = s.inst j := by
  simp [State.inst, cellGet_cellMod, h]

@[simp] theorem constructed_modInst (s : State) (id : Nat) (f : Inst → Inst) (j : Nat) :
    (s.modInst id f).constructed j = s.constructed j := by
  simp only [State.constructed, modInst_insts, cellGet_cellMod]
  split <;> simp

theorem pin_setPin (s : State) (p : Nat) (v : Pin) (q : Nat) :
    (s.setPin p v).pin q = if q = p then v else s.pin q := by
  simp [State.pin, cellRead_cellWrite]

theorem pend_setPend (s : State) (p : Nat) (v : Pending) (q : Nat) :
    (s.setPend p v).pend q = if q = p then v else s.pend q := by
  simp [State.pend, cellRead_cellWrite]

@[simp] theorem pin_setPin_same (s : State) (p : Nat) (v : Pin) : (s.setPin p v).pin p = v := by simp [pin_setPin]

@[simp] theorem pend_setPend_same (s : State) (p : Nat) (v : Pending) : (s.setPend p v).pend p = v := by
  simp [pend_setPend]

@[simp] theorem raise_stopped (s : State) (c : FaultCode) : (s.raise c).stopped = true := rfl

theorem stopped_iff (s : State) : s.stopped = true ↔ s.fault ≠ none := by
  simp [State.stopped, Option.isSome_iff_ne_none]

@[simp] theorem not_stopped_iff (s : State) : s.stopped = false ↔ s.fault = none := by
  simp [State.stopped]

/-- An instance read from the map is the constructed one's state. -/
theorem cellGet_inst {s : State} {id : Nat} (h : s.constructed id = true) : cellGet s.insts id = some (s.inst id) := by
  simp only [State.constructed, State.inst] at h ⊢
  obtain ⟨x, hx⟩ := Option.isSome_iff_exists.1 h
  simp [hx]

theorem constructed_of_cellGet {s : State} {id : Nat} {x : Inst} (h : cellGet s.insts id = some x) :
    s.constructed id = true ∧ s.inst id = x := by
  simp [State.constructed, State.inst, h]

/-- An identifier never constructed reads as the blank instance. -/
theorem inst_blank {s : State} {id : Nat} (h : s.constructed id = false) : s.inst id = Inst.blank := by
  simp only [State.constructed, State.inst] at h ⊢
  simp_all

/-! ### Sequences of operations -/

@[simp] theorem runAll_nil (s : State) : runAll [] s = s := rfl

theorem runAll_cons (f : State → State) (fs : List (State → State)) (s : State) :
    runAll (f :: fs) s = if s.stopped then s else runAll fs (f s) := rfl

@[simp] theorem runAll_cons_running (f : State → State) (fs : List (State → State)) {s : State}
    (h : s.fault = none) : runAll (f :: fs) s = runAll fs (f s) := by
  simp [runAll_cons, State.stopped, h]

@[simp] theorem runAll_stopped (fs : List (State → State)) {s : State} (h : s.stopped = true) :
    runAll fs s = s := by
  cases fs with
  | nil => rfl
  | cons f fs => simp [runAll_cons, h]

/-- A relation that every operation of a sequence respects is respected by the sequence. -/
theorem runAll_rel {R : State → State → Prop} (hr : ∀ s, R s s) (ht : ∀ a b c, R a b → R b c → R a c)
    {fs : List (State → State)} (hf : ∀ f ∈ fs, ∀ s, s.stopped = false → R s (f s)) (s : State) :
    R s (runAll fs s) := by
  induction fs generalizing s with
  | nil => exact hr s
  | cons f fs ih =>
    rw [runAll_cons]
    split
    · exact hr s
    · next h =>
      exact ht _ _ _ (hf f List.mem_cons_self s (by simpa using h))
        (ih (fun g hg => hf g (List.mem_cons_of_mem _ hg)) _)

/-- A property that every operation of a sequence keeps is kept by the sequence. -/
theorem runAll_keeps {P : State → Prop} {fs : List (State → State)}
    (hf : ∀ f ∈ fs, ∀ s, s.stopped = false → P s → P (f s)) {s : State} (h : P s) : P (runAll fs s) :=
  runAll_rel (R := fun a b => P a → P b) (fun _ h => h) (fun _ _ _ h1 h2 h => h2 (h1 h)) hf s h

@[simp] theorem whenever_true (f : State → State) (s : State) : whenever true f s = f s := rfl

@[simp] theorem whenever_false (f : State → State) (s : State) : whenever false f s = s := rfl

end Sys2Proof.Machine
end

