-- ==== Sys2Proof/Laws/Check.lean ====
section
/-! SUPPORT. The invariants of Safety.lean as checks that evaluate, each with the lemma that the invariant holds where the
check passes. The tests use them to show that concrete states meet the hypotheses of the statements. -/

namespace Sys2Proof.Machine

/-- `Inst.Inv` as a check. -/
def checkInst (p : Params) (x : Inst) : Bool :=
  decide (-1 ≤ x.curBit ∧ x.curBit ≤ 8) && decide (x.curBit = -1 ∨ x.curBit = 8 → x.curByte = 0#8) &&
    decide (x.rxValid = true → x.inE < x.edgeCap ∧ x.outE < x.edgeCap ∧ x.inB < x.byteCap ∧ x.outB < x.byteCap) &&
    decide (x.rxValid = (pinValid p x.rxPin && decide (1 ≤ x.byteCap) && decide (1 ≤ x.edgeCap))) &&
    decide (x.txValid = pinValid p x.txPin) && decide (x.oneWire = decide (x.rxPin = x.txPin)) &&
    decide (x.bitPeriod ≤ p.fHz) && decide (x.fstate = .configured → 1 ≤ x.bitPeriod) &&
    decide (x.bitPeriod = 0 → x.curBit = 8 ∧ x.inE = x.outE ∧ x.inB = x.outB) &&
    decide (x.rxEnabled = true → x.fstate = .configured ∧ x.rxValid = true) &&
    decide (x.txEnableValid = true → pinValid p x.txEnablePin = true) && decide (x.lastTs < p.width.modulus) &&
    decide (x.deadline < p.width.modulus) && decide (∀ e ∈ x.edges, e.2 < p.width.modulus)

theorem checkInst_sound {p : Params} {x : Inst} (h : checkInst p x = true) : x.Inv p := by
  simp only [checkInst, Bool.and_eq_true, decide_eq_true_eq] at h
  obtain ⟨⟨⟨⟨⟨⟨⟨⟨⟨⟨⟨⟨⟨h1, h2⟩, h3⟩, h4⟩, h5⟩, h6⟩, h7⟩, h8⟩, h9⟩, h10⟩, h11⟩, h12⟩, h13⟩, h14⟩ := h
  exact ⟨h1, h2, h3, h4, h5, h6, h7, h8, h9, h10, h11, h12, h13, h14⟩

theorem mem_of_cellGet {α : Type} {m : List (Nat × α)} {k : Nat} {v : α} (h : cellGet m k = some v) : (k, v) ∈ m := by
  induction m with
  | nil => simp [cellGet] at h
  | cons e m ih =>
    simp only [cellGet] at h
    split at h
    · next he => cases h; subst he; exact List.mem_cons_self
    · exact List.mem_cons_of_mem _ (ih h)

/-- `Memory.wf` as a check. -/
def checkMemory (s : State) : Bool := decide (Memory.wf s)

theorem checkMemory_sound {s : State} (h : checkMemory s = true) : Memory.wf s := of_decide_eq_true h

/-- Every instance passes its check. -/
def checkInsts (s : State) : Bool := s.insts.all fun e => checkInst s.params e.2

theorem checkInsts_sound {s : State} (h : checkInsts s = true) (id : Nat) (x : Inst)
    (hx : cellGet s.insts id = some x) : x.Inv s.params := by
  unfold checkInsts at h
  rw [List.all_eq_true] at h
  have h1 : checkInst s.params (id, x).2 = true := h (id, x) (mem_of_cellGet hx)
  exact checkInst_sound h1

/-- `State.Core` as a check. -/
def checkCore (s : State) : Bool := s.params.legal && (checkMemory s && checkInsts s)

theorem checkCore_sound {s : State} (h : checkCore s = true) : s.Core :=
  have h' := Bool.and_eq_true_iff.1 h
  have h'' := Bool.and_eq_true_iff.1 h'.2
  ⟨h'.1, checkMemory_sound h''.1, checkInsts_sound h''.2⟩

/-- `State.Inv` as a check. -/
def checkInv (s : State) : Bool :=
  checkCore s &&
    (s.reg.all fun e => s.constructed e.2 && decide ((s.inst e.2).rxPin = e.1) && (s.inst e.2).rxEnabled) &&
    (s.insts.all fun e => !(s.inst e.1).rxEnabled || decide (cellGet s.reg (s.inst e.1).rxPin = some e.1)) &&
    decide (s.attached = s.reg.map Prod.fst) &&
    (s.pending.all fun e => decide (e.2.count = 0) || decide (e.1 ∈ s.attached)) &&
    (!s.params.coalesce || s.pending.all fun e => decide (e.2.count ≤ 1)) &&
    (s.insts.all fun e => decide ((s.inst e.1).fstate = .unconfigured → (s.inst e.1).bitPeriod = 0)) &&
    s.insts.all fun e => decide ((s.inst e.1).txBusy = true → (s.inst e.1).seq ≠ .idle)

theorem mem_keys_iff {α : Type} (m : List (Nat × α)) (k : Nat) : k ∈ m.map Prod.fst ↔ (cellGet m k).isSome = true := by
  induction m with
  | nil => simp [cellGet]
  | cons e m ih =>
    simp only [cellGet, List.map_cons, List.mem_cons, ih]
    split
    · next h => simp [h]
    · next h =>
      constructor
      · rintro (h' | h')
        · exact absurd h'.symm h
        · exact h'
      · exact Or.inr

theorem checkInv_sound {s : State} (h : checkInv s = true) : s.Inv := by
  simp only [checkInv, Bool.and_eq_true, decide_eq_true_eq, List.all_eq_true, Bool.or_eq_true,
    Bool.not_eq_true'] at h
  obtain ⟨⟨⟨⟨⟨⟨⟨h1, h2⟩, h3⟩, h4⟩, h5⟩, h8⟩, h6⟩, h7⟩ := h
  have key : ∀ id, s.constructed id = true → ∃ e ∈ s.insts, e.1 = id := by
    intro id hid
    obtain ⟨v, hv⟩ := Option.isSome_iff_exists.1 hid
    exact ⟨_, mem_of_cellGet hv, rfl⟩
  have all : ∀ (P : Inst → Prop), P Inst.blank → (∀ e ∈ s.insts, P (s.inst e.1)) → ∀ id, P (s.inst id) := by
    intro P h0 hP id
    by_cases hid : s.constructed id = true
    · obtain ⟨e, he, rfl⟩ := key id hid
      exact hP e he
    · rw [inst_blank (by simpa using hid)]; exact h0
  refine ⟨checkCore_sound h1, ⟨?_, ?_, ?_, ?_, ?_⟩, ?_, ?_⟩
  · intro p id hg
    have := h2 _ (mem_of_cellGet hg)
    exact ⟨this.1.1, this.1.2, this.2⟩
  · intro id hid hr
    obtain ⟨e, he, rfl⟩ := key id hid
    rcases h3 e he with h' | h'
    · rw [hr] at h'; cases h'
    · exact h'
  · intro p
    rw [h4]; exact mem_keys_iff _ _
  · intro p hp
    unfold State.pend cellRead at hp
    cases hg : cellGet s.pending p with
    | none => rw [hg] at hp; simp [Pending.clear] at hp
    | some v =>
      rw [hg] at hp
      rcases h5 _ (mem_of_cellGet hg) with h' | h'
      · simp at hp h'; omega
      · exact h'
  · intro hco p
    unfold State.pend cellRead
    cases hg : cellGet s.pending p with
    | none => simp [Pending.clear]
    | some v =>
      rcases h8 with h' | h'
      · rw [hco] at h'; cases h'
      · exact h' _ (mem_of_cellGet hg)
  · exact all (fun x => x.fstate = .unconfigured → x.bitPeriod = 0) (fun _ => rfl) h6
  · exact all (fun x => x.txBusy = true → x.seq ≠ .idle) (by simp [Inst.blank]) h7

/-- `State.Between` as a check. -/
def checkBetween (s : State) : Bool :=
  s.fault.isSome ||
    (!s.im && s.insts.all fun e => !(s.inst e.1).txBusy && !(s.inst e.1).inYield && decide ((s.inst e.1).seq = .idle))

theorem checkBetween_sound {s : State} (h : checkBetween s = true) : s.Between := by
  intro hf
  simp only [checkBetween, hf, Option.isSome_none, Bool.false_or, Bool.and_eq_true, Bool.not_eq_true',
    List.all_eq_true, decide_eq_true_eq] at h
  refine ⟨h.1, fun id => ?_⟩
  by_cases hid : s.constructed id = true
  · obtain ⟨v, hv⟩ := Option.isSome_iff_exists.1 hid
    have := h.2 _ (mem_of_cellGet hv)
    exact ⟨this.1.1, this.1.2, this.2⟩
  · rw [inst_blank (by simpa using hid)]; exact ⟨rfl, rfl, rfl⟩

end Sys2Proof.Machine
end

