-- ==== Sys2Proof/Laws/Decode.lean ====
section
/-! SUPPORT. What each operand reader of the decoder accepts: exactly the operands that the encoder writes. -/

namespace Sys2Proof

theorem bytesOfInts_map (l : List Byte) : bytesOfInts (l.map fun b => (b.toNat : Int)) = some l := by
  induction l with
  | nil => rfl
  | cons b l ih =>
    simp only [List.map_cons, bytesOfInts, ih]
    have := b.isLt
    rw [if_pos (by omega)]
    simp

theorem bytesOfInts_some {l : List Int} {bs : List Byte} (h : bytesOfInts l = some bs) :
    l = bs.map fun b => (b.toNat : Int) := by
  induction l generalizing bs with
  | nil => simp [bytesOfInts] at h; simp [← h]
  | cons z l ih =>
    simp only [bytesOfInts] at h
    split at h
    · obtain ⟨r, hr, rfl⟩ := Option.map_eq_some_iff.1 h
      simp only [List.map_cons, ← ih hr, BitVec.toNat_ofNat]
      congr 1
      omega
    · cases h

theorem toNat_some {a : Operand} {n : Nat} (h : a.toNat? = some n) : a = .num n := by
  unfold Operand.toNat? at h
  split at h
  · split at h
    · cases h; simp; omega
    · cases h
  · cases h
  · cases h

theorem toBool_some {a : Operand} {b : Bool} (h : a.toBool? = some b) : a = ofBool b := by
  unfold Operand.toBool? at h
  split at h
  · split at h
    · cases h; simp [ofBool, *]
    · split at h
      · cases h; simp [ofBool, *]
      · cases h
  · cases h
  · cases h

theorem toInt_some {a : Operand} {n : Int} (h : a.toInt? = some n) : a = .num n := by
  unfold Operand.toInt? at h
  split at h <;> cases h; rfl

theorem toCallback_some {a : Operand} {n : Option Nat} (h : a.toCallback? = some n) : a = ofCallback n := by
  unfold Operand.toCallback? at h
  split at h
  · split at h
    · cases h; simp [ofCallback]; omega
    · cases h
  · cases h
  · cases h; rfl

theorem toBytes_some {a : Operand} {n : List Byte} (h : a.toBytes? = some n) :
    a = .list (n.map fun b => (b.toNat : Int)) := by
  unfold Operand.toBytes? at h
  split at h
  · cases h
  · rw [bytesOfInts_some h]
  · cases h

theorem toEvent_some {a : Operand} {e : EdgeEvent} (h : a.toEvent? = some e) : a = ofEvent e := by
  unfold Operand.toEvent? at h
  split at h
  · split at h
    · cases h; simp [ofEvent]; omega
    · cases h
  · split at h
    · split at h
      · cases h; simp [ofEvent, *]
      · split at h
        · cases h; simp [ofEvent, *]
        · cases h
    · cases h
  · cases h
  · cases h

end Sys2Proof
end

