-- ==== Sys2Proof/Laws/Env.lean ====
section
/-! SUPPORT. What the capture agent, the environment and the passing of time can do (`State.EnvTo`), said once for each
of their operations: they keep the invariant of every micro-step, raise no fault from a sound state, and leave alone
everything that 40_capture.md R123 does not let a capture write. -/

namespace Sys2Proof.Machine

/-! ### The relation itself -/

theorem Inst.CapturedTo.refl (x : Inst) : x.CapturedTo x := ⟨rfl, id, fun _ => rfl⟩

theorem Inst.CapturedTo.trans {x y z : Inst} (h1 : x.CapturedTo y) (h2 : y.CapturedTo z) : x.CapturedTo z := by
  refine ⟨?_, fun h => h2.latch (h1.latch h), fun h => ?_⟩
  · rw [h2.rest, h1.rest]
  · have := h1.detached h
    subst this
    exact h2.detached h

theorem State.EnvTo.refl (s : State) : s.EnvTo s :=
  ⟨rfl, rfl, rfl, rfl, rfl, rfl, rfl, rfl, rfl, rfl, rfl, Nat.le_refl _, rfl, fun _ => Inst.CapturedTo.refl _⟩

theorem State.EnvTo.trans {s t u : State} (h1 : s.EnvTo t) (h2 : t.EnvTo u) : s.EnvTo u :=
  ⟨h2.params.trans h1.params, h2.pins.trans h1.pins, h2.attached.trans h1.attached, h2.reg.trans h1.reg,
    h2.im.trans h1.im, h2.ctx.trans h1.ctx, h2.issuer.trans h1.issuer, h2.wires.trans h1.wires,
    h2.hostQueue.trans h1.hostQueue, h2.result.trans h1.result, h2.outputs.trans h1.outputs,
    Nat.le_trans h1.tau h2.tau, h2.keys.trans h1.keys, fun id => (h1.insts id).trans (h2.insts id)⟩

theorem constructed_of_keys {s t : State} (h : t.insts.map Prod.fst = s.insts.map Prod.fst) (id : Nat) :
    t.constructed id = s.constructed id := by
  rw [Bool.eq_iff_iff, State.constructed, State.constructed, cellGet_isSome_iff, cellGet_isSome_iff, h]

theorem State.EnvTo.constructed {s t : State} (h : s.EnvTo t) (id : Nat) :
    t.constructed id = s.constructed id := constructed_of_keys h.keys id

theorem State.EnvTo.pin {s t : State} (h : s.EnvTo t) (p : Nat) : t.pin p = s.pin p := by
  simp [State.pin, h.pins]

/-! ### The invariant of every micro-step under the updates -/

theorem State.Core.inst {s : State} (h : s.Core) {id : Nat} (hc : s.constructed id = true) :
    (s.inst id).Inv s.params := h.insts id _ (cellGet_inst hc)

theorem State.Core.cells {s : State} (h : s.Core) {id : Nat} (hc : s.constructed id = true) :
    (s.inst id).cellsWf := h.memory.2.1 _ (cellGet_mem (cellGet_inst hc))

/-- Changing an instance keeps the invariant when the instance stays sound. -/
theorem State.Core.modInst {s : State} (h : s.Core) (id : Nat) (f : Inst → Inst)
    (hf : ∀ x, cellGet s.insts id = some x → (f x).Inv s.params ∧ (f x).cellsWf) : (s.modInst id f).Core := by
  obtain ⟨hl, ⟨m1, m2, m3, m4, m5, m6, m7⟩, hi⟩ := h
  refine ⟨hl, ⟨cellMod_rising _ _ m1, ?_, m3, m4, m5, m6, m7⟩, fun j x hx => ?_⟩
  · intro e he
    simp only [modInst_insts, cellMod, List.mem_map] at he
    obtain ⟨a, ha, rfl⟩ := he
    split
    · next hk => subst hk; exact (hf a.2 (cellGet_of_mem m1 ha)).2
    · exact m2 a ha
  · simp only [modInst_insts, cellGet_cellMod] at hx
    split at hx
    · next hj =>
      subst hj
      obtain ⟨y, hy, rfl⟩ := Option.map_eq_some_iff.1 hx
      exact (hf y hy).1
    · exact hi j x hx

/-- Creating or replacing an instance keeps the invariant when the new state is sound. -/
theorem State.Core.putInst {s : State} (h : s.Core) (id : Nat) (x : Inst) (hx : x.Inv s.params)
    (hc : x.cellsWf) : (s.putInst id x).Core := by
  obtain ⟨hl, ⟨m1, m2, m3, m4, m5, m6, m7⟩, hi⟩ := h
  refine ⟨hl, ⟨cellSet_rising _ _ m1, ?_, m3, m4, m5, m6, m7⟩, fun j y hy => ?_⟩
  · intro e he
    rcases mem_cellSet he with rfl | he
    · exact hc
    · exact m2 e he
  · simp only [putInst_insts, cellGet_cellSet] at hy
    split at hy
    · cases hy; exact hx
    · exact hi j y hy

/-- An update that keeps the parameters and the instances keeps the invariant when its other lists stay canonical. -/
theorem State.Core.of_lists {s t : State} (h : s.Core) (hp : t.params = s.params) (hi : t.insts = s.insts)
    (h3 : Cells.wf Pin.boot t.pins) (h4 : Cells.wf Pending.clear t.pending) (h5 : Cells.rising t.reg)
    (h6 : Cells.rising t.driven) (h7 : t.attached.Pairwise (· < ·)) : t.Core := by
  obtain ⟨hl, ⟨m1, m2, _, _, _, _, _⟩, hin⟩ := h
  exact ⟨hp ▸ hl, ⟨hi ▸ m1, hi ▸ m2, h3, h4, h5, h6, h7⟩, hi ▸ hp ▸ hin⟩

/-- An update of nothing but time, outputs and the like keeps the invariant. -/
theorem State.Core.congr {s t : State} (h : s.Core) (hp : t.params = s.params) (hi : t.insts = s.insts)
    (h3 : t.pins = s.pins) (h4 : t.pending = s.pending) (h5 : t.reg = s.reg) (h6 : t.driven = s.driven)
    (h7 : t.attached = s.attached) : t.Core := by
  obtain ⟨_, _, m3, m4, m5, m6, m7⟩ := h.memory
  exact h.of_lists hp hi (h3 ▸ m3) (h4 ▸ m4) (h5 ▸ m5) (h6 ▸ m6) (h7 ▸ m7)

theorem State.Core.setPend {s : State} (h : s.Core) (p : Nat) (v : Pending) : (s.setPend p v).Core := by
  obtain ⟨_, _, m3, m4, m5, m6, m7⟩ := h.memory
  exact h.of_lists rfl rfl m3 (cellWrite_wf _ _ m4) m5 m6 m7

theorem State.Core.setPin {s : State} (h : s.Core) (p : Nat) (v : Pin) : (s.setPin p v).Core := by
  obtain ⟨_, _, m3, m4, m5, m6, m7⟩ := h.memory
  exact h.of_lists rfl rfl (cellWrite_wf _ _ m3) m4 m5 m6 m7

/-! ### A step of the environment that starts from a sound, running state ends in one -/

/-- The environment alone has acted, and soundness and running have been kept. -/
structure EnvSafe (s t : State) : Prop where
  env : s.EnvTo t
  safe : s.Core → s.fault = none → t.Core ∧ t.fault = none

theorem EnvSafe.refl (s : State) : EnvSafe s s := ⟨.refl s, fun h1 h2 => ⟨h1, h2⟩⟩

theorem EnvSafe.trans {s t u : State} (h1 : EnvSafe s t) (h2 : EnvSafe t u) : EnvSafe s u :=
  ⟨h1.env.trans h2.env, fun hc hf => let ⟨a, b⟩ := h1.safe hc hf; h2.safe a b⟩

theorem EnvSafe.foldl {α : Type} {f : State → α → State} (hf : ∀ s a, EnvSafe s (f s a)) (l : List α) (s : State) :
    EnvSafe s (l.foldl f s) := by
  induction l generalizing s with
  | nil => exact .refl s
  | cons a l ih => exact (hf s a).trans (ih _)

/-- Updates of draws, pending transitions and time. -/
theorem EnvSafe.setPend (s : State) (p : Nat) (v : Pending) : EnvSafe s (s.setPend p v) :=
  ⟨⟨rfl, rfl, rfl, rfl, rfl, rfl, rfl, rfl, rfl, rfl, rfl, Nat.le_refl _, rfl, fun _ => .refl _⟩,
    fun h hf => ⟨h.setPend p v, hf⟩⟩

theorem EnvSafe.draws (s : State) (d : Draws) : EnvSafe s { s with draws := d } :=
  ⟨⟨rfl, rfl, rfl, rfl, rfl, rfl, rfl, rfl, rfl, rfl, rfl, Nat.le_refl _, rfl, fun _ => .refl _⟩,
    fun h hf => ⟨h.congr rfl rfl rfl rfl rfl rfl rfl, hf⟩⟩

theorem EnvSafe.atTime (s : State) (t : Nat) : EnvSafe s (s.atTime t) :=
  ⟨⟨rfl, rfl, rfl, rfl, rfl, rfl, rfl, rfl, rfl, rfl, rfl, Nat.le_max_left _ _, rfl, fun _ => .refl _⟩,
    fun h hf => ⟨h.congr rfl rfl rfl rfl rfl rfl rfl, hf⟩⟩

theorem EnvSafe.inputs (s : State) (cs : List InputChange) : EnvSafe s { s with inputs := cs } :=
  ⟨⟨rfl, rfl, rfl, rfl, rfl, rfl, rfl, rfl, rfl, rfl, rfl, Nat.le_refl _, rfl, fun _ => .refl _⟩,
    fun h hf => ⟨h.congr rfl rfl rfl rfl rfl rfl rfl, hf⟩⟩

theorem EnvSafe.notePending (p : Nat) (s : State) : EnvSafe s (notePending p s) := EnvSafe.setPend _ _ _

theorem EnvSafe.armPin (p : Nat) (s : State) : EnvSafe s (armPin p s) := by
  unfold Machine.armPin
  split
  · exact (EnvSafe.draws s _).trans (EnvSafe.setPend _ _ _)
  · exact .refl s

theorem EnvSafe.armAll (s : State) : EnvSafe s (armAll s) := EnvSafe.foldl (fun t p => .armPin p t) _ _

/-! ### One capture -/

theorem enqueueEdge_capturedTo {v : Nat} {x y : Inst} (h : enqueueEdge v x = some y) (hr : x.rxEnabled = true) :
    x.CapturedTo y := by
  unfold enqueueEdge at h
  split at h
  · cases h; exact ⟨rfl, fun _ => rfl, fun h => by simp [hr] at h⟩
  · split at h
    · cases h; exact ⟨rfl, id, fun h => by simp [hr] at h⟩
    · cases h

/-- Enqueueing keeps an instance sound and stays in the ring (20_memory.md R62, R64). -/
theorem enqueueEdge_sound {p : Params} {v : Nat} {x : Inst} (h : x.Inv p) (hc : x.cellsWf) (hr : x.rxValid = true)
    (hb : x.bitPeriod ≠ 0) (hv : v < p.width.modulus) :
    ∃ y, enqueueEdge v x = some y ∧ y.Inv p ∧ y.cellsWf := by
  have hx := h.indices hr
  unfold enqueueEdge
  split
  · refine ⟨_, rfl, ?_, hc⟩
    exact { h with }
  · rw [if_pos hx.1]
    refine ⟨_, rfl, ?_, ⟨cellWrite_wf _ _ hc.1, hc.2⟩⟩
    refine { h with indices := fun _ => ?_, idle_before_start := fun h0 => absurd h0 hb, edges_lt := ?_ }
    · refine ⟨?_, hx.2⟩
      simp only [ringNext]; split <;> omega
    · intro e he
      rcases mem_cellWrite he with rfl | he
      · exact hv
      · exact h.edges_lt e he

theorem packEdge_lt (w : Width) (c : Nat) (level : Bool) : packEdge (wrap w c) level < w.modulus := by
  have : wrap w c < w.modulus := Nat.mod_lt _ (by cases w <;> decide)
  unfold packEdge
  cases w <;> cases level <;> simp only [Width.modulus] at * <;> simp only [if_true, Bool.false_eq_true, if_false] <;>
    omega

theorem EnvSafe.enqueue (id v : Nat) (s : State) (hr : (s.inst id).rxEnabled = true)
    (hc : s.constructed id = true) (hv : v < s.params.width.modulus) :
    EnvSafe s (s.applyInst id (enqueueEdge v)) := by
  unfold State.applyInst
  cases he : enqueueEdge v (s.inst id) with
  | none =>
    refine ⟨⟨rfl, rfl, rfl, rfl, rfl, rfl, rfl, rfl, rfl, rfl, rfl, Nat.le_refl _, rfl, fun _ => .refl _⟩,
      fun h _ => ?_⟩
    have hi := h.inst hc
    have hv' := (hi.enabled_configured hr)
    obtain ⟨y, hy, _⟩ := enqueueEdge_sound (v := v) hi (h.cells hc) hv'.2
      (by have := hi.period_configured hv'.1; omega) hv
    rw [he] at hy; cases hy
  | some y =>
    show EnvSafe s (s.modInst id fun _ => y)
    refine ⟨⟨rfl, rfl, rfl, rfl, rfl, rfl, rfl, rfl, rfl, rfl, rfl, Nat.le_refl _, cellMod_keys s.insts id fun _ => y, fun j => ?_⟩,
      fun h hf => ⟨?_, hf⟩⟩
    · by_cases hj : j = id
      · subst hj; simp only [inst_modInst_same s j _ hc]
        exact enqueueEdge_capturedTo he hr
      · rw [inst_modInst_other s _ hj]; exact .refl _
    · have hi := h.inst hc
      have hv' := (hi.enabled_configured hr)
      obtain ⟨z, hz, hz1, hz2⟩ := enqueueEdge_sound (v := v) hi (h.cells hc) hv'.2
        (by have := hi.period_configured hv'.1; omega) hv
      rw [he] at hz; cases hz
      exact h.modInst id _ fun _ _ => ⟨hz1, hz2⟩

theorem triggered_some {s : State} {p id : Nat} (h : triggered s p = some id) :
    cellGet s.reg p = some id ∧ s.im = false ∧ 1 ≤ (s.pend p).count ∧ s.constructed id = true ∧
      (s.inst id).rxPin = p ∧ (s.inst id).rxEnabled = true := by
  unfold triggered at h
  split at h
  · split at h
    · next hc => cases h; exact ⟨‹_›, hc⟩
    · cases h
  · cases h

theorem EnvSafe.captureStep (id : Nat) (s : State) : EnvSafe s (captureStep id s) := by
  unfold Machine.captureStep
  split
  · next h =>
    obtain ⟨-, -, -, hc, -, hr⟩ := triggered_some h
    refine (EnvSafe.setPend s _ _).trans ((EnvSafe.enqueue id _ _ ?_ ?_ ?_).trans (.armAll _))
    · simpa using hr
    · simpa using hc
    · exact packEdge_lt _ _ _
  · exact .refl s

/-! ### Many captures, and time -/

theorem EnvSafe.nextCapture {bound : Nat} {s t : State} {c : Nat × Nat × Nat}
    (h : nextCapture bound s = some (c, t)) : EnvSafe s t := by
  unfold Machine.nextCapture at h
  split at h
  · cases h
  · cases h; exact .refl s
  · cases h; exact .draws s _

theorem EnvSafe.runCaptures (fuel bound : Nat) (s : State) : EnvSafe s (runCaptures fuel bound s) := by
  induction fuel generalizing s with
  | zero => exact .refl s
  | succ n ih =>
    simp only [Machine.runCaptures]
    split
    · exact .refl s
    · cases hn : Machine.nextCapture bound s with
      | none => exact .refl s
      | some r =>
        obtain ⟨c, t⟩ := r
        exact ((EnvSafe.nextCapture hn).trans (.atTime t _)).trans ((EnvSafe.captureStep _ _).trans (ih _))

theorem EnvSafe.noteTransitions_fold (s0 s : State) : EnvSafe s (noteTransitions s0 s) := by
  refine EnvSafe.foldl (fun t p => ?_) _ _
  split
  · exact .refl t
  · exact .notePending p t

theorem EnvSafe.applyInput (c : InputChange) (s : State) : EnvSafe s (applyInput c s) := by
  unfold Machine.applyInput
  refine EnvSafe.trans ?_ ((EnvSafe.noteTransitions_fold s _).trans (.armAll _))
  cases c.level with
  | none =>
    refine ⟨⟨rfl, rfl, rfl, rfl, rfl, rfl, rfl, rfl, rfl, rfl, rfl, Nat.le_refl _, rfl, fun _ => .refl _⟩,
      fun h hf => ⟨?_, hf⟩⟩
    obtain ⟨_, _, m3, m4, m5, m6, m7⟩ := h.memory
    exact h.of_lists rfl rfl m3 m4 m5 (cellDel_rising _ m6) m7
  | some level =>
    refine ⟨⟨rfl, rfl, rfl, rfl, rfl, rfl, rfl, rfl, rfl, rfl, rfl, Nat.le_refl _, rfl, fun _ => .refl _⟩,
      fun h hf => ⟨?_, hf⟩⟩
    obtain ⟨_, _, m3, m4, m5, m6, m7⟩ := h.memory
    exact h.of_lists rfl rfl m3 m4 m5 (cellSet_rising _ _ m6) m7

theorem EnvSafe.passInputs (cs : List InputChange) (b t : Nat) (s : State) : EnvSafe s (passInputs cs b t s) := by
  induction cs generalizing s with
  | nil =>
    simp only [Machine.passInputs]
    split
    · exact .refl s
    · exact (EnvSafe.runCaptures _ _ s).trans (.atTime _ _)
  | cons c cs ih =>
    simp only [Machine.passInputs]
    split
    · exact .refl s
    · split
      · split
        · exact .runCaptures _ _ s
        · exact ((EnvSafe.runCaptures _ _ s).trans ((EnvSafe.inputs _ _).trans (.atTime _ _))).trans
            ((EnvSafe.applyInput _ _).trans (ih _))
      · exact (EnvSafe.runCaptures _ _ s).trans (.atTime _ _)

theorem EnvSafe.advanceTo (t : Nat) (s : State) : EnvSafe s (advanceTo t s) := .passInputs _ _ _ s

theorem EnvSafe.settle (s : State) : EnvSafe s (settle s) := by
  unfold Machine.settle
  split
  · exact .refl s
  · exact .advanceTo _ s

theorem EnvSafe.advanceToBefore (t : Nat) (s : State) : EnvSafe s (advanceToBefore t s) :=
  (EnvSafe.passInputs _ _ _ s).trans (.settle _)

theorem EnvSafe.arriveAt (t : Nat) (s : State) : EnvSafe s (arriveAt t s) := by
  unfold Machine.arriveAt
  simp only
  split
  · exact (EnvSafe.draws s _).trans (.advanceTo _ _)
  · exact (EnvSafe.draws s _).trans (.advanceToBefore _ _)

theorem EnvSafe.tick (s : State) : EnvSafe s (tick s) := by
  unfold Machine.tick
  simp only
  split
  · exact (EnvSafe.draws s _).trans (.advanceTo _ _)
  · exact (EnvSafe.draws s _).trans (.advanceToBefore _ _)

theorem EnvSafe.afterHal (s0 s : State) : EnvSafe s (afterHal s0 s) :=
  (EnvSafe.noteTransitions_fold s0 s).trans ((EnvSafe.armAll _).trans (.settle _))

/-! ### A calm environment does nothing -/

theorem runCaptures_none (n bound : Nat) (s : State) (h : s.pending = []) : runCaptures n bound s = s := by
  cases n with
  | zero => rfl
  | succ n =>
    simp only [runCaptures]
    split
    · rfl
    · have : nextCapture bound s = none := by simp [nextCapture, dueCaptures, h, firstDue]
      rw [this]

theorem advanceTo_calm (t : Nat) {s : State} (hi : s.inputs = []) (hp : s.pending = []) :
    advanceTo t s = if s.stopped then s else s.atTime t := by
  unfold advanceTo
  simp only [hi, passInputs, runCaptures_none _ _ s hp]
  split
  · rfl
  · simp [State.atTime]

/-- A micro-step boundary of a calm environment is nothing. -/
theorem tick_calm {s : State} (hi : s.inputs = []) (hp : s.pending = []) (hd : s.draws = .ideal) : tick s = s := by
  unfold tick
  simp only [hd, Draws.ideal, takeDraw, if_true, Nat.add_zero]
  rw [advanceTo_calm _ (by simpa using hi) (by simpa using hp)]
  have : ({ s with draws := ⟨[], [], [], [], [], [], []⟩ } : State) = s := by
    cases s; simp only [State.mk.injEq]; simp_all [Draws.ideal]
  rw [this]
  split
  · rfl
  · simp [State.atTime]

end Sys2Proof.Machine
end

