-- ==== Sys2Proof/Laws/Decoder.lean ====
section
/-! SUPPORT. What the decoder can do to an instance (41_decoder.md): REPLAY_EDGE keeps an instance sound, forms no index
outside its ring, and writes nothing but the decoder registers, the byte ring and its latch; RXBITS and SYNTH_STOP over
the state. -/

namespace Sys2Proof.Machine

/-- From `x` to `y` only the decoder has written: its registers, `Q`, `inB` and `byteOvf` (41_decoder.md R164). -/
structure Inst.DecodedTo (x y : Inst) : Prop where
  rest : y = { x with curBit := y.curBit, curByte := y.curByte, lastTs := y.lastTs, bytes := y.bytes, inB := y.inB,
                      byteOvf := y.byteOvf }
  latch : x.byteOvf = true → y.byteOvf = true

theorem Inst.DecodedTo.refl (x : Inst) : x.DecodedTo x := ⟨rfl, id⟩

theorem Inst.DecodedTo.trans {x y z : Inst} (h1 : x.DecodedTo y) (h2 : y.DecodedTo z) : x.DecodedTo z :=
  ⟨by rw [h2.rest, h1.rest], fun h => h2.latch (h1.latch h)⟩

/-- What the steps of the loop of R143 keep. -/
structure Inst.Decodable (x : Inst) : Prop where
  range : -1 ≤ x.curBit ∧ x.curBit ≤ 8
  zero : x.curBit = -1 ∨ x.curBit = 8 → x.curByte = 0#8
  ring : x.inB < x.byteCap ∧ x.outB < x.byteCap
  canonical : Cells.wf unwrittenByte x.bytes

theorem hiddenCount_le {x : Inst} {cycles : Int} (h : x.curBit ≤ 6) : (hiddenCount x cycles : Int) ≤ 7 - x.curBit := by
  unfold hiddenCount
  split
  · have : min (cycles / (x.bitPeriod : Int)) (7 - x.curBit) ≤ 7 - x.curBit := min_le_right _ _
    omega
  · omega

/-- A data-state step brings `curBit` into 0..7 and writes nothing but `curBit` and `curByte`. -/
theorem dataStep_spec {x : Inst} (level : Bool) (cycles : Int) (h : x.Decodable)
    (hd : -1 ≤ x.curBit ∧ x.curBit ≤ 6) :
    (dataStep level cycles x).1.Decodable ∧ x.DecodedTo (dataStep level cycles x).1 ∧
      0 ≤ (dataStep level cycles x).1.curBit ∧ (dataStep level cycles x).1.curBit ≤ 7 ∧
      (dataStep level cycles x).1.lastTs = x.lastTs := by
  have hh := hiddenCount_le (x := x) (cycles := cycles) hd.2
  by_cases hlt : (shiftHidden (hiddenCount x cycles) x).curBit < 7
  · have e : dataStep level cycles x = (shiftExplicit level (shiftHidden (hiddenCount x cycles) x),
        cycles - hiddenCount x cycles * x.bitPeriod - x.bitPeriod) := by
      simp only [dataStep]; rw [if_pos hlt]
    rw [e]
    simp only [shiftHidden] at hlt
    refine ⟨⟨?_, ?_, h.ring, h.canonical⟩, ⟨rfl, id⟩, ?_, ?_, rfl⟩ <;>
      simp only [shiftExplicit, shiftHidden] <;> omega
  · have e : dataStep level cycles x = (shiftHidden (hiddenCount x cycles) x,
        cycles - hiddenCount x cycles * x.bitPeriod) := by
      simp only [dataStep]; rw [if_neg hlt]
    rw [e]
    simp only [shiftHidden] at hlt
    refine ⟨⟨?_, ?_, h.ring, h.canonical⟩, ⟨rfl, id⟩, ?_, ?_, rfl⟩ <;> simp only [shiftHidden] <;> omega

/-- A finalize step forms no index outside the ring and leaves the decoder idle. -/
theorem finalizeStep_spec {x : Inst} (h : x.Decodable) :
    ∃ y, finalizeStep x = some y ∧ y.Decodable ∧ x.DecodedTo y ∧ y.curBit = 8 ∧ y.lastTs = x.lastTs := by
  unfold finalizeStep enqueueByte
  split
  · exact ⟨_, rfl, ⟨by simp, by simp, h.ring, h.canonical⟩, ⟨rfl, fun _ => rfl⟩, rfl, rfl⟩
  · rw [if_pos h.ring.1]
    refine ⟨_, rfl, ⟨by simp, by simp, ?_, cellWrite_wf _ _ h.canonical⟩, ⟨rfl, id⟩, rfl, rfl⟩
    refine ⟨?_, h.ring.2⟩
    simp only [ringNext]; have := h.ring.1; split <;> omega

theorem idleStep_spec {x : Inst} (level : Bool) (h : x.Decodable) (h8 : x.curBit = 8) :
    (idleStep level x).Decodable ∧ x.DecodedTo (idleStep level x) ∧ (idleStep level x).lastTs = x.lastTs := by
  unfold idleStep
  split
  · exact ⟨h, .refl x, rfl⟩
  · exact ⟨⟨by simp, fun _ => h.zero (Or.inr h8), h.ring, h.canonical⟩, ⟨rfl, id⟩, rfl⟩

/-- The loop of R143 ends in a decodable instance whatever the cycles. -/
theorem replayLoop_spec (fuel : Nat) (level : Bool) (cycles : Int) {x : Inst} (h : x.Decodable) :
    ∃ y, replayLoop fuel level cycles x = some y ∧ y.Decodable ∧ x.DecodedTo y ∧ y.lastTs = x.lastTs := by
  induction fuel generalizing cycles x with
  | zero => exact ⟨x, rfl, h, .refl x, rfl⟩
  | succ n ih =>
    simp only [replayLoop]
    split
    · next hd =>
      obtain ⟨h1, h2, -, -, h5⟩ := dataStep_spec level cycles h hd
      split
      · exact ⟨_, rfl, h1, h2, h5⟩
      · obtain ⟨y, hy, a, b, c⟩ := ih (dataStep level cycles x).2 h1
        exact ⟨y, hy, a, h2.trans b, c.trans h5⟩
    · split
      · obtain ⟨y, hy, h1, h2, -, h4⟩ := finalizeStep_spec h
        rw [hy]
        simp only
        split
        · exact ⟨y, rfl, h1, h2, h4⟩
        · obtain ⟨z, hz, a, b, c⟩ := ih (cycles - x.bitPeriod) h1
          exact ⟨z, hz, a, h2.trans b, c.trans h4⟩
      · next h1 h2 =>
        have := h.range
        obtain ⟨a, b, c⟩ := idleStep_spec level h (by omega)
        exact ⟨_, rfl, a, b, c⟩

/-- A data-state step uses up the cycles or fills the accumulator (R148, R150). -/
theorem dataStep_ends {x : Inst} (level : Bool) (cycles : Int) (hb : 1 ≤ x.bitPeriod)
    (hd : -1 ≤ x.curBit ∧ x.curBit ≤ 6) :
    (dataStep level cycles x).2 < 0 ∨ (dataStep level cycles x).1.curBit = 7 := by
  have hB : (0 : Int) < x.bitPeriod := by omega
  by_cases hlt : (shiftHidden (hiddenCount x cycles) x).curBit < 7
  · left
    have e : (dataStep level cycles x).2 = cycles - hiddenCount x cycles * x.bitPeriod - x.bitPeriod := by
      simp only [dataStep]; rw [if_pos hlt]
    rw [e]
    simp only [shiftHidden] at hlt
    by_cases hc : (x.bitPeriod : Int) ≤ cycles
    · have hq : 0 ≤ cycles / (x.bitPeriod : Int) := Int.ediv_nonneg (by omega) (by omega)
      have hm := Int.lt_ediv_add_one_mul_self cycles hB
      have hn : (hiddenCount x cycles : Int) = cycles / (x.bitPeriod : Int) := by
        rw [hiddenCount, if_pos hc] at hlt ⊢; omega
      rw [Int.add_mul] at hm
      rw [hn]; omega
    · rw [show hiddenCount x cycles = 0 by rw [hiddenCount, if_neg hc]]; omega
  · right
    have e : (dataStep level cycles x).1 = shiftHidden (hiddenCount x cycles) x := by
      simp only [dataStep]; rw [if_neg hlt]
    have hh := hiddenCount_le (x := x) (cycles := cycles) hd.2
    rw [e]
    simp only [shiftHidden] at hlt ⊢
    omega

/-- The loop of R143 makes at most three iterations when `B >= 1` (R154): a larger count changes nothing. -/
theorem replayLoop_count (n : Nat) (level : Bool) (cycles : Int) {x : Inst} (h : x.Decodable) (hb : 1 ≤ x.bitPeriod) :
    replayLoop (3 + n) level cycles x = replayLoop 3 level cycles x := by
  have idle (m : Nat) (c : Int) {y : Inst} (h8 : y.curBit = 8) :
      replayLoop (m + 1) level c y = some (idleStep level y) := by
    simp [replayLoop, h8]
  have full (m : Nat) (c : Int) {y : Inst} (hy : y.Decodable) (h7 : y.curBit = 7) :
      replayLoop (m + 2) level c y = replayLoop 2 level c y := by
    obtain ⟨z, hz, -, -, hz8, -⟩ := finalizeStep_spec hy
    simp only [replayLoop, h7, hz, hz8]
    simp
  by_cases hd : -1 ≤ x.curBit ∧ x.curBit ≤ 6
  · obtain ⟨h1, -⟩ := dataStep_spec level cycles h hd
    have e (m : Nat) : replayLoop (m + 1) level cycles x =
        if (dataStep level cycles x).2 < 0 then some (dataStep level cycles x).1
        else replayLoop m level (dataStep level cycles x).2 (dataStep level cycles x).1 := by
      rw [replayLoop, if_pos hd]
    rw [show 3 + n = (n + 2) + 1 by omega, e (n + 2), show 3 = 2 + 1 by rfl, e 2]
    rcases dataStep_ends level cycles hb hd with hneg | h7
    · rw [if_pos hneg, if_pos hneg]
    · rw [full n _ h1 h7]
  · have := h.range
    by_cases h7 : x.curBit = 7
    · rw [show 3 + n = (n + 1) + 2 by omega, full (n + 1) _ h h7, show 3 = 1 + 2 by rfl, full 1 _ h h7]
    · rw [show 3 + n = (n + 2) + 1 by omega, idle _ _ (by omega), show 3 = 2 + 1 by rfl, idle _ _ (by omega)]

/-- REPLAY_EDGE on an instance that can be decoded: no fault, and `lastTs` is the edge's timestamp or unchanged. -/
theorem replayEdge_spec (w : Width) (ts : Nat) (level : Bool) {x : Inst} (h : x.Decodable) :
    ∃ y, replayEdge w ts level x = some y ∧ y.Decodable ∧ x.DecodedTo y ∧ (y.lastTs = ts ∨ y = x) := by
  unfold replayEdge
  simp only
  split
  · exact ⟨x, rfl, h, .refl x, Or.inr rfl⟩
  · obtain ⟨y, hy, a, b, c⟩ := replayLoop_spec 10 level _ (x := { x with lastTs := ts })
      ⟨h.range, h.zero, h.ring, h.canonical⟩
    have h1 : x.DecodedTo { x with lastTs := ts } := ⟨rfl, id⟩
    exact ⟨y, hy, a, h1.trans b, Or.inl c⟩

theorem Inst.Inv.decodable {p : Params} {x : Inst} (h : x.Inv p) (hc : x.cellsWf) (hr : x.rxValid = true) :
    x.Decodable :=
  ⟨h.curBit_range, h.curByte_zero, ⟨(h.indices hr).2.2.1, (h.indices hr).2.2.2⟩, hc.2⟩

/-- REPLAY_EDGE keeps an instance sound. -/
theorem replayEdge_sound {p : Params} {ts : Nat} (level : Bool) {x : Inst} (h : x.Inv p) (hc : x.cellsWf)
    (hr : x.rxValid = true) (hb : x.bitPeriod ≠ 0) (hts : ts < p.width.modulus) :
    ∃ y, replayEdge p.width ts level x = some y ∧ y.Inv p ∧ y.cellsWf ∧ x.DecodedTo y := by
  obtain ⟨y, hy, hd, hx, hl⟩ := replayEdge_spec p.width ts level (h.decodable hc hr)
  have hi := h.indices hr
  have e := hx.rest
  have hlast : y.lastTs < p.width.modulus := by
    rcases hl with hl | hl
    · rw [hl]; exact hts
    · rw [hl]; exact h.lastTs_lt
  have hring := hd.ring
  have hcan := hd.canonical
  have hrange := hd.range
  have hzero := hd.zero
  refine ⟨y, hy, ?_, ?_, hx⟩
  · rw [e] at hring hcan hrange hzero hlast ⊢
    exact { h with
      curBit_range := hrange
      curByte_zero := hzero
      indices := fun _ => ⟨hi.1, hi.2.1, hring.1, hring.2⟩
      idle_before_start := fun h0 => absurd h0 hb
      lastTs_lt := hlast }
  · rw [e] at hcan ⊢
    exact ⟨hc.1, hcan⟩

/-! ### Over the state -/

theorem State.DecodeTo.refl (id : Nat) (s : State) : State.DecodeTo id s s :=
  ⟨rfl, rfl, rfl, rfl, rfl, rfl, rfl, rfl, rfl, rfl, rfl, Nat.le_refl _, rfl, fun _ _ => .refl _, rfl, fun h => h,
    fun h => h⟩

theorem State.DecodeTo.trans {id : Nat} {s t u : State} (h1 : State.DecodeTo id s t) (h2 : State.DecodeTo id t u) :
    State.DecodeTo id s u :=
  ⟨h2.params.trans h1.params, h2.pins.trans h1.pins, h2.attached.trans h1.attached, h2.reg.trans h1.reg,
    h2.im.trans h1.im, h2.ctx.trans h1.ctx, h2.issuer.trans h1.issuer, h2.wires.trans h1.wires,
    h2.hostQueue.trans h1.hostQueue, h2.result.trans h1.result, h2.outputs.trans h1.outputs,
    Nat.le_trans h1.tau h2.tau, h2.keys.trans h1.keys, fun j hj => (h1.others j hj).trans (h2.others j hj),
    by rw [h2.inst, h1.inst], fun h => h2.edgeLatch (h1.edgeLatch h), fun h => h2.byteLatch (h1.byteLatch h)⟩

theorem State.EnvTo.decodeTo {s t : State} (h : s.EnvTo t) (id : Nat) : State.DecodeTo id s t :=
  ⟨h.params, h.pins, h.attached, h.reg, h.im, h.ctx, h.issuer, h.wires, h.hostQueue, h.result, h.outputs, h.tau,
    h.keys, fun j _ => h.insts j, by rw [(h.insts id).rest], (h.insts id).latch, fun hb => by
      rw [(h.insts id).rest]; exact hb⟩

theorem State.DecodeTo.constructed {id : Nat} {s t : State} (h : State.DecodeTo id s t) (j : Nat) :
    t.constructed j = s.constructed j := constructed_of_keys h.keys j

/-- A change of one instance's decoder registers, byte ring and read index. -/
theorem modInst_decodeTo {id : Nat} {s : State} (y : Inst) (hc : s.constructed id = true)
    (hy : y =
      { s.inst id with
        outE := y.outE, curBit := y.curBit, curByte := y.curByte, lastTs := y.lastTs, bytes := y.bytes,
        inB := y.inB, byteOvf := y.byteOvf })
    (hl : (s.inst id).byteOvf = true → y.byteOvf = true) :
    State.DecodeTo id s (s.modInst id fun _ => y) := by
  refine ⟨rfl, rfl, rfl, rfl, rfl, rfl, rfl, rfl, rfl, rfl, rfl, Nat.le_refl _, cellMod_keys s.insts id fun _ => y,
    fun j hj => ?_, ?_, ?_, ?_⟩
  · rw [inst_modInst_other s _ hj]; exact .refl _
  · rw [inst_modInst_same s id _ hc]
    conv_lhs => rw [hy]
    have : y.edges = (s.inst id).edges := by rw [hy]
    have h2 : y.inE = (s.inst id).inE := by rw [hy]
    have h3 : y.edgeOvf = (s.inst id).edgeOvf := by rw [hy]
    simp [this, h2, h3]
  · intro h
    rw [inst_modInst_same s id _ hc]
    have h3 : y.edgeOvf = (s.inst id).edgeOvf := by rw [hy]
    rw [h3]; exact h
  · intro h
    rw [inst_modInst_same s id _ hc]; exact hl h

/-- An operation of the decoder on instance `id`, started in a sound, running state in which the instance is
constructed and can receive and has a bit period, ends in a sound, running state, and writes what `DecodeTo` lists. -/
structure DecodeSafe (id : Nat) (s t : State) : Prop where
  sound : t.Core
  running : t.fault = none
  frame : State.DecodeTo id s t

/-- Where the decoder runs: 41_decoder.md R140, and R7 for the bit period. -/
structure State.Decoding (s : State) (id : Nat) : Prop where
  core : s.Core
  running : s.fault = none
  built : s.constructed id = true
  valid : (s.inst id).rxValid = true
  period : (s.inst id).bitPeriod ≠ 0

theorem DecodeSafe.decoding {id : Nat} {s t : State} (h : DecodeSafe id s t) (hs : s.Decoding id) : t.Decoding id :=
  ⟨h.sound, h.running, by rw [h.frame.constructed]; exact hs.built, by rw [h.frame.inst]; exact hs.valid,
    by rw [h.frame.inst]; exact hs.period⟩

theorem DecodeSafe.trans {id : Nat} {s t u : State} (h1 : DecodeSafe id s t) (h2 : DecodeSafe id t u) :
    DecodeSafe id s u := ⟨h2.sound, h2.running, h1.frame.trans h2.frame⟩

theorem EnvSafe.decodeSafe {s t : State} (h : EnvSafe s t) (id : Nat) (hc : s.Core) (hf : s.fault = none) :
    DecodeSafe id s t := ⟨(h.safe hc hf).1, (h.safe hc hf).2, h.env.decodeTo id⟩

/-- REPLAY_EDGE over the state. -/
theorem replayOn_safe {id ts : Nat} (level : Bool) {s : State} (h : s.Decoding id)
    (hts : ts < s.params.width.modulus) : DecodeSafe id s (replayOn id ts level s) := by
  obtain ⟨y, hy, h1, h2, h3⟩ :=
    replayEdge_sound level (h.core.inst h.built) (h.core.cells h.built) h.valid h.period hts
  unfold replayOn State.applyInst
  rw [hy]
  refine ⟨h.core.modInst id _ fun _ _ => ⟨h1, h2⟩, h.running, modInst_decodeTo y h.built ?_ h3.latch⟩
  have := h3.rest
  have ho : y.outE = (s.inst id).outE := by rw [this]
  rw [ho]; exact this

/-- SYNTH_STOP from its emptiness test on (R155). -/
theorem synthAt_safe {id : Nat} (now : Nat) {s : State} (h : s.Decoding id) : DecodeSafe id s (synthAt id now s) := by
  have h1 := (EnvSafe.tick s).decodeSafe id h.core h.running
  unfold synthAt
  simp only
  split
  · exact h1
  · split
    · exact h1
    · split
      · exact h1.trans
          (replayOn_safe true (h1.decoding h) (Nat.mod_lt _ (by cases (tick s).params.width <;> decide)))
      · exact h1

/-- SYNTH_STOP (R155). -/
theorem synthStop_safe {id : Nat} {s : State} (h : s.Decoding id) : DecodeSafe id s (synthStop id s) := by
  unfold synthStop
  split
  · exact ⟨h.core, h.running, .refl _ _⟩
  · have h1 := (EnvSafe.tick s).decodeSafe id h.core h.running
    simp only
    split
    · exact h1
    · exact h1.trans (synthAt_safe _ (h1.decoding h))

/-- SYNTH_STOP with the operand `now` (30_encoding.md R100). -/
theorem synthStopAt_safe {id : Nat} (now : Nat) {s : State} (h : s.Decoding id) :
    DecodeSafe id s (synthStopAt id now s) := by
  unfold synthStopAt
  split
  · exact ⟨h.core, h.running, .refl _ _⟩
  · exact synthAt_safe _ h

theorem cellGet_rel {α : Type} {P : α → Prop} {m : List (Nat × α)} {k : Nat} {d : α} (h : ∀ e ∈ m, P e.2)
    (hd : P d) : P ((cellGet m k).getD d) := by
  cases hg : cellGet m k with
  | none => exact hd
  | some v => exact h _ (cellGet_mem hg)

/-- The word a slot of `E` holds is a W-bit word. -/
theorem edgeAt_lt {p : Params} {x : Inst} (h : x.Inv p) (i : Nat) : edgeAt x i < p.width.modulus :=
  cellGet_rel (P := fun v => v < p.width.modulus) h.edges_lt
    (by cases p.width <;> simp [Width.modulus, unwrittenEdge])

theorem advanceOutE_sound {p : Params} {x : Inst} (h : x.Inv p) (hr : x.rxValid = true) (hb : x.bitPeriod ≠ 0) :
    (advanceOutE x).Inv p := by
  have hi := h.indices hr
  refine { h with indices := fun _ => ⟨hi.1, ?_, hi.2.2⟩, idle_before_start := fun h0 => absurd h0 hb }
  simp only [advanceOutE, ringNext]; split <;> omega

theorem modInst_const {id : Nat} {s : State} (f : Inst → Inst) (hc : s.Core) (hb : s.constructed id = true) :
    s.modInst id f = s.modInst id fun _ => f (s.inst id) := by
  unfold State.modInst
  congr 1
  simp only [cellMod]
  refine List.map_congr_left fun e he => ?_
  split
  · next hk =>
    have : cellGet s.insts id = some e.2 := by
      subst hk; exact cellGet_of_mem hc.memory.1 he
    rw [(constructed_of_cellGet this).2]
  · rfl

/-- One event dequeued and replayed (R141). -/
theorem replayNext_safe {id : Nat} {s : State} (h : s.Decoding id) : DecodeSafe id s (replayNext id s) := by
  have h1 := (EnvSafe.tick s).decodeSafe id h.core h.running
  have hd1 := h1.decoding h
  unfold replayNext
  simp only
  split
  · exact h1
  · have hi := hd1.core.inst hd1.built
    rw [if_pos (hi.indices hd1.valid).2.1]
    have h2 := h1.trans ((EnvSafe.tick (tick s)).decodeSafe id hd1.core hd1.running)
    have hd2 := h2.decoding h
    rw [runAll_cons_running _ _ h1.running, runAll_cons_running _ _ h2.running]
    have h3 : DecodeSafe id (tick (tick s)) ((tick (tick s)).modInst id advanceOutE) := by
      rw [modInst_const _ hd2.core hd2.built]
      refine ⟨hd2.core.modInst id _ fun _ _ =>
        ⟨advanceOutE_sound (hd2.core.inst hd2.built) hd2.valid hd2.period, hd2.core.cells hd2.built⟩, hd2.running,
        modInst_decodeTo _ hd2.built rfl fun h => h⟩
    have h4 := h2.trans h3
    have hd4 := h4.decoding h
    rw [runAll_cons_running _ _ h4.running, runAll_nil]
    refine h4.trans (replayOn_safe _ hd4 ?_)
    have : (tick s).params = ((tick (tick s)).modInst id advanceOutE).params :=
      (h4.frame.params.trans h1.frame.params.symm).symm
    rw [← this]
    exact Nat.lt_of_le_of_lt (Nat.sub_le _ _) (edgeAt_lt hi _)

theorem replayQueued_safe {id : Nat} (n : Nat) {s : State} (h : s.Decoding id) :
    DecodeSafe id s (replayQueued id n s) := by
  induction n generalizing s with
  | zero => exact ⟨h.core, h.running, .refl _ _⟩
  | succ n ih =>
    simp only [replayQueued]
    split
    · exact ⟨h.core, h.running, .refl _ _⟩
    · have h1 := replayNext_safe h
      exact h1.trans (ih (h1.decoding h))

/-- RXBITS (R141) on a constructed instance: sound and running, and nothing written beyond `DecodeTo`. -/
theorem rxbits_safe {id : Nat} {s : State} (hc : s.Core) (hf : s.fault = none) (hb : s.constructed id = true) :
    DecodeSafe id s (rxbits id s) := by
  unfold rxbits
  split
  · next hv =>
    have h1 := (EnvSafe.tick s).decodeSafe id hc hf
    by_cases hp : (s.inst id).bitPeriod = 0
    · have hi := (h1.sound.inst (by rw [h1.frame.constructed]; exact hb)).idle_before_start
        (by rw [h1.frame.inst]; exact hp)
      have hz : ringCount ((tick s).inst id).edgeCap ((tick s).inst id).inE ((tick s).inst id).outE = 0 := by
        simp [ringCount, hi.2.1]
      simp only [hz, runAll_cons_running _ _ h1.running, replayQueued, runAll_nil, synthStop, hi.1, if_true]
      exact h1
    · have hd1 := h1.decoding ⟨hc, hf, hb, hv, hp⟩
      have h2 := h1.trans (replayQueued_safe
        (ringCount ((tick s).inst id).edgeCap ((tick s).inst id).inE ((tick s).inst id).outE) hd1)
      have hd2 := h2.decoding ⟨hc, hf, hb, hv, hp⟩
      simp only [runAll_cons_running _ _ h1.running, runAll_cons_running _ _ h2.running, runAll_nil]
      exact h2.trans (synthStop_safe hd2)
  · exact ⟨hc, hf, .refl _ _⟩

end Sys2Proof.Machine
end

