-- ==== Sys2Proof/Laws/Hal.lean ====
section
/-! SUPPORT. What each HAL call of 60_exceptions.md R300 can do, said once: a micro-step boundary in which only the
environment acts, the call's own effect, and the captures it makes deliverable. -/

namespace Sys2Proof.Machine

theorem State.running_of_safe {s u : State} (h : EnvSafe s u) (hc : s.Core) (hf : s.fault = none) :
    u.stopped = false := (not_stopped_iff u).2 (h.safe hc hf).2

/-- The state a `writePinLevel` has just written. -/
def pinWritten (p : Nat) (v : Bool) (u : State) : State :=
  { u.setPin p { u.pin p with latch := v } with outputs := .pinWrite u.tau p v :: u.outputs }

/-- The state a `setPinMode` has just written. -/
def modeWritten (p : Nat) (m : PinMode) (u : State) : State :=
  { u.setPin p { u.pin p with mode := m } with outputs := .pinMode u.tau p m :: u.outputs }

theorem pinWritten_core {p : Nat} {v : Bool} {u : State} (h : u.Core) : (pinWritten p v u).Core :=
  (h.setPin p { u.pin p with latch := v }).congr rfl rfl rfl rfl rfl rfl rfl

theorem modeWritten_core {p : Nat} {m : PinMode} {u : State} (h : u.Core) : (modeWritten p m u).Core :=
  (h.setPin p { u.pin p with mode := m }).congr rfl rfl rfl rfl rfl rfl rfl

/-- `writePinLevel(p, v)`. -/
theorem writePinLevel_spec (p : Nat) (v : Bool) {s : State} (hc : s.Core) (hf : s.fault = none) :
    EnvSafe s (tick s) ∧ EnvSafe (pinWritten p v (tick s)) (writePinLevel p v s) ∧ (writePinLevel p v s).Core ∧
      (writePinLevel p v s).fault = none := by
  have h1 := EnvSafe.tick s
  have hs := h1.safe hc hf
  have e : writePinLevel p v s = afterHal (tick s) (pinWritten p v (tick s)) := by
    simp only [writePinLevel, State.running_of_safe h1 hc hf, Bool.false_eq_true, if_false]; rfl
  have h2 : EnvSafe (pinWritten p v (tick s)) (writePinLevel p v s) := by rw [e]; exact EnvSafe.afterHal _ _
  have h3 := h2.safe (pinWritten_core hs.1) hs.2
  exact ⟨h1, h2, h3.1, h3.2⟩

/-- `setPinMode(p, m)`. -/
theorem setPinMode_spec (p : Nat) (m : PinMode) {s : State} (hc : s.Core) (hf : s.fault = none) :
    EnvSafe s (tick s) ∧ EnvSafe (modeWritten p m (tick s)) (setPinMode p m s) ∧ (setPinMode p m s).Core ∧
      (setPinMode p m s).fault = none := by
  have h1 := EnvSafe.tick s
  have hs := h1.safe hc hf
  have e : setPinMode p m s = afterHal (tick s) (modeWritten p m (tick s)) := by
    simp only [setPinMode, State.running_of_safe h1 hc hf, Bool.false_eq_true, if_false]; rfl
  have h2 : EnvSafe (modeWritten p m (tick s)) (setPinMode p m s) := by rw [e]; exact EnvSafe.afterHal _ _
  have h3 := h2.safe (modeWritten_core hs.1) hs.2
  exact ⟨h1, h2, h3.1, h3.2⟩

/-- `attachEdgeInterrupt(p)`. -/
theorem attachEdgeInterrupt_spec (p : Nat) {s : State} (hc : s.Core) (hf : s.fault = none) :
    EnvSafe s (tick s) ∧
      attachEdgeInterrupt p s = { tick s with attached := pinInsert (tick s).attached p } ∧
      (attachEdgeInterrupt p s).Core ∧ (attachEdgeInterrupt p s).fault = none := by
  have h1 := EnvSafe.tick s
  have hs := h1.safe hc hf
  have e : attachEdgeInterrupt p s = { tick s with attached := pinInsert (tick s).attached p } := by
    simp only [attachEdgeInterrupt, State.running_of_safe h1 hc hf, Bool.false_eq_true, if_false]
  obtain ⟨_, _, m3, m4, m5, m6, m7⟩ := hs.1.memory
  refine ⟨h1, e, ?_, ?_⟩
  · rw [e]; exact hs.1.of_lists rfl rfl m3 m4 m5 m6 (pinInsert_rising p m7)
  · rw [e]; exact hs.2

/-- `detachInterrupt(p)`. -/
theorem detachInterrupt_spec (p : Nat) {s : State} (hc : s.Core) (hf : s.fault = none) :
    EnvSafe s (tick s) ∧
      detachInterrupt p s =
        { (tick s).setPend p Pending.clear with attached := (tick s).attached.filter fun q => q ≠ p } ∧
      (detachInterrupt p s).Core ∧ (detachInterrupt p s).fault = none := by
  have h1 := EnvSafe.tick s
  have hs := h1.safe hc hf
  have e : detachInterrupt p s =
      { (tick s).setPend p Pending.clear with attached := (tick s).attached.filter fun q => q ≠ p } := by
    simp only [detachInterrupt, State.running_of_safe h1 hc hf, Bool.false_eq_true, if_false]
  obtain ⟨_, _, m3, m4, m5, m6, m7⟩ := (hs.1.setPend p Pending.clear).memory
  refine ⟨h1, e, ?_, ?_⟩
  · rw [e]; exact (hs.1.setPend p Pending.clear).of_lists rfl rfl m3 m4 m5 m6 (m7.filter _)
  · rw [e]; exact hs.2

/-- `maskInterrupts()`. -/
theorem maskInterrupts_spec {s : State} (hc : s.Core) (hf : s.fault = none) :
    EnvSafe s (tick s) ∧ maskInterrupts s = { tick s with im := true } ∧ (maskInterrupts s).Core ∧
      (maskInterrupts s).fault = none := by
  have h1 := EnvSafe.tick s
  have hs := h1.safe hc hf
  have e : maskInterrupts s = { tick s with im := true } := by
    simp only [maskInterrupts, State.running_of_safe h1 hc hf, Bool.false_eq_true, if_false]
  refine ⟨h1, e, ?_, ?_⟩
  · rw [e]; exact hs.1.congr rfl rfl rfl rfl rfl rfl rfl
  · rw [e]; exact hs.2

/-- `unmaskInterrupts()`. -/
theorem unmaskInterrupts_spec {s : State} (hc : s.Core) (hf : s.fault = none) :
    EnvSafe s (tick s) ∧ EnvSafe { tick s with im := false } (unmaskInterrupts s) ∧ (unmaskInterrupts s).Core ∧
      (unmaskInterrupts s).fault = none := by
  have h1 := EnvSafe.tick s
  have hs := h1.safe hc hf
  have e : unmaskInterrupts s = settle (armAll { tick s with im := false }) := by
    simp only [unmaskInterrupts, State.running_of_safe h1 hc hf, Bool.false_eq_true, if_false]
  have h2 : EnvSafe { tick s with im := false } (unmaskInterrupts s) := by
    rw [e]; exact (EnvSafe.armAll _).trans (.settle _)
  have h0 : ({ tick s with im := false } : State).Core := hs.1.congr rfl rfl rfl rfl rfl rfl rfl
  have h3 := h2.safe h0 hs.2
  exact ⟨h1, h2, h3.1, h3.2⟩

/-! ### Yields and waits -/

/-- A yield in which host code issues nothing is the environment's time only. -/
theorem cooperativeYield_quiet (us : Nat) (host : HostCode) (hh : ∀ t s, s.HostWaits → host t s = s) {s : State}
    (hq : s.HostWaits) (hf : s.fault = none) : EnvSafe s (cooperativeYield host us s) := by
  unfold cooperativeYield
  simp only
  rw [runAll_cons_running _ _ (by simpa using hf), hh _ _ (by exact hq), runAll_cons_running _ _ (by simpa using hf), runAll_nil]
  exact (EnvSafe.draws s _).trans (.advanceTo _ _)

/-! ### Time -/

theorem dueCaptures_lt {bound : Nat} {s : State} {c : Nat × Nat × Nat} (h : c ∈ dueCaptures bound s) : c.1 < bound := by
  simp only [dueCaptures, List.mem_filterMap] at h
  obtain ⟨e, -, he⟩ := h
  split at he
  · split at he
    · next hlt =>
      obtain ⟨id, -, rfl⟩ := Option.map_eq_some_iff.1 he
      exact hlt
    · cases he
  · cases he

theorem nextCapture_lt {bound : Nat} {s t : State} {c : Nat × Nat × Nat} (h : nextCapture bound s = some (c, t)) :
    c.1 < bound ∧ t.tau = s.tau := by
  have hm : ∀ a ∈ firstDue (dueCaptures bound s), a.1 < bound := fun a ha =>
    dueCaptures_lt (List.mem_filter.1 ha).1
  unfold nextCapture at h
  split at h
  · cases h
  · next c' he => cases h; exact ⟨hm _ (by rw [he]; simp), rfl⟩
  · next a as _ he =>
    cases h
    refine ⟨hm _ ?_, rfl⟩
    rw [he, List.getD_eq_getElem?_getD]
    cases hg : (a :: as)[(takeDraw 0 s.draws.order).1 % (as.length + 1)]? with
    | none => simp
    | some b => exact List.mem_of_getElem? hg

theorem foldl_tau {α : Type} {f : State → α → State} (hf : ∀ s a, (f s a).tau = s.tau) (l : List α) (s : State) :
    (l.foldl f s).tau = s.tau := by
  induction l generalizing s with
  | nil => rfl
  | cons a l ih => simp only [List.foldl_cons, ih, hf]

@[simp] theorem armAll_tau (s : State) : (armAll s).tau = s.tau := by
  refine foldl_tau (fun t p => ?_) _ _
  unfold armPin; split <;> rfl

@[simp] theorem noteTransitions_tau (s0 s : State) : (noteTransitions s0 s).tau = s.tau := by
  refine foldl_tau (fun t p => ?_) _ _
  split <;> rfl

@[simp] theorem applyInput_tau (c : InputChange) (s : State) : (applyInput c s).tau = s.tau := by
  unfold applyInput
  cases c.level <;> simp

@[simp] theorem captureStep_tau (id : Nat) (s : State) : (captureStep id s).tau = s.tau := by
  unfold captureStep captureBody State.applyInst
  split
  · simp only [armAll_tau]; split <;> rfl
  · rfl

/-- Captures due before `bound` take the time to `bound - 1` at most. -/
theorem runCaptures_tau (fuel bound : Nat) (s : State) :
    (runCaptures fuel bound s).tau ≤ max s.tau (bound - 1) := by
  induction fuel generalizing s with
  | zero => exact Nat.le_max_left _ _
  | succ n ih =>
    simp only [runCaptures]
    split
    · exact Nat.le_max_left _ _
    · cases hn : nextCapture bound s with
      | none => exact Nat.le_max_left _ _
      | some r =>
        obtain ⟨c, t⟩ := r
        have := nextCapture_lt hn
        refine Nat.le_trans (ih _) ?_
        simp only [captureStep_tau, atTime_tau, this.2]
        omega

/-- The passing of time from a sound, running state ends exactly at its target. -/
theorem passInputs_tau (cs : List InputChange) (b t : Nat) {s : State} (hc : s.Core) (hf : s.fault = none)
    (hb : b ≤ t + 1) (ht : s.tau ≤ t) : (passInputs cs b t s).tau = t := by
  induction cs generalizing s with
  | nil =>
    simp only [passInputs, (not_stopped_iff s).2 hf, Bool.false_eq_true, if_false, atTime_tau]
    have := runCaptures_tau (pendingTotal s) b s
    omega
  | cons c cs ih =>
    simp only [passInputs, (not_stopped_iff s).2 hf, Bool.false_eq_true, if_false]
    have hr := (EnvSafe.runCaptures (pendingTotal s) c.time s).safe hc hf
    split
    · next hlt =>
      rw [if_neg (by rw [(not_stopped_iff _).2 hr.2]; simp)]
      have h2 := ((EnvSafe.inputs _ cs).trans (EnvSafe.atTime _ c.time)).safe hr.1 hr.2
      have h3 := (EnvSafe.applyInput c _).safe h2.1 h2.2
      refine ih h3.1 h3.2 ?_
      simp only [applyInput_tau, atTime_tau]
      have := runCaptures_tau (pendingTotal s) c.time s
      omega
    · simp only [atTime_tau]
      have := runCaptures_tau (pendingTotal s) b s
      omega

theorem advanceTo_tau (t : Nat) {s : State} (hc : s.Core) (hf : s.fault = none) :
    (advanceTo t s).tau = max s.tau t := passInputs_tau _ _ _ hc hf (Nat.le_refl _) (Nat.le_max_left _ _)

theorem settle_tau {s : State} (hc : s.Core) (hf : s.fault = none) : (settle s).tau = s.tau := by
  unfold settle
  split
  · rfl
  · rw [advanceTo_tau _ hc hf, Nat.max_self]

theorem advanceToBefore_tau (t : Nat) {s : State} (hc : s.Core) (hf : s.fault = none) :
    (advanceToBefore t s).tau = max s.tau t := by
  have h := (EnvSafe.passInputs s.inputs (max s.tau t) (max s.tau t) s).safe hc hf
  rw [advanceToBefore, settle_tau h.1 h.2, passInputs_tau _ _ _ hc hf (Nat.le_succ _) (Nat.le_max_left _ _)]

/-- Whatever the draw of the order, the host's next command comes at its time, or now. -/
theorem arriveAt_tau (t : Nat) {s : State} (hc : s.Core) (hf : s.fault = none) :
    (arriveAt t s).tau = max s.tau t := by
  have h := (EnvSafe.draws s { s.draws with hold := (takeDraw 0 s.draws.hold).2 }).safe hc hf
  unfold arriveAt
  simp only
  split
  · exact advanceTo_tau t h.1 h.2
  · exact advanceToBefore_tau t h.1 h.2

/-- A boundary takes the draw `d` (00_scope.md R12). -/
theorem tick_tau {s : State} (hc : s.Core) (hf : s.fault = none) :
    (tick s).tau = s.tau + (takeDraw 0 s.draws.overhead).1 := by
  have h := (EnvSafe.draws s { s.draws with
    overhead := (takeDraw 0 s.draws.overhead).2, hold := (takeDraw 0 s.draws.hold).2 }).safe hc hf
  unfold tick
  simp only
  split
  · rw [advanceTo_tau _ h.1 h.2]; exact Nat.max_eq_right (Nat.le_add_right _ _)
  · rw [advanceToBefore_tau _ h.1 h.2]; exact Nat.max_eq_right (Nat.le_add_right _ _)

/-! ### The environment takes no draw of the main-line agent -/

/-- From `s` to `t` only latencies and orders of captures have been drawn. -/
structure CaptureDraws (s t : State) : Prop where
  late : t.draws.late = s.draws.late
  yieldFor : t.draws.yieldFor = s.draws.yieldFor
  overhead : t.draws.overhead = s.draws.overhead
  hold : t.draws.hold = s.draws.hold
  callback : t.draws.callback = s.draws.callback

theorem CaptureDraws.of_eq {s t : State} (h : t.draws = s.draws) : CaptureDraws s t := by
  constructor <;> rw [h]

theorem CaptureDraws.refl (s : State) : CaptureDraws s s := .of_eq rfl

theorem CaptureDraws.trans {s t u : State} (h1 : CaptureDraws s t) (h2 : CaptureDraws t u) : CaptureDraws s u :=
  ⟨h2.late.trans h1.late, h2.yieldFor.trans h1.yieldFor, h2.overhead.trans h1.overhead, h2.hold.trans h1.hold,
    h2.callback.trans h1.callback⟩

theorem CaptureDraws.foldl {α : Type} {f : State → α → State} (hf : ∀ s a, CaptureDraws s (f s a)) (l : List α)
    (s : State) : CaptureDraws s (l.foldl f s) := by
  induction l generalizing s with
  | nil => exact .refl s
  | cons a l ih => exact (hf s a).trans (ih _)

theorem CaptureDraws.armAll (s : State) : CaptureDraws s (armAll s) :=
  CaptureDraws.foldl (fun t p => by unfold armPin; split <;> exact ⟨rfl, rfl, rfl, rfl, rfl⟩) _ _

theorem CaptureDraws.noteTransitions (s0 s : State) : CaptureDraws s (noteTransitions s0 s) :=
  CaptureDraws.foldl (fun t p => by split <;> exact .of_eq rfl) _ _

theorem CaptureDraws.applyInput (c : InputChange) (s : State) : CaptureDraws s (applyInput c s) := by
  unfold Machine.applyInput
  refine CaptureDraws.trans ?_ ((CaptureDraws.noteTransitions s _).trans (.armAll _))
  cases c.level <;> exact .of_eq rfl

theorem CaptureDraws.captureStep (id : Nat) (s : State) : CaptureDraws s (captureStep id s) := by
  unfold Machine.captureStep captureBody State.applyInst
  split
  · refine CaptureDraws.trans ?_ (.armAll _)
    split <;> exact .of_eq rfl
  · exact .refl s

theorem CaptureDraws.nextCapture {bound : Nat} {s t : State} {c : Nat × Nat × Nat}
    (h : nextCapture bound s = some (c, t)) : CaptureDraws s t := by
  unfold Machine.nextCapture at h
  split at h <;> cases h <;> exact ⟨rfl, rfl, rfl, rfl, rfl⟩

theorem CaptureDraws.runCaptures (fuel bound : Nat) (s : State) : CaptureDraws s (runCaptures fuel bound s) := by
  induction fuel generalizing s with
  | zero => exact .refl s
  | succ n ih =>
    simp only [Machine.runCaptures]
    split
    · exact .refl s
    · cases hn : Machine.nextCapture bound s with
      | none => exact .refl s
      | some r =>
        obtain ⟨c, t⟩ := r
        have h1 : CaptureDraws s (t.atTime c.1) := (CaptureDraws.nextCapture hn).trans (.of_eq rfl)
        exact h1.trans ((CaptureDraws.captureStep _ _).trans (ih _))

theorem CaptureDraws.passInputs (cs : List InputChange) (b t : Nat) (s : State) :
    CaptureDraws s (passInputs cs b t s) := by
  induction cs generalizing s with
  | nil =>
    simp only [Machine.passInputs]
    split
    · exact .refl s
    · exact (CaptureDraws.runCaptures _ _ s).trans (.of_eq rfl)
  | cons c cs ih =>
    simp only [Machine.passInputs]
    split
    · exact .refl s
    · have h1 := CaptureDraws.runCaptures (pendingTotal s) c.time s
      split
      · split
        · exact h1
        · refine h1.trans (CaptureDraws.trans ?_ ((CaptureDraws.applyInput c _).trans (ih _)))
          exact .of_eq rfl
      · exact (CaptureDraws.runCaptures _ _ s).trans (.of_eq rfl)

theorem CaptureDraws.advanceTo (t : Nat) (s : State) : CaptureDraws s (advanceTo t s) := .passInputs _ _ _ s

theorem CaptureDraws.settle (s : State) : CaptureDraws s (settle s) := by
  unfold Machine.settle
  split
  · exact .refl s
  · exact .advanceTo _ s

theorem CaptureDraws.advanceToBefore (t : Nat) (s : State) : CaptureDraws s (advanceToBefore t s) :=
  (CaptureDraws.passInputs _ _ _ s).trans (.settle _)

/-- A boundary takes one draw `d` and one draw of the order besides. -/
theorem CaptureDraws.tick (s : State) :
    CaptureDraws { s with draws := { s.draws with
      overhead := (takeDraw 0 s.draws.overhead).2, hold := (takeDraw 0 s.draws.hold).2 } } (tick s) := by
  unfold Machine.tick
  simp only
  split
  · exact .advanceTo _ _
  · exact .advanceToBefore _ _

end Sys2Proof.Machine
end

