-- ==== Sys2Proof/Laws/Exec.lean ====
section
/-! SUPPORT. The frames every operation runs in: the entry checks where they pass, the dispatch, and host code that issues
nothing. -/

namespace Sys2Proof.Machine

/-- A host command that the entry checks accept runs its own steps. -/
theorem hostOperation_accepts {id : Nat} {s : State} (h : s.Accepts id) (body : State → State) :
    hostOperation id body s = .next (body s) := by
  have : entryFault id s = none := by
    simp [entryFault, h.normal, h.built, h.alive, h.outside]
  simp [hostOperation, h.running, this]

/-- An internal operation that the unit issues on a constructed instance runs its own steps. -/
theorem internalOperation_accepts {id : Nat} {s : State} (h : s.AcceptsInternal id) (body : State → State) :
    internalOperation id body s = .next (body s) := by
  simp [internalOperation, h.running, h.fromUnit, h.built]

/-- `exec` is the dispatch of Nesting.lean over the host code of the outermost nesting. -/
theorem exec_eq_dispatchWith (i : Instr) (s : State) : exec i s = dispatchWith (outerHost s) i s := by
  cases i <;> rfl

/-- Host code inside a yield or a callback does nothing where the next command is of the host's main line. -/
theorem hostCode_waits (fuel level : Nat) (tEnd : Option Nat) {s : State} (h : s.HostWaits) :
    hostCode fuel (level + 1) tEnd s = s := by
  cases fuel with
  | zero => rfl
  | succ n =>
    simp only [hostCode]
    split
    · rfl
    · next c rest hq =>
      have hc : c.level = 0 := h c (by rw [hq]; rfl)
      simp [issuesHere, hc]

theorem outerHost_waits (s : State) {t : State} (ht : t.HostWaits) (tEnd : Option Nat) : outerHost s tEnd t = t :=
  hostCode_waits _ 0 tEnd ht

/-- A command of the host whose opcode it may not issue raises `Fault(UNKNOWN_OPCODE)`, whatever its operands (R103). -/
theorem issue_notHostIssuable {run : Instr → State → Out} {c : HostCommand} {s : State}
    (h : opcodeHostIssuable c.cmd.op.toNat = false) :
    issue run c s = .next (({ s with ctx := c.ctx, issuer := .host } : State).raise .unknownOpcode) := by
  simp [issue, h]

/-- A command of the host that decodes to an operation it may issue runs it. -/
theorem issue_decoded {run : Instr → State → Out} {c : HostCommand} {s : State} {i : Instr}
    (h : opcodeHostIssuable c.cmd.op.toNat = true) (hd : decode c.cmd = .ok i) :
    issue run c s = run i { s with ctx := c.ctx, issuer := .host } := by
  simp [issue, h, hd]

/-- Where no capture runs, the other agents have the step. -/
theorem captureOr_none {run : Instr → State → Out} {others : State → Out} {s : State}
    (h : nextCapture (s.tau + 1) s = none) : captureOr run others s = others s := by
  simp [captureOr, h]

/-- Where one does, it has. -/
theorem captureOr_some {run : Instr → State → Out} {others : State → Out} {s u : State}
    {c : Nat × Nat × Nat} (h : nextCapture (s.tau + 1) s = some (c, u)) :
    captureOr run others s = run (.capture c.2.2) { u with ctx := .interrupt, issuer := .unit } := by
  simp [captureOr, h]

/-- The return of a receive callback is the environment's time only: its draw (60_exceptions.md R308). -/
theorem callbackReturns_safe (s : State) : EnvSafe s (callbackReturns s) :=
  (EnvSafe.draws s _).trans (.advanceTo _ _)

theorem callbackReturns_tau {s : State} (hc : s.Core) (hf : s.fault = none) :
    (callbackReturns s).tau = s.tau + (takeDraw 0 s.draws.callback).1 := by
  have h := (EnvSafe.draws s { s.draws with callback := (takeDraw 0 s.draws.callback).2 }).safe hc hf
  rw [callbackReturns, advanceTo_tau _ h.1 h.2]
  exact Nat.max_eq_right (Nat.le_add_right _ _)

/-- A step in a state that has stopped. -/
theorem step_stopped {s : State} {code : FaultCode} (h : s.fault = some code) : step s = .fault (.stopped code) := by
  simp [step, stepWith, h]

/-- The spin of WAIT_BIT_CYCLES is the environment's time only. -/
theorem spinUntil_safe (d : Nat) (s : State) : EnvSafe s (spinUntil d s) := by
  unfold spinUntil
  simp only
  split
  · exact .tick s
  · split
    · exact (EnvSafe.tick s).trans (.advanceTo _ _)
    · exact ((EnvSafe.tick s).trans (.advanceTo _ _)).trans ((EnvSafe.draws _ _).trans (.advanceTo _ _))

end Sys2Proof.Machine
end

