-- ==== Sys2Proof/Laws/PerInstr.lean ====
section
/-! SUPPORT. Statements about every instruction as syntax, one lemma per constructor. Family `Opcode`: an instruction's
encoding names its instance, carries an opcode of 30_encoding.md R100, and lies in the host's range 0x01 to 0x20 or the
internal range 0x40 to 0x44 as the instruction is host-issuable or not. -/

namespace Sys2Proof.Laws.Opcode

/-- What family `Opcode` says of an instruction. -/
def Statement (i : Instr) : Prop :=
  (encode i).inst = i.target ∧ opcodeAssigned (encode i).op.toNat = true ∧
    (i.hostIssuable = true ↔ (encode i).op.toNat ≤ 0x20)

theorem construct (s rx tx : Nat) (inv : Bool) (nb ne : Nat) : Statement (.construct s rx tx inv nb ne) :=
  ⟨rfl, rfl, by simp [Instr.hostIssuable, encode, Instr.opcode]⟩
theorem start (s : Nat) (baud : Int) : Statement (.start s baud) :=
  ⟨rfl, rfl, by simp [Instr.hostIssuable, encode, Instr.opcode]⟩
theorem stop (s : Nat) : Statement (.stop s) := ⟨rfl, rfl, by simp [Instr.hostIssuable, encode, Instr.opcode]⟩
theorem destruct (s : Nat) : Statement (.destruct s) :=
  ⟨rfl, rfl, by simp [Instr.hostIssuable, encode, Instr.opcode]⟩
theorem enableRx (s : Nat) (on : Bool) : Statement (.enableRx s on) :=
  ⟨rfl, rfl, by simp [Instr.hostIssuable, encode, Instr.opcode]⟩
theorem enableTx (s : Nat) (on : Bool) : Statement (.enableTx s on) :=
  ⟨rfl, rfl, by simp [Instr.hostIssuable, encode, Instr.opcode]⟩
theorem setTxEnablePin (s pin : Nat) : Statement (.setTxEnablePin s pin) :=
  ⟨rfl, rfl, by simp [Instr.hostIssuable, encode, Instr.opcode]⟩
theorem baudrate (s : Nat) : Statement (.baudrate s) :=
  ⟨rfl, rfl, by simp [Instr.hostIssuable, encode, Instr.opcode]⟩
theorem available (s : Nat) : Statement (.available s) :=
  ⟨rfl, rfl, by simp [Instr.hostIssuable, encode, Instr.opcode]⟩
theorem read (s : Nat) : Statement (.read s) := ⟨rfl, rfl, by simp [Instr.hostIssuable, encode, Instr.opcode]⟩
theorem peek (s : Nat) : Statement (.peek s) := ⟨rfl, rfl, by simp [Instr.hostIssuable, encode, Instr.opcode]⟩
theorem flush (s : Nat) : Statement (.flush s) := ⟨rfl, rfl, by simp [Instr.hostIssuable, encode, Instr.opcode]⟩
theorem overflow (s : Nat) : Statement (.overflow s) :=
  ⟨rfl, rfl, by simp [Instr.hostIssuable, encode, Instr.opcode]⟩
theorem onReceive (s : Nat) (cb : Option Nat) : Statement (.onReceive s cb) :=
  ⟨rfl, rfl, by simp [Instr.hostIssuable, encode, Instr.opcode]⟩
theorem pump (s : Nat) : Statement (.pump s) := ⟨rfl, rfl, by simp [Instr.hostIssuable, encode, Instr.opcode]⟩
theorem write (s : Nat) (bytes : List Byte) : Statement (.write s bytes) :=
  ⟨rfl, rfl, by simp [Instr.hostIssuable, encode, Instr.opcode]⟩
theorem capture (s : Nat) : Statement (.capture s) :=
  ⟨rfl, rfl, by simp [Instr.hostIssuable, encode, Instr.opcode]⟩
theorem rxbits (s : Nat) : Statement (.rxbits s) := ⟨rfl, rfl, by simp [Instr.hostIssuable, encode, Instr.opcode]⟩
theorem replayEdge (s : Nat) (ev : EdgeEvent) : Statement (.replayEdge s ev) :=
  ⟨rfl, rfl, by simp [Instr.hostIssuable, encode, Instr.opcode]⟩
theorem synthStop (s : Nat) : Statement (.synthStop s) :=
  ⟨rfl, rfl, by simp [Instr.hostIssuable, encode, Instr.opcode]⟩
theorem synthStopAt (s now : Nat) : Statement (.synthStopAt s now) :=
  ⟨rfl, rfl, by simp [Instr.hostIssuable, encode, Instr.opcode]⟩
theorem waitBitCycles (s d : Nat) : Statement (.waitBitCycles s d) :=
  ⟨rfl, rfl, by simp [Instr.hostIssuable, encode, Instr.opcode]⟩

end Sys2Proof.Laws.Opcode
end

