-- ==== Sys2Proof/Laws/Rings.lean ====
section
/-! SUPPORT. The laws of the two rings: indices stay in range, the count follows them, and windows of slots are not
touched by a write outside them. -/

namespace Sys2Proof.Machine

theorem ringNext_lt {n i : Nat} (h : i < n) : ringNext n i < n := by
  unfold ringNext; split <;> omega

theorem ringCount_lt {n i o : Nat} (hi : i < n) : ringCount n i o < n := by
  unfold ringCount; split <;> omega

/-- Moving the write index on, in a ring that is not full, raises the count by one. -/
theorem ringCount_enqueue {n i o : Nat} (ho : o < n) (h : ringNext n i ≠ o) :
    ringCount n (ringNext n i) o = ringCount n i o + 1 := by
  unfold ringNext ringCount at *; split_ifs at h ⊢ <;> omega

/-- Moving the read index on, in a ring that is not empty, lowers the count by one. -/
theorem ringCount_dequeue {n i o : Nat} (hi : i < n) (ho : o < n) (h : i ≠ o) :
    ringCount n i (ringNext n o) + 1 = ringCount n i o := by
  unfold ringNext ringCount; split_ifs <;> omega

/-- A ring is full exactly when it holds `N - 1` values (20_memory.md R64). -/
theorem ringNext_eq_iff {n i o : Nat} (hi : i < n) (ho : o < n) :
    ringNext n i = o ↔ ringCount n i o + 1 = n := by
  unfold ringNext ringCount; split_ifs <;> omega

@[simp] theorem byteWindow_length (x : Inst) (n i : Nat) : (byteWindow x n i).length = n := by
  induction n generalizing i with
  | zero => rfl
  | succ n ih => simp [byteWindow, ih]

@[simp] theorem edgeWindow_length (x : Inst) (n i : Nat) : (edgeWindow x n i).length = n := by
  induction n generalizing i with
  | zero => rfl
  | succ n ih => simp [edgeWindow, ih]

@[simp] theorem byteQueue_length (x : Inst) : (byteQueue x).length = ringCount x.byteCap x.inB x.outB :=
  byteWindow_length _ _ _

@[simp] theorem edgeQueue_length (x : Inst) : (edgeQueue x).length = ringCount x.edgeCap x.inE x.outE :=
  edgeWindow_length _ _ _

/-- A window reads the slots and the capacity, and nothing else. -/
theorem byteWindow_congr {x y : Inst} (hb : y.bytes = x.bytes) (hc : y.byteCap = x.byteCap) (n i : Nat) :
    byteWindow y n i = byteWindow x n i := by
  induction n generalizing i with
  | zero => rfl
  | succ n ih => simp only [byteWindow, byteAt, hb, hc, ih]

theorem edgeWindow_congr {x y : Inst} (hb : y.edges = x.edges) (hc : y.edgeCap = x.edgeCap) (n i : Nat) :
    edgeWindow y n i = edgeWindow x n i := by
  induction n generalizing i with
  | zero => rfl
  | succ n ih => simp only [edgeWindow, edgeAt, hb, hc, ih]

end Sys2Proof.Machine
end

