-- ==== Sys2Proof/Tests/Slice0.lean ====
section
/-! SUPPORT. The model's own tests. Expected results come from spec/: each test names the rule or vector it is taken from.
Then the witnesses: for every statement with hypotheses, concrete states that meet them, one for each clause. -/

namespace Sys2Proof.Machine

/-! ## Well-formedness: an ill-formed term for each check, refused (30_encoding.md R101: W-bit values) -/

theorem test_wf_packed : (Instr.replayEdge 0 (.packed 4294967296)).wf .w32 = false := by decide
theorem test_wf_packed_fits : (Instr.replayEdge 0 (.packed 4294967295)).wf .w32 = true := by decide
theorem test_wf_pair : (Instr.replayEdge 0 (.pair 4294967296 true)).wf .w32 = false := by decide
theorem test_wf_deadline : (Instr.waitBitCycles 0 4294967296).wf .w32 = false := by decide
theorem test_wf_deadline_w64 : (Instr.waitBitCycles 0 4294967296).wf .w64 = true := by decide
theorem test_wf_now : (Instr.synthStopAt 0 4294967296).wf .w32 = false := by decide
theorem test_wf_others : (Instr.start 0 (-5)).wf .w32 = true := by decide

/-! ## Decoding: words written out from 30_encoding.md R100, R101 -/

/-- What a command decodes to. -/
def read? (c : Command) : Option Instr :=
  match decode c with
  | .ok i => some i
  | .error _ => none

theorem test_decode_construct : read? ⟨0b00000001#8, 1, [.num 4, .num 5, .num 0, .num 8, .num 32]⟩ =
    some (.construct 1 4 5 false 8 32) := by decide
theorem test_decode_start : read? ⟨0b00000010#8, 0, [.num (-7)]⟩ = some (.start 0 (-7)) := by decide
theorem test_decode_stop : read? ⟨0b00000011#8, 0, []⟩ = some (.stop 0) := by decide
theorem test_decode_destruct : read? ⟨0b00000100#8, 0, []⟩ = some (.destruct 0) := by decide
theorem test_decode_enableRx : read? ⟨0b00000101#8, 0, [.num 0]⟩ = some (.enableRx 0 false) := by decide
theorem test_decode_enableTx : read? ⟨0b00000110#8, 0, [.num 1]⟩ = some (.enableTx 0 true) := by decide
theorem test_decode_setTxEnablePin : read? ⟨0b00000111#8, 0, [.num 12]⟩ = some (.setTxEnablePin 0 12) := by decide
theorem test_decode_baudrate : read? ⟨0b00001000#8, 0, []⟩ = some (.baudrate 0) := by decide
theorem test_decode_available : read? ⟨0b00010000#8, 0, []⟩ = some (.available 0) := by decide
theorem test_decode_read : read? ⟨0b00010001#8, 0, []⟩ = some (.read 0) := by decide
theorem test_decode_peek : read? ⟨0b00010010#8, 0, []⟩ = some (.peek 0) := by decide
theorem test_decode_flush : read? ⟨0b00010011#8, 0, []⟩ = some (.flush 0) := by decide
theorem test_decode_overflow : read? ⟨0b00010100#8, 0, []⟩ = some (.overflow 0) := by decide
theorem test_decode_onReceive : read? ⟨0b00010101#8, 0, [.num 1]⟩ = some (.onReceive 0 (some 1)) := by decide
theorem test_decode_pump : read? ⟨0b00010110#8, 0, []⟩ = some (.pump 0) := by decide
theorem test_decode_write : read? ⟨0b00100000#8, 0, [.list [255]]⟩ = some (.write 0 [0xFF#8]) := by decide
theorem test_decode_capture : read? ⟨0b01000000#8, 0, []⟩ = some (.capture 0) := by decide
theorem test_decode_rxbits : read? ⟨0b01000001#8, 0, []⟩ = some (.rxbits 0) := by decide
theorem test_decode_replayEdge : read? ⟨0b01000010#8, 0, [.num 1001]⟩ = some (.replayEdge 0 (.packed 1001)) := by
  decide
theorem test_decode_synthStop : read? ⟨0b01000011#8, 0, []⟩ = some (.synthStop 0) := by decide
theorem test_decode_synthStopAt : read? ⟨0b01000011#8, 0, [.num 2200]⟩ = some (.synthStopAt 0 2200) := by decide
theorem test_decode_waitBitCycles : read? ⟨0b01000100#8, 0, [.num 694]⟩ = some (.waitBitCycles 0 694) := by decide

/-- Operands of another type, or too many, are no command (30_encoding.md R101, R105). -/
theorem test_decode_badOperands : read? ⟨0x20#8, 0, [.list [256]]⟩ = none ∧ read? ⟨0x06#8, 0, [.num 2]⟩ = none ∧
    read? ⟨0x11#8, 0, [.num 0]⟩ = none ∧ read? ⟨0x07#8, 0, [.num (-1)]⟩ = none := by decide

/-- Every row of spec/opcode_table.json, and unassigned words around them (30_encoding.md R102). -/
theorem test_tableWords :
    [1, 2, 3, 4, 5, 6, 7, 8, 0x10, 0x11, 0x12, 0x13, 0x14, 0x15, 0x16, 0x20, 0x40, 0x41, 0x42, 0x43, 0x44].map
        (decodeTableWord 8) =
      [some (.construct 0 0 0 false 0 0), some (.start 0 0), some (.stop 0), some (.destruct 0),
        some (.enableRx 0 false), some (.enableTx 0 false), some (.setTxEnablePin 0 0), some (.baudrate 0),
        some (.available 0), some (.read 0), some (.peek 0), some (.flush 0), some (.overflow 0),
        some (.onReceive 0 (some 0)), some (.pump 0), some (.write 0 []), some (.capture 0), some (.rxbits 0),
        some (.replayEdge 0 (.packed 0)), some (.synthStop 0), some (.waitBitCycles 0 0)] ∧
      [0, 9, 0x0F, 0x17, 0x1F, 0x21, 0x3F, 0x45, 0xFF, 0x101].map (decodeTableWord 8) =
        [none, none, none, none, none, none, none, none, none, none] := by decide

/-- 30_encoding.md R106, R107: the examples of the textual syntax, and two pseudo-instructions. -/
theorem test_assemble :
    assemble "CONSTRUCT 4, 5, 0, 8, 32".toList = some (encode (.construct 0 4 5 false 8 32)) ∧
      assemble "WRITE [0x55, 0x00]".toList = some (encode (.write 0 [0x55#8, 0x00#8])) ∧
      assemble "p1.ENABLE_TX 1".toList = some (encode (.enableTx 1 true)) ∧
      assemble "WRITE1 0x41".toList = some (encode (Instr.write1 0 0x41#8)) ∧
      assemble "BEGIN 9600".toList = some (encode (Instr.beginPort 0 9600)) := by decide
theorem test_render : (Instr.construct 2 4 5 false 8 32).render true = "p2.CONSTRUCT 4, 5, 0, 8, 32" ∧
    (Instr.write 0 [0x55#8]).render false = "WRITE [85]" := by decide

/-! ## States for the tests -/

/-- A two-pin port as START leaves it (44_port_facade.md R248): pins 4 and 5, `B = 100`. -/
def port : Inst :=
  { Inst.blank with
    fstate := .configured, rxPin := 4, txPin := 5, bitPeriod := 100, rxValid := true, txValid := true,
    byteCap := 8, edgeCap := 32, rxEnabled := true }

/-- The machine with that port, its receive line idle, at time 5000 (configuration TC1). -/
def demo : State :=
  { State.reset with
    insts := [(0, port)]
    pins := [(4, ⟨.inputPullup, false⟩), (5, ⟨.output, true⟩)]
    attached := [4]
    reg := [(4, 0)]
    driven := [(4, true)]
    tau := 5000 }

/-- `demo` with another port. -/
def withPort (x : Inst) : State := { demo with insts := [(0, x)] }

/-- `demo` as the unit itself sees it. -/
def inUnit (s : State) : State := { s with issuer := .unit }

/-- A one-wire port on pin 4, started. -/
def wirePort : Inst := { port with txPin := 4, oneWire := true }

/-- The machine with that port. -/
def wire : State := { withPort wirePort with pins := [(4, ⟨.inputPullup, false⟩)] }

/-- A port constructed and not started. -/
def freshPort : Inst := { port with fstate := .unconfigured, bitPeriod := 0, rxEnabled := false }

/-- The machine with that port. -/
def fresh : State := { withPort freshPort with attached := [], reg := [] }

/-- `demo` with the receiver detached. -/
def detached : State := { withPort { port with rxEnabled := false } with attached := [], reg := [] }

/-- A transition waits on pin 4 of `demo`, and the pin is low. -/
def low : State := { demo with driven := [(4, false)], pending := [(4, ⟨1, some 5000⟩)] }

/-- Bytes queued from slot 0 on. -/
def holding (bs : List (Nat × Byte)) (n : Nat) : Inst := { port with bytes := bs, inB := n }

/-- The state a meaning answers, for reading its fields. -/
def got (o : Out) : State :=
  match o with
  | .next t => t
  | .fault _ => .reset
  | .refused _ => .reset

theorem demo_inv : demo.Inv := checkInv_sound (by decide)
theorem wire_inv : wire.Inv := checkInv_sound (by decide)
theorem fresh_inv : fresh.Inv := checkInv_sound (by decide)
theorem detached_inv : detached.Inv := checkInv_sound (by decide)
theorem low_inv : low.Inv := checkInv_sound (by decide)

theorem accepts_of {s : State} {id : Nat}
    (h : s.fault = none ∧ s.ctx = .normal ∧ s.constructed id = true ∧ (s.inst id).fstate ≠ .tornDown ∧
      (s.inst id).inYield = false) : s.Accepts id := ⟨h.1, h.2.1, h.2.2.1, h.2.2.2.1, h.2.2.2.2⟩

theorem internal_of {s : State} {id : Nat} (h : s.fault = none ∧ s.issuer = .unit ∧ s.constructed id = true) :
    s.AcceptsInternal id := ⟨h.1, h.2.1, h.2.2⟩

theorem calm_of {s : State} (h : s.inputs = [] ∧ s.pending = [] ∧ s.draws = .ideal ∧ s.HostWaits) : s.Calm :=
  ⟨h.1, h.2.1, h.2.2.1, h.2.2.2⟩

theorem ideal_of {s : State} (h : s.draws = .ideal ∧ s.HostWaits) : s.Ideal := ⟨h.1, h.2⟩

/-! ## The facade -/

/-- 44_port_facade.md R243: `CONSTRUCT 4, 5, 0, 8, 32`, and pin 6 gives a transmit-only port. -/
theorem test_construct :
    let x := (got (exec (.construct 0 4 5 false 8 32) .reset)).inst 0
    (x.rxValid, x.txValid, x.oneWire, x.byteCap, x.edgeCap, x.bitPeriod, x.curBit) =
      (true, true, false, 8, 32, 0, 8) ∧ x.fstate = .unconfigured := by decide
theorem test_construct_invalidPin :
    let x := (got (exec (.construct 0 6 5 false 8 32) .reset)).inst 0
    (x.rxValid, x.txValid) = (false, true) := by decide

/-- 44_port_facade.md R248, `START 10000` in TC1. -/
theorem test_start :
    let t := got (exec (.start 0 10000) fresh)
    (t.inst 0).bitPeriod = 100 ∧ t.pin 5 = ⟨.output, true⟩ ∧ (t.pin 4).mode = .inputPullup ∧
      cellGet t.reg 4 = some 0 ∧ (t.inst 0).rxEnabled = true ∧ (t.inst 0).fstate = .configured := by decide
/-- 95_test_vectors.md EXC-11: `START 0`. -/
theorem test_start_badBaud : (got (exec (.start 0 0) fresh)).fault = some .badBaud := by decide

/-- 44_port_facade.md R262: STOP, DESTRUCT, and a READ afterwards. -/
theorem test_stop :
    let t := got (exec (.stop 0) demo)
    cellGet t.reg 4 = none ∧ (t.inst 0).rxEnabled = false ∧ (t.inst 0).fstate = .configured := by decide
theorem test_destruct :
    let t := got (exec (.destruct 0) demo)
    (t.inst 0).fstate = .tornDown ∧ (got (exec (.read 0) t)).fault = some .tornDown := by decide

/-- 44_port_facade.md R252: attaching puts the decoder in the idle state and enables the receiver. -/
theorem test_enableRx :
    let t := got (exec (.enableRx 0 true) detached)
    (t.inst 0).rxEnabled = true ∧ cellGet t.reg 4 = some 0 ∧ t.attached = [4] := by decide
/-- 44_port_facade.md R253: another instance takes the pin over. -/
theorem test_enableRx_takeover :
    let t := got (exec (.enableRx 1 true) { demo with insts := [(0, port), (1, { port with rxEnabled := false })] })
    (t.inst 0).rxEnabled = false ∧ (t.inst 1).rxEnabled = true ∧ cellGet t.reg 4 = some 1 := by decide

/-- 44_port_facade.md R262: `ENABLE_TX 1` and `ENABLE_TX 0` on a one-wire port. -/
theorem test_enableTx_on :
    let t := got (exec (.enableTx 0 true) wire)
    cellGet t.reg 4 = none ∧ (t.inst 0).rxEnabled = false ∧ t.pin 4 = ⟨.output, true⟩ := by decide
theorem test_enableTx_off :
    let t := got (exec (.enableTx 0 false) (got (exec (.enableTx 0 true) wire)))
    (t.pin 4).mode = .inputPullup ∧ cellGet t.reg 4 = some 0 ∧ (t.inst 0).rxEnabled = true ∧ (t.inst 0).curBit = 8 :=
  by decide

/-- 44_port_facade.md R257: a valid pin, and pin 6, which is not in `VALID_PINS`. -/
theorem test_setTxEnablePin :
    let t := got (exec (.setTxEnablePin 0 12) demo)
    (t.inst 0).txEnableValid = true ∧ (t.inst 0).txEnablePin = 12 ∧ t.pin 12 = ⟨.output, false⟩ := by decide
theorem test_setTxEnablePin_invalid :
    ((got (exec (.setTxEnablePin 0 6) demo)).inst 0).txEnableValid = false := by decide

/-- 44_port_facade.md R249, TC2: `B = 694` gives 115273; 0 before START. -/
theorem test_baudrate :
    (got (exec (.baudrate 0)
      { withPort { port with bitPeriod := 694 } with params := { Params.default with fHz := 80000000 } })).result =
      some (.natural 115273) := by decide
theorem test_baudrate_notStarted : (got (exec (.baudrate 0) fresh)).result = some (.natural 0) := by decide

/-! ## Capture and the decoder -/

/-- 40_capture.md R129: a capture at counter value 1000 with the pin low stores 0x3E9. -/
theorem test_capture :
    let t := got (exec (.capture 0) (inUnit { low with tau := 1000 }))
    edgeAt (t.inst 0) 0 = 0x000003E9 ∧ (t.inst 0).inE = 1 ∧ (t.pend 4).count = 0 := by decide
/-- 40_capture.md R129: the fourth capture into a ring of 4 slots is dropped and latched. -/
theorem test_capture_full :
    let x := (got (exec (.capture 0)
      (inUnit { low with insts := [(0, { port with edgeCap := 4, inE := 3 })] }))).inst 0
    x.inE = 3 ∧ x.edgeOvf = true ∧ x.edges = [] := by decide

/-- 41_decoder.md R165, the first two replays. -/
theorem test_replayEdge_start :
    let x := (got (exec (.replayEdge 0 (.packed 1001)) (inUnit demo))).inst 0
    x.curBit = -1 ∧ x.lastTs = 1000 := by decide
theorem test_replayEdge_bit :
    let x := (got (exec (.replayEdge 0 (.packed 1100))
      (inUnit (withPort { port with curBit := -1, lastTs := 1000 })))).inst 0
    x.curBit = 0 ∧ x.curByte = 0x80#8 ∧ x.lastTs = 1100 := by decide

/-- 41_decoder.md R165: the pass at 2200 synthesizes the stop edge at 2100 and pushes 0xFF. -/
theorem test_synthStop :
    let x := (got (exec (.synthStop 0)
      (inUnit { withPort { port with curBit := 0, curByte := 0x80#8, lastTs := 1100 } with tau := 2200 }))).inst 0
    x.curBit = 8 ∧ x.lastTs = 2100 ∧ byteQueue x = [0xFF#8] := by decide
theorem test_synthStop_tooEarly :
    let s := inUnit { withPort { port with curBit := 0, curByte := 0x80#8, lastTs := 1100 } with tau := 2100 }
    got (exec (.synthStop 0) s) = s := by decide
/-- The same with the counter value given: R165's pass at 2200, while `tau` is still 2000 (log entry 5). -/
theorem test_synthStopAt :
    let x := (got (exec (.synthStopAt 0 2200)
      (inUnit { withPort { port with curBit := 0, curByte := 0x80#8, lastTs := 1100 } with tau := 2000 }))).inst 0
    x.curBit = 8 ∧ x.lastTs = 2100 ∧ byteQueue x = [0xFF#8] := by decide

/-- 41_decoder.md R165, from the two captured edges. -/
theorem test_rxbits :
    let x := (got (exec (.rxbits 0)
      (inUnit { withPort { port with edges := [(0, 1001), (1, 1100)], inE := 2 } with tau := 2200 }))).inst 0
    x.curBit = 8 ∧ x.outE = 2 ∧ x.lastTs = 2100 ∧ byteQueue x = [0xFF#8] := by decide

/-! ## The read API -/

/-- 42_read_api.md R180: with 0x55 fully captured AVAILABLE returns 1. The edges are those of 43_transmitter.md R234. -/
theorem test_available :
    (got (exec (.available 0)
      { withPort { port with
          edges := [(0, 5001), (1, 5100), (2, 5201), (3, 5300), (4, 5401), (5, 5500), (6, 5601), (7, 5700), (8, 5801),
            (9, 5900)]
          inE := 10 } with tau := 6000 })).result = some (.natural 1) := by decide
theorem test_available_notStarted : (got (exec (.available 0) fresh)).result = some (.natural 0) := by decide

/-- 42_read_api.md R181: Q = [0x55] gives 0x55, then -1. -/
theorem test_read :
    let t := got (exec (.read 0) (withPort (holding [(0, 0x55#8)] 1)))
    t.result = some (.integer 0x55) ∧ (got (exec (.read 0) t)).result = some (.integer (-1)) := by decide
/-- 42_read_api.md R182: PEEK does not consume. -/
theorem test_peek :
    let t := got (exec (.peek 0) (withPort (holding [(0, 0x55#8)] 1)))
    t.result = some (.integer 0x55) ∧ byteQueue (t.inst 0) = [0x55#8] := by decide

/-- 42_read_api.md R183: Q = [0x55, 0x01], `curBit = 3`, then FLUSH. -/
theorem test_flush :
    let x := (got (exec (.flush 0)
      (withPort { holding [(0, 0x55#8), (1, 0x01#8)] 2 with curBit := 3, curByte := 0x10#8 }))).inst 0
    byteQueue x = [] ∧ x.curBit = 8 ∧ x.curByte = 0#8 := by decide

/-- 42_read_api.md R184: `edgeOvf = 1`, `byteOvf = 0` gives true, then false. -/
theorem test_overflow :
    let t := got (exec (.overflow 0) (withPort { port with edgeOvf := true }))
    t.result = some (.boolean true) ∧ (got (exec (.overflow 0) t)).result = some (.boolean false) := by decide

/-- 42_read_api.md R185: `ON_RECEIVE cb1`. -/
theorem test_onReceive : ((got (exec (.onReceive 0 (some 1)) demo)).inst 0).rxCallback = some 1 := by decide

/-- 42_read_api.md R186: a pass that pushes 0x41 into an empty ring calls the callback with 1; a second PUMP with no new
byte does not. -/
theorem test_pump :
    let t := got (exec (.pump 0)
      { withPort { port with curBit := 7, curByte := 0x41#8, lastTs := 4000, rxCallback := some 1 } with tau := 5000 })
    t.outputs.contains (.callback 5000 0 1 1) = true ∧ (got (exec (.pump 0) t)).outputs.length = t.outputs.length + 1 :=
  by decide

/-! ## The transmitter -/

/-- 43_transmitter.md R234: the pin writes of 0x55 issued at 5000. -/
theorem test_write :
    let t := got (exec (.write 0 [0x55#8]) demo)
    t.outputs =
        [.returned 6000 0 (.natural 1), .pinWrite 5900 5 true, .pinWrite 5800 5 false, .pinWrite 5700 5 true,
          .pinWrite 5600 5 false, .pinWrite 5500 5 true, .pinWrite 5400 5 false, .pinWrite 5300 5 true,
          .pinWrite 5200 5 false, .pinWrite 5100 5 true, .pinWrite 5000 5 false] ∧
      (t.tau, t.im, (t.inst 0).txBusy, (t.inst 0).deadline, (t.inst 0).prevLevel) =
        (6000, false, false, 6000, true) := by decide
/-- 43_transmitter.md R238: transmit enable brackets the waveform. -/
theorem test_write_txEnable :
    (got (exec (.write 0 [0xFF#8])
      { withPort { port with txEnableValid := true, txEnablePin := 12 } with tau := 1000 })).outputs =
      [.returned 2000 0 (.natural 1), .pinWrite 2000 12 false, .pinWrite 1100 5 true, .pinWrite 1000 5 false,
        .pinWrite 1000 12 true] := by decide

/-- A loopback at `CYC_US = 80`, `B = 53`. -/
def shortBits : State :=
  { withPort { port with bitPeriod := 53 } with
    driven := [], wires := [(5, 4)], params := { Params.default with fHz := 80000000 } }

/-- 43_transmitter.md R220: the wait of 477 cycles before the stop bit of 0x00 yields, and the start edge is captured at
5000. The run of 70_reset_and_hazards.md R333, with no capture before WRITE returns at 5530, is there too: a yield of no
time and a latency that lasts until then (log entry 31). -/
theorem test_yield_shortBits :
    let x := (got (exec (.write 0 [0x00#8]) shortBits)).inst 0
    let t := got (exec (.write 0 [0x00#8])
      { shortBits with draws := { Draws.ideal with yieldFor := [0], lat := [530] } })
    x.inE = 2 ∧ edgeAt x 0 = 5001 ∧ t.tau = 5530 ∧ (t.inst 0).inE = 1 ∧ edgeAt (t.inst 0) 0 = 5530 := by decide

/-- 43_transmitter.md R239, TC2: the wait for the second transition of 0xFF, called at 0, ends at 694. -/
theorem test_waitBitCycles :
    (got (exec (.waitBitCycles 0 694)
      { inUnit demo with tau := 0, im := true, params := { Params.default with fHz := 80000000 } })).tau = 694 := by
  decide
/-- 43_transmitter.md R223: a deadline already past is no wait, across the counter's wrap too. -/
theorem test_waitBitCycles_past :
    (got (exec (.waitBitCycles 0 4294967290) { inUnit demo with tau := 4294967300, im := true })).tau = 4294967300 := by
  decide

/-! ## Contexts, nesting, the step -/

/-- 95_test_vectors.md EXC-1, EXC-4, EXC-5: an internal opcode from the host, the context before the state, no instance. -/
theorem test_entry_checks :
    (got (exec (.capture 0) demo)).fault = some .unknownOpcode ∧
      (got (exec (.write 0 [0x55#8]) { withPort { port with fstate := .tornDown } with ctx := .interrupt })).fault =
        some .wrongContext ∧
      (got (exec (.read 9) demo)).fault = some .noInstance := by decide

/-- `demo` while the host has a command for the yields of the next WRITE. -/
def nested (c : Command) : State :=
  { demo with
    insts := [(0, port), (1, { port with rxPin := 12, txPin := 13, rxEnabled := false, rxCallback := some 3 })]
    hostQueue := [⟨5000, .normal, 1, c⟩] }

/-- 95_test_vectors.md EXC-9: a command on the instance whose WRITE yields. -/
theorem test_reentrant : (got (exec (.write 0 [0xFF#8]) (nested (encode (.read 0))))).fault = some .reentrant := by
  decide
/-- 95_test_vectors.md EXC-10: a command on another instance runs in the yield; the waveform is that of 0xFF. -/
theorem test_nested_other :
    let t := got (exec (.write 0 [0xFF#8]) (nested (encode (.onReceive 1 none))))
    t.fault = none ∧ (t.inst 1).rxCallback = none ∧ t.hostQueue = [] ∧
      t.outputs = [.returned 6000 0 (.natural 1), .pinWrite 5100 5 true, .returned 5000 1 .nothing,
        .pinWrite 5000 5 false] := by decide

/-- 95_test_vectors.md EXC-2, EXC-14: an unassigned opcode faults, and after it no step is taken. -/
theorem test_step_unknown :
    (got (step { demo with hostQueue := [⟨0, .normal, 0, ⟨0x09#8, 0, []⟩⟩] })).fault = some .unknownOpcode := by decide
theorem test_step_stopped : (match step { demo with fault := some .tornDown } with
    | .fault (.stopped .tornDown) => true
    | .fault _ => false
    | .next _ => false
    | .refused _ => false) = true := by decide

/-- 60_exceptions.md R290, R291: the environment's falling edge becomes pending, and the next step captures it, before the
host's command. -/
theorem test_step_capture :
    let s := { demo with inputs := [⟨5000, 4, some false⟩], hostQueue := [⟨5000, .normal, 0, encode (.stop 0)⟩] }
    let t := got (step s)
    (t.pend 4).count = 1 ∧ ((got (step t)).inst 0).inE = 1 ∧ (got (step (got (step (got (step t))))) ).reg = [] := by
  decide

/-- The first step after reset runs a table word: STOP on an instance never constructed (95_test_vectors.md EXC-5). -/
theorem test_withFetchWord :
    (got (step (State.reset.withFetchWord 8 0x03))).fault = some .noInstance ∧
      (got (step (State.reset.withFetchWord 8 0x01))).constructed 0 = true := by decide

/-- 60_exceptions.md R281: the labels of outcomes. -/
theorem test_status :
    (constructStatus ((got (exec (.construct 0 6 6 false 8 32) .reset)).inst 0)).map Status.number = [1, 2] ∧
      (overflowStatus { port with edgeOvf := true, byteOvf := true }).map Status.number = [3, 4] ∧
      (readStatus (-1)).number = 5 ∧ (writeStatus { port with txValid := false }).number = 6 := by decide

/-! ## Witnesses: states and operands that meet the hypotheses of each statement

A witness that is the conclusion's case for every clause of a statement is named after the statement; clauses with
hypotheses of their own have one witness each, at a boundary value of their range where there is one. -/

/-- `demo` with one command waiting. -/
def waiting (c : Command) : State := { demo with hostQueue := [⟨5000, .normal, 0, c⟩] }

/-- `demo` as the unit sees it, its decoder at `curBit = k` with accumulator `b`, the last accepted edge at 4000. -/
def decoding (k : Int) (b : Byte) : State :=
  inUnit (withPort { port with curBit := k, curByte := b, lastTs := 4000 })

theorem witness_StepRunsDecoded :
    demo.fault = none ∧ nextCapture ((waiting (encode (.read 0))).tau + 1) (waiting (encode (.read 0))) = none ∧
      (∀ e ∈ (waiting (encode (.read 0))).inputs.head?, (waiting (encode (.read 0))).tau < e.time) ∧
      (waiting (encode (.read 0))).hostQueue = [⟨5000, .normal, 0, encode (.read 0)⟩] ∧
      read? (encode (.read 0)) = some (.read 0) := by decide

/-- 60_exceptions.md R301, R303: a capture due at the time of an input change reads the changed level; the change is the
first step, the capture the second. -/
theorem test_step_changeBeforeCapture :
    let t := got (step { low with inputs := [⟨5000, 4, some true⟩] })
    t.inputs = [] ∧ (t.inst 0).inE = 0 ∧ edgeAt ((got (step t)).inst 0) 0 = 5000 := by decide

/-- The same of a capture that was due at 4900, in a masked period, and runs when `unmaskInterrupts` lets it: the draw
`hold` has put the change of 5000 after the micro-step, and the capture at 5000 still reads it. -/
theorem test_unmask_changeBeforeOverdueCapture :
    let s : State := { low with
      im := true, pending := [(4, ⟨1, some 4900⟩)], inputs := [⟨5000, 4, some true⟩]
      draws := { Draws.ideal with hold := [1] } }
    let t := unmaskInterrupts s
    t.inputs = [] ∧ (t.inst 0).inE = 1 ∧ edgeAt (t.inst 0) 0 = 5000 := by decide

/-- 60_exceptions.md R291: of the captures that a masked period made overdue, the draw picks the first, whatever the times
they were due at. -/
theorem test_overdueOrder :
    let s : State := { low with
      insts := [(0, port), (1, { port with rxPin := 6, txPin := 7 })], reg := [(4, 0), (6, 1)]
      pending := [(4, ⟨1, some 4900⟩), (6, ⟨1, some 4950⟩)], draws := { Draws.ideal with order := [1] } }
    (nextCapture 5001 s).map Prod.fst = some (5000, 6, 1) := by decide

theorem witness_StepRunsDueCapture :
    low.fault = none ∧ nextCapture (low.tau + 1) low = some ((5000, 4, 0), low) := by decide
theorem witness_StepRunsDueCapture_overdue :
    let s := { low with tau := 5001, inputs := [⟨5002, 4, some true⟩] }
    (∀ e ∈ s.inputs.head?, s.tau < e.time) ∧ nextCapture (s.tau + 1) s = some ((5001, 4, 0), s) := by decide

theorem witness_FetchedWordRuns : low.fault = none ∧ decodeTableWord 8 0x20 = some (.write 0 []) := by decide

theorem witness_UnassignedOpcodesFault :
    nextCapture ((waiting ⟨0x3F#8, 0, []⟩).tau + 1) (waiting ⟨0x3F#8, 0, []⟩) = none ∧
      (waiting ⟨0x3F#8, 0, []⟩).inputs = [] ∧
      (0x3F#8).toNat ∉ [0x01, 0x02, 0x03, 0x04, 0x05, 0x06, 0x07, 0x08, 0x10, 0x11, 0x12, 0x13, 0x14, 0x15, 0x16, 0x20,
        0x40, 0x41, 0x42, 0x43, 0x44] := by decide

theorem witness_InternalOpcodesFault :
    demo.fault = none ∧ demo.issuer = .host ∧ 0x40 ≤ (encode (.capture 0)).op.toNat ∧
      0x40 ≤ (encode (.waitBitCycles 0 0)).op.toNat := by decide
/-- SYNTH_STOP with the operand of 30_encoding.md R100, and REPLAY_EDGE without one. -/
theorem witness_InternalOpcodesFault_anyOperands :
    (waiting ⟨0x43#8, 0, [.num 1, .num 2]⟩).inputs = [] ∧
      (got (step (waiting ⟨0x43#8, 0, [.num 5]⟩))).fault = some .unknownOpcode ∧
      (got (step (waiting ⟨0x42#8, 0, []⟩))).fault = some .unknownOpcode ∧
      nextCapture ((waiting ⟨0x44#8, 0, []⟩).tau + 1) (waiting ⟨0x44#8, 0, []⟩) = none ∧
      (0x44#8).toNat ≤ 0x44 := by decide

theorem witness_StoppedStaysStopped :
    ({ demo with fault := some .reentrant } : State).fault = some .reentrant := rfl

theorem witness_EntryChecksInOrder :
    (Instr.read 0).hostIssuable = true ∧ (encode (.read 0)).op ≠ 0x01#8 ∧
      ({ demo with ctx := .interrupt } : State).ctx = .interrupt ∧ demo.constructed 1 = false ∧
      ((withPort { port with fstate := .tornDown, rxEnabled := false }).inst 0).fstate = .tornDown ∧
      ((withPort { port with inYield := true }).inst 0).inYield = true := by decide

theorem witness_FaultsArePrecise :
    demo.Core ∧ demo.HostWaits ∧ (Instr.start 0 0).hostIssuable = true ∧
      (got (exec (.start 0 0) demo)).fault = some .badBaud := ⟨demo_inv.core, by decide⟩

theorem witness_StepKeepsInvariant : low.Inv ∧ (got (step low)).pending = [] ∧ ((got (step low)).inst 0).inE = 1 :=
  ⟨low_inv, by decide⟩

theorem witness_StepLeavesNothingInProgress :
    (waiting (encode (.write 0 [0x55#8]))).Inv ∧ (waiting (encode (.write 0 [0x55#8]))).Between ∧
      (got (step (waiting (encode (.write 0 [0x55#8]))))).result = some (.natural 1) :=
  ⟨checkInv_sound (by decide), checkBetween_sound (by decide), by decide⟩

theorem witness_TimeNeverDecreases : (got (step (waiting (encode (.write 0 [0x55#8]))))).tau = 6000 := by decide

theorem witness_ConfigurationFixed :
    demo.constructed 0 = true ∧ ((got (step (waiting (encode (.destruct 0))))).inst 0).fstate = .tornDown := by decide

theorem witness_RingCount : (0 : Nat) < 8 ∧ (7 : Nat) < 8 := by decide

theorem witness_RingsAreQueues :
    port.inB < port.byteCap ∧ port.outB < port.byteCap ∧ port.inE < port.edgeCap ∧ port.outE < port.edgeCap ∧
      byteQueue { holding [(7, 0x41#8), (0, 0x42#8)] 1 with outB := 7 } = [0x41#8, 0x42#8] ∧
      edgeQueue { port with edges := [(31, 9)], outE := 31 } = [9] := by decide

theorem witness_LineLevels_output : (demo.pin 5).mode = .output := by decide
/-- Beside a wire of another pin and one whose source is no output. -/
theorem witness_LineLevels_wired :
    let s := { demo with wires := [(5, 9), (9, 4), (5, 4)] }
    (s.pin 4).mode ≠ .output ∧ (5, 4) ∈ s.wires ∧ (s.pin 5).mode = .output ∧ (s.pin 9).mode ≠ .output ∧
      ∀ w ∈ s.wires, w.2 = 4 → (s.pin w.1).mode = .output → w.1 = 5 := by decide
theorem witness_LineLevels_driven :
    let s := { demo with wires := [(5, 9), (9, 4)] }
    (s.pin 4).mode ≠ .output ∧ (∀ w ∈ s.wires, w.2 = 4 → (s.pin w.1).mode ≠ .output) ∧
      cellGet s.driven 4 = some true := by decide
theorem witness_LineLevels_pullup :
    (demo.pin 4).mode = .inputPullup ∧ cellGet ({ demo with driven := [] } : State).driven 4 = none := by decide

theorem witness_InputChangeSetsPending :
    let s := { demo with inputs := [⟨5000, 4, some false⟩] }
    s.Core ∧ s.fault = none ∧ (s.inputs.map InputChange.time) = [s.tau] ∧
      (commandFirst ⟨5000, 4, some false⟩ s).1 = false ∧
      ((got (step s)).pend 4).count = 1 := ⟨checkCore_sound (by decide), by decide⟩

theorem witness_CaptureStoresEdge :
    (inUnit low).Core ∧ (inUnit low).AcceptsInternal 0 ∧ ((inUnit low).inst 0).rxPin = 4 ∧ (inUnit low).im = false ∧
      1 ≤ ((inUnit low).pend 4).count ∧ cellGet (inUnit low).reg 4 = some 0 ∧ ((inUnit low).inst 0).rxEnabled = true :=
  ⟨checkCore_sound (by decide), internal_of (by decide), by decide⟩

/-- The smallest ring, in which every capture is dropped (20_memory.md R64). -/
theorem witness_CaptureStoresEdge_full :
    let s := inUnit { low with insts := [(0, { port with edgeCap := 1 })] }
    s.Core ∧ ((s.inst 0).edgeCap ≤ (edgeQueue (s.inst 0)).length + 1) ∧ triggered s 4 = some 0 :=
  ⟨checkCore_sound (by decide), by decide⟩

theorem witness_NoCaptureWithoutTrigger :
    (inUnit low).AcceptsInternal 0 ∧ ({ inUnit low with im := true } : State).im = true ∧
      ((inUnit demo).pend 4).count = 0 ∧ cellGet ({ inUnit low with reg := [] } : State).reg 4 ≠ some 0 ∧
      ((inUnit detached).inst 0).rxEnabled = false := ⟨internal_of (by decide), by decide⟩

theorem witness_DecoderRuns :
    (decoding 0 0x80#8).Core ∧ (decoding 0 0x80#8).AcceptsInternal 0 ∧ ((decoding 0 0x80#8).inst 0).rxValid = true ∧
      1 ≤ ((decoding 0 0x80#8).inst 0).bitPeriod ∧ (EdgeEvent.packed 4294967295).wf Width.w32 = true :=
  ⟨checkCore_sound (by decide), internal_of (by decide), by decide⟩

/-- An instance that cannot receive. -/
theorem witness_DecoderRuns_disabled :
    let s := inUnit (withPort { port with rxPin := 7, rxValid := false, rxEnabled := false })
    s.AcceptsInternal 0 ∧ (s.inst 0).rxValid = false := ⟨internal_of (by decide), by decide⟩

theorem witness_RxbitsReplaysQueue :
    let s := inUnit { withPort { port with edges := [(0, 1001), (1, 1100)], inE := 2 } with tau := 2200 }
    s.Core ∧ s.AcceptsInternal 0 ∧ s.Calm ∧ (s.inst 0).rxValid = true ∧
      queuedEdges (s.inst 0) = [(1000, false), (1100, true)] :=
  ⟨checkCore_sound (by decide), internal_of (by decide), calm_of (by decide), by decide⟩

theorem witness_RxbitsIdempotent :
    let s := inUnit { withPort { port with edges := [(0, 1001), (1, 1100)], inE := 2 } with tau := 2200 }
    s.Core ∧ s.AcceptsInternal 0 ∧ s.Calm ∧ (got (exec (.rxbits 0) s)) ≠ s :=
  ⟨checkCore_sound (by decide), internal_of (by decide), calm_of (by decide), by decide⟩

theorem witness_SynthStopCompletesByte_waits :
    (inUnit demo).Core ∧ (inUnit demo).AcceptsInternal 0 ∧ (inUnit demo).Calm ∧ ((inUnit demo).inst 0).curBit = 8 ∧
      subW .w32 (5000 % Width.w32.modulus) 4000 ≤ synthDelta Params.default 0 100 :=
  ⟨checkCore_sound (by decide), internal_of (by decide), calm_of (by decide), by decide⟩
theorem witness_SynthStopCompletesByte_completes :
    let s := decoding 7 0x55#8
    s.Core ∧ s.AcceptsInternal 0 ∧ s.Calm ∧ (s.inst 0).inE = (s.inst 0).outE ∧
      synthDelta s.params 7 100 < subW s.params.width (s.tau % s.params.width.modulus) (s.inst 0).lastTs :=
  ⟨checkCore_sound (by decide), internal_of (by decide), calm_of (by decide), by decide⟩

/-- With the operand `now` given, at the last counter value. -/
theorem witness_SynthStopCompletesByte_given :
    let s := decoding 7 0x55#8
    s.AcceptsInternal 0 ∧ 4294967295 % s.params.width.modulus = 4294967295 ∧
      synthDelta s.params 7 100 < subW s.params.width 4294967295 (s.inst 0).lastTs := ⟨internal_of (by decide), by decide⟩

theorem witness_ReplayDiscardsOrStarts_discards :
    let s := decoding (-1) 0#8
    s.AcceptsInternal 0 ∧ eventTs (.packed 4049) < s.params.width.modulus ∧ (s.inst 0).curBit ≠ 8 ∧
      subW s.params.width (eventTs (.packed 4049)) (s.inst 0).lastTs < (s.inst 0).bitPeriod / 2 :=
  ⟨internal_of (by decide), by decide⟩
theorem witness_ReplayDiscardsOrStarts_starts :
    (inUnit demo).AcceptsInternal 0 ∧ ((inUnit demo).inst 0).curBit = 8 ∧
      eventTs (.pair 4294967295 false) < Width.w32.modulus := ⟨internal_of (by decide), by decide⟩

/-- The shortest accepted interval, half a bit period, on the last data bit but one. -/
theorem witness_ReplayShiftsDataBits :
    let s := decoding 5 0x40#8
    s.AcceptsInternal 0 ∧ -1 ≤ (s.inst 0).curBit ∧ (s.inst 0).curBit ≤ 6 ∧ 1 ≤ (s.inst 0).bitPeriod ∧
      subW s.params.width (eventTs (.pair 4050 true)) (s.inst 0).lastTs = (s.inst 0).bitPeriod / 2 + 0 ∧
      0 = min (0 / (s.inst 0).bitPeriod) (7 - (s.inst 0).curBit).toNat ∧ (s.inst 0).curBit + 0 < 7 :=
  ⟨internal_of (by decide), by decide⟩

/-- The byte is complete already (`h = 0`), and nothing is left for a next start bit. -/
theorem witness_ReplayFinalizesByte_complete :
    let s := decoding 7 0x55#8
    s.Core ∧ s.AcceptsInternal 0 ∧ (s.inst 0).rxValid = true ∧
      subW s.params.width (eventTs (.pair 4050 true)) (s.inst 0).lastTs = (s.inst 0).bitPeriod / 2 + 0 ∧
      (s.inst 0).curBit + (0 : Nat) = 7 := ⟨checkCore_sound (by decide), internal_of (by decide), by decide⟩
/-- All eight data bits are hidden, and the edge is the next start bit. -/
theorem witness_ReplayFinalizesByte_hidden :
    let s := decoding (-1) 0#8
    s.Core ∧ s.AcceptsInternal 0 ∧ (s.inst 0).rxValid = true ∧
      subW s.params.width (eventTs (.pair 4950 false)) (s.inst 0).lastTs = (s.inst 0).bitPeriod / 2 + 900 ∧
      8 = min (900 / (s.inst 0).bitPeriod) (7 - (s.inst 0).curBit).toNat ∧ (s.inst 0).curBit + (8 : Nat) = 7 :=
  ⟨checkCore_sound (by decide), internal_of (by decide), by decide⟩

/-- Both ends of the tolerance, for one slot and for all eight. -/
theorem witness_IntervalTolerance :
    let s := decoding (-1) 0#8
    s.Core ∧ s.AcceptsInternal 0 ∧ (s.inst 0).rxValid = true ∧ (s.inst 0).curBit + (8 : Nat) ≤ 7 ∧
      (subW s.params.width (eventTs (.pair 4050 true)) (s.inst 0).lastTs : Int) = (1 : Nat) * (100 : Nat) + (-50) ∧
      (subW s.params.width (eventTs (.pair 4849 true)) (s.inst 0).lastTs : Int) = (8 : Nat) * (100 : Nat) + 49 :=
  ⟨checkCore_sound (by decide), internal_of (by decide), by decide⟩

theorem witness_WrapInvariance : (4294967295 : Nat) < Width.w32.modulus ∧ port.lastTs < Width.w32.modulus := by decide

theorem witness_WaveformReceived :
    2 ≤ port.bitPeriod ∧ 10 * port.bitPeriod < Params.default.width.modulus ∧ port.curBit = 8 ∧ port.curByte = 0#8 ∧
      port.inB < port.byteCap ∧ port.outB < port.byteCap ∧
      (byteQueue port).length + [0x55#8, 0xFF#8, 0x00#8].length < port.byteCap ∧
      (match replayAll .w32 (waveEdges .w32 100 1000 [0x55#8, 0xFF#8]) port with
        | some y => decide (y.curBit ≠ 8) && decide (synthDelta Params.default y.curBit 100 < subW .w32 4000 y.lastTs)
        | none => false) = true := by decide

theorem witness_DisabledReceiveResults :
    let s := withPort { freshPort with rxPin := 6, rxValid := false }
    s.Accepts 0 ∧ (s.inst 0).rxValid = false := ⟨accepts_of (by decide), by decide⟩

theorem witness_ReadTakesOldest_empty :
    demo.Core ∧ demo.Accepts 0 ∧ (demo.inst 0).rxValid = true ∧ byteQueue ((rxbits 0 demo).inst 0) = [] :=
  ⟨checkCore_sound (by decide), accepts_of (by decide), by decide⟩
theorem witness_ReadTakesOldest_byte :
    let s := withPort (holding [(0, 0x55#8), (1, 0x01#8)] 2)
    s.Core ∧ s.Accepts 0 ∧ (s.inst 0).rxValid = true ∧ byteQueue ((rxbits 0 s).inst 0) = [0x55#8, 0x01#8] :=
  ⟨checkCore_sound (by decide), accepts_of (by decide), by decide⟩

theorem witness_PeekShowsOldest_empty :
    demo.Core ∧ demo.Accepts 0 ∧ (demo.inst 0).rxValid = true ∧ byteQueue ((rxbits 0 demo).inst 0) = [] :=
  witness_ReadTakesOldest_empty
theorem witness_PeekShowsOldest_byte :
    let s := withPort (holding [(0, 0x55#8), (1, 0x01#8)] 2)
    s.Core ∧ s.Accepts 0 ∧ (s.inst 0).rxValid = true ∧ byteQueue ((rxbits 0 s).inst 0) = [0x55#8, 0x01#8] :=
  witness_ReadTakesOldest_byte

theorem witness_AvailableCounts :
    demo.Core ∧ demo.Accepts 0 ∧ demo.HostWaits ∧ (demo.inst 0).rxValid = true ∧
      byteQueue ((rxbits 0 demo).inst 0) = [] ∧
      byteQueue ((rxbits 0 (withPort (holding [(0, 0x55#8)] 1))).inst 0) ≠ [] :=
  ⟨checkCore_sound (by decide), accepts_of (by decide), by decide⟩

/-- A pass that pushes a byte, on a port with a callback (mode NEWLY). -/
theorem witness_PumpCallsReceiver_newly :
    let s := withPort { port with curBit := 7, curByte := 0x41#8, lastTs := 4000, rxCallback := some 1 }
    s.Core ∧ s.Accepts 0 ∧ s.HostWaits ∧ (s.inst 0).rxCallback = some 1 ∧ s.params.onReceiveMode = .newly ∧
      (byteQueue (s.inst 0)).length < (byteQueue ((rxbits 0 s).inst 0)).length :=
  ⟨checkCore_sound (by decide), accepts_of (by decide), by decide⟩
/-- One byte queued already, in mode LEVEL. -/
theorem witness_PumpCallsReceiver_level :
    let s := { withPort { holding [(0, 0x55#8)] 1 with rxCallback := some 1 } with
      params := { Params.default with onReceiveMode := .level } }
    s.Core ∧ s.Accepts 0 ∧ s.params.onReceiveMode = .level ∧ 0 < (byteQueue ((rxbits 0 s).inst 0)).length :=
  ⟨checkCore_sound (by decide), accepts_of (by decide), by decide⟩
theorem witness_PumpCallsReceiver_silent : demo.Core ∧ demo.Accepts 0 ∧ (demo.inst 0).rxCallback = none :=
  ⟨checkCore_sound (by decide), accepts_of (by decide), by decide⟩

theorem witness_FlushEmptiesRings :
    let s := withPort (holding [(0, 0x55#8), (1, 0x01#8)] 2)
    s.Core ∧ s.Accepts 0 ∧ (s.inst 0).rxValid = true ∧ byteQueue (s.inst 0) ≠ [] :=
  ⟨checkCore_sound (by decide), accepts_of (by decide), by decide⟩

/-- Both latches and both draws. -/
theorem witness_OverflowReportsAndClears :
    let s := { withPort { port with byteOvf := true } with draws := { Draws.ideal with overhead := [3] } }
    s.Core ∧ s.Accepts 0 ∧ (got (exec (.overflow 0) s)).tau = 5003 :=
  ⟨checkCore_sound (by decide), accepts_of (by decide), by decide⟩
theorem witness_OnReceiveStores : demo.Accepts 0 := accepts_of (by decide)

theorem witness_ConstructCreates :
    State.reset.Core ∧ State.reset.fault = none ∧ State.reset.ctx = .normal ∧ State.reset.constructed 0 = false :=
  ⟨checkCore_sound (by decide), by decide⟩
theorem witness_ConstructChecks :
    ({ demo with ctx := .interrupt } : State).ctx = .interrupt ∧ demo.ctx = .normal ∧ demo.constructed 0 = true := by
  decide

/-- The boundary baud rates: 0, `F_HZ`, `F_HZ + 1`. -/
theorem witness_StartBitPeriod :
    fresh.Core ∧ fresh.Accepts 0 ∧ ((0 : Int) ≤ 0) ∧ (fresh.params.fHz : Int) < 1000001 ∧ (0 : Int) < 1000000 ∧
      (1000000 : Int) ≤ fresh.params.fHz := ⟨fresh_inv.core, accepts_of (by decide), by decide⟩

theorem witness_StartConfigures :
    fresh.Inv ∧ fresh.Accepts 0 ∧ (fresh.inst 0).rxValid = true ∧ (fresh.inst 0).txValid = true ∧
      (fresh.inst 0).oneWire = false ∧ (0 : Int) < 1000000 ∧ (1000000 : Int) ≤ fresh.params.fHz :=
  ⟨fresh_inv, accepts_of (by decide), by decide⟩
theorem witness_StartConfigures_again : demo.Inv ∧ demo.Accepts 0 ∧ (demo.inst 0).rxEnabled = true :=
  ⟨demo_inv, accepts_of (by decide), by decide⟩
theorem witness_StartConfigures_transmitOnly :
    let s := { withPort { freshPort with rxPin := 6, rxValid := false } with attached := [], reg := [] }
    s.Inv ∧ s.Accepts 0 ∧ (s.inst 0).rxValid = false ∧ (s.inst 0).txValid = true :=
  ⟨checkInv_sound (by decide), accepts_of (by decide), by decide⟩

theorem witness_EnableRxAttaches_nothing :
    demo.Inv ∧ demo.Accepts 0 ∧ (demo.inst 0).rxEnabled = true ∧ fresh.Inv ∧ fresh.Accepts 0 ∧
      (fresh.inst 0).fstate ≠ .configured :=
  ⟨demo_inv, accepts_of (by decide), by decide, fresh_inv, accepts_of (by decide), by decide⟩
theorem witness_EnableRxAttaches_attaches :
    detached.Inv ∧ detached.Accepts 0 ∧ (detached.inst 0).rxValid = true ∧ (detached.inst 0).fstate = .configured ∧
      (detached.inst 0).rxEnabled = false := ⟨detached_inv, accepts_of (by decide), by decide⟩
theorem witness_EnableRxAttaches_takesOver :
    let s := { demo with insts := [(0, port), (1, { port with rxEnabled := false })] }
    s.Inv ∧ s.Accepts 1 ∧ (s.inst 1).rxEnabled = false ∧ cellGet s.reg 4 = some 0 :=
  ⟨checkInv_sound (by decide), accepts_of (by decide), by decide⟩

theorem witness_StopDetaches_attached : low.Inv ∧ low.Accepts 0 ∧ (low.inst 0).rxEnabled = true :=
  ⟨low_inv, accepts_of (by decide), by decide⟩
theorem witness_StopDetaches_nothing : detached.Inv ∧ detached.Accepts 0 ∧ (detached.inst 0).rxEnabled = false :=
  ⟨detached_inv, accepts_of (by decide), by decide⟩

theorem witness_DestructTearsDown : demo.Inv ∧ demo.Accepts 0 := ⟨demo_inv, accepts_of (by decide)⟩

theorem witness_EnableTxTurnsLine_nothing : demo.Inv ∧ demo.Accepts 0 ∧ (demo.inst 0).oneWire = false :=
  ⟨demo_inv, accepts_of (by decide), by decide⟩
theorem witness_EnableTxTurnsLine_attached :
    wire.Inv ∧ wire.Accepts 0 ∧ (wire.inst 0).oneWire = true ∧ (wire.inst 0).txValid = true ∧
      (wire.inst 0).fstate = .configured ∧ (wire.inst 0).rxEnabled = true :=
  ⟨wire_inv, accepts_of (by decide), by decide⟩
theorem witness_EnableTxTurnsLine_detached :
    let s := { withPort { wirePort with rxEnabled := false } with attached := [], reg := [] }
    s.Inv ∧ s.Accepts 0 ∧ (s.inst 0).oneWire = true ∧ (s.inst 0).rxEnabled = false ∧ (s.inst 0).rxValid = true :=
  ⟨checkInv_sound (by decide), accepts_of (by decide), by decide⟩
/-- A one-wire port with a ring of no slots. -/
theorem witness_EnableTxTurnsLine_noReceiver :
    let s := { withPort { wirePort with rxEnabled := false, byteCap := 0, rxValid := false } with
      attached := [], reg := [] }
    s.Inv ∧ s.Accepts 0 ∧ (s.inst 0).oneWire = true ∧ (s.inst 0).rxValid = false :=
  ⟨checkInv_sound (by decide), accepts_of (by decide), by decide⟩

theorem witness_SetTxEnablePinEffect :
    demo.Core ∧ demo.Accepts 0 ∧ 12 ∈ demo.params.validPins ∧ 6 ∉ demo.params.validPins :=
  ⟨demo_inv.core, accepts_of (by decide), by decide⟩

theorem witness_BaudrateReports :
    demo.Accepts 0 ∧ 1 ≤ (demo.inst 0).bitPeriod ∧ fresh.Accepts 0 ∧ (fresh.inst 0).bitPeriod = 0 :=
  ⟨accepts_of (by decide), by decide, accepts_of (by decide), by decide⟩

theorem witness_WriteChecks_unavailable :
    let s := withPort { port with txPin := 6, txValid := false }
    s.Accepts 0 ∧ (s.inst 0).txValid = false := ⟨accepts_of (by decide), by decide⟩
theorem witness_WriteChecks_notStarted :
    fresh.Accepts 0 ∧ (fresh.inst 0).txValid = true ∧ (fresh.inst 0).fstate = .unconfigured :=
  ⟨accepts_of (by decide), by decide⟩
theorem witness_WriteChecks_oneWire :
    wire.Accepts 0 ∧ (wire.inst 0).txValid = true ∧ (wire.inst 0).oneWire = true ∧ (wire.pin 4).mode ≠ .output :=
  ⟨accepts_of (by decide), by decide⟩
theorem witness_WriteChecks_noBytes :
    demo.Accepts 0 ∧ (demo.inst 0).txValid = true ∧ (demo.inst 0).fstate = .configured ∧
      ((demo.inst 0).oneWire = true → (demo.pin 5).mode = .output) := ⟨accepts_of (by decide), by decide⟩

theorem witness_WriteCompletes :
    demo.Core ∧ demo.Accepts 0 ∧ demo.HostWaits ∧ (demo.inst 0).txValid = true ∧
      (demo.inst 0).fstate = .configured ∧ ((demo.inst 0).oneWire = true → (demo.pin 5).mode = .output) ∧
      [0x55#8] ≠ [] := ⟨demo_inv.core, accepts_of (by decide), by decide⟩
/-- The host's main line has a command waiting. -/
theorem witness_HostWaits :
    let s := waiting (encode (.read 0))
    s.Core ∧ s.Accepts 0 ∧ s.HostWaits ∧ s.hostQueue.length = 1 :=
  ⟨checkCore_sound (by decide), accepts_of (by decide), by decide⟩
/-- A one-wire port whose pin has been turned to output, with transmit enable on. -/
theorem witness_WriteCompletes_oneWire :
    let s := { withPort { wirePort with rxEnabled := false, txEnableValid := true, txEnablePin := 12 } with
      attached := [], reg := [], pins := [(4, ⟨.output, true⟩)] }
    s.Core ∧ s.Accepts 0 ∧ (s.inst 0).oneWire = true ∧ (s.pin (s.inst 0).txPin).mode = .output ∧
      (s.inst 0).txEnableValid = true ∧ (s.inst 0).txEnablePin ≠ (s.inst 0).txPin :=
  ⟨checkCore_sound (by decide), accepts_of (by decide), by decide⟩

theorem witness_WriteWaveform :
    demo.Core ∧ demo.Accepts 0 ∧ demo.Ideal ∧ (demo.inst 0).txValid = true ∧ (demo.inst 0).fstate = .configured ∧
      ((demo.inst 0).oneWire = true → (demo.pin 5).mode = .output) ∧
      10 * (demo.inst 0).bitPeriod < demo.params.width.half :=
  ⟨demo_inv.core, accepts_of (by decide), ideal_of (by decide), by decide⟩

/-- In a WAIT_BIT_CYCLES whose draws are not ideal, with a command of the main line waiting. -/
def slowWait : State :=
  { inUnit (waiting (encode (.read 0))) with
    im := true, draws := { Draws.ideal with overhead := [1, 2, 3, 4], yieldFor := [7], late := [5] } }

/-- The three cases: a yield, one that leaves interrupts masked, and none. The first reading is at 5001. The yield portion
ends at 5013, the spin reads first at 5017; masked, at 5010 and 5013; without a yield, at 5001 and 5003. -/
theorem witness_WaitReachesDeadline :
    let s := slowWait
    let m := s.modInst 0 fun y => { y with savedMask := true }
    s.Core ∧ s.AcceptsInternal 0 ∧ s.HostWaits ∧ s.im = true ∧ (s.inst 0).inYield = false ∧
      signedW .w32 (subW .w32 5011 5001) = 10 ∧ (s.inst 0).savedMask = false ∧ (m.inst 0).savedMask = true ∧
      signedW .w32 (subW .w32 5001 5001) < cyclesPerMicro s.params ∧
      (got (exec (.waitBitCycles 0 5011) s)).tau = max 5011 5017 + 5 ∧
      (got (exec (.waitBitCycles 0 5011) m)).tau = max 5011 5013 + 5 ∧
      (got (exec (.waitBitCycles 0 5001) s)).tau = max 5001 5003 + 5 :=
  ⟨checkCore_sound (by decide), internal_of (by decide), by decide⟩
/-- Half the range past the deadline is the last lateness at which the formula holds; one cycle more, and the deadline is
waited for again. -/
theorem witness_WaitReachesDeadline_half :
    let s := slowWait
    ((5003 : Nat) : Int) = 5001 + signedW .w32 (subW .w32 2147488651 5001) + Width.w32.half ∧
      (got (exec (.waitBitCycles 0 2147488651) s)).tau = max 5001 5003 + 5 ∧
      (got (exec (.waitBitCycles 0 2147488650) s)).tau = 2147488650 + 5 := by decide
/-- Under the ideal draw: the farthest deadline that reads as being in the future, and one in the past. -/
theorem witness_WaitReachesDeadline_ideal :
    let s := { inUnit demo with im := true }
    s.draws = .ideal ∧ 2147488647 < s.params.width.modulus ∧
      signedW .w32 (subW .w32 2147488647 5000) = 2147483647 ∧ signedW .w32 (subW .w32 4999 5000) = -1 := by decide

/-- A capture that waits for the mask, and a deadline one microsecond ahead; with no microsecond left it goes on waiting. -/
theorem witness_YieldPortionUnmasks :
    let s := { inUnit low with im := true, pending := [(4, ⟨1, none⟩)] }
    s.Core ∧ s.AcceptsInternal 0 ∧ s.Ideal ∧ s.inputs = [] ∧ s.im = true ∧ (s.inst 0).inYield = false ∧
      s.pend 4 = ⟨1, none⟩ ∧ cellGet s.reg 4 = some 0 ∧ (s.inst 0).rxPin = 4 ∧ (s.inst 0).rxEnabled = true ∧
      (s.inst 0).savedMask = false ∧ (cyclesPerMicro s.params : Int) ≤ signedW .w32 (subW .w32 5001 5000) ∧
      signedW .w32 (subW .w32 5000 5000) < cyclesPerMicro s.params ∧
      ((got (exec (.waitBitCycles 0 5001) s)).inst 0).inE = 1 ∧
      ((got (exec (.waitBitCycles 0 5000) s)).inst 0).inE = 0 :=
  ⟨checkCore_sound (by decide), internal_of (by decide), ideal_of (by decide), by decide⟩

theorem witness_IdealDrawTakesNoTime :
    demo.Core ∧ demo.Ideal ∧ (got (exec (.read 0) demo)).tau = 5000 :=
  ⟨demo_inv.core, ideal_of (by decide), by decide⟩

end Sys2Proof.Machine
end

section
/-! # Time never goes back (00_scope.md R11)

Every operation of the main-line agent is built of micro-step boundaries, HAL calls and waits, in which time passes, and
of updates that leave `tau` alone. That the passing of time does not lower `tau` is `EnvSafe.env`; the lemmas here carry
it over to every operation, to host code nested in yields and callbacks, and to the step. -/

namespace Sys2Proof.Machine

/-- The operation does not move time back, whatever state it starts from. -/
def Timely (f : State → State) : Prop := ∀ s, s.tau ≤ (f s).tau

/-- Nor does a meaning or a step, where it has a next state. -/
def TimelyOut (run : State → Out) : Prop := ∀ s t, run s = .next t → s.tau ≤ t.tau

/-! ### Sequences, conditions and updates -/

theorem Timely.of_eq {f : State → State} (h : ∀ s, (f s).tau = s.tau) : Timely f := fun s => (h s).ge

theorem Timely.of_envSafe {f : State → State} (h : ∀ s, EnvSafe s (f s)) : Timely f := fun s => (h s).env.tau

/-- What an operation does after an update that leaves `tau` alone. -/
theorem Timely.after_update {f : State → State} (hf : Timely f) {s u : State} (hu : u.tau = s.tau) :
    s.tau ≤ (f u).tau := hu ▸ hf u

theorem TimelyOut.after_update {run : State → Out} (hr : TimelyOut run) {s u t : State} (h : run u = .next t)
    (hu : u.tau = s.tau) : s.tau ≤ t.tau := hu ▸ hr u t h

theorem runAll_nil_timely : Timely (runAll []) := .of_eq fun _ => rfl

theorem runAll_cons_timely {f : State → State} {fs : List (State → State)} (hf : Timely f)
    (hfs : Timely (runAll fs)) : Timely (runAll (f :: fs)) := by
  intro s
  rw [runAll_cons]
  split
  · exact Nat.le_refl _
  · exact Nat.le_trans (hf s) (hfs _)

/-- An update that leaves `tau` alone does not move a sequence's time back. -/
theorem runAll_update_timely {f : State → State} {fs : List (State → State)} (hfs : Timely (runAll fs))
    (hf : ∀ s, (f s).tau = s.tau := by exact fun _ => rfl) : Timely (runAll (f :: fs)) :=
  runAll_cons_timely (.of_eq hf) hfs

theorem whenever_timely (c : Bool) {f : State → State} (hf : Timely f) : Timely (whenever c f) := by
  cases c
  · exact fun _ => Nat.le_refl _
  · exact hf

/-- The shape of every operation that goes on after a boundary only where the machine still runs. -/
theorem tau_le_unlessStopped {s t u : State} (ht : s.tau ≤ t.tau) (hu : t.tau ≤ u.tau) :
    s.tau ≤ (if t.stopped then t else u).tau := by
  split
  · exact ht
  · exact Nat.le_trans ht hu

@[simp] theorem applyInst_tau (id : Nat) (f : Inst → Option Inst) (s : State) : (s.applyInst id f).tau = s.tau := by
  unfold State.applyInst
  split <;> rfl

/-! ### Boundaries and HAL calls -/

theorem tick_timely : Timely tick := .of_envSafe EnvSafe.tick

theorem advanceTo_timely (t : Nat) : Timely (advanceTo t) := .of_envSafe (EnvSafe.advanceTo t)

theorem writePinLevel_timely (p : Nat) (v : Bool) : Timely (writePinLevel p v) := fun s =>
  tau_le_unlessStopped (tick_timely s) (EnvSafe.afterHal (tick s) (pinWritten p v (tick s))).env.tau

theorem setPinMode_timely (p : Nat) (m : PinMode) : Timely (setPinMode p m) := fun s =>
  tau_le_unlessStopped (tick_timely s) (EnvSafe.afterHal (tick s) (modeWritten p m (tick s))).env.tau

theorem attachEdgeInterrupt_timely (p : Nat) : Timely (attachEdgeInterrupt p) := fun s =>
  tau_le_unlessStopped (tick_timely s) (Nat.le_refl _)

theorem detachInterrupt_timely (p : Nat) : Timely (detachInterrupt p) := fun s =>
  tau_le_unlessStopped (tick_timely s) (Nat.le_refl _)

theorem maskInterrupts_timely : Timely maskInterrupts := fun s =>
  tau_le_unlessStopped (tick_timely s) (Nat.le_refl _)

theorem unmaskInterrupts_timely : Timely unmaskInterrupts := fun s =>
  tau_le_unlessStopped (tick_timely s)
    ((EnvSafe.armAll { tick s with im := false }).trans (.settle _)).env.tau

/-! ### The decoder -/

theorem replayOn_timely (id ts : Nat) (level : Bool) : Timely (replayOn id ts level) :=
  .of_eq fun _ => applyInst_tau id _ _

theorem replayEvent_timely (id : Nat) (ev : EdgeEvent) : Timely (replayEvent id ev) := fun s =>
  replayOn_timely id _ _ s

theorem synthAt_timely (id now : Nat) : Timely (synthAt id now) := by
  intro s
  refine tau_le_unlessStopped (tick_timely s) ?_
  split
  · exact Nat.le_refl _
  · split
    · exact replayOn_timely id _ true _
    · exact Nat.le_refl _

theorem synthStop_timely (id : Nat) : Timely (synthStop id) := by
  intro s
  unfold synthStop
  split
  · exact Nat.le_refl _
  · exact tau_le_unlessStopped (tick_timely s) (synthAt_timely id _ _)

theorem synthStopAt_timely (id now : Nat) : Timely (synthStopAt id now) := by
  intro s
  unfold synthStopAt
  split
  · exact Nat.le_refl _
  · exact synthAt_timely id _ s

theorem replayNext_timely (id : Nat) : Timely (replayNext id) := by
  intro s
  refine tau_le_unlessStopped (tick_timely s) ?_
  split
  · exact runAll_cons_timely tick_timely
      (runAll_update_timely (runAll_cons_timely (replayOn_timely id _ _) runAll_nil_timely)) _
  · exact Nat.le_refl _

theorem replayQueued_timely (id n : Nat) : Timely (replayQueued id n) := by
  induction n with
  | zero => exact fun _ => Nat.le_refl _
  | succ n ih =>
    intro s
    rw [replayQueued]
    split
    · exact Nat.le_refl _
    · exact Nat.le_trans (replayNext_timely id s) (ih _)

theorem rxbits_timely (id : Nat) : Timely (rxbits id) := by
  intro s
  unfold rxbits
  split
  · exact Nat.le_trans (tick_timely s)
      (runAll_cons_timely (replayQueued_timely id _) (runAll_cons_timely (synthStop_timely id) runAll_nil_timely) _)
  · exact Nat.le_refl _

/-! ### The port facade -/

theorem construct_timely (id rxPin txPin : Nat) (invert : Bool) (bufCap edgeCap : Nat) :
    Timely (construct id rxPin txPin invert bufCap edgeCap) := by
  intro s
  unfold construct
  split
  · exact Nat.le_refl _
  · exact runAll_cons_timely tick_timely (runAll_update_timely (runAll_update_timely runAll_nil_timely)) s

theorem evictOwner_timely (p id : Nat) : Timely (evictOwner p id) := by
  intro s
  unfold evictOwner
  split
  · split
    · exact Nat.le_refl _
    · exact runAll_cons_timely tick_timely
        (runAll_update_timely (runAll_cons_timely (detachInterrupt_timely p) runAll_nil_timely)) s
  · exact Nat.le_refl _

theorem attachReceiver_timely (id : Nat) : Timely (attachReceiver id) := by
  intro s
  simp only [attachReceiver]
  split
  · exact Nat.le_refl _
  · exact (runAll_update_timely (runAll_cons_timely (setPinMode_timely _ _)
      (runAll_cons_timely (evictOwner_timely _ id) (runAll_update_timely
        (runAll_cons_timely (attachEdgeInterrupt_timely _) (runAll_update_timely runAll_nil_timely)))))) s

theorem detachReceiver_timely (id : Nat) : Timely (detachReceiver id) := fun s =>
  runAll_cons_timely
    (whenever_timely _ (runAll_cons_timely (detachInterrupt_timely _) (runAll_update_timely runAll_nil_timely)))
    (runAll_update_timely runAll_nil_timely) s

theorem enableRx_timely (id : Nat) (on : Bool) : Timely (enableRx id on) := by
  intro s
  simp only [enableRx]
  split
  · exact Nat.le_refl _
  · split
    · exact attachReceiver_timely id s
    · exact detachReceiver_timely id s

/-- A transmit pin is driven idle before it becomes an output (44_port_facade.md R247, R254). -/
theorem drivePin_timely (p : Nat) (v : Bool) : Timely (runAll [writePinLevel p v, setPinMode p .output]) :=
  runAll_cons_timely (writePinLevel_timely p v) (runAll_cons_timely (setPinMode_timely p _) runAll_nil_timely)

theorem start_timely (id : Nat) (baud : Int) : Timely (start id baud) := by
  intro s
  simp only [start]
  split
  · exact (raise_tau s _).ge
  · refine runAll_cons_timely (whenever_timely _ (enableRx_timely id false)) ?_ s
    refine runAll_cons_timely tick_timely (runAll_update_timely ?_)
    refine runAll_cons_timely (whenever_timely _ (drivePin_timely _ _)) (runAll_update_timely ?_)
    exact runAll_cons_timely (whenever_timely _ (enableRx_timely id true)) (runAll_update_timely runAll_nil_timely)

theorem enableTx_timely (id : Nat) (on : Bool) : Timely (enableTx id on) := by
  intro s
  simp only [enableTx]
  split
  · exact Nat.le_refl _
  · split
    · exact runAll_cons_timely (enableRx_timely id false) (drivePin_timely _ _) s
    · exact runAll_cons_timely (writePinLevel_timely _ _) (runAll_cons_timely (setPinMode_timely _ _)
        (runAll_cons_timely (enableRx_timely id true) runAll_nil_timely)) s

theorem setTxEnablePin_timely (id pin : Nat) : Timely (setTxEnablePin id pin) := by
  intro s
  unfold setTxEnablePin
  split
  · exact (runAll_update_timely (runAll_cons_timely (writePinLevel_timely pin false)
      (runAll_cons_timely (setPinMode_timely pin .output) runAll_nil_timely))) s
  · exact Nat.le_refl _

/-- The facade commands return to the host once their steps are done. -/
theorem runAll_ret_timely {f : State → State} (hf : Timely f) (id : Nat) (r : Result) :
    Timely (runAll [f, fun t => t.ret id r]) :=
  runAll_cons_timely hf (runAll_update_timely runAll_nil_timely)

/-! ### The read API -/

theorem takeByte_tau (id : Nat) (s : State) : (takeByte id s).tau = s.tau := by
  simp only [takeByte]
  split
  · rfl
  · split <;> rfl

theorem showByte_tau (id : Nat) (s : State) : (showByte id s).tau = s.tau := by
  simp only [showByte]
  split
  · rfl
  · split <;> rfl

theorem readByte_timely (id : Nat) : Timely (readByte id) := by
  intro s
  unfold readByte
  split
  · exact runAll_cons_timely (rxbits_timely id) (runAll_cons_timely tick_timely
      (runAll_update_timely runAll_nil_timely (takeByte_tau id))) s
  · exact Nat.le_refl _

theorem peekByte_timely (id : Nat) : Timely (peekByte id) := by
  intro s
  unfold peekByte
  split
  · exact runAll_cons_timely (rxbits_timely id) (runAll_cons_timely tick_timely
      (runAll_update_timely runAll_nil_timely (showByte_tau id))) s
  · exact Nat.le_refl _

theorem flush_timely (id : Nat) : Timely (flush id) := by
  intro s
  unfold flush
  split
  · exact runAll_cons_timely tick_timely (runAll_update_timely (runAll_cons_timely tick_timely
      (runAll_update_timely (runAll_update_timely runAll_nil_timely)))) s
  · exact Nat.le_refl _

/-! ### Operations that hand the main line to host code -/

section
variable {host : HostCode} (hh : ∀ tEnd, Timely (host tEnd))
include hh

theorem cooperativeYield_timely (us : Nat) : Timely (cooperativeYield host us) := fun _ =>
  (runAll_cons_timely (hh _) (runAll_cons_timely (advanceTo_timely _) runAll_nil_timely)).after_update rfl

theorem availableRetry_timely (id : Nat) : Timely (availableRetry host id) :=
  runAll_update_timely (runAll_cons_timely (fun t => cooperativeYield_timely hh _ t)
    (runAll_update_timely (runAll_cons_timely (rxbits_timely id) runAll_nil_timely)))

theorem available_timely (id : Nat) : Timely (available host id) := by
  intro s
  unfold available
  split
  · exact runAll_cons_timely (rxbits_timely id)
      (runAll_cons_timely (fun t => whenever_timely _ (availableRetry_timely hh id) t)
        (runAll_cons_timely tick_timely (runAll_update_timely runAll_nil_timely))) s
  · exact Nat.le_refl _

theorem callReceiver_timely (id a1 : Nat) : Timely (callReceiver host id a1) := by
  intro s
  unfold callReceiver
  split
  · exact (runAll_cons_timely (hh none)
      (runAll_cons_timely (.of_envSafe callbackReturns_safe) runAll_nil_timely)).after_update rfl
  · exact Nat.le_refl _

theorem pump_timely (id : Nat) : Timely (pump host id) := by
  intro s
  unfold pump
  split
  · exact runAll_cons_timely (rxbits_timely id) (runAll_cons_timely tick_timely
      (runAll_cons_timely (fun t => whenever_timely _ (callReceiver_timely hh id _) t)
        (runAll_update_timely runAll_nil_timely))) s
  · exact Nat.le_refl _

theorem yieldPortion_timely (id micro : Nat) : Timely (yieldPortion host id micro) :=
  runAll_cons_timely (fun t => whenever_timely _ unmaskInterrupts_timely t)
    (runAll_update_timely (runAll_cons_timely (cooperativeYield_timely hh micro)
      (runAll_update_timely (runAll_cons_timely maskInterrupts_timely runAll_nil_timely))))

theorem waitBitCycles_timely (id d : Nat) : Timely (waitBitCycles host id d) := fun s =>
  Nat.le_trans (tick_timely s)
    (runAll_cons_timely (whenever_timely _ (yieldPortion_timely hh id _))
      (runAll_cons_timely (.of_envSafe (spinUntil_safe d)) runAll_nil_timely) _)

theorem sendSlot_timely (id j i : Nat) (level : Bool) : Timely (sendSlot host id j i level) := by
  intro s
  simp only [sendSlot]
  exact (runAll_cons_timely
    (whenever_timely _ (runAll_cons_timely (waitBitCycles_timely hh id _)
      (runAll_cons_timely (writePinLevel_timely _ _) (runAll_update_timely runAll_nil_timely))))
    (runAll_update_timely runAll_nil_timely)).after_update (modInst_tau s id _)

theorem sendSlots_timely (id : Nat) (slots : List (Nat × Nat × Bool)) : Timely (sendSlots host id slots) := by
  induction slots with
  | nil => exact fun _ => Nat.le_refl _
  | cons slot rest ih =>
    intro s
    rw [sendSlots]
    split
    · exact Nat.le_refl _
    · exact Nat.le_trans (sendSlot_timely hh id _ _ _ s) (ih _)

omit hh in
theorem beginWaveform_timely (id : Nat) : Timely (beginWaveform id) := fun s =>
  tau_le_unlessStopped (tick_timely (s.modInst id _)) (Nat.le_refl _)

theorem transmit_timely (id : Nat) (bytes : List Byte) : Timely (transmit host id bytes) := fun s =>
  runAll_cons_timely (whenever_timely _ (rxbits_timely id))
    (runAll_cons_timely (whenever_timely _ (writePinLevel_timely _ true))
      (runAll_update_timely (runAll_cons_timely maskInterrupts_timely
        (runAll_cons_timely (beginWaveform_timely id)
          (runAll_cons_timely (sendSlots_timely hh id _)
            (runAll_cons_timely (fun t => waitBitCycles_timely hh id _ t)
              (runAll_cons_timely (fun t => whenever_timely _ unmaskInterrupts_timely t)
                (runAll_cons_timely (whenever_timely _ (writePinLevel_timely _ false))
                  (runAll_update_timely (runAll_update_timely runAll_nil_timely)))))))))) s

theorem write_timely (id : Nat) (bytes : List Byte) : Timely (write host id bytes) := by
  intro s
  simp only [write]
  split_ifs
  iterate 4 exact Nat.le_refl _
  exact transmit_timely hh id bytes s

end

/-! ### Entry checks, dispatch and nesting -/

theorem hostOperation_timely (id : Nat) {body : State → State} (hb : Timely body) :
    TimelyOut (hostOperation id body) := by
  intro s t h
  unfold hostOperation at h
  split at h
  · cases h
  · split at h <;> cases h
    · exact Nat.le_refl _
    · exact hb s

theorem constructOperation_timely {body : State → State} (hb : Timely body) :
    TimelyOut (constructOperation body) := by
  intro s t h
  unfold constructOperation at h
  split at h
  · cases h
  · split at h <;> cases h
    · exact Nat.le_refl _
    · exact hb s

theorem internalOperation_timely (id : Nat) {body : State → State} (hb : Timely body) :
    TimelyOut (internalOperation id body) := by
  intro s t h
  unfold internalOperation at h
  split at h
  · cases h
  · split_ifs at h <;> cases h
    · exact Nat.le_refl _
    · exact Nat.le_refl _
    · exact hb s

theorem dispatchWith_timely {host : HostCode} (hh : ∀ tEnd, Timely (host tEnd)) (i : Instr) :
    TimelyOut (dispatchWith host i) := by
  cases i with
  | construct id rx tx inv nb ne => exact constructOperation_timely (construct_timely id rx tx inv nb ne)
  | start id baud => exact hostOperation_timely id (start_timely id baud)
  | stop id => exact hostOperation_timely id (runAll_ret_timely (enableRx_timely id false) id _)
  | destruct id =>
    exact hostOperation_timely id
      (runAll_cons_timely (enableRx_timely id false) (runAll_update_timely (runAll_update_timely runAll_nil_timely)))
  | enableRx id on => exact hostOperation_timely id (runAll_ret_timely (enableRx_timely id on) id _)
  | enableTx id on => exact hostOperation_timely id (runAll_ret_timely (enableTx_timely id on) id _)
  | setTxEnablePin id pin => exact hostOperation_timely id (runAll_ret_timely (setTxEnablePin_timely id pin) id _)
  | baudrate id => exact hostOperation_timely id (.of_eq fun _ => rfl)
  | available id => exact hostOperation_timely id (available_timely hh id)
  | read id => exact hostOperation_timely id (readByte_timely id)
  | peek id => exact hostOperation_timely id (peekByte_timely id)
  | flush id => exact hostOperation_timely id (flush_timely id)
  | overflow id =>
    exact hostOperation_timely id (runAll_cons_timely tick_timely (runAll_update_timely runAll_nil_timely))
  | onReceive id cb => exact hostOperation_timely id (.of_eq fun _ => rfl)
  | pump id => exact hostOperation_timely id (pump_timely hh id)
  | write id bytes => exact hostOperation_timely id (write_timely hh id bytes)
  | capture id => exact internalOperation_timely id (.of_eq (captureStep_tau id))
  | rxbits id => exact internalOperation_timely id (rxbits_timely id)
  | replayEdge id ev => exact internalOperation_timely id (replayEvent_timely id ev)
  | synthStop id => exact internalOperation_timely id (synthStop_timely id)
  | synthStopAt id now => exact internalOperation_timely id (synthStopAt_timely id now)
  | waitBitCycles id d => exact fun s => internalOperation_timely id (waitBitCycles_timely hh id _) s

theorem issue_timely {run : Instr → State → Out} (hr : ∀ i, TimelyOut (run i)) (c : HostCommand) :
    TimelyOut (issue run c) := by
  intro s t h
  simp only [issue] at h
  split at h
  · split at h
    · exact (hr _).after_update h rfl
    · cases h; exact Nat.le_refl _
    · cases h
  · cases h; exact Nat.le_refl _

theorem tau_le_nextOr {s : State} {o : Out} (h : ∀ t, o = .next t → s.tau ≤ t.tau) : s.tau ≤ (nextOr s o).tau := by
  cases o with
  | next t => exact h t rfl
  | fault _ => exact Nat.le_refl _
  | refused _ => exact Nat.le_refl _

/-- By induction on the number of commands that host code may still issue, at every nesting level: a nested command runs
with the host code of the level above, which has one command fewer. -/
theorem hostCode_timely (fuel level : Nat) (tEnd : Option Nat) : Timely (hostCode fuel level tEnd) := by
  induction fuel generalizing level tEnd with
  | zero => exact fun _ => Nat.le_refl _
  | succ fuel ih =>
    intro s
    rw [hostCode]
    split
    · exact Nat.le_refl _
    · next c rest _ =>
      split_ifs
      · exact Nat.le_refl _
      · refine tau_le_unlessStopped (EnvSafe.arriveAt c.time { s with hostQueue := rest }).env.tau ?_
        have issued := issue_timely (dispatchWith_timely (ih (level + 1))) c
        exact tau_le_unlessStopped (tau_le_nextOr (issued _)) ((ih level tEnd).after_update rfl)
      · exact Nat.le_refl _

theorem exec_timely (i : Instr) : TimelyOut (exec i) := by
  intro s t h
  rw [exec_eq_dispatchWith] at h
  exact dispatchWith_timely (hostCode_timely _ 1) i s t h

/-! ### The step -/

theorem idleUntilNext_timely : Timely idleUntilNext := by
  intro s
  unfold idleUntilNext
  split
  · exact Nat.le_trans (Nat.le_succ _) (Nat.le_max_left _ _)
  · exact Nat.le_succ _

theorem hostStep_timely {run : Instr → State → Out} (hr : ∀ i, TimelyOut (run i)) : TimelyOut (hostStep run) := by
  intro s t h
  unfold hostStep at h
  split at h
  · cases h; exact idleUntilNext_timely s
  · next c rest _ =>
    split at h
    · exact (issue_timely hr c).after_update h rfl
    · cases h; exact idleUntilNext_timely s

@[simp] theorem commandFirst_tau (c : InputChange) (s : State) : (commandFirst c s).2.tau = s.tau := by
  unfold commandFirst
  split <;> rfl

theorem captureOr_timely {run : Instr → State → Out} (hr : ∀ i, TimelyOut (run i)) {others : State → Out}
    (ho : TimelyOut others) : TimelyOut (captureOr run others) := by
  intro s t h
  cases hn : nextCapture (s.tau + 1) s with
  | none => exact ho s t ((captureOr_none hn).symm.trans h)
  | some r => exact (hr _).after_update ((captureOr_some hn).symm.trans h) (nextCapture_lt hn).2

theorem stepWith_timely {run : Instr → State → Out} (hr : ∀ i, TimelyOut (run i)) : TimelyOut (stepWith run) := by
  intro s t h
  unfold stepWith at h
  split at h
  · cases h
  · split at h
    · exact captureOr_timely hr (hostStep_timely hr) s t h
    · next c rest _ =>
      split at h
      · simp only at h
        split at h
        · exact (hostStep_timely hr).after_update h (commandFirst_tau c s)
        · cases h; simp
      · exact captureOr_timely hr (hostStep_timely hr) s t h

/-- Settles O17: the passing of time never lowers `tau`, and every step is made of it and of updates that keep `tau`. -/
theorem timeNeverDecreases : Obligations.TimeNeverDecreases := stepWith_timely exec_timely

end Sys2Proof.Machine
end

section
/-! # Relations between the state before and after an operation

A relation that composes is carried through a sequence of operations step by step, and through a write of one instance
from what the write leaves alone. -/

namespace Sys2Proof.Machine

/-! ### Preorders along sequences of operations -/

/-- A relation between an earlier and a later state that composes. -/
structure Composes (R : State → State → Prop) : Prop where
  refl : ∀ s, R s s
  trans : ∀ {s t u}, R s t → R t u → R s u

/-- The operation leads along `R`, whatever state it starts from. -/
abbrev Along (R : State → State → Prop) (f : State → State) : Prop := ∀ s, R s (f s)

/-- Every operation of a sequence does. -/
inductive AllAlong (R : State → State → Prop) : List (State → State) → Prop
  | nil : AllAlong R []
  | cons {f : State → State} {fs : List (State → State)} (hf : Along R f) (hfs : AllAlong R fs) : AllAlong R (f :: fs)

section
variable {R : State → State → Prop} (h : Composes R)
include h

theorem Composes.runAll {fs : List (State → State)} (hfs : AllAlong R fs) (s : State) : R s (runAll fs s) := by
  refine runAll_rel h.refl (fun _ _ _ => h.trans) (fun f hf s _ => ?_) s
  induction hfs with
  | nil => cases hf
  | cons hg _ ih =>
    rcases List.mem_cons.1 hf with rfl | hf
    · exact hg s
    · exact ih hf

theorem Composes.whenever (c : Bool) {f : State → State} (hf : Along R f) : Along R (whenever c f) := by
  cases c
  · exact h.refl
  · exact hf

/-- The shape of an operation that goes on after a boundary only where the machine still runs. -/
theorem Composes.unlessStopped {s t u : State} (ht : R s t) (hu : R t u) : R s (if t.stopped then t else u) := by
  split
  · exact ht
  · exact h.trans ht hu

end

/-! ### Updates of one instance -/

/-- What reads the same of an instance before and after `f` reads the same of every instance of the state. -/
theorem modInst_project {α : Type} (g : Inst → α) {f : Inst → Inst} (hg : ∀ x, g (f x) = g x) (s : State) (id j : Nat) :
    g ((s.modInst id f).inst j) = g (s.inst j) := by
  by_cases hj : j = id
  · subst hj
    by_cases hc : s.constructed j = true
    · rw [inst_modInst_same s j f hc, hg]
    · have hc' : s.constructed j = false := by simpa using hc
      rw [inst_blank hc', inst_blank (by rw [constructed_modInst]; exact hc')]
  · rw [inst_modInst_other s f hj]

/-- Replacing an instance that does not exist changes nothing. -/
theorem modInst_unbuilt {s : State} {id : Nat} (f : Inst → Inst) (h : s.constructed id = false) :
    s.modInst id f = s := by
  have hk : id ∉ s.insts.map Prod.fst := by
    rw [← cellGet_isSome_iff]
    simpa [State.constructed] using h
  have : cellMod s.insts id f = s.insts := by
    refine (List.map_congr_left fun e he => if_neg fun hid => hk ?_).trans (List.map_id _)
    exact hid ▸ List.mem_map_of_mem he
  rw [State.modInst, this]

end Sys2Proof.Machine
end

section
/-! # Transitions wait on attached pins only (10_state.md R44; 60_exceptions.md R290, R292)

The clauses of `State.Registry` about waiting transitions hold at every micro-step. The environment keeps them: it
notes transitions on attached pins only, and a capture takes them away. Together with `EnvSafe` that is all the
environment does to the invariant. -/

namespace Sys2Proof.Machine

/-- The clauses `pending` and `coalesced` of `State.Registry`. -/
structure State.PendingSound (s : State) : Prop where
  attached : ∀ p, 1 ≤ (s.pend p).count → p ∈ s.attached
  coalesced : s.params.coalesce = true → ∀ p, (s.pend p).count ≤ 1

/-- From `s` to `t` they are kept. -/
def PendingKept (s t : State) : Prop := s.PendingSound → t.PendingSound

theorem pendingKept_composes : Composes PendingKept := ⟨fun _ h => h, fun h1 h2 h => h2 (h1 h)⟩

theorem PendingKept.foldl {α : Type} {f : State → α → State} (hf : ∀ s a, PendingKept s (f s a)) (l : List α)
    (s : State) : PendingKept s (l.foldl f s) := by
  induction l generalizing s with
  | nil => exact pendingKept_composes.refl s
  | cons a l ih => exact pendingKept_composes.trans (hf s a) (ih _)

/-- An update of anything else. -/
theorem PendingKept.of_eq {s t : State} (hp : t.params = s.params := by exact rfl)
    (hq : t.pending = s.pending := by exact rfl) (ha : t.attached = s.attached := by exact rfl) : PendingKept s t := by
  have hpend : ∀ p, t.pend p = s.pend p := fun p => by simp only [State.pend, hq]
  exact fun h => ⟨fun p hc => ha ▸ h.attached p (hpend p ▸ hc), fun hc p => hpend p ▸ h.coalesced (hp ▸ hc) p⟩

/-- A write of `pending[p]` that counts transitions on an attached pin only. -/
theorem PendingKept.setPend {s : State} {p : Nat} {v : Pending} (ha : 1 ≤ v.count → s.PendingSound → p ∈ s.attached)
    (hc : s.params.coalesce = true → s.PendingSound → v.count ≤ 1) : PendingKept s (s.setPend p v) := by
  refine fun h => ⟨fun q hq => ?_, fun hco q => ?_⟩
  · rw [pend_setPend] at hq
    split at hq
    · next e => subst e; exact ha hq h
    · exact h.attached q hq
  · rw [pend_setPend]
    split
    · exact hc hco h
    · exact h.coalesced hco q

/-- One that does not raise the count. -/
theorem PendingKept.setPend_le {s : State} {p : Nat} {v : Pending} (hv : v.count ≤ (s.pend p).count) :
    PendingKept s (s.setPend p v) :=
  .setPend (fun h1 h => h.attached p (Nat.le_trans h1 hv)) fun hc h => Nat.le_trans hv (h.coalesced hc p)

theorem PendingKept.notePending {p : Nat} {s : State} (hp : p ∈ s.attached) : PendingKept s (notePending p s) :=
  .setPend (fun _ _ => hp) fun hc _ => by simp [hc]

theorem PendingKept.armPin (p : Nat) (s : State) : PendingKept s (armPin p s) := by
  unfold Machine.armPin
  split
  · have hd : PendingKept s { s with draws := { s.draws with lat := (takeDraw 0 s.draws.lat).2 } } := .of_eq
    exact pendingKept_composes.trans hd (.setPend_le (Nat.le_refl _))
  · exact pendingKept_composes.refl s

theorem PendingKept.armAll (s : State) : PendingKept s (armAll s) := .foldl (fun t p => .armPin p t) _ _

theorem PendingKept.noteTransitions (s0 s : State) : PendingKept s (noteTransitions s0 s) := by
  have fold : ∀ (l : List Nat) (t : State), (∀ p ∈ l, p ∈ t.attached) →
      PendingKept t (l.foldl (fun t p => if s0.lineLevel p = s.lineLevel p then t else Machine.notePending p t) t) := by
    intro l
    induction l with
    | nil => exact fun t _ => pendingKept_composes.refl t
    | cons p l ih =>
      intro t hl
      refine pendingKept_composes.trans ?_ (ih _ fun q hq => ?_) <;> beta_reduce
      · split
        · exact pendingKept_composes.refl t
        · exact .notePending (hl p List.mem_cons_self)
      · split <;> exact hl q (List.mem_cons_of_mem p hq)
  exact fold s.attached s fun _ h => h

theorem PendingKept.applyInst (id : Nat) (f : Inst → Option Inst) (s : State) : PendingKept s (s.applyInst id f) := by
  unfold State.applyInst
  split <;> exact .of_eq

theorem PendingKept.captureStep (id : Nat) (s : State) : PendingKept s (captureStep id s) := by
  unfold Machine.captureStep captureBody
  split
  · have taken : PendingKept s (s.setPend (s.inst id).rxPin
        ⟨if s.params.coalesce then 0 else (s.pend (s.inst id).rxPin).count - 1, none⟩) :=
      .setPend_le (by split <;> simp)
    exact pendingKept_composes.trans taken (pendingKept_composes.trans (.applyInst id _ _) (.armAll _))
  · exact pendingKept_composes.refl s

theorem PendingKept.nextCapture {bound : Nat} {s t : State} {c : Nat × Nat × Nat}
    (h : nextCapture bound s = some (c, t)) : PendingKept s t := by
  unfold Machine.nextCapture at h
  split at h <;> cases h <;> exact .of_eq

theorem PendingKept.runCaptures (fuel bound : Nat) (s : State) : PendingKept s (runCaptures fuel bound s) := by
  induction fuel generalizing s with
  | zero => exact pendingKept_composes.refl s
  | succ n ih =>
    simp only [Machine.runCaptures]
    split
    · exact pendingKept_composes.refl s
    · cases hn : Machine.nextCapture bound s with
      | none => exact pendingKept_composes.refl s
      | some r =>
        obtain ⟨c, t⟩ := r
        have ht : PendingKept t (t.atTime c.1) := .of_eq
        exact pendingKept_composes.trans (.nextCapture hn)
          (pendingKept_composes.trans ht (pendingKept_composes.trans (.captureStep _ _) (ih _)))

theorem PendingKept.applyInput (c : InputChange) (s : State) : PendingKept s (applyInput c s) := by
  unfold Machine.applyInput
  refine pendingKept_composes.trans ?_ (pendingKept_composes.trans (.noteTransitions s _) (.armAll _))
  cases c.level <;> exact .of_eq

theorem PendingKept.passInputs (cs : List InputChange) (b t : Nat) (s : State) :
    PendingKept s (passInputs cs b t s) := by
  have last (s : State) : PendingKept s ((Machine.runCaptures (pendingTotal s) b s).atTime t) :=
    pendingKept_composes.trans (.runCaptures _ b s) .of_eq
  induction cs generalizing s with
  | nil =>
    simp only [Machine.passInputs]
    split
    · exact pendingKept_composes.refl s
    · exact last s
  | cons c cs ih =>
    simp only [Machine.passInputs]
    split
    · exact pendingKept_composes.refl s
    · split
      · refine pendingKept_composes.unlessStopped (.runCaptures _ _ s) ?_
        refine pendingKept_composes.trans ?_ (pendingKept_composes.trans (.applyInput c _) (ih _))
        exact .of_eq
      · exact last s

/-! ### All that the environment does to the invariant -/

/-- From `s` to `t` the environment alone has acted. -/
structure EnvMove (s t : State) : Prop where
  safe : EnvSafe s t
  pending : PendingKept s t

theorem envMove_composes : Composes EnvMove :=
  ⟨fun s => ⟨.refl s, pendingKept_composes.refl s⟩,
    fun h1 h2 => ⟨h1.safe.trans h2.safe, pendingKept_composes.trans h1.pending h2.pending⟩⟩

theorem EnvMove.draws (s : State) (d : Draws) : EnvMove s { s with draws := d } := ⟨.draws s d, .of_eq⟩

theorem EnvMove.captureStep (id : Nat) (s : State) : EnvMove s (captureStep id s) :=
  ⟨.captureStep id s, .captureStep id s⟩

theorem EnvMove.applyInput (c : InputChange) (s : State) : EnvMove s (applyInput c s) :=
  ⟨.applyInput c s, .applyInput c s⟩

theorem EnvMove.nextCapture {bound : Nat} {s t : State} {c : Nat × Nat × Nat} (h : nextCapture bound s = some (c, t)) :
    EnvMove s t := ⟨.nextCapture h, .nextCapture h⟩

theorem EnvMove.advanceTo (t : Nat) (s : State) : EnvMove s (advanceTo t s) := ⟨.advanceTo t s, .passInputs _ _ _ s⟩

theorem EnvMove.settle (s : State) : EnvMove s (settle s) := by
  unfold Machine.settle
  split
  · exact envMove_composes.refl s
  · exact .advanceTo _ s

theorem EnvMove.advanceToBefore (t : Nat) (s : State) : EnvMove s (advanceToBefore t s) :=
  envMove_composes.trans ⟨.passInputs _ _ _ s, .passInputs _ _ _ s⟩ (.settle _)

theorem EnvMove.arriveAt (t : Nat) (s : State) : EnvMove s (arriveAt t s) := by
  unfold Machine.arriveAt
  simp only
  split
  · exact envMove_composes.trans (.draws s _) (.advanceTo _ _)
  · exact envMove_composes.trans (.draws s _) (.advanceToBefore _ _)

theorem EnvMove.tick (s : State) : EnvMove s (tick s) := by
  unfold Machine.tick
  simp only
  split
  · exact envMove_composes.trans (.draws s _) (.advanceTo _ _)
  · exact envMove_composes.trans (.draws s _) (.advanceToBefore _ _)

theorem EnvMove.armAll (s : State) : EnvMove s (armAll s) := ⟨.armAll s, .armAll s⟩

theorem EnvMove.afterHal (s0 s : State) : EnvMove s (afterHal s0 s) :=
  envMove_composes.trans ⟨.noteTransitions_fold s0 s, .noteTransitions s0 s⟩
    (envMove_composes.trans (.armAll _) (.settle _))

theorem EnvMove.callbackReturns (s : State) : EnvMove s (callbackReturns s) :=
  envMove_composes.trans (.draws s _) (.advanceTo _ _)

theorem EnvMove.spinUntil (d : Nat) (s : State) : EnvMove s (spinUntil d s) := by
  refine envMove_composes.unlessStopped (.tick s) ?_
  exact envMove_composes.unlessStopped (.advanceTo _ _) (envMove_composes.trans (.draws _ _) (.advanceTo _ _))

end Sys2Proof.Machine
end

section
/-! # The decoder from any state

`DecodeSafe` of Laws/Decoder.lean speaks of sound states; that the decoder writes its own registers and rings only
holds in every state. -/

namespace Sys2Proof.Machine

theorem dataStep_decodedTo (level : Bool) (cycles : Int) (x : Inst) : x.DecodedTo (dataStep level cycles x).1 := by
  unfold dataStep
  simp only
  split <;> exact ⟨rfl, id⟩

theorem finalizeStep_decodedTo {x y : Inst} (h : finalizeStep x = some y) : x.DecodedTo y := by
  unfold finalizeStep enqueueByte at h
  split_ifs at h
  · cases h; exact ⟨rfl, fun _ => rfl⟩
  · cases h; exact ⟨rfl, id⟩
  · cases h

theorem idleStep_decodedTo (level : Bool) (x : Inst) : x.DecodedTo (idleStep level x) := by
  unfold idleStep
  split
  · exact .refl x
  · exact ⟨rfl, id⟩

theorem replayLoop_decodedTo (fuel : Nat) (level : Bool) (cycles : Int) {x y : Inst}
    (h : replayLoop fuel level cycles x = some y) : x.DecodedTo y := by
  induction fuel generalizing cycles x with
  | zero => cases h; exact .refl _
  | succ n ih =>
    simp only [replayLoop] at h
    split at h
    · split at h
      · cases h; exact dataStep_decodedTo level cycles x
      · exact (dataStep_decodedTo level cycles x).trans (ih _ h)
    · split at h
      · split at h
        · cases h
        · next z hz =>
          split at h
          · cases h; exact finalizeStep_decodedTo hz
          · exact (finalizeStep_decodedTo hz).trans (ih _ h)
      · cases h; exact idleStep_decodedTo level x

theorem replayEdge_decodedTo {w : Width} {ts : Nat} {level : Bool} {x y : Inst} (h : replayEdge w ts level x = some y) :
    x.DecodedTo y := by
  unfold replayEdge at h
  simp only at h
  split at h
  · cases h; exact .refl x
  · have h1 : x.DecodedTo { x with lastTs := ts } := ⟨rfl, id⟩
    exact h1.trans (replayLoop_decodedTo _ level _ h)

/-- From `s` to `t` the decoder of instance `id` has run, and the environment. -/
structure Decodes (id : Nat) (s t : State) : Prop where
  frame : State.DecodeTo id s t
  pending : PendingKept s t

theorem decodes_composes (id : Nat) : Composes (Decodes id) :=
  ⟨fun s => ⟨.refl id s, pendingKept_composes.refl s⟩,
    fun h1 h2 => ⟨h1.frame.trans h2.frame, pendingKept_composes.trans h1.pending h2.pending⟩⟩

theorem tick_decodes (id : Nat) : Along (Decodes id) tick := fun s =>
  ⟨(EnvMove.tick s).safe.env.decodeTo id, (EnvMove.tick s).pending⟩

theorem raise_decodes (id : Nat) (c : FaultCode) (s : State) : Decodes id s (s.raise c) :=
  ⟨⟨rfl, rfl, rfl, rfl, rfl, rfl, rfl, rfl, rfl, rfl, rfl, Nat.le_refl _, rfl, fun _ _ => .refl _, rfl, fun h => h,
    fun h => h⟩, .of_eq⟩

theorem replayOn_decodes (id ts : Nat) (level : Bool) : Along (Decodes id) (replayOn id ts level) := by
  intro s
  unfold replayOn State.applyInst
  split
  · next y hy =>
    by_cases hc : s.constructed id = true
    · have h := replayEdge_decodedTo hy
      refine ⟨modInst_decodeTo y hc ?_ h.latch, .of_eq⟩
      have ho : y.outE = (s.inst id).outE := by rw [h.rest]
      rw [ho]; exact h.rest
    · rw [modInst_unbuilt _ (by simpa using hc)]
      exact (decodes_composes id).refl s
  · exact raise_decodes id _ s

theorem advanceOutE_decodes (id : Nat) : Along (Decodes id) (State.modInst id advanceOutE) := by
  intro s
  by_cases hc : s.constructed id = true
  · have hid := inst_modInst_same s id advanceOutE hc
    exact ⟨⟨rfl, rfl, rfl, rfl, rfl, rfl, rfl, rfl, rfl, rfl, rfl, Nat.le_refl _, cellMod_keys s.insts id _,
      fun j hj => by rw [inst_modInst_other s _ hj]; exact .refl _, by rw [hid]; rfl, by rw [hid]; exact fun h => h,
      by rw [hid]; exact fun h => h⟩, .of_eq⟩
  · rw [modInst_unbuilt _ (by simpa using hc)]
    exact (decodes_composes id).refl s

theorem synthAt_decodes (id now : Nat) : Along (Decodes id) (synthAt id now) := by
  intro s
  refine (decodes_composes id).unlessStopped (tick_decodes id s) ?_
  split
  · exact (decodes_composes id).refl _
  · split
    · exact replayOn_decodes id _ true _
    · exact (decodes_composes id).refl _

theorem synthStop_decodes (id : Nat) : Along (Decodes id) (synthStop id) := by
  intro s
  unfold synthStop
  split
  · exact (decodes_composes id).refl s
  · exact (decodes_composes id).unlessStopped (tick_decodes id s) (synthAt_decodes id _ _)

theorem replayNext_decodes (id : Nat) : Along (Decodes id) (replayNext id) := by
  intro s
  refine (decodes_composes id).unlessStopped (tick_decodes id s) ?_
  split
  · exact (decodes_composes id).runAll
      (.cons (tick_decodes id) (.cons (advanceOutE_decodes id) (.cons (replayOn_decodes id _ _) .nil))) _
  · exact raise_decodes id _ _

theorem replayQueued_decodes (id n : Nat) : Along (Decodes id) (replayQueued id n) := by
  induction n with
  | zero => exact (decodes_composes id).refl
  | succ n ih =>
    intro s
    rw [replayQueued]
    split
    · exact (decodes_composes id).refl s
    · exact (decodes_composes id).trans (replayNext_decodes id s) (ih _)

/-- RXBITS (41_decoder.md R141, R164) writes the decoder's registers and rings of its instance, and nothing else. -/
theorem rxbits_decodes (id : Nat) : Along (Decodes id) (rxbits id) := by
  intro s
  unfold rxbits
  split
  · exact (decodes_composes id).trans (tick_decodes id s)
      ((decodes_composes id).runAll (.cons (replayQueued_decodes id _) (.cons (synthStop_decodes id) .nil)) _)
  · exact (decodes_composes id).refl s

end Sys2Proof.Machine
end

section
/-! # The frame of an operation

`State.FrameBut id` is the frame of the operations on instance `id` that hand the main line to no host code:
parameters, mask, the map's keys, what CONSTRUCT fixed and what is in progress stay as they are. -/

namespace Sys2Proof.Machine

/-- What CONSTRUCT fixes for good (44_port_facade.md R243, R259). -/
def Inst.build (x : Inst) : (Nat × Nat × Bool × Bool) × Nat × Nat × Bool × Bool :=
  ((x.rxPin, x.txPin, x.invert, x.oneWire), x.byteCap, x.edgeCap, x.rxValid, x.txValid)

/-- What says whether an operation of the instance is in progress: a WRITE, a yield (10_state.md R40, R41). -/
def Inst.activity (x : Inst) : Bool × Bool × Seq := (x.txBusy, x.inYield, x.seq)

/-- The frame of the operations on instance `id` between which no host code runs. -/
structure State.FrameBut (id : Nat) (s t : State) : Prop where
  params : t.params = s.params
  im : t.im = s.im
  keys : t.insts.map Prod.fst = s.insts.map Prod.fst
  build : ∀ j, (t.inst j).build = (s.inst j).build
  activity : ∀ j, (t.inst j).activity = (s.inst j).activity
  savedMask : ∀ j, (t.inst j).savedMask = (s.inst j).savedMask
  /-- START and DESTRUCT move the facade of their own instance only -/
  fstate : ∀ j, j ≠ id → (t.inst j).fstate = (s.inst j).fstate

theorem frameBut_composes (id : Nat) : Composes (State.FrameBut id) where
  refl _ := ⟨rfl, rfl, rfl, fun _ => rfl, fun _ => rfl, fun _ => rfl, fun _ _ => rfl⟩
  trans h1 h2 :=
    ⟨h2.params.trans h1.params, h2.im.trans h1.im, h2.keys.trans h1.keys, fun j => (h2.build j).trans (h1.build j),
      fun j => (h2.activity j).trans (h1.activity j), fun j => (h2.savedMask j).trans (h1.savedMask j),
      fun j hj => (h2.fstate j hj).trans (h1.fstate j hj)⟩

theorem State.FrameBut.constructed {id : Nat} {s t : State} (h : State.FrameBut id s t) (j : Nat) :
    t.constructed j = s.constructed j := constructed_of_keys h.keys j

/-- An update of nothing but pins, registry, outputs and the like. -/
theorem State.FrameBut.of_insts {id : Nat} {s t : State} (hp : t.params = s.params := by exact rfl)
    (hm : t.im = s.im := by exact rfl) (hi : t.insts = s.insts := by exact rfl) : State.FrameBut id s t := by
  have : ∀ j, t.inst j = s.inst j := fun j => by simp only [State.inst, hi]
  exact ⟨hp, hm, by rw [hi], fun j => by rw [this], fun j => by rw [this], fun j => by rw [this],
    fun j _ => by rw [this]⟩

/-- An update of registers of the operation's own instance that the frame does not list. -/
theorem State.FrameBut.modOwn {id : Nat} {f : Inst → Inst} (s : State)
    (hb : ∀ x, (f x).build = x.build := by exact fun _ => rfl)
    (ha : ∀ x, (f x).activity = x.activity := by exact fun _ => rfl)
    (hm : ∀ x, (f x).savedMask = x.savedMask := by exact fun _ => rfl) : State.FrameBut id s (s.modInst id f) :=
  ⟨rfl, rfl, cellMod_keys s.insts id f, modInst_project _ hb s id, modInst_project _ ha s id, modInst_project _ hm s id,
    fun j hj => by rw [inst_modInst_other s f hj]⟩

/-- An update of registers of any instance that the frame does not list. -/
theorem State.FrameBut.modInst {id k : Nat} {f : Inst → Inst} (s : State)
    (hb : ∀ x, (f x).build = x.build := by exact fun _ => rfl)
    (ha : ∀ x, (f x).activity = x.activity := by exact fun _ => rfl)
    (hm : ∀ x, (f x).savedMask = x.savedMask := by exact fun _ => rfl)
    (hf : ∀ x, (f x).fstate = x.fstate := by exact fun _ => rfl) : State.FrameBut id s (s.modInst k f) :=
  ⟨rfl, rfl, cellMod_keys s.insts k f, modInst_project _ hb s k, modInst_project _ ha s k, modInst_project _ hm s k,
    fun j _ => modInst_project (·.fstate) hf s k j⟩

/-- What reads the same whatever the captures and the decoder of an instance write. -/
theorem State.DecodeTo.project {α : Type} {k : Nat} {s t : State} (h : State.DecodeTo k s t) (g : Inst → α)
    (hg : ∀ (x : Inst) edges inE edgeOvf outE curBit curByte lastTs bytes inB byteOvf,
      g { x with edges := edges, inE := inE, edgeOvf := edgeOvf, outE := outE, curBit := curBit, curByte := curByte,
                 lastTs := lastTs, bytes := bytes, inB := inB, byteOvf := byteOvf } = g x := by intros; rfl) (j : Nat) :
    g (t.inst j) = g (s.inst j) := by
  by_cases hj : j = k
  · subst hj; rw [h.inst]; exact hg ..
  · rw [(h.others j hj).rest]; exact hg ..

theorem State.DecodeTo.frameBut {k : Nat} {s t : State} (h : State.DecodeTo k s t) (id : Nat) :
    State.FrameBut id s t :=
  ⟨h.params, h.im, h.keys, h.project Inst.build, h.project Inst.activity, h.project (·.savedMask),
    fun j _ => h.project (·.fstate) (j := j)⟩

theorem EnvSafe.frameBut {s t : State} (h : EnvSafe s t) (id : Nat) : State.FrameBut id s t :=
  (h.env.decodeTo id).frameBut id

theorem raise_frameBut (id : Nat) (c : FaultCode) : Along (State.FrameBut id) (State.raise c) :=
  fun _ => .of_insts

theorem ret_frameBut (id k : Nat) (r : Result) : Along (State.FrameBut id) (State.ret k r) :=
  fun _ => .of_insts

theorem tick_frameBut (id : Nat) : Along (State.FrameBut id) tick := fun s => (EnvSafe.tick s).frameBut id

theorem rxbits_frameBut (id k : Nat) : Along (State.FrameBut id) (rxbits k) := fun s =>
  (rxbits_decodes k s).frame.frameBut id

/-! HAL calls but the two that write the mask -/

theorem writePinLevel_frameBut (id p : Nat) (v : Bool) : Along (State.FrameBut id) (writePinLevel p v) := fun s =>
  have hw : State.FrameBut id (tick s) (pinWritten p v (tick s)) := .of_insts
  (frameBut_composes id).unlessStopped (tick_frameBut id s)
    ((frameBut_composes id).trans hw ((EnvSafe.afterHal (tick s) (pinWritten p v (tick s))).frameBut id))

theorem setPinMode_frameBut (id p : Nat) (m : PinMode) : Along (State.FrameBut id) (setPinMode p m) := fun s =>
  have hw : State.FrameBut id (tick s) (modeWritten p m (tick s)) := .of_insts
  (frameBut_composes id).unlessStopped (tick_frameBut id s)
    ((frameBut_composes id).trans hw ((EnvSafe.afterHal (tick s) (modeWritten p m (tick s))).frameBut id))

theorem attachEdgeInterrupt_frameBut (id p : Nat) : Along (State.FrameBut id) (attachEdgeInterrupt p) := fun s =>
  (frameBut_composes id).unlessStopped (tick_frameBut id s) (.of_insts)

theorem detachInterrupt_frameBut (id p : Nat) : Along (State.FrameBut id) (detachInterrupt p) := fun s =>
  (frameBut_composes id).unlessStopped (tick_frameBut id s) (.of_insts)

/-! The receiver, the facade and the read API -/

/-- `s.rxEnabled <- on`. -/
theorem setRxEnabled_frameBut (id k : Nat) (on : Bool) :
    Along (State.FrameBut id) (State.modInst k fun y => { y with rxEnabled := on }) :=
  fun s => .modInst s

theorem evictOwner_frameBut (id p k : Nat) : Along (State.FrameBut id) (evictOwner p k) := by
  intro s
  unfold evictOwner
  split
  · split
    · exact (frameBut_composes id).refl s
    · exact (frameBut_composes id).runAll (.cons (tick_frameBut id)
        (.cons (setRxEnabled_frameBut id _ false) (.cons (detachInterrupt_frameBut id p) .nil))) s
  · exact (frameBut_composes id).refl s

theorem attachReceiver_frameBut (id k : Nat) : Along (State.FrameBut id) (attachReceiver k) := by
  intro s
  simp only [attachReceiver]
  split
  · exact (frameBut_composes id).refl s
  · exact (frameBut_composes id).runAll (.cons (fun s => .modInst s)
      (.cons (setPinMode_frameBut id _ _) (.cons (evictOwner_frameBut id _ k) (.cons (fun _ => .of_insts)
        (.cons (attachEdgeInterrupt_frameBut id _) (.cons (setRxEnabled_frameBut id k true) .nil)))))) s

theorem detachReceiver_frameBut (id k : Nat) : Along (State.FrameBut id) (detachReceiver k) := fun s =>
  have h := frameBut_composes id
  h.runAll (.cons
    (h.whenever _ (h.runAll (.cons (detachInterrupt_frameBut id _) (.cons (fun _ => .of_insts) .nil))))
    (.cons (setRxEnabled_frameBut id k false) .nil)) s

theorem enableRx_frameBut (id k : Nat) (on : Bool) : Along (State.FrameBut id) (enableRx k on) := by
  intro s
  simp only [enableRx]
  split
  · exact (frameBut_composes id).refl s
  · split
    · exact attachReceiver_frameBut id k s
    · exact detachReceiver_frameBut id k s

/-- `s.fstate <- v`, of the operation's own instance. -/
theorem setFstate_frameBut (id : Nat) (v : FacadeState) :
    Along (State.FrameBut id) (State.modInst id fun y => { y with fstate := v }) :=
  fun s => .modOwn s

/-- A transmit pin is driven idle before it becomes an output (44_port_facade.md R247, R254). -/
theorem drivePin_frameBut (id p : Nat) (v : Bool) (m : PinMode) :
    Along (State.FrameBut id) (runAll [writePinLevel p v, setPinMode p m]) :=
  (frameBut_composes id).runAll (.cons (writePinLevel_frameBut id p v) (.cons (setPinMode_frameBut id p m) .nil))

theorem start_frameBut (id : Nat) (baud : Int) : Along (State.FrameBut id) (start id baud) := by
  intro s
  have h := frameBut_composes id
  simp only [start]
  split
  · exact raise_frameBut id _ s
  · exact h.runAll (.cons (h.whenever _ (enableRx_frameBut id id false)) (.cons (tick_frameBut id)
      (.cons (fun s => .modOwn s)
        (.cons (h.whenever _ (drivePin_frameBut id _ _ _)) (.cons (setFstate_frameBut id _)
          (.cons (h.whenever _ (enableRx_frameBut id id true)) (.cons (ret_frameBut id id _) .nil))))))) s

theorem enableTx_frameBut (id k : Nat) (on : Bool) : Along (State.FrameBut id) (enableTx k on) := by
  intro s
  have h := frameBut_composes id
  simp only [enableTx]
  split
  · exact h.refl s
  · split
    · exact h.runAll (.cons (enableRx_frameBut id k false) (.cons (writePinLevel_frameBut id _ _)
        (.cons (setPinMode_frameBut id _ _) .nil))) s
    · exact h.runAll (.cons (writePinLevel_frameBut id _ _) (.cons (setPinMode_frameBut id _ _)
        (.cons (enableRx_frameBut id k true) .nil))) s

theorem setTxEnablePin_frameBut (id k pin : Nat) : Along (State.FrameBut id) (setTxEnablePin k pin) := by
  intro s
  unfold setTxEnablePin
  split
  · exact (frameBut_composes id).runAll (.cons
      (fun s => .modInst s)
      (.cons (writePinLevel_frameBut id pin false) (.cons (setPinMode_frameBut id pin _) .nil))) s
  · exact State.FrameBut.modInst s

theorem takeByte_frameBut (id k : Nat) : Along (State.FrameBut id) (takeByte k) := by
  intro s
  simp only [takeByte]
  split_ifs
  · exact ret_frameBut id k _ s
  · exact (frameBut_composes id).trans
      (State.FrameBut.modInst s) (ret_frameBut id k _ _)
  · exact raise_frameBut id _ s

theorem showByte_frameBut (id k : Nat) : Along (State.FrameBut id) (showByte k) := by
  intro s
  simp only [showByte]
  split_ifs
  · exact ret_frameBut id k _ s
  · exact ret_frameBut id k _ s
  · exact raise_frameBut id _ s

/-- READ and PEEK: the decoder's pass, a boundary, and one access of the byte ring. -/
theorem afterPass_frameBut (id k : Nat) {f : State → State} (hf : Along (State.FrameBut id) f) :
    Along (State.FrameBut id) (runAll [rxbits k, tick, f]) :=
  (frameBut_composes id).runAll (.cons (rxbits_frameBut id k) (.cons (tick_frameBut id) (.cons hf .nil)))

theorem readByte_frameBut (id k : Nat) : Along (State.FrameBut id) (readByte k) := by
  intro s
  unfold readByte
  split
  · exact afterPass_frameBut id k (takeByte_frameBut id k) s
  · exact ret_frameBut id k _ s

theorem peekByte_frameBut (id k : Nat) : Along (State.FrameBut id) (peekByte k) := by
  intro s
  unfold peekByte
  split
  · exact afterPass_frameBut id k (showByte_frameBut id k) s
  · exact ret_frameBut id k _ s

theorem flush_frameBut (id k : Nat) : Along (State.FrameBut id) (flush k) := by
  intro s
  unfold flush
  split
  · exact (frameBut_composes id).runAll (.cons (tick_frameBut id)
      (.cons (fun s => .modInst s) (.cons (tick_frameBut id)
        (.cons (fun s => .modInst s)
          (.cons (ret_frameBut id k _) .nil))))) s
  · exact ret_frameBut id k _ s

/-- A write of registers that no frame lists, and the return. -/
theorem modInstRet_frameBut (id k : Nat) {f : Inst → Inst} (r : State → Result)
    (hb : ∀ x, (f x).build = x.build := by exact fun _ => rfl)
    (ha : ∀ x, (f x).activity = x.activity := by exact fun _ => rfl)
    (hm : ∀ x, (f x).savedMask = x.savedMask := by exact fun _ => rfl)
    (hf : ∀ x, (f x).fstate = x.fstate := by exact fun _ => rfl) :
    Along (State.FrameBut id) fun s => (s.modInst k f).ret k (r s) := fun s =>
  (frameBut_composes id).trans (State.FrameBut.modInst s hb ha hm hf) (ret_frameBut id k _ _)

theorem readOverflow_frameBut (id k : Nat) : Along (State.FrameBut id) (readOverflow k) :=
  modInstRet_frameBut id k (fun s => .boolean (overflowed (s.inst k)))

/-- The commands that return to the host once their steps are done. -/
theorem runAll_ret_frameBut (id k : Nat) (r : Result) {f : State → State} (hf : Along (State.FrameBut id) f) :
    Along (State.FrameBut id) (runAll [f, State.ret k r]) :=
  (frameBut_composes id).runAll (.cons hf (.cons (ret_frameBut id k r) .nil))

end Sys2Proof.Machine
end

section
/-! # What a command of the host can be

The entry checks of 60_exceptions.md R297 taken apart once: an operation that the host issues raises a fault and does
nothing else, or it is CONSTRUCT, or it is accepted and runs its own steps. -/

namespace Sys2Proof.Machine

/-- The steps of a command of the host but CONSTRUCT, once its entry checks have passed. -/
def hostSteps (host : HostCode) : Instr → State → State
  | .construct _ _ _ _ _ _ => id
  | .start id baud => start id baud
  | .stop id => runAll [enableRx id false, State.ret id .nothing]
  | .destruct id =>
    runAll [enableRx id false, State.modInst id fun y => { y with fstate := .tornDown }, State.ret id .nothing]
  | .enableRx id on => runAll [enableRx id on, State.ret id .nothing]
  | .enableTx id on => runAll [enableTx id on, State.ret id .nothing]
  | .setTxEnablePin id pin => runAll [setTxEnablePin id pin, State.ret id .nothing]
  | .baudrate id => fun t => t.ret id (.natural (baudOf t.params (t.inst id).bitPeriod))
  | .available id => available host id
  | .read id => readByte id
  | .peek id => peekByte id
  | .flush id => flush id
  | .overflow id => runAll [tick, readOverflow id]
  | .onReceive id cb => fun t => (t.modInst id fun y => { y with rxCallback := cb }).ret id .nothing
  | .pump id => pump host id
  | .write id bytes => write host id bytes
  | .capture _ => id
  | .rxbits _ => id
  | .replayEdge _ _ => id
  | .synthStop _ => id
  | .synthStopAt _ _ => id
  | .waitBitCycles _ _ => id

theorem entryFault_none {id : Nat} {s : State} (hf : s.fault = none) (h : entryFault id s = none) : s.Accepts id := by
  unfold entryFault at h
  split_ifs at h with hctx hbuilt hdown hyield
  exact ⟨hf, by cases hc : s.ctx <;> simp_all, by simpa using hbuilt, hdown, by simpa using hyield⟩

/-- What a command other than CONSTRUCT can do. -/
theorem hostOperation_next {id : Nat} {body : State → State} {s t : State} (h : hostOperation id body s = .next t) :
    (∃ c, t = s.raise c) ∨ s.Accepts id ∧ t = body s := by
  unfold hostOperation at h
  split at h
  · cases h
  · next hf =>
    split at h <;> cases h
    · exact .inl ⟨_, rfl⟩
    · next hn => exact .inr ⟨entryFault_none hf hn, rfl⟩

theorem constructOperation_next {body : State → State} {s t : State} (h : constructOperation body s = .next t) :
    (∃ c, t = s.raise c) ∨ s.fault = none ∧ t = body s := by
  unfold constructOperation at h
  split at h
  · cases h
  · next hf =>
    split at h <;> cases h
    · exact .inl ⟨_, rfl⟩
    · exact .inr ⟨hf, rfl⟩

/-- The host may not issue an internal operation (30_encoding.md R103). -/
theorem internalOperation_host {id : Nat} {body : State → State} {s t : State} (hi : s.issuer = .host)
    (h : internalOperation id body s = .next t) : ∃ c, t = s.raise c := by
  unfold internalOperation at h
  split at h
  · cases h
  · rw [if_pos hi] at h
    cases h
    exact ⟨_, rfl⟩

/-- What an operation that the host issues can do. -/
theorem dispatchWith_host {host : HostCode} {i : Instr} {s t : State} (hi : s.issuer = .host)
    (h : dispatchWith host i s = .next t) :
    (∃ c, t = s.raise c) ∨
      (s.fault = none ∧ ∃ id rx tx inv nb ne, t = construct id rx tx inv nb ne s) ∨
      s.Accepts i.target ∧ t = hostSteps host i s := by
  have accepted {id : Nat} {body : State → State} (h : hostOperation id body s = .next t) :
      (∃ c, t = s.raise c) ∨ (s.fault = none ∧ ∃ id rx tx inv nb ne, t = construct id rx tx inv nb ne s) ∨
        s.Accepts id ∧ t = body s :=
    (hostOperation_next h).imp_right .inr
  cases i with
  | construct id rx tx inv nb ne =>
    exact (constructOperation_next h).imp_right fun ⟨hf, ht⟩ => .inl ⟨hf, id, rx, tx, inv, nb, ne, ht⟩
  | start id baud => exact accepted h
  | stop id => exact accepted h
  | destruct id => exact accepted h
  | enableRx id on => exact accepted h
  | enableTx id on => exact accepted h
  | setTxEnablePin id pin => exact accepted h
  | baudrate id => exact accepted h
  | available id => exact accepted h
  | read id => exact accepted h
  | peek id => exact accepted h
  | flush id => exact accepted h
  | overflow id => exact accepted h
  | onReceive id cb => exact accepted h
  | pump id => exact accepted h
  | write id bytes => exact accepted h
  | capture id => exact .inl (internalOperation_host hi h)
  | rxbits id => exact .inl (internalOperation_host hi h)
  | replayEdge id ev => exact .inl (internalOperation_host hi h)
  | synthStop id => exact .inl (internalOperation_host hi h)
  | synthStopAt id now => exact .inl (internalOperation_host hi h)
  | waitBitCycles id d => exact .inl (internalOperation_host hi h)

/-- The commands that hand the main line to host code in a yield or a callback. -/
def Instr.yields : Instr → Bool
  | .available _ => true
  | .pump _ => true
  | .write _ _ => true
  | _ => false

/-- Every other command keeps the frame of its instance. -/
theorem hostSteps_frameBut (host : HostCode) {i : Instr} (hi : Instr.yields i = false) :
    Along (State.FrameBut i.target) (hostSteps host i) := by
  have nothing : Along (State.FrameBut i.target) id := (frameBut_composes _).refl
  cases i with
  | construct id rx tx inv nb ne => exact nothing
  | start id baud => exact start_frameBut id baud
  | stop id => exact runAll_ret_frameBut id id _ (enableRx_frameBut id id false)
  | destruct id =>
    exact (frameBut_composes id).runAll
      (.cons (enableRx_frameBut id id false) (.cons (setFstate_frameBut id _) (.cons (ret_frameBut id id _) .nil)))
  | enableRx id on => exact runAll_ret_frameBut id id _ (enableRx_frameBut id id on)
  | enableTx id on => exact runAll_ret_frameBut id id _ (enableTx_frameBut id id on)
  | setTxEnablePin id pin => exact runAll_ret_frameBut id id _ (setTxEnablePin_frameBut id id pin)
  | baudrate id => exact fun _ => .of_insts
  | available id => cases hi
  | read id => exact readByte_frameBut id id
  | peek id => exact peekByte_frameBut id id
  | flush id => exact flush_frameBut id id
  | overflow id =>
    exact (frameBut_composes id).runAll (.cons (tick_frameBut id) (.cons (readOverflow_frameBut id id) .nil))
  | onReceive id cb => exact modInstRet_frameBut id id fun _ => .nothing
  | pump id => cases hi
  | write id bytes => cases hi
  | capture id => exact nothing
  | rxbits id => exact nothing
  | replayEdge id ev => exact nothing
  | synthStop id => exact nothing
  | synthStopAt id now => exact nothing
  | waitBitCycles id d => exact nothing

end Sys2Proof.Machine
end


section
/-! # From the commands to the step

A step is an act of the environment, a capture, bookkeeping of time and queues, or one command of the host, in whose
yields and callbacks host code issues further ones. A relation between states that all of these respect, the commands
as soon as the host code in them does, is respected by every step. -/

namespace Sys2Proof.Machine

/-- What a relation has to respect to be respected by every step. It need only compose where the machine still runs in
the middle, since nothing follows a stop (60_exceptions.md R283). -/
structure StepClosed (R : State → State → Prop) : Prop where
  refl : ∀ s, R s s
  trans : ∀ {s t u}, t.fault = none → R s t → R t u → R s u
  books : ∀ (s : State) tau ctx issuer inputs hostQueue draws,
    R s { s with tau := tau, ctx := ctx, issuer := issuer, inputs := inputs, hostQueue := hostQueue, draws := draws }
  env : ∀ {s t}, EnvMove s t → R s t
  raise : ∀ (s : State) c, R s (s.raise c)
  construct : ∀ s id rx tx inv nb ne, s.fault = none → R s (construct id rx tx inv nb ne s)
  steps : ∀ {host : HostCode}, (∀ tEnd, Along R (host tEnd)) → ∀ (i : Instr) (s : State), s.Accepts i.target →
    R s (hostSteps host i s)

/-- The operations that the host issues respect it. -/
abbrev IssuedAlong (R : State → State → Prop) (run : Instr → State → Out) : Prop :=
  ∀ i s t, s.issuer = .host → run i s = .next t → R s t

section
variable {R : State → State → Prop} (h : StepClosed R)
include h

theorem StepClosed.dispatchWith {host : HostCode} (hh : ∀ tEnd, Along R (host tEnd)) :
    IssuedAlong R (dispatchWith host) := by
  intro i s t hi ht
  obtain ⟨c, rfl⟩ | ⟨hf, id, rx, tx, inv, nb, ne, rfl⟩ | ⟨ha, rfl⟩ := dispatchWith_host hi ht
  · exact h.raise s c
  · exact h.construct s id rx tx inv nb ne hf
  · exact h.steps hh i s ha

/-- A command is issued in the context and in the name of the host. -/
theorem StepClosed.issue {run : Instr → State → Out} (hr : IssuedAlong R run) {c : HostCommand} {s t : State}
    (hf : s.fault = none) (ht : issue run c s = .next t) : R s t := by
  refine h.trans (t := { s with ctx := c.ctx, issuer := .host }) hf (h.books s _ _ _ _ _ _) ?_
  simp only [Machine.issue] at ht
  split at ht
  · split at ht
    · exact hr _ _ t rfl ht
    · cases ht; exact h.raise _ _
    · cases ht
  · cases ht; exact h.raise _ _

/-- The shape of host code: it goes on after a command only where the machine still runs. -/
theorem StepClosed.unlessStopped {s t u : State} (ht : R s t) (hu : t.fault = none → R t u) :
    R s (if t.stopped then t else u) := by
  split
  · exact ht
  · next hs =>
    have hf := (not_stopped_iff t).1 (by simpa using hs)
    exact h.trans hf ht (hu hf)

theorem StepClosed.nextOr_issue {run : Instr → State → Out} (hr : IssuedAlong R run) (c : HostCommand) {s : State}
    (hf : s.fault = none) : R s (nextOr s (Machine.issue run c s)) := by
  cases ho : Machine.issue run c s with
  | next t => exact h.issue hr hf ho
  | fault _ => exact h.refl s
  | refused _ => exact h.refl s

/-- By induction on the number of commands that host code may still issue, at every nesting level: a nested command runs
with the host code of the level above, which has one command fewer. -/
theorem StepClosed.hostCode (fuel level : Nat) (tEnd : Option Nat) : Along R (hostCode fuel level tEnd) := by
  induction fuel generalizing level tEnd with
  | zero => exact h.refl
  | succ fuel ih =>
    intro s
    rw [Machine.hostCode]
    split
    · exact h.refl s
    · next c rest _ =>
      split_ifs with hs
      · exact h.refl s
      · have hf : s.fault = none := by simpa [State.stopped] using hs
        have arrived : R s (arriveAt c.time { s with hostQueue := rest }) :=
          h.trans (t := { s with hostQueue := rest }) hf (h.books s _ _ _ _ _ _) (h.env (.arriveAt _ _))
        refine h.unlessStopped arrived fun hf1 => ?_
        refine h.unlessStopped (h.nextOr_issue (h.dispatchWith (ih (level + 1))) c hf1) fun hf2 => ?_
        refine h.trans ?_ (h.books _ _ s.ctx s.issuer _ _ _) (ih level tEnd _)
        exact hf2
      · exact h.refl s

theorem StepClosed.execHost : IssuedAlong R exec := by
  intro i s t hi ht
  rw [exec_eq_dispatchWith] at ht
  exact h.dispatchWith (h.hostCode _ 1) i s t hi ht

theorem StepClosed.hostStep {s t : State} (hf : s.fault = none) (ht : hostStep exec s = .next t) : R s t := by
  have idle : R s (idleUntilNext s) := by
    unfold idleUntilNext
    split <;> exact h.books s _ _ _ _ _ _
  unfold Machine.hostStep at ht
  split at ht
  · cases ht; exact idle
  · next c rest _ =>
    split at ht
    · exact h.trans (t := { s with hostQueue := rest }) hf (h.books s _ _ _ _ _ _)
        (h.issue h.execHost hf ht)
    · cases ht; exact idle

/-- The capture agent's operation, where the unit issues it. -/
theorem StepClosed.execCapture {id : Nat} {s t : State} (hi : s.issuer = .unit)
    (ht : exec (.capture id) s = .next t) : R s t := by
  have hx : exec (.capture id) s = internalOperation id (captureStep id) s := rfl
  rw [hx, internalOperation] at ht
  split at ht
  · cases ht
  · rw [if_neg (by rw [hi]; simp)] at ht
    split at ht <;> cases ht
    · exact h.raise s _
    · exact h.env (.captureStep id s)

theorem StepClosed.captureOr {s t : State} (hf : s.fault = none)
    (ht : captureOr exec (Machine.hostStep exec) s = .next t) : R s t := by
  cases hn : nextCapture (s.tau + 1) s with
  | none => exact h.hostStep hf ((captureOr_none hn).symm.trans ht)
  | some r =>
    obtain ⟨c, u⟩ := r
    have hu : R s u := h.env (.nextCapture hn)
    have hfu : u.fault = none := by
      unfold nextCapture at hn
      split at hn <;> cases hn <;> exact hf
    refine h.trans hfu hu (h.trans (t := { u with ctx := .interrupt, issuer := .unit }) hfu (h.books u _ _ _ _ _ _) ?_)
    exact h.execCapture rfl ((captureOr_some hn).symm.trans ht)

omit h in
/-- Only a machine that runs takes a step (60_exceptions.md R283). -/
theorem running_of_step {s t : State} (ht : step s = .next t) : s.fault = none := by
  cases hf : s.fault with
  | none => rfl
  | some c => rw [step_stopped hf] at ht; cases ht

theorem StepClosed.step {s t : State} (ht : step s = .next t) : R s t := by
  unfold Machine.step stepWith at ht
  split at ht
  · cases ht
  · next hf =>
    split at ht
    · exact h.captureOr hf ht
    · next c rest _ =>
      split at ht
      · have first : R s (commandFirst c s).2 ∧ (commandFirst c s).2.fault = none := by
          unfold commandFirst
          split
          · exact ⟨h.books s _ _ _ _ _ _, hf⟩
          · exact ⟨h.refl s, hf⟩
        obtain ⟨hr, hf1⟩ := first
        simp only at ht
        split at ht
        · exact h.trans hf1 hr (h.hostStep hf1 ht)
        · cases ht
          refine h.trans hf1 hr (h.trans (t := { (commandFirst c s).2 with inputs := rest }) hf1 ?_
            (h.env (.applyInput c _)))
          exact h.books _ _ _ _ _ _ _
      · exact h.captureOr hf ht

end

end Sys2Proof.Machine
end

section
/-! # Configuration is fixed, teardown is final (44_port_facade.md R240, R243, R259)

The commands with no host code in between have it from their frame and the entry check of teardown; AVAILABLE, PUMP
and WRITE step by step, from the host code they run; host code by induction on the commands it may still issue. -/

namespace Sys2Proof.Machine

/-- What no step changes. -/
structure State.Fixed (s t : State) : Prop where
  params : t.params = s.params
  built : ∀ id, s.constructed id = true → t.constructed id = true
  build : ∀ id, s.constructed id = true → (t.inst id).build = (s.inst id).build
  tornDown : ∀ id, (s.inst id).fstate = .tornDown → (t.inst id).fstate = .tornDown

theorem fixed_composes : Composes State.Fixed where
  refl _ := ⟨rfl, fun _ h => h, fun _ _ => rfl, fun _ h => h⟩
  trans h1 h2 :=
    ⟨h2.params.trans h1.params, fun id h => h2.built id (h1.built id h),
      fun id h => (h2.build id (h1.built id h)).trans (h1.build id h), fun id h => h2.tornDown id (h1.tornDown id h)⟩

/-- An operation with a frame fixes the configuration if it does not start from teardown. -/
theorem State.FrameBut.fixed {id : Nat} {s t : State} (h : State.FrameBut id s t)
    (hd : (s.inst id).fstate = .tornDown → (t.inst id).fstate = .tornDown) : s.Fixed t := by
  refine ⟨h.params, fun j hj => (h.constructed j).trans hj, fun j _ => h.build j, fun j hj => ?_⟩
  by_cases e : j = id
  · subst e; exact hd hj
  · exact (h.fstate j e).trans hj

/-- So does one whose frame holds for every instance. -/
theorem State.Fixed.of_frame {s t : State} (h : ∀ id, State.FrameBut id s t) : s.Fixed t :=
  (h 0).fixed fun hd => ((h 1).fstate 0 (by omega)).trans hd

theorem EnvSafe.fixed {s t : State} (h : EnvSafe s t) : s.Fixed t := .of_frame h.frameBut

theorem State.Fixed.of_insts {s t : State} (hp : t.params = s.params := by exact rfl)
    (hi : t.insts = s.insts := by exact rfl) : s.Fixed t := by
  have hinst : ∀ j, t.inst j = s.inst j := fun j => by simp only [State.inst, hi]
  have hbuilt : ∀ j, t.constructed j = s.constructed j := fun j => by simp only [State.constructed, hi]
  exact ⟨hp, fun j h => (hbuilt j).trans h, fun j _ => by rw [hinst], fun j h => by rw [hinst]; exact h⟩

theorem State.Fixed.modInst {id : Nat} {f : Inst → Inst} (s : State)
    (hb : ∀ x, (f x).build = x.build := by exact fun _ => rfl)
    (hf : ∀ x, (f x).fstate = x.fstate := by exact fun _ => rfl) : s.Fixed (s.modInst id f) :=
  ⟨rfl, fun j h => (constructed_modInst s id f j).trans h, fun j _ => modInst_project _ hb s id j,
    fun j h => (modInst_project (·.fstate) hf s id j).trans h⟩

/-- A new identifier. -/
theorem State.Fixed.putInst {id : Nat} {s : State} (h : s.constructed id = false) (x : Inst) :
    s.Fixed (s.putInst id x) := by
  have old : ∀ j, s.constructed j = true → (s.putInst id x).inst j = s.inst j := fun j hj => by
    rw [inst_putInst, if_neg (by rintro rfl; rw [h] at hj; cases hj)]
  refine ⟨rfl, fun j hj => by rw [constructed_putInst, hj, Bool.or_true], fun j hj => by rw [old j hj], fun j hj => ?_⟩
  by_cases hc : s.constructed j = true
  · rw [old j hc]; exact hj
  · rw [inst_blank (by simpa using hc)] at hj; cases hj

theorem tick_fixed : Along State.Fixed tick := fun s => (EnvSafe.tick s).fixed

theorem construct_fixed (id rxPin txPin : Nat) (invert : Bool) (bufCap edgeCap : Nat) :
    Along State.Fixed (construct id rxPin txPin invert bufCap edgeCap) := by
  intro s
  unfold construct
  split
  · exact .of_insts
  · next hc =>
    rw [runAll_cons]
    split
    · exact fixed_composes.refl s
    · refine fixed_composes.trans (tick_fixed s) ?_
      have hnew : (tick s).constructed id = false := by
        rw [(EnvSafe.tick s).env.constructed]; simpa using hc
      rw [runAll_cons]
      split
      · exact fixed_composes.refl _
      · exact fixed_composes.trans (.putInst hnew _) (fixed_composes.runAll (.cons (fun _ => .of_insts) .nil) _)

/-! ### Operations that hand the main line to host code -/

theorem rxbits_fixed (id : Nat) : Along State.Fixed (rxbits id) := fun s =>
  .of_frame fun k => rxbits_frameBut k id s

theorem writePinLevel_fixed (p : Nat) (v : Bool) : Along State.Fixed (writePinLevel p v) := fun s =>
  .of_frame fun k => writePinLevel_frameBut k p v s

theorem maskInterrupts_fixed : Along State.Fixed maskInterrupts := fun s =>
  fixed_composes.unlessStopped (tick_fixed s) .of_insts

theorem unmaskInterrupts_fixed : Along State.Fixed unmaskInterrupts := fun s =>
  have h0 : (tick s).Fixed { tick s with im := false } := .of_insts
  fixed_composes.unlessStopped (tick_fixed s)
    (fixed_composes.trans h0 ((EnvSafe.armAll { tick s with im := false }).trans (.settle _)).fixed)

theorem ret_fixed (id : Nat) (r : State → Result) : Along State.Fixed fun s => s.ret id (r s) := fun _ => .of_insts

section
variable {host : HostCode} (hh : ∀ tEnd, Along State.Fixed (host tEnd))
include hh

theorem cooperativeYield_fixed (us : Nat) : Along State.Fixed (cooperativeYield host us) := fun s =>
  fixed_composes.trans (EnvSafe.draws s _).fixed
    (fixed_composes.runAll (.cons (hh _) (.cons (fun t => (EnvSafe.advanceTo _ t).fixed) .nil)) _)

theorem availableRetry_fixed (id : Nat) : Along State.Fixed (availableRetry host id) :=
  fixed_composes.runAll (.cons (fun s => .modInst s) (.cons (fun t => cooperativeYield_fixed hh _ t)
    (.cons (fun s => .modInst s) (.cons (rxbits_fixed id) .nil))))

theorem available_fixed (id : Nat) : Along State.Fixed (available host id) := by
  intro s
  unfold available
  split
  · exact fixed_composes.runAll (.cons (rxbits_fixed id)
      (.cons (fun t => fixed_composes.whenever _ (availableRetry_fixed hh id) t)
        (.cons tick_fixed (.cons (ret_fixed id _) .nil)))) s
  · exact .of_insts

theorem callReceiver_fixed (id a1 : Nat) : Along State.Fixed (callReceiver host id a1) := by
  intro s
  unfold callReceiver
  split
  · next cb _ =>
    have h0 : s.Fixed { s with outputs := .callback s.tau id cb a1 :: s.outputs } := .of_insts
    exact fixed_composes.trans h0
      (fixed_composes.runAll (.cons (hh none) (.cons (fun t => (callbackReturns_safe t).fixed) .nil)) _)
  · exact fixed_composes.refl s

theorem pump_fixed (id : Nat) : Along State.Fixed (pump host id) := by
  intro s
  unfold pump
  split
  · exact fixed_composes.runAll (.cons (rxbits_fixed id) (.cons tick_fixed
      (.cons (fun t => fixed_composes.whenever _ (callReceiver_fixed hh id _) t) (.cons (ret_fixed id _) .nil)))) s
  · exact .of_insts

theorem yieldPortion_fixed (id micro : Nat) : Along State.Fixed (yieldPortion host id micro) :=
  fixed_composes.runAll (.cons (fun t => fixed_composes.whenever _ unmaskInterrupts_fixed t)
    (.cons (fun s => .modInst s) (.cons (cooperativeYield_fixed hh micro)
      (.cons (fun s => .modInst s) (.cons maskInterrupts_fixed .nil)))))

theorem waitBitCycles_fixed (id d : Nat) : Along State.Fixed (waitBitCycles host id d) := fun s =>
  fixed_composes.trans (tick_fixed s)
    (fixed_composes.runAll (.cons (fun t => fixed_composes.whenever _ (yieldPortion_fixed hh id _) t)
      (.cons (fun t => (spinUntil_safe d t).fixed) .nil)) _)

theorem sendSlot_fixed (id j i : Nat) (level : Bool) : Along State.Fixed (sendSlot host id j i level) := by
  intro s
  simp only [sendSlot]
  exact fixed_composes.trans (.modInst s) (fixed_composes.runAll
    (.cons (fun t => fixed_composes.whenever _ (fixed_composes.runAll (.cons (waitBitCycles_fixed hh id _)
      (.cons (writePinLevel_fixed _ _) (.cons (fun s => .modInst s) .nil)))) t)
      (.cons (fun s => .modInst s) .nil)) _)

theorem sendSlots_fixed (id : Nat) (slots : List (Nat × Nat × Bool)) : Along State.Fixed (sendSlots host id slots) := by
  induction slots with
  | nil => exact fixed_composes.refl
  | cons slot rest ih =>
    intro s
    rw [sendSlots]
    split
    · exact fixed_composes.refl s
    · exact fixed_composes.trans (sendSlot_fixed hh id _ _ _ s) (ih _)

omit hh in
theorem beginWaveform_fixed (id : Nat) : Along State.Fixed (beginWaveform id) := fun s =>
  fixed_composes.trans (.modInst s) (fixed_composes.unlessStopped (tick_fixed _) (.modInst _))

theorem transmit_fixed (id : Nat) (bytes : List Byte) : Along State.Fixed (transmit host id bytes) := by
  intro s
  simp only [transmit]
  exact fixed_composes.runAll
    (.cons (fun t => fixed_composes.whenever _ (rxbits_fixed id) t)
      (.cons (fun t => fixed_composes.whenever _ (writePinLevel_fixed _ true) t)
        (.cons (fun t => .modInst t) (.cons maskInterrupts_fixed
          (.cons (beginWaveform_fixed id) (.cons (sendSlots_fixed hh id _)
            (.cons (fun t => waitBitCycles_fixed hh id _ t)
              (.cons (fun t => fixed_composes.whenever _ unmaskInterrupts_fixed t)
                (.cons (fun t => fixed_composes.whenever _ (writePinLevel_fixed _ false) t)
                  (.cons (fun t => .modInst t) (.cons (ret_fixed id _) .nil))))))))))) s

theorem write_fixed (id : Nat) (bytes : List Byte) : Along State.Fixed (write host id bytes) := by
  intro s
  simp only [write]
  split_ifs
  iterate 4 exact .of_insts
  exact transmit_fixed hh id bytes s

/-- An accepted command does not start from teardown. -/
theorem hostSteps_fixed {i : Instr} {s : State} (ha : s.Accepts i.target) : s.Fixed (hostSteps host i s) := by
  by_cases hy : Instr.yields i = true
  · cases i with
    | available id => exact available_fixed hh id s
    | pump id => exact pump_fixed hh id s
    | write id bytes => exact write_fixed hh id bytes s
    | _ => cases hy
  · exact (hostSteps_frameBut host (by simpa using hy) s).fixed fun hd => absurd hd ha.alive

end

/-- A relation that every step respects as it fixes the configuration. -/
theorem fixed_closed : StepClosed State.Fixed where
  refl := fixed_composes.refl
  trans _ := fixed_composes.trans
  books _ _ _ _ _ _ _ := .of_insts
  env h := h.safe.fixed
  raise _ _ := .of_insts
  construct _ _ _ _ _ _ _ _ := construct_fixed ..
  steps hh _ _ ha := hostSteps_fixed hh ha

/-- Settles O18: no operation writes what CONSTRUCT fixed, and START and DESTRUCT, which alone write `fstate`, are not
accepted after teardown. -/
theorem configurationFixed : Obligations.ConfigurationFixed := by
  intro s t h
  have hst := fixed_closed.step h
  refine ⟨hst.params, fun id hid => ⟨hst.built id hid, ?_⟩⟩
  have hb := hst.build id hid
  simp only [Inst.build, Prod.mk.injEq] at hb
  obtain ⟨⟨hrx, htx, hinv, hone⟩, hbytes, hedges, hrv, htv⟩ := hb
  exact ⟨hrx, htx, hinv, hone, hbytes, hedges, hrv, htv, hst.tornDown id⟩

end Sys2Proof.Machine
end

section
/-! # What holds along an operation that may stop

`Leads E P f Q`: from a running state in which `P` holds, `f` ends running in a state in which `Q` holds, or stopped
in one in which `E` holds. A sequence of operations ends at the first stop (60_exceptions.md R283), so `E` is the same
all along it. -/

namespace Sys2Proof.Machine

/-- The Hoare triple of the paragraph above. -/
def Leads (E P : State → Prop) (f : State → State) (Q : State → Prop) : Prop :=
  ∀ s, s.fault = none → P s → ((f s).fault = none → Q (f s)) ∧ ((f s).fault ≠ none → E (f s))

/-- The operations of a sequence lead from `P` to `Q`, each from where the one before it ends. -/
inductive LeadsAll (E : State → Prop) : (State → Prop) → List (State → State) → (State → Prop) → Prop
  | nil {P : State → Prop} : LeadsAll E P [] P
  | cons {P Q R : State → Prop} {f : State → State} {fs : List (State → State)} (hf : Leads E P f Q)
      (hfs : LeadsAll E Q fs R) : LeadsAll E P (f :: fs) R

section
variable {E P Q R : State → Prop} {f g : State → State}

theorem Leads.of_running (h : ∀ s, s.fault = none → P s → (f s).fault = none ∧ Q (f s)) : Leads E P f Q :=
  fun s hf hp => ⟨fun _ => (h s hf hp).2, fun hs => absurd (h s hf hp).1 hs⟩

/-- Where every stop is allowed, only the runs that go on count. -/
theorem Leads.of_end (h : ∀ s, s.fault = none → P s → (f s).fault = none → Q (f s)) : Leads (fun _ => True) P f Q :=
  fun s hf hp => ⟨h s hf hp, fun _ => trivial⟩

theorem Leads.weaken {P' Q' : State → Prop} (h : Leads E P f Q) (hp : ∀ s, P' s → P s) (hq : ∀ s, Q s → Q' s) :
    Leads E P' f Q' := fun s hf h' => ⟨fun ht => hq _ ((h s hf (hp s h')).1 ht), (h s hf (hp s h')).2⟩

/-- Where `f` leads to `E` whether it stops or not, `E` holds. -/
theorem Leads.holds (h : Leads E P f E) {s : State} (hs : s.fault = none) (hp : P s) : E (f s) := by
  by_cases ht : (f s).fault = none
  · exact (h s hs hp).1 ht
  · exact (h s hs hp).2 ht

/-- `f`, then `g`, which does nothing where `f` has stopped. -/
theorem Leads.comp (hf : Leads E P f Q) (hg : Leads E Q g R) (hstop : ∀ t, t.stopped = true → g t = t) :
    Leads E P (fun s => g (f s)) R := by
  intro s hs hp
  obtain ⟨hq, he⟩ := hf s hs hp
  by_cases ht : (f s).fault = none
  · exact hg _ ht (hq ht)
  · simp only [hstop _ ((stopped_iff _).2 ht)]
    exact ⟨fun h => absurd h ht, he⟩

/-- `f`, then `g` unless `f` has stopped. -/
theorem Leads.then (hf : Leads E P f Q) (hg : Leads E Q g R) :
    Leads E P (fun s => if (f s).stopped then f s else g (f s)) R := by
  refine hf.comp (g := fun t => if t.stopped then t else g t) (fun t ht hq => ?_) fun t ht => if_pos ht
  simp only [(not_stopped_iff t).2 ht, Bool.false_eq_true, if_false]
  exact hg t ht hq

theorem Leads.runAll {fs : List (State → State)} (h : LeadsAll E P fs Q) : Leads E P (runAll fs) Q := by
  induction h with
  | nil => exact .of_running fun s hs hp => ⟨hs, hp⟩
  | @cons P Q R f fs hf _ ih =>
    intro s hs
    rw [runAll_cons_running f fs hs]
    exact hf.comp ih (fun _ => runAll_stopped fs) s hs

theorem Leads.whenever (c : Bool) (h : Leads E P f P) : Leads E P (whenever c f) P := by
  cases c
  · exact .of_running fun s hs hp => ⟨hs, hp⟩
  · exact h

end

end Sys2Proof.Machine
end

section
/-! # Between two commands no WRITE is in progress (10_state.md R40, R41, R43; 43_transmitter.md R218)

Between two commands an instance transmits only while it is in a yield (`State.Quiet`), and a command that ends
without a fault leaves the mask and what is in progress as it found it (`State.Rests`): WRITE and AVAILABLE undo what
they set. Host code that runs in their yield cannot touch their instance, because the entry check of re-entry refuses
it (60_exceptions.md R297), and by induction leaves the rest as it found it. -/

namespace Sys2Proof.Machine

/-- Only an instance in a yield transmits. -/
def State.Quiet (s : State) : Prop :=
  ∀ id, (s.inst id).inYield = false → (s.inst id).txBusy = false ∧ (s.inst id).seq = .idle

/-- The mask and what is in progress are the same in `s` and `t`, with the mask each WRITE in a yield has found. -/
structure State.Rests (s t : State) : Prop where
  im : t.im = s.im
  activity : ∀ id, (t.inst id).activity = (s.inst id).activity
  savedMask : ∀ id, (s.inst id).inYield = true → (t.inst id).savedMask = (s.inst id).savedMask

theorem inYield_of_activity {x y : Inst} (h : y.activity = x.activity) : y.inYield = x.inYield :=
  congrArg (fun a => a.2.1) h

theorem txBusy_of_activity {x y : Inst} (h : y.activity = x.activity) : y.txBusy = x.txBusy := congrArg Prod.fst h

theorem seq_of_activity {x y : Inst} (h : y.activity = x.activity) : y.seq = x.seq := congrArg (fun a => a.2.2) h

theorem State.Rests.trans {s t u : State} (h1 : s.Rests t) (h2 : t.Rests u) : s.Rests u :=
  ⟨h2.im.trans h1.im, fun id => (h2.activity id).trans (h1.activity id), fun id hy =>
    (h2.savedMask id ((inYield_of_activity (h1.activity id)).trans hy)).trans (h1.savedMask id hy)⟩

theorem State.Rests.quiet {s t : State} (h : s.Rests t) (hq : s.Quiet) : t.Quiet := by
  intro id hy
  rw [inYield_of_activity (h.activity id)] at hy
  rw [txBusy_of_activity (h.activity id), seq_of_activity (h.activity id)]
  exact hq id hy

theorem State.FrameBut.rests {id : Nat} {s t : State} (h : State.FrameBut id s t) : s.Rests t :=
  ⟨h.im, h.activity, fun j _ => h.savedMask j⟩

/-- What commands and host code do: the configuration stays, and if they end without a fault, so does what is in
progress. -/
def RestsUnlessStopped (s t : State) : Prop := s.Fixed t ∧ (s.Quiet → t.fault = none → s.Rests t)

/-! ### Inside a command -/

/-- Instance `id` may take a command, and only instances in a yield transmit. -/
structure State.Ready (id : Nat) (s : State) : Prop where
  quiet : s.Quiet
  built : s.constructed id = true
  outside : (s.inst id).inYield = false

/-- Inside a command on instance `id` that began in `s0`: `m` is the mask, `y` says whether the instance is in a yield,
`own` holds of it, and every other instance is as the command has found it. -/
structure State.Within (id : Nat) (s0 : State) (own : Inst → Prop) (m y : Bool) (s : State) : Prop where
  im : s.im = m
  built : s.constructed id = true
  inYield : (s.inst id).inYield = y
  own : own (s.inst id)
  activity : ∀ j, j ≠ id → (s.inst j).activity = (s0.inst j).activity
  savedMask : ∀ j, j ≠ id → (s0.inst j).inYield = true → (s.inst j).savedMask = (s0.inst j).savedMask

/-- No WRITE of the instance is in progress. -/
def Inst.AtRest (x : Inst) : Prop := x.txBusy = false ∧ x.seq = .idle

/-- WRITE has found the mask `m`. -/
def Inst.FoundMask (m : Bool) (x : Inst) : Prop := x.savedMask = m

/-- The property is one of what is in progress and of the mask found. -/
def OfActivity (own : Inst → Prop) : Prop :=
  ∀ x y : Inst, y.activity = x.activity → y.savedMask = x.savedMask → own x → own y

theorem atRest_ofActivity : OfActivity Inst.AtRest := fun _ _ ha _ h =>
  ⟨(txBusy_of_activity ha).trans h.1, (seq_of_activity ha).trans h.2⟩

theorem foundMask_ofActivity (m : Bool) : OfActivity (Inst.FoundMask m) := fun _ _ _ hm h => hm.trans h

section
variable {id : Nat} {s0 : State} {own : Inst → Prop} {m y : Bool}

/-- The command has not begun to transmit or yield, or has ended: all is as it was. -/
theorem within_atRest_iff (h0 : s0.Ready id) (s : State) :
    State.Within id s0 Inst.AtRest s0.im false s ↔ s0.Rests s ∧ s.constructed id = true := by
  have hq := h0.quiet id h0.outside
  constructor
  · intro h
    refine ⟨⟨h.im, fun j => ?_, fun j hj => ?_⟩, h.built⟩
    · by_cases e : j = id
      · subst e
        simp only [Inst.activity, h.inYield, h.own.1, h.own.2, h0.outside, hq.1, hq.2]
      · exact h.activity j e
    · exact h.savedMask j (by rintro rfl; rw [h0.outside] at hj; cases hj) hj
  · rintro ⟨h, hb⟩
    exact ⟨h.im, hb, (inYield_of_activity (h.activity id)).trans h0.outside,
      ⟨(txBusy_of_activity (h.activity id)).trans hq.1, (seq_of_activity (h.activity id)).trans hq.2⟩,
      fun j _ => h.activity j, fun j _ hj => h.savedMask j hj⟩

theorem State.Within.frame (ho : OfActivity own) {k : Nat} {s t : State} (h : State.Within id s0 own m y s)
    (hf : State.FrameBut k s t) : State.Within id s0 own m y t :=
  ⟨hf.im.trans h.im, (hf.constructed id).trans h.built, (inYield_of_activity (hf.activity id)).trans h.inYield,
    ho _ _ (hf.activity id) (hf.savedMask id) h.own, fun j hj => (hf.activity j).trans (h.activity j hj),
    fun j hj hy => (hf.savedMask j).trans (h.savedMask j hj hy)⟩

/-- A write of the command's own instance. -/
theorem State.Within.modInst {own' : Inst → Prop} {y' : Bool} {f : Inst → Inst} {s : State}
    (h : State.Within id s0 own m y s) (ho : own' (f (s.inst id))) (hy : (f (s.inst id)).inYield = y') :
    State.Within id s0 own' m y' (s.modInst id f) := by
  have hid := inst_modInst_same s id f h.built
  refine ⟨h.im, (constructed_modInst s id f id).trans h.built, hid ▸ hy, hid ▸ ho, fun j hj => ?_, fun j hj => ?_⟩
  · rw [inst_modInst_other s f hj]; exact h.activity j hj
  · rw [inst_modInst_other s f hj]; exact h.savedMask j hj

theorem State.Within.setIm {m' : Bool} {s : State} (h : State.Within id s0 own m y s) :
    State.Within id s0 own m' y { s with im := m' } := ⟨rfl, h.built, h.inYield, h.own, h.activity, h.savedMask⟩

/-- The part of the calculus above in which a stop is always allowed. -/
abbrev Ends (P : State → Prop) (f : State → State) (Q : State → Prop) : Prop := Leads (fun _ => True) P f Q

theorem ends_of_frame (ho : OfActivity own) {k : Nat} {f : State → State} (hf : Along (State.FrameBut k) f) :
    Ends (State.Within id s0 own m y) f (State.Within id s0 own m y) :=
  .of_end fun s _ h _ => h.frame ho (hf s)

theorem ends_of_env (ho : OfActivity own) {f : State → State} (hf : Along EnvMove f) :
    Ends (State.Within id s0 own m y) f (State.Within id s0 own m y) :=
  ends_of_frame ho fun s => (hf s).safe.frameBut id

theorem modInst_ends {own' : Inst → Prop} {y' : Bool} {f : Inst → Inst} (ho : ∀ x, own x → own' (f x))
    (hy : ∀ x, x.inYield = y → (f x).inYield = y') :
    Ends (State.Within id s0 own m y) (State.modInst id f) (State.Within id s0 own' m y') :=
  .of_end fun _ _ h _ => h.modInst (ho _ h.own) (hy _ h.inYield)

theorem maskInterrupts_ends (ho : OfActivity own) :
    Ends (State.Within id s0 own m y) maskInterrupts (State.Within id s0 own true y) :=
  (ends_of_env ho EnvMove.tick).then (.of_end fun _ _ h _ => h.setIm)

theorem unmaskInterrupts_ends (ho : OfActivity own) :
    Ends (State.Within id s0 own m y) unmaskInterrupts (State.Within id s0 own false y) := by
  refine (ends_of_env ho EnvMove.tick).then (g := fun t => settle (armAll { t with im := false })) ?_
  exact .of_end fun t _ h _ =>
    h.setIm.frame ho ((envMove_composes.trans (.armAll { t with im := false }) (.settle _)).safe.frameBut id)

/-- `if s.savedMask = 0 then unmaskInterrupts()` brings back the mask that WRITE has found (43_transmitter.md R218). -/
theorem unmaskUnlessFound_ends :
    Ends (State.Within id s0 (Inst.FoundMask s0.im) true y)
      (fun t => whenever (!(t.inst id).savedMask) unmaskInterrupts t)
      (State.Within id s0 (Inst.FoundMask s0.im) s0.im y) := by
  intro s hs h
  have hm : (s.inst id).savedMask = s0.im := h.own
  cases hi : s0.im <;> rw [hi] at hm h <;> simp only [hm, Bool.not_false, Bool.not_true, whenever_true, whenever_false]
  · exact unmaskInterrupts_ends (foundMask_ofActivity _) s hs h
  · exact ⟨fun _ => h, fun _ => trivial⟩

end

/-! ### The slots of a waveform -/

theorem sendSlots_stopped (host : HostCode) (id : Nat) (slots : List (Nat × Nat × Bool)) {s : State}
    (h : s.stopped = true) : sendSlots host id slots s = s := by
  cases slots with
  | nil => rfl
  | cons slot rest => rw [sendSlots, if_pos h]

theorem sendSlots_cons_running (host : HostCode) (id j i : Nat) (level : Bool) (rest : List (Nat × Nat × Bool))
    {s : State} (h : s.fault = none) :
    sendSlots host id ((j, i, level) :: rest) s = sendSlots host id rest (sendSlot host id j i level s) := by
  rw [sendSlots, (not_stopped_iff s).2 h]
  exact if_neg Bool.false_ne_true

/-! ### The commands that run host code -/

section
variable {host : HostCode} (hh : ∀ tEnd, Along RestsUnlessStopped (host tEnd)) {id : Nat} {s0 : State}
  (h0 : s0.Ready id)
include hh h0

/-- In a yield host code cannot reach the instance that yields. -/
theorem host_ends {own : Inst → Prop} {m : Bool} (ho : OfActivity own) (tEnd : Option Nat) :
    Ends (State.Within id s0 own m true) (host tEnd) (State.Within id s0 own m true) := by
  refine .of_end fun s hs h ht => ?_
  have hq : s.Quiet := by
    intro j hj
    have hne : j ≠ id := by rintro rfl; rw [h.inYield] at hj; cases hj
    have ha := h.activity j hne
    rw [inYield_of_activity ha] at hj
    rw [txBusy_of_activity ha, seq_of_activity ha]
    exact h0.quiet j hj
  obtain ⟨hfix, hrest⟩ := hh tEnd s
  have hr := hrest hq ht
  refine ⟨hr.im.trans h.im, hfix.built id h.built, (inYield_of_activity (hr.activity id)).trans h.inYield,
    ho _ _ (hr.activity id) (hr.savedMask id h.inYield) h.own, fun j hj => (hr.activity j).trans (h.activity j hj),
    fun j hj hy => ?_⟩
  exact (hr.savedMask j ((inYield_of_activity (h.activity j hj)).trans hy)).trans (h.savedMask j hj hy)

theorem cooperativeYield_ends {own : Inst → Prop} {m : Bool} (ho : OfActivity own) (us : Nat) :
    Ends (State.Within id s0 own m true) (cooperativeYield host us) (State.Within id s0 own m true) := fun s hs h =>
  Leads.runAll (.cons (host_ends hh h0 ho _) (.cons (ends_of_env ho (EnvMove.advanceTo _)) .nil)) _ hs
    (h.frame ho ((EnvSafe.draws s _).frameBut id))

/-- A yield between the two writes of `inYield` (10_state.md R41). -/
theorem yield_ends {own : Inst → Prop} {m : Bool} (ho : OfActivity own)
    (hy : ∀ (x : Inst) b, own x → own { x with inYield := b }) {fs : List (State → State)} {us : State → Nat}
    {Q : State → Prop} (hfs : LeadsAll (fun _ => True) (State.Within id s0 own m false) fs Q) :
    LeadsAll (fun _ => True) (State.Within id s0 own m false)
      ((State.modInst id fun y => { y with inYield := true }) :: (fun t => cooperativeYield host (us t) t) ::
        (State.modInst id fun y => { y with inYield := false }) :: fs) Q :=
  .cons (modInst_ends (fun x => hy x true) fun _ _ => rfl)
    (.cons (fun t => cooperativeYield_ends hh h0 ho (us t) t)
      (.cons (modInst_ends (fun x => hy x false) fun _ _ => rfl) hfs))

theorem availableRetry_ends :
    Ends (State.Within id s0 Inst.AtRest s0.im false) (availableRetry host id)
      (State.Within id s0 Inst.AtRest s0.im false) :=
  .runAll (yield_ends hh h0 atRest_ofActivity (fun _ _ h => h)
    (.cons (ends_of_frame atRest_ofActivity (rxbits_frameBut id id)) .nil))

theorem available_ends :
    Ends (State.Within id s0 Inst.AtRest s0.im false) (available host id)
      (State.Within id s0 Inst.AtRest s0.im false) := by
  have ho := atRest_ofActivity
  intro s hs h
  unfold available
  split
  · exact Leads.runAll (.cons (ends_of_frame ho (rxbits_frameBut id id))
      (.cons (fun t => Leads.whenever _ (availableRetry_ends hh h0) t)
        (.cons (ends_of_env ho EnvMove.tick)
          (.cons (ends_of_frame (k := id) ho fun t => ret_frameBut id id _ t) .nil)))) s hs h
  · exact ends_of_frame ho (ret_frameBut id id _) s hs h

/-- Host code in a receive callback may reach the instance of the PUMP too, which has nothing in progress. -/
theorem callReceiver_ends (a1 : Nat) :
    Ends (State.Within id s0 Inst.AtRest s0.im false) (callReceiver host id a1)
      (State.Within id s0 Inst.AtRest s0.im false) := by
  have called : Ends (State.Within id s0 Inst.AtRest s0.im false) (host none)
      (State.Within id s0 Inst.AtRest s0.im false) := by
    refine .of_end fun s _ h ht => ?_
    rw [within_atRest_iff h0] at h ⊢
    obtain ⟨hfix, hrest⟩ := hh none s
    exact ⟨h.1.trans (hrest (h.1.quiet h0.quiet) ht), hfix.built id h.2⟩
  intro s hs h
  unfold callReceiver
  split
  · exact Leads.runAll (.cons called (.cons (ends_of_env atRest_ofActivity EnvMove.callbackReturns) .nil)) _ hs
      (h.frame (k := id) atRest_ofActivity .of_insts)
  · exact ⟨fun _ => h, fun _ => trivial⟩

theorem pump_ends :
    Ends (State.Within id s0 Inst.AtRest s0.im false) (pump host id) (State.Within id s0 Inst.AtRest s0.im false) := by
  have ho := atRest_ofActivity
  intro s hs h
  unfold pump
  split
  · exact Leads.runAll (.cons (ends_of_frame ho (rxbits_frameBut id id)) (.cons (ends_of_env ho EnvMove.tick)
      (.cons (fun t => Leads.whenever _ (callReceiver_ends hh h0 _) t)
        (.cons (ends_of_frame ho (ret_frameBut id id _)) .nil)))) s hs h
  · exact ends_of_frame ho (ret_frameBut id id _) s hs h

/-- A yield portion ends with interrupts masked, as it begins (43_transmitter.md R221). -/
theorem yieldPortion_ends (micro : Nat) :
    Ends (State.Within id s0 (Inst.FoundMask s0.im) true false) (yieldPortion host id micro)
      (State.Within id s0 (Inst.FoundMask s0.im) true false) :=
  .runAll (.cons unmaskUnlessFound_ends
    (yield_ends hh h0 (foundMask_ofActivity _) (fun _ _ h => h)
      (.cons (maskInterrupts_ends (foundMask_ofActivity _)) .nil)))

theorem waitBitCycles_ends (d : Nat) :
    Ends (State.Within id s0 (Inst.FoundMask s0.im) true false) (waitBitCycles host id d)
      (State.Within id s0 (Inst.FoundMask s0.im) true false) := by
  have ho := foundMask_ofActivity s0.im
  exact (ends_of_env ho EnvMove.tick).comp
    (g := fun t => runAll [whenever (decide (0 < (cyclesTo d t).toNat / cyclesPerMicro t.params))
      (yieldPortion host id ((cyclesTo d t).toNat / cyclesPerMicro t.params)), spinUntil d] t)
    (fun t => Leads.runAll (.cons (Leads.whenever _ (yieldPortion_ends hh h0 _))
      (.cons (ends_of_env ho (EnvMove.spinUntil d)) .nil)) t) fun _ => runAll_stopped _

theorem sendSlot_ends (j i : Nat) (level : Bool) :
    Ends (State.Within id s0 (Inst.FoundMask s0.im) true false) (sendSlot host id j i level)
      (State.Within id s0 (Inst.FoundMask s0.im) true false) := by
  have ho := foundMask_ofActivity s0.im
  intro s hs h
  simp only [sendSlot]
  refine Leads.runAll (.cons (Leads.whenever _ (.runAll (.cons (waitBitCycles_ends hh h0 _)
      (.cons (ends_of_frame ho (writePinLevel_frameBut id _ _))
        (.cons (ends_of_frame (k := id) ho fun t => .modInst t) .nil)))))
    (.cons (ends_of_frame (k := id) ho fun t => .modInst t) .nil)) _ hs ?_
  exact h.modInst h.own h.inYield

theorem sendSlots_ends (slots : List (Nat × Nat × Bool)) :
    Ends (State.Within id s0 (Inst.FoundMask s0.im) true false) (sendSlots host id slots)
      (State.Within id s0 (Inst.FoundMask s0.im) true false) := by
  induction slots with
  | nil => exact .of_running fun s hs h => ⟨hs, h⟩
  | cons slot rest ih =>
    obtain ⟨j, i, level⟩ := slot
    intro s hs h
    rw [sendSlots_cons_running host id j i level rest hs]
    exact (sendSlot_ends hh h0 j i level).comp ih (fun _ => sendSlots_stopped host id rest) s hs h

omit hh h0 in
theorem beginWaveform_ends :
    Ends (State.Within id s0 (Inst.FoundMask s0.im) true false) (beginWaveform id)
      (State.Within id s0 (Inst.FoundMask s0.im) true false) := by
  have ho := foundMask_ofActivity s0.im
  intro s hs h
  refine (ends_of_env ho EnvMove.tick).then (g := fun t => t.modInst id fun y => { y with deadline := t.counter })
    (ends_of_frame (k := id) ho fun t => .modInst t) _ hs ?_
  exact h.modInst h.own h.inYield

theorem transmit_ends (bytes : List Byte) :
    Ends (State.Within id s0 Inst.AtRest s0.im false) (transmit host id bytes)
      (State.Within id s0 Inst.AtRest s0.im false) := by
  have hr := atRest_ofActivity
  have hm := foundMask_ofActivity s0.im
  have saved : Ends (State.Within id s0 Inst.AtRest s0.im false)
      (fun t => t.modInst id fun y => { y with savedMask := t.im })
      (State.Within id s0 (Inst.FoundMask s0.im) s0.im false) :=
    .of_end fun t _ h _ => h.modInst h.im h.inYield
  have ended : Ends (State.Within id s0 (Inst.FoundMask s0.im) s0.im false)
      (State.modInst id fun y => { y with txBusy := false, seq := .idle })
      (State.Within id s0 Inst.AtRest s0.im false) :=
    modInst_ends (fun _ _ => ⟨rfl, rfl⟩) fun _ hy => hy
  intro s hs h
  simp only [transmit]
  exact Leads.runAll
    (.cons (Leads.whenever _ (ends_of_frame hr (rxbits_frameBut id id)))
      (.cons (Leads.whenever _ (ends_of_frame hr (writePinLevel_frameBut id _ true)))
        (.cons saved (.cons (maskInterrupts_ends hm) (.cons beginWaveform_ends (.cons (sendSlots_ends hh h0 _)
          (.cons (fun t => waitBitCycles_ends hh h0 _ t) (.cons unmaskUnlessFound_ends
            (.cons (Leads.whenever _ (ends_of_frame hm (writePinLevel_frameBut id _ false)))
              (.cons ended (.cons (ends_of_frame hr (ret_frameBut id id _)) .nil))))))))))) s hs h

theorem write_ends (bytes : List Byte) :
    Ends (State.Within id s0 Inst.AtRest s0.im false) (write host id bytes)
      (State.Within id s0 Inst.AtRest s0.im false) := by
  have returned (n : Nat) := ends_of_frame (id := id) (s0 := s0) (m := s0.im) (y := false) atRest_ofActivity
    (ret_frameBut id id (.natural n))
  have raised (c : FaultCode) := ends_of_frame (id := id) (s0 := s0) (m := s0.im) (y := false) atRest_ofActivity
    (raise_frameBut id c)
  intro s hs h
  simp only [write]
  split_ifs
  · exact returned 0 s hs h
  · exact raised _ s hs h
  · exact raised _ s hs h
  · exact returned 0 s hs h
  · exact transmit_ends hh h0 bytes s hs h

end

/-! ### Every command, and the step -/

theorem construct_rests (id rxPin txPin : Nat) (invert : Bool) (bufCap edgeCap : Nat) (s : State)
    (ht : (construct id rxPin txPin invert bufCap edgeCap s).fault = none) :
    s.Rests (construct id rxPin txPin invert bufCap edgeCap s) := by
  have created : Ends (fun t => s.Rests t ∧ t.constructed id = false)
      (fun t => t.putInst id (freshInst t.params rxPin txPin invert bufCap edgeCap)) s.Rests := by
    refine .of_end fun t _ h _ => ⟨h.1.im, fun j => ?_, fun j hj => ?_⟩ <;> rw [inst_putInst] <;> split
    · next e => subst e; rw [← h.1.activity j, inst_blank h.2]; rfl
    · exact h.1.activity j
    · next e =>
      subst e
      rw [← inYield_of_activity (h.1.activity j), inst_blank h.2] at hj
      cases hj
    · exact h.1.savedMask j hj
  unfold construct at ht ⊢
  split at ht
  · cases ht
  · next hc =>
    rw [if_neg hc]
    have hc : s.constructed id = false := by simpa using hc
    have hs : s.fault = none := by
      by_contra hs
      exact hs (by rwa [runAll_stopped _ ((stopped_iff s).2 hs)] at ht)
    refine (Leads.runAll (P := fun t => s.Rests t ∧ t.constructed id = false) (.cons ?_ (.cons created
      (.cons (.of_end fun t _ h _ => h.trans (ret_frameBut id id _ t).rests) .nil))) s hs
      ⟨((frameBut_composes id).refl s).rests, hc⟩).1 ht
    exact .of_end fun t _ h _ =>
      ⟨h.1.trans (tick_frameBut id t).rests, ((tick_frameBut id t).constructed id).trans h.2⟩

theorem hostSteps_rests {host : HostCode} (hh : ∀ tEnd, Along RestsUnlessStopped (host tEnd)) {i : Instr} {s : State}
    (ha : s.Accepts i.target) (hq : s.Quiet) (ht : (hostSteps host i s).fault = none) :
    s.Rests (hostSteps host i s) := by
  by_cases hy : Instr.yields i = true
  · have h0 : s.Ready i.target := ⟨hq, ha.built, ha.outside⟩
    have done {f : State → State}
        (hf : Ends (State.Within i.target s Inst.AtRest s.im false) f (State.Within i.target s Inst.AtRest s.im false))
        (ht : (f s).fault = none) : s.Rests (f s) := by
      have hs := (within_atRest_iff h0 s).2 ⟨((frameBut_composes 0).refl s).rests, ha.built⟩
      exact ((within_atRest_iff h0 _).1 ((hf s ha.running hs).1 ht)).1
    cases i with
    | available id => exact done (available_ends hh h0) ht
    | pump id => exact done (pump_ends hh h0) ht
    | write id bytes => exact done (write_ends hh h0 bytes) ht
    | _ => cases hy
  · exact (hostSteps_frameBut host (by simpa using hy) s).rests

theorem restsUnlessStopped_closed : StepClosed RestsUnlessStopped where
  refl s := ⟨fixed_composes.refl s, fun _ _ => ((frameBut_composes 0).refl s).rests⟩
  trans hf h1 h2 := ⟨fixed_composes.trans h1.1 h2.1, fun hq ht =>
    have hr := h1.2 hq hf
    hr.trans (h2.2 (hr.quiet hq) ht)⟩
  books s _ _ _ _ _ _ := ⟨.of_insts, fun _ _ => (State.FrameBut.of_insts (id := 0)).rests⟩
  env h := ⟨h.safe.fixed, fun _ _ => (h.safe.frameBut 0).rests⟩
  raise s _ := ⟨.of_insts, fun _ ht => by cases ht⟩
  construct s id rx tx inv nb ne _ := ⟨construct_fixed .., fun _ ht => construct_rests id rx tx inv nb ne s ht⟩
  steps hh _ _ ha := ⟨hostSteps_fixed (fun tEnd s => (hh tEnd s).1) ha, fun hq ht => hostSteps_rests hh ha hq ht⟩

/-- Settles O16: a step that ends without a fault leaves the mask and what is in progress as it was. -/
theorem stepLeavesNothingInProgress : Obligations.StepLeavesNothingInProgress := by
  intro s t _ hb hst ht
  obtain ⟨him, hidle⟩ := hb (running_of_step hst)
  have hq : s.Quiet := fun id _ => ⟨(hidle id).1, (hidle id).2.2⟩
  have hr := (restsUnlessStopped_closed.step hst).2 hq ht
  refine ⟨hr.im.trans him, fun id => ?_⟩
  obtain ⟨hbusy, hyield, hseq⟩ := hidle id
  exact ⟨(txBusy_of_activity (hr.activity id)).trans hbusy, (inYield_of_activity (hr.activity id)).trans hyield,
    (seq_of_activity (hr.activity id)).trans hseq⟩

end Sys2Proof.Machine
end

section
/-! # The invariant inside a command

Between two micro-steps of a command the invariant holds but for what the command is about to write: `State.Mid` is
`State.Inv` with a property `L` in place of the pin registry and a property `A` in place of what it says of the
command's own instance. HAL calls, the decoder and the environment carry both along, since they write neither the
registry nor the registers these speak of (`Carries`). -/

namespace Sys2Proof.Machine

/-! ### What HAL calls, the decoder and the environment leave alone -/

/-- The registers of an instance that only its own commands and the eviction from its pin write. -/
structure Inst.SameRole (x y : Inst) : Prop where
  fstate : y.fstate = x.fstate
  rxPin : y.rxPin = x.rxPin
  rxValid : y.rxValid = x.rxValid
  rxEnabled : y.rxEnabled = x.rxEnabled
  bitPeriod : y.bitPeriod = x.bitPeriod
  txBusy : y.txBusy = x.txBusy
  seq : y.seq = x.seq

/-- What the pin registry relates is the same in `s` and `t`. -/
structure State.SameLinks (s t : State) : Prop where
  reg : t.reg = s.reg
  attached : t.attached = s.attached
  built : ∀ id, t.constructed id = s.constructed id
  rxPin : ∀ id, (t.inst id).rxPin = (s.inst id).rxPin
  rxEnabled : ∀ id, (t.inst id).rxEnabled = (s.inst id).rxEnabled

/-- From `s` to `t` registry and registers are the same, and a sound, running state ends in one. -/
structure Carries (s t : State) : Prop where
  params : t.params = s.params
  links : s.SameLinks t
  role : ∀ id, (s.inst id).SameRole (t.inst id)
  pending : PendingKept s t
  sound : s.Core → s.fault = none → t.Core ∧ t.fault = none

theorem Inst.SameRole.refl (x : Inst) : x.SameRole x := ⟨rfl, rfl, rfl, rfl, rfl, rfl, rfl⟩

theorem carries_composes : Composes Carries where
  refl s := ⟨rfl, ⟨rfl, rfl, fun _ => rfl, fun _ => rfl, fun _ => rfl⟩, fun _ => .refl _, pendingKept_composes.refl s,
    fun hc hf => ⟨hc, hf⟩⟩
  trans h1 h2 := by
    refine ⟨h2.params.trans h1.params, ⟨h2.links.reg.trans h1.links.reg, h2.links.attached.trans h1.links.attached,
      fun id => (h2.links.built id).trans (h1.links.built id), fun id => (h2.links.rxPin id).trans (h1.links.rxPin id),
      fun id => (h2.links.rxEnabled id).trans (h1.links.rxEnabled id)⟩, fun id => ?_,
      pendingKept_composes.trans h1.pending h2.pending,
      fun hc hf => h2.sound (h1.sound hc hf).1 (h1.sound hc hf).2⟩
    obtain ⟨a1, a2, a3, a4, a5, a6, a7⟩ := h1.role id
    obtain ⟨b1, b2, b3, b4, b5, b6, b7⟩ := h2.role id
    exact ⟨b1.trans a1, b2.trans a2, b3.trans a3, b4.trans a4, b5.trans a5, b6.trans a6, b7.trans a7⟩

/-- An update of pins, mask, outputs and the like. -/
theorem Carries.of_insts {s t : State} (hs : s.Core → s.fault = none → t.Core ∧ t.fault = none)
    (hp : t.params = s.params := by exact rfl) (hi : t.insts = s.insts := by exact rfl)
    (hq : t.pending = s.pending := by exact rfl) (hr : t.reg = s.reg := by exact rfl)
    (ha : t.attached = s.attached := by exact rfl) : Carries s t := by
  have hinst : ∀ j, t.inst j = s.inst j := fun j => by simp only [State.inst, hi]
  exact ⟨hp, ⟨hr, ha, fun j => by simp only [State.constructed, hi], fun j => by rw [hinst], fun j => by rw [hinst]⟩,
    fun j => by rw [hinst]; exact .refl _, .of_eq hp hq ha, hs⟩

theorem State.DecodeTo.sameRole {k : Nat} {s t : State} (h : State.DecodeTo k s t) (j : Nat) :
    (s.inst j).SameRole (t.inst j) :=
  ⟨h.project (·.fstate) (j := j), h.project (·.rxPin) (j := j), h.project (·.rxValid) (j := j),
    h.project (·.rxEnabled) (j := j), h.project (·.bitPeriod) (j := j), h.project (·.txBusy) (j := j),
    h.project (·.seq) (j := j)⟩

theorem Decodes.carries {k : Nat} {s t : State} (h : Decodes k s t)
    (hs : s.Core → s.fault = none → t.Core ∧ t.fault = none) : Carries s t :=
  ⟨h.frame.params, ⟨h.frame.reg, h.frame.attached, h.frame.constructed, fun j => (h.frame.sameRole j).rxPin,
    fun j => (h.frame.sameRole j).rxEnabled⟩, h.frame.sameRole, h.pending, hs⟩

theorem EnvMove.carries {s t : State} (h : EnvMove s t) : Carries s t :=
  Decodes.carries (k := 0) ⟨h.safe.env.decodeTo 0, h.pending⟩ h.safe.safe

theorem rxbits_carries {id : Nat} {s : State} (hb : s.constructed id = true) : Carries s (rxbits id s) :=
  (rxbits_decodes id s).carries fun hc hf => ⟨(rxbits_safe hc hf hb).sound, (rxbits_safe hc hf hb).running⟩

theorem tick_carries : Along Carries tick := fun s => (EnvMove.tick s).carries

theorem pinWritten_carries (p : Nat) (v : Bool) (s : State) : Carries s (pinWritten p v s) :=
  .of_insts fun hc hf => ⟨pinWritten_core hc, hf⟩

theorem modeWritten_carries (p : Nat) (m : PinMode) (s : State) : Carries s (modeWritten p m s) :=
  .of_insts fun hc hf => ⟨modeWritten_core hc, hf⟩

theorem setIm_carries (m : Bool) (s : State) : Carries s { s with im := m } :=
  .of_insts fun hc hf => ⟨hc.congr rfl rfl rfl rfl rfl rfl rfl, hf⟩

theorem ret_carries (id : Nat) (r : Result) (s : State) : Carries s (s.ret id r) :=
  .of_insts fun hc hf => ⟨hc.congr rfl rfl rfl rfl rfl rfl rfl, hf⟩

theorem writePinLevel_carries (p : Nat) (v : Bool) : Along Carries (writePinLevel p v) := fun s =>
  carries_composes.unlessStopped (tick_carries s)
    (carries_composes.trans (pinWritten_carries p v _) (EnvMove.afterHal (tick s) (pinWritten p v (tick s))).carries)

theorem setPinMode_carries (p : Nat) (m : PinMode) : Along Carries (setPinMode p m) := fun s =>
  carries_composes.unlessStopped (tick_carries s)
    (carries_composes.trans (modeWritten_carries p m _) (EnvMove.afterHal (tick s) (modeWritten p m (tick s))).carries)

theorem maskInterrupts_carries : Along Carries maskInterrupts := fun s =>
  carries_composes.unlessStopped (tick_carries s) (setIm_carries true _)

theorem unmaskInterrupts_carries : Along Carries unmaskInterrupts := fun s =>
  carries_composes.unlessStopped (tick_carries s) (carries_composes.trans (setIm_carries false _)
    (envMove_composes.trans (.armAll { tick s with im := false }) (.settle _)).carries)

theorem drivePin_carries (p : Nat) (v : Bool) (m : PinMode) :
    Along Carries (runAll [writePinLevel p v, setPinMode p m]) :=
  carries_composes.runAll (.cons (writePinLevel_carries p v) (.cons (setPinMode_carries p m) .nil))

/-! ### The pin registry, and the registry around one pin -/

/-- The clauses of `State.Registry` about owners. -/
structure State.Linked (s : State) : Prop where
  owner : ∀ q j, cellGet s.reg q = some j →
    s.constructed j = true ∧ (s.inst j).rxPin = q ∧ (s.inst j).rxEnabled = true
  owned : ∀ j, s.constructed j = true → (s.inst j).rxEnabled = true → cellGet s.reg (s.inst j).rxPin = some j
  attached : ∀ q, q ∈ s.attached ↔ (cellGet s.reg q).isSome = true

theorem registry_iff (s : State) : s.Registry ↔ s.Linked ∧ s.PendingSound :=
  ⟨fun h => ⟨⟨h.owner, h.owned, h.attached⟩, ⟨h.pending, h.coalesced⟩⟩,
    fun h => ⟨h.1.owner, h.1.owned, h.1.attached, h.2.attached, h.2.coalesced⟩⟩

/-- Pin `p` is free for instance `id`: no other instance is enabled on it. The registry holds of every other pin, and of
every other instance. -/
structure State.Vacant (p id : Nat) (s : State) : Prop where
  owner : ∀ q j, q ≠ p → cellGet s.reg q = some j →
    s.constructed j = true ∧ (s.inst j).rxPin = q ∧ (s.inst j).rxEnabled = true
  owned : ∀ j, j ≠ id → s.constructed j = true → (s.inst j).rxEnabled = true →
    (s.inst j).rxPin ≠ p ∧ cellGet s.reg (s.inst j).rxPin = some j
  attached : ∀ q, q ≠ p → (q ∈ s.attached ↔ (cellGet s.reg q).isSome = true)

/-- The property is one of the registry and of what it relates. -/
def OfLinks (L : State → Prop) : Prop := ∀ s t : State, s.SameLinks t → L s → L t

/-- The property is one of the registers of `Inst.SameRole`. -/
def OfRole (A : Inst → Prop) : Prop := ∀ x y : Inst, x.SameRole y → A x → A y

theorem linked_ofLinks : OfLinks State.Linked := by
  intro s t e h
  constructor
  · intro q j hq
    rw [e.built, e.rxPin, e.rxEnabled]
    exact h.owner q j (e.reg ▸ hq)
  · intro j
    rw [e.built, e.rxPin, e.rxEnabled, e.reg]
    exact h.owned j
  · intro q
    rw [e.attached, e.reg]
    exact h.attached q

theorem vacant_ofLinks (p id : Nat) : OfLinks (State.Vacant p id) := by
  intro s t e h
  constructor
  · intro q j hp hq
    rw [e.built, e.rxPin, e.rxEnabled]
    exact h.owner q j hp (e.reg ▸ hq)
  · intro j
    rw [e.built, e.rxPin, e.rxEnabled, e.reg]
    exact h.owned j
  · intro q
    rw [e.attached, e.reg]
    exact h.attached q

/-- The registry entry of a pin. -/
def State.OwnedBy (p : Nat) (o : Option Nat) (s : State) : Prop := cellGet s.reg p = o

theorem OfLinks.and_ownedBy {L : State → Prop} (h : OfLinks L) (p : Nat) (o : Option Nat) :
    OfLinks fun s => L s ∧ s.OwnedBy p o := fun s t e hs => ⟨h s t e hs.1, (congrArg (cellGet · p) e.reg).trans hs.2⟩

/-- A pin that instance `id` or no instance owns is free for it. -/
theorem State.Linked.vacant {s : State} (h : s.Linked) {p id : Nat}
    (hp : ∀ j, cellGet s.reg p = some j → j = id) : s.Vacant p id where
  owner q j _ := h.owner q j
  owned j hj hb he := by
    have ho := h.owned j hb he
    exact ⟨fun e => hj (hp j (e ▸ ho)), ho⟩
  attached q _ := h.attached q

/-- Disabling the owner of a pin frees it (44_port_facade.md R253). -/
theorem State.Linked.vacant_of_evicted {s : State} (h : s.Linked) {p other : Nat}
    (hp : s.OwnedBy p (some other)) (id : Nat) :
    (s.modInst other fun y => { y with rxEnabled := false }).Vacant p id := by
  obtain ⟨hb, hpin, -⟩ := h.owner p other hp
  have same : ∀ j, j ≠ other → (s.modInst other fun y => { y with rxEnabled := false }).inst j = s.inst j :=
    fun j hj => inst_modInst_other s _ hj
  constructor
  · intro q j hq hj
    obtain ⟨hb', hpin', he⟩ := h.owner q j hj
    have hne : j ≠ other := by rintro rfl; exact hq (hpin'.symm.trans hpin)
    rw [same j hne, constructed_modInst]
    exact ⟨hb', hpin', he⟩
  · intro j _ hb' he
    have hne : j ≠ other := by
      rintro rfl
      rw [inst_modInst_same s j _ hb] at he
      cases he
    rw [same j hne] at he ⊢
    rw [constructed_modInst] at hb'
    have ho := h.owned j hb' he
    refine ⟨fun e => hne ?_, ho⟩
    rw [e, hp] at ho
    exact (Option.some.inj ho).symm
  · exact fun q _ => h.attached q

/-! What is written of the pin itself leaves it free. -/

section
variable {s : State} {p id : Nat} (h : s.Vacant p id)
include h

theorem State.Vacant.register : (registerPin p id s).Vacant p id where
  owner q j hq hj := h.owner q j hq ((cellGet_cellSet_other _ _ hq).symm.trans hj)
  owned j hj hb he :=
    have ⟨hp, ho⟩ := h.owned j hj hb he
    ⟨hp, (cellGet_cellSet_other _ _ hp).trans ho⟩
  attached q hq := by
    rw [registerPin, cellGet_cellSet_other _ _ hq]
    exact h.attached q hq

theorem State.Vacant.unregister : (unregisterPin p s).Vacant p id := by
  have other : ∀ q, q ≠ p → cellGet (unregisterPin p s).reg q = cellGet s.reg q := fun q hq =>
    (cellGet_cellDel _ _ _).trans (if_neg hq)
  refine ⟨fun q j hq hj => h.owner q j hq ((other q hq).symm.trans hj), fun j hj hb he => ?_, fun q hq => ?_⟩
  · obtain ⟨hp, ho⟩ := h.owned j hj hb he
    exact ⟨hp, (other _ hp).trans ho⟩
  · rw [other q hq]
    exact h.attached q hq

theorem State.Vacant.attach : ({ s with attached := pinInsert s.attached p } : State).Vacant p id where
  owner := h.owner
  owned := h.owned
  attached q hq := by
    rw [mem_pinInsert, or_iff_right hq]
    exact h.attached q hq

theorem State.Vacant.detach :
    ({ s.setPend p Pending.clear with attached := s.attached.filter fun r => r ≠ p } : State).Vacant p id where
  owner := h.owner
  owned := h.owned
  attached q hq := by
    simp only [List.mem_filter, hq, ne_eq, not_false_eq_true, decide_true, and_true]
    exact h.attached q hq

end

/-- Writing `rxEnabled` of the instance as the entry and the attachment of its pin say completes the registry. -/
theorem State.Vacant.close {s : State} {p id : Nat} {on : Bool} (h : s.Vacant p id) (hb : s.constructed id = true)
    (hpin : (s.inst id).rxPin = p) (hreg : s.OwnedBy p (if on then some id else none))
    (hatt : p ∈ s.attached ↔ on = true) : (s.modInst id fun y => { y with rxEnabled := on }).Linked := by
  have self := inst_modInst_same s id (fun y => { y with rxEnabled := on }) hb
  have other : ∀ j, j ≠ id → (s.modInst id fun y => { y with rxEnabled := on }).inst j = s.inst j :=
    fun j hj => inst_modInst_other s _ hj
  unfold State.OwnedBy at hreg
  constructor
  · intro q j hj
    rw [constructed_modInst]
    by_cases hq : q = p
    · subst hq
      cases on with
      | false => simp [hreg] at hj
      | true =>
        have e : id = j := by simpa [hreg] using hj
        subst e
        rw [self]
        exact ⟨hb, hpin, rfl⟩
    · obtain ⟨hb', hpin', he⟩ := h.owner q j hq hj
      rw [other j (by rintro rfl; exact hq (hpin'.symm.trans hpin))]
      exact ⟨hb', hpin', he⟩
  · intro j hb' he
    rw [constructed_modInst] at hb'
    by_cases hj : j = id
    · subst hj
      rw [self] at he ⊢
      have he : on = true := he
      simpa [hpin, he] using hreg
    · rw [other j hj] at he ⊢
      exact (h.owned j hj hb' he).2
  · intro q
    by_cases hq : q = p
    · subst hq
      rw [modInst_attached, modInst_reg, hatt, hreg]
      cases on <;> simp
    · exact h.attached q hq

/-! ### The invariant but for one instance and the registry -/

/-- What `State.Inv` says of one instance beside `Inst.Inv` (10_state.md R23, R52 (e)). -/
def Inst.Settled (x : Inst) : Prop :=
  (x.fstate = .unconfigured → x.bitPeriod = 0) ∧ (x.txBusy = true → x.seq ≠ .idle)

theorem settled_ofRole : OfRole Inst.Settled := by
  rintro x y e ⟨h1, h2⟩
  exact ⟨by rw [e.fstate, e.bitPeriod]; exact h1, by rw [e.txBusy, e.seq]; exact h2⟩

/-- The invariant with `L` in place of the registry and with `A` of instance `id` (under parameters `p`). -/
structure State.Mid (id : Nat) (p : Params) (L : State → Prop) (A : Inst → Prop) (s : State) : Prop where
  core : s.Core
  pending : s.PendingSound
  params : s.params = p
  links : L s
  built : s.constructed id = true
  others : ∀ j, j ≠ id → (s.inst j).Settled
  self : A (s.inst id)

/-- Between two commands. -/
abbrev State.Whole (id : Nat) (p : Params) : State → Prop := State.Mid id p State.Linked Inst.Settled

theorem whole_iff (id : Nat) (p : Params) (s : State) :
    s.Whole id p ↔ s.Inv ∧ s.params = p ∧ s.constructed id = true := by
  constructor
  · intro h
    have settled : ∀ j, (s.inst j).Settled := fun j => by
      by_cases e : j = id
      · exact e ▸ h.self
      · exact h.others j e
    exact ⟨⟨h.core, (registry_iff s).2 ⟨h.links, h.pending⟩, fun j => (settled j).1, fun j => (settled j).2⟩, h.params,
      h.built⟩
  · rintro ⟨h, hp, hb⟩
    obtain ⟨hl, hpend⟩ := (registry_iff s).1 h.registry
    exact ⟨h.core, hpend, hp, hl, hb, fun j _ => ⟨h.unconfigured j, h.busy j⟩, ⟨h.unconfigured id, h.busy id⟩⟩

section
variable {E L L' : State → Prop} {A A' : Inst → Prop} {id : Nat} {p : Params}

theorem State.Mid.carry (hL : OfLinks L) (hA : OfRole A) {s t : State} (h : s.Mid id p L A) (hs : s.fault = none)
    (hc : Carries s t) : t.fault = none ∧ t.Mid id p L A :=
  ⟨(hc.sound h.core hs).2, (hc.sound h.core hs).1, hc.pending h.pending, hc.params.trans h.params,
    hL s t hc.links h.links, (hc.links.built id).trans h.built,
    fun j hj => settled_ofRole _ _ (hc.role j) (h.others j hj),
    hA _ _ (hc.role id) h.self⟩

theorem carries_leads (hL : OfLinks L) (hA : OfRole A) {f : State → State}
    (hf : ∀ s, s.constructed id = true → Carries s (f s)) : Leads E (State.Mid id p L A) f (State.Mid id p L A) :=
  .of_running fun s hs h => h.carry hL hA hs (hf s h.built)

/-- A write of the command's own instance. -/
theorem State.Mid.modInst_relink {f : Inst → Inst} {s : State} (h : s.Mid id p L A) (hl : L' (s.modInst id f))
    (hf : (s.inst id).Inv p → (s.inst id).cellsWf → A (s.inst id) →
      (f (s.inst id)).Inv p ∧ (f (s.inst id)).cellsWf ∧ A' (f (s.inst id))) : (s.modInst id f).Mid id p L' A' := by
  obtain ⟨hinv, hcells, hself⟩ := hf (h.params ▸ h.core.inst h.built) (h.core.cells h.built) h.self
  refine ⟨h.core.modInst id f fun x hg => ?_, PendingKept.of_eq (s := s) rfl rfl rfl h.pending, h.params, hl,
    (constructed_modInst s id f id).trans h.built, fun j hj => ?_, ?_⟩
  · rw [← (constructed_of_cellGet hg).2, h.params]
    exact ⟨hinv, hcells⟩
  · rw [inst_modInst_other s f hj]; exact h.others j hj
  · rw [inst_modInst_same s id f h.built]; exact hself

/-- One that leaves alone what the registry relates. -/
theorem State.Mid.modInst (hL : OfLinks L) {f : Inst → Inst} {s : State} (h : s.Mid id p L A)
    (hlink : ∀ x, (f x).rxPin = x.rxPin ∧ (f x).rxEnabled = x.rxEnabled)
    (hf : (s.inst id).Inv p → (s.inst id).cellsWf → A (s.inst id) →
      (f (s.inst id)).Inv p ∧ (f (s.inst id)).cellsWf ∧ A' (f (s.inst id))) : (s.modInst id f).Mid id p L A' :=
  h.modInst_relink (hL s _ ⟨rfl, rfl, constructed_modInst s id f,
    modInst_project (·.rxPin) (fun x => (hlink x).1) s id,
    modInst_project (·.rxEnabled) (fun x => (hlink x).2) s id⟩ h.links) hf

theorem modInst_leads (hL : OfLinks L) {f : Inst → Inst}
    (hf : ∀ x, x.Inv p → x.cellsWf → A x → (f x).Inv p ∧ (f x).cellsWf ∧ A' (f x))
    (hlink : ∀ x, (f x).rxPin = x.rxPin ∧ (f x).rxEnabled = x.rxEnabled := by exact fun _ => ⟨rfl, rfl⟩) :
    Leads E (State.Mid id p L A) (State.modInst id f) (State.Mid id p L A') :=
  .of_running fun _ hs h => ⟨hs, h.modInst hL hlink (hf _)⟩

/-- An update of the registry, the attached pins and the pending transitions. -/
theorem State.Mid.relink {s t : State} (h : s.Mid id p L A) (hp : t.params = s.params) (hi : t.insts = s.insts)
    (hc : t.Core) (hq : t.PendingSound) (hl : L' t) : t.Mid id p L' A := by
  have hinst : ∀ j, t.inst j = s.inst j := fun j => by simp only [State.inst, hi]
  have hb : t.constructed id = s.constructed id := by simp only [State.constructed, hi]
  exact ⟨hc, hq, hp.trans h.params, hl, hb.trans h.built, fun j hj => hinst j ▸ h.others j hj, hinst id ▸ h.self⟩

/-- `attachEdgeInterrupt(q)`. -/
theorem attachEdgeInterrupt_leads (hL : OfLinks L) (hA : OfRole A) (q : Nat)
    (hl : ∀ u : State, L u → L' { u with attached := pinInsert u.attached q }) :
    Leads E (State.Mid id p L A) (attachEdgeInterrupt q) (State.Mid id p L' A) := by
  refine .of_running fun s hs h => ?_
  obtain ⟨-, e, hc, hf⟩ := attachEdgeInterrupt_spec q h.core hs
  obtain ⟨-, hu⟩ := h.carry hL hA hs (tick_carries s)
  rw [e] at hc hf ⊢
  refine ⟨hf, hu.relink rfl rfl hc ⟨fun r hr => ?_, hu.pending.coalesced⟩ (hl _ hu.links)⟩
  exact (mem_pinInsert _ _ _).2 (.inr (hu.pending.attached r hr))

/-- `detachInterrupt(q)`. -/
theorem detachInterrupt_leads (hL : OfLinks L) (hA : OfRole A) (q : Nat)
    (hl : ∀ u : State, L u →
      L' { u.setPend q Pending.clear with attached := u.attached.filter fun r => r ≠ q }) :
    Leads E (State.Mid id p L A) (detachInterrupt q) (State.Mid id p L' A) := by
  refine .of_running fun s hs h => ?_
  obtain ⟨-, e, hc, hf⟩ := detachInterrupt_spec q h.core hs
  obtain ⟨-, hu⟩ := h.carry hL hA hs (tick_carries s)
  rw [e] at hc hf ⊢
  have hq : ((tick s).setPend q Pending.clear).PendingSound := PendingKept.setPend_le (Nat.zero_le _) hu.pending
  refine ⟨hf, hu.relink rfl rfl hc ⟨fun r hr => ?_, hq.coalesced⟩ (hl _ hu.links)⟩
  have hr : 1 ≤ (((tick s).setPend q Pending.clear).pend r).count := hr
  have hne : r ≠ q := by
    rintro rfl
    rw [pend_setPend_same] at hr
    exact absurd hr (by decide)
  exact List.mem_filter.2 ⟨hq.attached r hr, by simpa using hne⟩

/-- An update of `REG` only. -/
theorem reg_leads {f : State → List (Nat × Nat)} (hr : ∀ s, Cells.rising s.reg → Cells.rising (f s))
    (hl : ∀ s, L s → L' { s with reg := f s }) :
    Leads E (State.Mid id p L A) (fun s => { s with reg := f s }) (State.Mid id p L' A) := by
  refine .of_running fun s hs h => ⟨hs, h.relink rfl rfl ?_ ⟨h.pending.attached, h.pending.coalesced⟩ (hl s h.links)⟩
  obtain ⟨-, -, m3, m4, m5, m6, m7⟩ := h.core.memory
  exact h.core.of_lists rfl rfl m3 m4 (hr s m5) m6 m7

end

end Sys2Proof.Machine
end

section
/-! # ENABLE_RX keeps the invariant (44_port_facade.md R252, R253)

The registry is broken only between the micro-steps in which a receiver is attached or detached, and only at its own
pin: the previous owner is disabled before it loses the pin, and the new one is enabled last. -/

namespace Sys2Proof.Machine

/-- The instance is about to be attached to pin `q`. -/
def Inst.Joining (q : Nat) (x : Inst) : Prop :=
  x.Settled ∧ x.fstate = .configured ∧ x.rxValid = true ∧ x.rxPin = q ∧ x.rxEnabled = false

/-- The instance is about to be detached from pin `q`. -/
def Inst.Leaving (q : Nat) (x : Inst) : Prop := x.Settled ∧ x.rxPin = q

/-- The instance is not attached. -/
def Inst.Detached (x : Inst) : Prop := x.Settled ∧ x.rxEnabled = false

theorem joining_ofRole (q : Nat) : OfRole (Inst.Joining q) := by
  rintro x y e ⟨h1, h2, h3, h4, h5⟩
  exact ⟨settled_ofRole x y e h1, e.fstate.trans h2, e.rxValid.trans h3, e.rxPin.trans h4, e.rxEnabled.trans h5⟩

theorem leaving_ofRole (q : Nat) : OfRole (Inst.Leaving q) := fun x y e h =>
  ⟨settled_ofRole x y e h.1, e.rxPin.trans h.2⟩

/-- The decoder set idle (41_decoder.md R152) stays in its ranges. -/
theorem decoderIdle_inv {p : Params} {x : Inst} (h : x.Inv p) : (decoderIdle x).Inv p :=
  { h with
    curBit_range := by simp [decoderIdle]
    curByte_zero := fun _ => rfl
    idle_before_start := fun h0 => ⟨rfl, (h.idle_before_start h0).2⟩ }

section
variable {E : State → Prop} {id : Nat} {p : Params}

/-- The pin's previous owner is disabled before it loses the pin's registry entry and attachment (R253). -/
theorem evictOwner_leads (q : Nat) :
    Leads E (State.Mid id p State.Linked (Inst.Joining q)) (evictOwner q id)
      (State.Mid id p (State.Vacant q id) (Inst.Joining q)) := by
  intro s hs h
  obtain ⟨-, -, -, -, hoff⟩ := h.self
  unfold evictOwner
  split
  · next other ho =>
    have hL := linked_ofLinks.and_ownedBy q (some other)
    have hne : other ≠ id := by
      rintro rfl
      have hon := (h.links.owner q other ho).2.2
      rw [hoff] at hon
      cases hon
    have disabled : Leads E (State.Mid id p (fun s => s.Linked ∧ s.OwnedBy q (some other)) (Inst.Joining q))
        (State.modInst other fun y => { y with rxEnabled := false })
        (State.Mid id p (State.Vacant q id) (Inst.Joining q)) := by
      refine .of_running fun t ht hm => ⟨ht, ?_⟩
      have same := inst_modInst_other t (fun y => { y with rxEnabled := false }) hne.symm
      refine ⟨hm.core.modInst other _ fun x hx => ?_, PendingKept.of_eq (s := t) rfl rfl rfl hm.pending, hm.params,
        hm.links.1.vacant_of_evicted hm.links.2 id, (constructed_modInst t other _ id).trans hm.built, fun j hj => ?_,
        same ▸ hm.self⟩
      · obtain ⟨hb, rfl⟩ := constructed_of_cellGet hx
        exact ⟨{ hm.core.inst hb with enabled_configured := nofun }, hm.core.cells hb⟩
      · exact (modInst_project Inst.Settled (fun _ => by rfl) t other j).mpr (hm.others j hj)
    rw [if_neg hne]
    exact Leads.runAll (.cons (carries_leads hL (joining_ofRole q) fun s _ => tick_carries s) (.cons disabled
      (.cons (detachInterrupt_leads (vacant_ofLinks q id) (joining_ofRole q) q fun _ hu => hu.detach)
        .nil))) s hs { h with links := ⟨h.links, ho⟩ }
  · next ho =>
    exact ⟨fun _ => { h with links := h.links.vacant (by simp [ho]) }, fun hf => absurd hs hf⟩

/-- ENABLE_RX(true) on an instance that can receive and is configured. -/
theorem attachReceiver_leads {s : State} (hs : s.fault = none) (h : s.Whole id p)
    (hc : (s.inst id).fstate = .configured) (hv : (s.inst id).rxValid = true) :
    ((attachReceiver id s).fault = none → (attachReceiver id s).Whole id p) ∧
      ((attachReceiver id s).fault ≠ none → E (attachReceiver id s)) := by
  simp only [attachReceiver]
  split
  · exact ⟨fun _ => h, fun hf => absurd hs hf⟩
  · next hon =>
    generalize hq : (s.inst id).rxPin = q at *
    have hoff : (s.inst id).rxEnabled = false := by
      by_contra he
      have he : (s.inst id).rxEnabled = true := by simpa using he
      exact hon ⟨he, hq ▸ h.links.owned id h.built he⟩
    have hA := joining_ofRole q
    have hV := (vacant_ofLinks q id).and_ownedBy q (some id)
    have registered : Leads E (State.Mid id p (State.Vacant q id) (Inst.Joining q)) (registerPin q id)
        (State.Mid id p (fun s => s.Vacant q id ∧ s.OwnedBy q (some id)) (Inst.Joining q)) :=
      reg_leads (fun s h => cellSet_rising q id h) fun u hu => ⟨hu.register, cellGet_cellSet_same _ _ _⟩
    have attached : Leads E (State.Mid id p (fun s => s.Vacant q id ∧ s.OwnedBy q (some id)) (Inst.Joining q))
        (attachEdgeInterrupt q)
        (State.Mid id p (fun s => (s.Vacant q id ∧ s.OwnedBy q (some id)) ∧ q ∈ s.attached) (Inst.Joining q)) :=
      attachEdgeInterrupt_leads hV hA q fun u hu => ⟨⟨hu.1.attach, hu.2⟩, (mem_pinInsert _ _ _).2 (.inl rfl)⟩
    have enabled : Leads E
        (State.Mid id p (fun s => (s.Vacant q id ∧ s.OwnedBy q (some id)) ∧ q ∈ s.attached) (Inst.Joining q))
        (State.modInst id fun y => { y with rxEnabled := true }) (State.Whole id p) := by
      refine .of_running fun t ht hm => ⟨ht, ?_⟩
      obtain ⟨hset, hconf, hval, hpin, -⟩ := hm.self
      obtain ⟨⟨hvac, hown⟩, hatt⟩ := hm.links
      exact hm.modInst_relink (hvac.close (on := true) hm.built hpin hown (by simp [hatt])) fun hx hcell _ =>
        ⟨{ hx with enabled_configured := fun _ => ⟨hconf, hval⟩ }, hcell, hset⟩
    exact Leads.runAll (.cons (modInst_leads linked_ofLinks fun x hx hcell hj => ⟨decoderIdle_inv hx, hcell, hj⟩)
      (.cons (carries_leads linked_ofLinks hA fun s _ => setPinMode_carries _ _ s) (.cons (evictOwner_leads q)
        (.cons registered (.cons attached (.cons enabled .nil)))))) s hs { h with self := ⟨h.self, hc, hv, hq, hoff⟩ }

/-- `s.rxEnabled <- 0`, where that leaves the registry whole. -/
theorem disable_leads {L : State → Prop} {A : Inst → Prop}
    (hl : ∀ t : State, t.Mid id p L A → (t.modInst id fun y => { y with rxEnabled := false }).Linked)
    (hA : ∀ x, A x → x.Settled) :
    Leads E (State.Mid id p L A) (State.modInst id fun y => { y with rxEnabled := false })
      (State.Mid id p State.Linked Inst.Detached) :=
  .of_running fun t ht hm => ⟨ht, hm.modInst_relink (hl t hm) fun hx hcell ha =>
    ⟨{ hx with enabled_configured := nofun }, hcell, hA (t.inst id) ha, rfl⟩⟩

/-- ENABLE_RX(false) on an instance that can receive and is configured. -/
theorem detachReceiver_leads :
    Leads E (State.Whole id p) (detachReceiver id) (State.Mid id p State.Linked Inst.Detached) := by
  intro s hs h
  simp only [detachReceiver]
  by_cases hon : (s.inst id).rxEnabled = true ∧ cellGet s.reg (s.inst id).rxPin = some id
  · generalize hq : (s.inst id).rxPin = q at *
    have hL := linked_ofLinks.and_ownedBy q (some id)
    have detached : Leads E (State.Mid id p (fun s => s.Linked ∧ s.OwnedBy q (some id)) (Inst.Leaving q))
        (detachInterrupt q)
        (State.Mid id p (fun s => s.Vacant q id ∧ q ∉ s.attached) (Inst.Leaving q)) := by
      refine detachInterrupt_leads hL (leaving_ofRole q) q fun u hu => ?_
      have hv : u.Vacant q id := hu.1.vacant fun j hj => (Option.some.inj (hu.2.symm.trans hj)).symm
      exact ⟨hv.detach, by simp⟩
    have unregistered : Leads E (State.Mid id p (fun s => s.Vacant q id ∧ q ∉ s.attached) (Inst.Leaving q))
        (unregisterPin q)
        (State.Mid id p (fun s => (s.Vacant q id ∧ s.OwnedBy q none) ∧ q ∉ s.attached) (Inst.Leaving q)) :=
      reg_leads (fun s h => cellDel_rising q h) fun u hu =>
        ⟨⟨hu.1.unregister, (cellGet_cellDel _ _ _).trans (if_pos rfl)⟩, hu.2⟩
    rw [decide_eq_true hon]
    have closed (t : State)
        (hm : t.Mid id p (fun s => (s.Vacant q id ∧ s.OwnedBy q none) ∧ q ∉ s.attached) (Inst.Leaving q)) :
        (t.modInst id fun y => { y with rxEnabled := false }).Linked := by
      obtain ⟨⟨hvac, hown⟩, hatt⟩ := hm.links
      exact hvac.close (on := false) hm.built hm.self.2 hown (by simp [hatt])
    exact Leads.runAll (.cons (Leads.runAll (.cons detached (.cons unregistered .nil)))
      (.cons (disable_leads closed fun _ ha => ha.1) .nil)) s hs
      { h with links := ⟨h.links, hon.2⟩, self := ⟨h.self, hq⟩ }
  · have hoff : (s.inst id).rxEnabled = false := by
      by_contra he
      have he : (s.inst id).rxEnabled = true := by simpa using he
      exact hon ⟨he, h.links.owned id h.built he⟩
    rw [decide_eq_false hon]
    refine Leads.runAll (P := State.Mid id p State.Linked Inst.Detached) (.cons
      (.of_running fun t ht hm => ⟨ht, hm⟩) (.cons (disable_leads (fun t hm => ?_) fun _ ha => ha.1) .nil)) s hs
      { h with self := ⟨h.self, hoff⟩ }
    refine linked_ofLinks t _ ⟨rfl, rfl, constructed_modInst t id _,
      modInst_project (·.rxPin) (f := fun y => { y with rxEnabled := false }) (fun _ => rfl) t id, fun j => ?_⟩ hm.links
    by_cases e : j = id
    · subst e; rw [inst_modInst_same t j _ hm.built]; exact hm.self.2.symm
    · rw [inst_modInst_other t _ e]

/-- ENABLE_RX(false) leaves the instance detached (R250, R251). -/
theorem enableRx_false_leads :
    Leads E (State.Whole id p) (enableRx id false) (State.Mid id p State.Linked Inst.Detached) := by
  intro s hs h
  simp only [enableRx]
  split
  · next hc =>
    refine ⟨fun _ => { h with self := ⟨h.self, ?_⟩ }, fun hf => absurd hs hf⟩
    by_contra he
    obtain ⟨hconf, hval⟩ := (h.core.inst h.built).enabled_configured (by simpa using he)
    rcases hc with hc | hc
    · rw [hval] at hc; cases hc
    · exact hc hconf
  · exact detachReceiver_leads s hs h

theorem detached_whole (s : State) (h : s.Mid id p State.Linked Inst.Detached) : s.Whole id p :=
  { h with self := h.self.1 }

theorem enableRx_leads (on : Bool) : Leads E (State.Whole id p) (enableRx id on) (State.Whole id p) := by
  cases on with
  | false => exact enableRx_false_leads.weaken (fun _ h => h) detached_whole
  | true =>
    intro s hs h
    simp only [enableRx]
    split
    · exact ⟨fun _ => h, fun hf => absurd hs hf⟩
    · next hc =>
      rw [not_or, not_ne_iff] at hc
      exact attachReceiver_leads hs h hc.2 (by simpa using hc.1)

end

end Sys2Proof.Machine
end

section
/-! # Every step keeps the invariant (10_state.md R49, R50, R52)

Each command leads from the invariant to the invariant, and stops, if it stops, in a state in which it holds: the
period relation (R23) is broken only inside START and R52 (e) only at the beginning of a WRITE, and no stop falls
there. -/

namespace Sys2Proof.Machine

theorem State.Inv.congr {s t : State} (h : s.Inv) (hp : t.params = s.params := by exact rfl)
    (hi : t.insts = s.insts := by exact rfl) (h3 : t.pins = s.pins := by exact rfl)
    (h4 : t.pending = s.pending := by exact rfl) (h5 : t.reg = s.reg := by exact rfl)
    (h6 : t.driven = s.driven := by exact rfl) (h7 : t.attached = s.attached := by exact rfl) : t.Inv := by
  have hinst : ∀ j, t.inst j = s.inst j := fun j => by simp only [State.inst, hi]
  have hbuilt : ∀ j, t.constructed j = s.constructed j := fun j => by simp only [State.constructed, hi]
  obtain ⟨hl, hq⟩ := (registry_iff s).1 h.registry
  exact ⟨h.core.congr hp hi h3 h4 h5 h6 h7, (registry_iff t).2 ⟨linked_ofLinks s t
    ⟨h5, h7, hbuilt, fun j => by rw [hinst], fun j => by rw [hinst]⟩ hl, PendingKept.of_eq hp h4 h7 hq⟩,
    fun j => hinst j ▸ h.unconfigured j, fun j => hinst j ▸ h.busy j⟩

theorem Carries.inv {s t : State} (hc : Carries s t) (hs : s.fault = none) (h : s.Inv) : t.Inv := by
  obtain ⟨hl, hq⟩ := (registry_iff s).1 h.registry
  have settled : ∀ j, (t.inst j).Settled := fun j =>
    settled_ofRole _ _ (hc.role j) ⟨h.unconfigured j, h.busy j⟩
  exact ⟨(hc.sound h.core hs).1, (registry_iff t).2 ⟨linked_ofLinks s t hc.links hl, hc.pending hq⟩,
    fun j => (settled j).1, fun j => (settled j).2⟩

/-! ### The instance after each write -/

section
variable {p : Params} {x : Inst}

theorem bitPeriodOf_le (p : Params) (baud : Int) : bitPeriodOf p baud ≤ p.fHz := by
  unfold bitPeriodOf
  split
  · exact Nat.zero_le _
  · exact Nat.div_le_self _ _

theorem width_modulus_pos (w : Width) : 0 < w.modulus := by cases w <;> decide

theorem wrap_lt (w : Width) (v : Nat) : wrap w v < w.modulus := Nat.mod_lt _ (width_modulus_pos w)

theorem addW_lt (w : Width) (a b : Nat) : addW w a b < w.modulus := Nat.mod_lt _ (width_modulus_pos w)

/-- A ring of an instance that can receive has a slot (44_port_facade.md R242). -/
theorem caps_pos (h : x.Inv p) (hv : x.rxValid = true) : 0 < x.edgeCap ∧ 0 < x.byteCap := by
  rw [h.rxValid_iff] at hv
  simp only [Bool.and_eq_true, decide_eq_true_eq] at hv
  exact ⟨hv.2, hv.1.2⟩

/-- What START writes before it touches a pin (R244 to R246). -/
theorem restartInst_inv (h : x.Inv p) {period : Nat} (hle : period ≤ p.fHz) (hpos : period ≠ 0) :
    (restartInst period x).Inv p :=
  { h with
    curBit_range := by simp [restartInst, clearOvf, decoderIdle]
    curByte_zero := fun _ => rfl
    indices := fun hv => ⟨(caps_pos h hv).1, (caps_pos h hv).1, (caps_pos h hv).2, (caps_pos h hv).2⟩
    period_le := hle
    period_configured := fun _ => Nat.one_le_iff_ne_zero.2 hpos
    idle_before_start := fun h0 => absurd h0 hpos }

theorem flushEdges_inv (h : x.Inv p) : (flushEdges x).Inv p :=
  { h with
    indices := fun hv => ⟨(h.indices hv).1, (h.indices hv).1, (h.indices hv).2.2⟩
    idle_before_start := fun h0 => ⟨(h.idle_before_start h0).1, rfl, (h.idle_before_start h0).2.2⟩ }

theorem flushBytes_inv (h : x.Inv p) : (flushBytes x).Inv p :=
  { h with
    curBit_range := by simp [flushBytes]
    curByte_zero := fun _ => rfl
    indices := fun hv =>
      have ⟨hin, hout, hinB, _⟩ := h.indices hv
      ⟨hin, hout, hinB, hinB⟩
    idle_before_start := fun h0 => ⟨rfl, (h.idle_before_start h0).2.1, rfl⟩ }

/-- A byte dequeued from a ring that is not empty (20_memory.md R63). -/
theorem advanceOutB_inv (h : x.Inv p) (hne : x.inB ≠ x.outB) : (advanceOutB x).Inv p :=
  { h with
    indices := fun hv =>
      have ⟨hin, hout, hinB, houtB⟩ := h.indices hv
      ⟨hin, hout, hinB, ringNext_lt houtB⟩
    idle_before_start := fun h0 => absurd (h.idle_before_start h0).2.2 hne }

/-- CONSTRUCT's instance (R241, R242). -/
theorem freshInst_inv (p : Params) (rxPin txPin : Nat) (invert : Bool) (bufCap edgeCap : Nat) :
    (freshInst p rxPin txPin invert bufCap edgeCap).Inv p where
  curBit_range := by simp [freshInst, Inst.blank]
  curByte_zero _ := rfl
  indices hv := by
    simp only [freshInst, Bool.and_eq_true, decide_eq_true_eq] at hv
    exact ⟨hv.2, hv.2, hv.1.2, hv.1.2⟩
  rxValid_iff := rfl
  txValid_iff := rfl
  oneWire_iff := rfl
  period_le := Nat.zero_le _
  period_configured := nofun
  idle_before_start _ := ⟨rfl, rfl, rfl⟩
  enabled_configured := nofun
  txEnable_valid := nofun
  lastTs_lt := width_modulus_pos p.width
  deadline_lt := width_modulus_pos p.width
  edges_lt := nofun

end

theorem freshInst_cellsWf (p : Params) (rxPin txPin : Nat) (invert : Bool) (bufCap edgeCap : Nat) :
    (freshInst p rxPin txPin invert bufCap edgeCap).cellsWf := ⟨⟨.nil, nofun⟩, ⟨.nil, nofun⟩⟩

/-! ### CONSTRUCT -/

/-- A new instance that is not attached. -/
theorem State.Inv.putInst {s : State} (h : s.Inv) {id : Nat} {x : Inst} (hid : s.constructed id = false)
    (hx : x.Inv s.params) (hc : x.cellsWf) (hset : x.Settled) (hoff : x.rxEnabled = false) : (s.putInst id x).Inv := by
  have built : ∀ j, (s.putInst id x).constructed j = true → j = id ∨ s.constructed j = true := fun j hj => by
    rw [constructed_putInst] at hj
    simpa using hj
  have old : ∀ j, s.constructed j = true → (s.putInst id x).inst j = s.inst j := fun j hj => by
    rw [inst_putInst, if_neg (by rintro rfl; rw [hid] at hj; cases hj)]
  have settled : ∀ j, ((s.putInst id x).inst j).Settled := fun j => by
    rw [inst_putInst]
    split
    · exact hset
    · exact ⟨h.unconfigured j, h.busy j⟩
  refine ⟨h.core.putInst id x hx hc, ⟨fun q j hq => ?_, fun j hj he => ?_, h.registry.attached, h.registry.pending,
    h.registry.coalesced⟩, fun j => (settled j).1, fun j => (settled j).2⟩
  · obtain ⟨hb, hpin, he⟩ := h.registry.owner q j hq
    rw [old j hb]
    exact ⟨by rw [constructed_putInst, hb, Bool.or_true], hpin, he⟩
  · rcases built j hj with rfl | hb
    · rw [inst_putInst, if_pos rfl, hoff] at he; cases he
    · rw [old j hb] at he ⊢
      exact h.registry.owned j hb he

theorem construct_inv (id rxPin txPin : Nat) (invert : Bool) (bufCap edgeCap : Nat) {s : State} (hs : s.fault = none)
    (h : s.Inv) : (construct id rxPin txPin invert bufCap edgeCap s).Inv := by
  have passed : Leads State.Inv (fun t => t.Inv ∧ t.constructed id = false) tick
      (fun t => t.Inv ∧ t.constructed id = false) := .of_running fun t ht h =>
    have hc := tick_carries t
    ⟨(hc.sound h.1.core ht).2, hc.inv ht h.1, (hc.links.built id).trans h.2⟩
  have created : Leads State.Inv (fun t => t.Inv ∧ t.constructed id = false)
      (fun t => t.putInst id (freshInst t.params rxPin txPin invert bufCap edgeCap)) State.Inv :=
    .of_running fun t ht h => ⟨ht, h.1.putInst h.2 (freshInst_inv ..) (freshInst_cellsWf ..) ⟨fun _ => rfl, nofun⟩ rfl⟩
  have returned : Leads State.Inv State.Inv (State.ret id .nothing) State.Inv := .of_running fun t ht h => ⟨ht, h.congr⟩
  unfold construct
  split
  · exact h.congr
  · next hc =>
    exact (Leads.runAll (.cons passed (.cons created (.cons returned .nil)))).holds hs ⟨h, by simpa using hc⟩

/-! ### The commands without host code -/

section
variable {id : Nat} {p : Params}

/-- The command leads from the invariant to the invariant, and stops in states in which it holds. -/
abbrev Keeps (id : Nat) (p : Params) (f : State → State) : Prop :=
  Leads State.Inv (State.Whole id p) f (State.Whole id p)

theorem keeps_of_carries {f : State → State} (hf : Along Carries f) : Keeps id p f :=
  carries_leads linked_ofLinks settled_ofRole fun s _ => hf s

theorem rxbits_keeps : Keeps id p (rxbits id) := carries_leads linked_ofLinks settled_ofRole fun _ => rxbits_carries

theorem ret_keeps (r : Result) : Keeps id p (State.ret id r) := keeps_of_carries (ret_carries id r)

theorem raise_keeps (c : FaultCode) : Keeps id p (State.raise c) := fun _ _ h =>
  ⟨nofun, fun _ => ((whole_iff id p _).1 h).1.congr⟩

/-- A write of registers of the instance that keeps what the invariant says of it. -/
theorem modInst_keeps {f : Inst → Inst}
    (hf : ∀ x, x.Inv p → x.cellsWf → x.Settled → (f x).Inv p ∧ (f x).cellsWf ∧ (f x).Settled)
    (hlink : ∀ x, (f x).rxPin = x.rxPin ∧ (f x).rxEnabled = x.rxEnabled := by exact fun _ => ⟨rfl, rfl⟩) :
    Keeps id p (State.modInst id f) := modInst_leads linked_ofLinks hf hlink

/-- The command returns to the host. -/
theorem keeps_ret {f : State → State} (hf : Keeps id p f) (r : Result) : Keeps id p (runAll [f, State.ret id r]) :=
  .runAll (.cons hf (.cons (ret_keeps _) .nil))

/-- START has written the bit period and not yet `fstate`. -/
def Inst.Restarted (x : Inst) : Prop := 1 ≤ x.bitPeriod ∧ (x.txBusy = true → x.seq ≠ .idle)

theorem restarted_ofRole : OfRole Inst.Restarted := by
  rintro x y e ⟨h1, h2⟩
  exact ⟨by rw [e.bitPeriod]; exact h1, by rw [e.txBusy, e.seq]; exact h2⟩

theorem start_keeps (baud : Int) : Keeps id p (start id baud) := by
  intro s hs h
  simp only [start]
  split
  · exact raise_keeps _ s hs h
  · next hpos =>
    have hle : bitPeriodOf s.params baud ≤ p.fHz := h.params ▸ bitPeriodOf_le _ _
    have restarted : Leads State.Inv (State.Whole id p) (State.modInst id (restartInst (bitPeriodOf s.params baud)))
        (State.Mid id p State.Linked Inst.Restarted) := modInst_leads linked_ofLinks fun x hx hc hset =>
      ⟨restartInst_inv hx hle hpos, hc, Nat.one_le_iff_ne_zero.2 hpos, hset.2⟩
    have configured : Leads State.Inv (State.Mid id p State.Linked Inst.Restarted)
        (State.modInst id fun y => { y with fstate := .configured }) (State.Whole id p) :=
      modInst_leads linked_ofLinks fun x hx hc hr => ⟨{ hx with
        period_configured := fun _ => hr.1
        enabled_configured := fun he => ⟨rfl, (hx.enabled_configured he).2⟩ }, hc, ⟨nofun, hr.2⟩⟩
    exact Leads.runAll (.cons (Leads.whenever _ (enableRx_leads false)) (.cons (keeps_of_carries tick_carries)
      (.cons restarted (.cons
        (Leads.whenever _ (carries_leads linked_ofLinks restarted_ofRole fun s _ => drivePin_carries _ _ _ s))
        (.cons configured (.cons (Leads.whenever _ (enableRx_leads true)) (.cons (ret_keeps _) .nil))))))) s hs h

theorem destruct_keeps :
    Keeps id p (runAll [enableRx id false, State.modInst id fun y => { y with fstate := .tornDown },
      State.ret id .nothing]) :=
  .runAll (.cons enableRx_false_leads (.cons (modInst_leads linked_ofLinks fun x hx hc hd => ⟨{ hx with
      period_configured := nofun
      enabled_configured := fun he => by rw [hd.2] at he; cases he }, hc, ⟨nofun, hd.1.2⟩⟩)
    (.cons (ret_keeps _) .nil)))

theorem enableTx_keeps (on : Bool) : Keeps id p (enableTx id on) := by
  intro s hs h
  simp only [enableTx]
  split
  · exact ⟨fun _ => h, fun hf => absurd hs hf⟩
  · split
    · exact Leads.runAll (.cons (enableRx_leads false) (.cons (keeps_of_carries (writePinLevel_carries _ _))
        (.cons (keeps_of_carries (setPinMode_carries _ _)) .nil))) s hs h
    · exact Leads.runAll (.cons (keeps_of_carries (writePinLevel_carries _ _))
        (.cons (keeps_of_carries (setPinMode_carries _ _)) (.cons (enableRx_leads true) .nil))) s hs h

theorem setTxEnablePin_keeps (pin : Nat) : Keeps id p (setTxEnablePin id pin) := by
  intro s hs h
  unfold setTxEnablePin
  split
  · next hv =>
    have named : Keeps id p (State.modInst id fun y => { y with txEnablePin := pin, txEnableValid := true }) :=
      modInst_keeps fun x hx hc hset => ⟨{ hx with txEnable_valid := fun _ => h.params ▸ hv }, hc, hset⟩
    exact Leads.runAll (.cons named (.cons (keeps_of_carries (writePinLevel_carries _ _))
      (.cons (keeps_of_carries (setPinMode_carries _ _)) .nil))) s hs h
  · have dropped : Keeps id p (State.modInst id fun y => { y with txEnableValid := false }) :=
      modInst_keeps fun x hx hc hset => ⟨{ hx with txEnable_valid := nofun }, hc, hset⟩
    exact dropped s hs h

theorem takeByte_keeps : Keeps id p (takeByte id) := by
  intro s hs h
  simp only [takeByte]
  split_ifs with hempty
  · exact ret_keeps _ s hs h
  · have taken := h.modInst (A' := Inst.Settled) linked_ofLinks (f := advanceOutB) (fun _ => ⟨rfl, rfl⟩)
      fun hx hc hset => ⟨advanceOutB_inv hx hempty, hc, hset⟩
    exact ret_keeps _ _ hs taken
  · exact raise_keeps _ s hs h

theorem showByte_keeps : Keeps id p (showByte id) := by
  intro s hs h
  simp only [showByte]
  split_ifs
  · exact ret_keeps _ s hs h
  · exact ret_keeps _ s hs h
  · exact raise_keeps _ s hs h

theorem afterPass_keeps {f : State → State} (hf : Keeps id p f) : Keeps id p (runAll [rxbits id, tick, f]) :=
  .runAll (.cons rxbits_keeps (.cons (keeps_of_carries tick_carries) (.cons hf .nil)))

theorem readByte_keeps : Keeps id p (readByte id) := by
  intro s hs h
  unfold readByte
  split
  · exact afterPass_keeps takeByte_keeps s hs h
  · exact ret_keeps _ s hs h

theorem peekByte_keeps : Keeps id p (peekByte id) := by
  intro s hs h
  unfold peekByte
  split
  · exact afterPass_keeps showByte_keeps s hs h
  · exact ret_keeps _ s hs h

theorem flush_keeps : Keeps id p (flush id) := by
  intro s hs h
  unfold flush
  split
  · exact Leads.runAll (.cons (keeps_of_carries tick_carries)
      (.cons (modInst_keeps fun x hx hc hset => ⟨flushEdges_inv hx, hc, hset⟩) (.cons (keeps_of_carries tick_carries)
        (.cons (modInst_keeps fun x hx hc hset => ⟨flushBytes_inv hx, hc, hset⟩) (.cons (ret_keeps _) .nil))))) s hs h
  · exact ret_keeps _ s hs h

/-- A write of one instance, and the return. -/
theorem modInstRet_keeps {f : Inst → Inst} (r : State → Result) (hf : Keeps id p (State.modInst id f)) :
    Keeps id p fun s => (s.modInst id f).ret id (r s) := fun s hs h =>
  ret_keeps (r s) _ hs ((hf s hs h).1 hs)

/-! ### The commands that run host code -/

variable {host : HostCode} (hh : ∀ tEnd, Keeps id p (host tEnd))
include hh

theorem cooperativeYield_keeps (us : Nat) : Keeps id p (cooperativeYield host us) := fun s hs h =>
  Leads.runAll (.cons (hh _) (.cons (keeps_of_carries fun t => (EnvMove.advanceTo _ t).carries) .nil)) _ hs
    (h.carry linked_ofLinks settled_ofRole hs (EnvMove.draws s _).carries).2

omit hh in
/-- `s.inYield <- b`. -/
theorem setInYield_keeps (b : Bool) : Keeps id p (State.modInst id fun y => { y with inYield := b }) :=
  modInst_keeps fun x hx hc hset => ⟨{ hx with }, hc, hset⟩

theorem availableRetry_keeps : Keeps id p (availableRetry host id) :=
  .runAll (.cons (setInYield_keeps true) (.cons (fun t => cooperativeYield_keeps hh _ t)
    (.cons (setInYield_keeps false) (.cons rxbits_keeps .nil))))

theorem available_keeps : Keeps id p (available host id) := by
  intro s hs h
  unfold available
  split
  · exact Leads.runAll (.cons rxbits_keeps (.cons (fun t => Leads.whenever _ (availableRetry_keeps hh) t)
      (.cons (keeps_of_carries tick_carries) (.cons (fun t => ret_keeps _ t) .nil)))) s hs h
  · exact ret_keeps _ s hs h

theorem callReceiver_keeps (a1 : Nat) : Keeps id p (callReceiver host id a1) := by
  intro s hs h
  unfold callReceiver
  split
  · have shown (o : List Output) : Carries s { s with outputs := o } :=
      .of_insts fun hc hf => ⟨hc.congr rfl rfl rfl rfl rfl rfl rfl, hf⟩
    exact Leads.runAll (.cons (hh none) (.cons (keeps_of_carries fun t => (EnvMove.callbackReturns t).carries) .nil)) _
      hs (h.carry linked_ofLinks settled_ofRole hs (shown _)).2
  · exact ⟨fun _ => h, fun hf => absurd hs hf⟩

theorem pump_keeps : Keeps id p (pump host id) := by
  intro s hs h
  unfold pump
  split
  · exact Leads.runAll (.cons rxbits_keeps (.cons (keeps_of_carries tick_carries)
      (.cons (fun t => Leads.whenever _ (callReceiver_keeps hh _) t) (.cons (ret_keeps _) .nil)))) s hs h
  · exact ret_keeps _ s hs h

theorem yieldPortion_keeps (micro : Nat) : Keeps id p (yieldPortion host id micro) :=
  .runAll (.cons (fun t => Leads.whenever _ (keeps_of_carries unmaskInterrupts_carries) t)
    (.cons (setInYield_keeps true) (.cons (cooperativeYield_keeps hh micro) (.cons (setInYield_keeps false)
      (.cons (keeps_of_carries maskInterrupts_carries) .nil)))))

theorem waitBitCycles_keeps (d : Nat) : Keeps id p (waitBitCycles host id d) :=
  (keeps_of_carries tick_carries).comp
    (g := fun t => runAll [whenever (decide (0 < (cyclesTo d t).toNat / cyclesPerMicro t.params))
      (yieldPortion host id ((cyclesTo d t).toNat / cyclesPerMicro t.params)), spinUntil d] t)
    (fun t => Leads.runAll (.cons (Leads.whenever _ (yieldPortion_keeps hh _))
      (.cons (keeps_of_carries fun t => (EnvMove.spinUntil d t).carries) .nil)) t) fun _ => runAll_stopped _

/-- WRITE is in progress, at a slot or before the first one. -/
def Inst.Timed (x : Inst) : Prop := x.fstate = .unconfigured → x.bitPeriod = 0

omit hh in
theorem timed_ofRole : OfRole Inst.Timed := by
  intro x y e h
  unfold Inst.Timed
  rw [e.fstate, e.bitPeriod]
  exact h

theorem sendSlot_leads (j i : Nat) (level : Bool) :
    Leads State.Inv (State.Mid id p State.Linked Inst.Timed) (sendSlot host id j i level) (State.Whole id p) := by
  intro s hs h
  have placed : (s.modInst id fun y => { y with seq := .slot j i }).Whole id p :=
    h.modInst linked_ofLinks (fun _ => ⟨rfl, rfl⟩) fun hx hc ht => ⟨{ hx with }, hc, ⟨ht, fun _ => nofun⟩⟩
  have moved : Keeps id p fun t => t.modInst id (nextDeadline t.params.width) :=
    .of_running fun t ht hm => ⟨ht, hm.modInst linked_ofLinks (fun _ => ⟨rfl, rfl⟩) fun hx hc hset =>
      ⟨{ hx with deadline_lt := hm.params ▸ addW_lt _ _ _ }, hc, hset⟩⟩
  have levelled : Keeps id p (State.modInst id fun y => { y with prevLevel := level }) :=
    modInst_keeps fun x hx hc hset => ⟨{ hx with }, hc, hset⟩
  simp only [sendSlot]
  exact Leads.runAll (.cons (Leads.whenever _ (.runAll (.cons (waitBitCycles_keeps hh _)
    (.cons (keeps_of_carries (writePinLevel_carries _ _)) (.cons levelled .nil)))))
    (.cons moved .nil)) _ hs placed

theorem sendSlots_keeps (slots : List (Nat × Nat × Bool)) : Keeps id p (sendSlots host id slots) := by
  induction slots with
  | nil => exact .of_running fun s hs h => ⟨hs, h⟩
  | cons slot rest ih =>
    obtain ⟨j, i, level⟩ := slot
    intro s hs h
    rw [sendSlots_cons_running host id j i level rest hs]
    exact ((sendSlot_leads hh j i level).weaken (fun _ h => { h with self := h.self.1 }) fun _ h => h).comp ih
      (fun _ => sendSlots_stopped host id rest) s hs h

/-- A waveform of one byte or more puts the sequencer on its first slot at once. -/
theorem sendSlots_leads {bytes : List Byte} (hb : bytes ≠ []) :
    Leads State.Inv (State.Mid id p State.Linked Inst.Timed) (sendSlots host id (frameSlots 0 bytes))
      (State.Whole id p) := by
  obtain ⟨b, bs, rfl⟩ := List.exists_cons_of_ne_nil hb
  intro s hs h
  simp only [frameSlots, frame, numberSlots, List.cons_append]
  rw [sendSlots_cons_running host id 0 0 false _ hs]
  exact (sendSlot_leads hh 0 0 false).comp (sendSlots_keeps hh _) (fun _ => sendSlots_stopped host id _) s hs h

omit hh in
theorem beginWaveform_leads :
    Leads State.Inv (State.Whole id p) (beginWaveform id) (State.Mid id p State.Linked Inst.Timed) := by
  intro s hs h
  have began : (s.modInst id fun y => { y with txBusy := true, prevLevel := true }).Mid id p State.Linked Inst.Timed :=
    h.modInst linked_ofLinks (fun _ => ⟨rfl, rfl⟩) fun hx hc hset => ⟨{ hx with }, hc, hset.1⟩
  have started : Leads State.Inv (State.Mid id p State.Linked Inst.Timed)
      (fun t => t.modInst id fun y => { y with deadline := t.counter }) (State.Mid id p State.Linked Inst.Timed) :=
    .of_running fun t ht hm => ⟨ht, hm.modInst linked_ofLinks (fun _ => ⟨rfl, rfl⟩) fun hx hc htm =>
      ⟨{ hx with deadline_lt := hm.params ▸ wrap_lt _ _ }, hc, htm⟩⟩
  exact ((carries_leads linked_ofLinks timed_ofRole fun t _ => tick_carries t).then started) _ hs began

theorem transmit_keeps {bytes : List Byte} (hb : bytes ≠ []) : Keeps id p (transmit host id bytes) := by
  have saved : Keeps id p fun t => t.modInst id fun y => { y with savedMask := t.im } :=
    .of_running fun t ht hm => ⟨ht, hm.modInst linked_ofLinks (fun _ => ⟨rfl, rfl⟩) fun hx hc hset =>
      ⟨{ hx with }, hc, hset⟩⟩
  have ended : Keeps id p (State.modInst id fun y => { y with txBusy := false, seq := .idle }) :=
    modInst_keeps fun x hx hc hset => ⟨{ hx with }, hc, ⟨hset.1, nofun⟩⟩
  have written (q : Nat) (v : Bool) : Keeps id p (writePinLevel q v) := keeps_of_carries (writePinLevel_carries q v)
  intro s hs h
  simp only [transmit]
  exact Leads.runAll (.cons (Leads.whenever _ rxbits_keeps) (.cons (Leads.whenever _ (written _ _)) (.cons saved
    (.cons (keeps_of_carries maskInterrupts_carries) (.cons beginWaveform_leads (.cons (sendSlots_leads hh hb)
      (.cons (fun t => waitBitCycles_keeps hh _ t)
        (.cons (fun t => Leads.whenever _ (keeps_of_carries unmaskInterrupts_carries) t)
          (.cons (Leads.whenever _ (written _ _)) (.cons ended (.cons (ret_keeps _) .nil))))))))))) s hs h

theorem write_keeps (bytes : List Byte) : Keeps id p (write host id bytes) := by
  intro s hs h
  simp only [write]
  split_ifs with _ _ _ hb
  · exact ret_keeps _ s hs h
  · exact raise_keeps _ s hs h
  · exact raise_keeps _ s hs h
  · exact ret_keeps _ s hs h
  · exact transmit_keeps hh hb s hs h

end

/-! ### Every command, and the step -/

theorem hostSteps_keeps {host : HostCode} {p : Params} (i : Instr) (hh : ∀ tEnd, Keeps i.target p (host tEnd)) :
    Keeps i.target p (hostSteps host i) := by
  have nothing : Keeps i.target p id := .of_running fun s hs h => ⟨hs, h⟩
  cases i with
  | construct id rx tx inv nb ne => exact nothing
  | start id baud => exact start_keeps baud
  | stop id => exact keeps_ret (enableRx_leads false) _
  | destruct id => exact destruct_keeps
  | enableRx id on => exact keeps_ret (enableRx_leads on) _
  | enableTx id on => exact keeps_ret (enableTx_keeps on) _
  | setTxEnablePin id pin => exact keeps_ret (setTxEnablePin_keeps pin) _
  | baudrate id => exact fun t => ret_keeps _ t
  | available id => exact available_keeps hh
  | read id => exact readByte_keeps
  | peek id => exact peekByte_keeps
  | flush id => exact flush_keeps
  | overflow id =>
    have cleared : Keeps id p (readOverflow id) :=
      modInstRet_keeps (fun s => .boolean (overflowed (s.inst id)))
        (modInst_keeps fun x hx hc hset => ⟨{ hx with }, hc, hset⟩)
    exact .runAll (.cons (keeps_of_carries tick_carries) (.cons cleared .nil))
  | onReceive id cb =>
    exact modInstRet_keeps (fun _ => .nothing) (modInst_keeps fun x hx hc hset => ⟨{ hx with }, hc, hset⟩)
  | pump id => exact pump_keeps hh
  | write id bytes => exact write_keeps hh bytes
  | capture id => exact nothing
  | rxbits id => exact nothing
  | replayEdge id ev => exact nothing
  | synthStop id => exact nothing
  | synthStopAt id now => exact nothing
  | waitBitCycles id d => exact nothing

/-- What commands and host code do: the configuration stays, and so does the invariant. -/
def KeepsInv (s t : State) : Prop := s.Fixed t ∧ (s.fault = none → s.Inv → t.Inv)

theorem KeepsInv.keeps {f : State → State} (hf : Along KeepsInv f) (id : Nat) (p : Params) : Keeps id p f := by
  intro s hs h
  obtain ⟨hinv, hp, hb⟩ := (whole_iff id p s).1 h
  obtain ⟨hfix, hkeep⟩ := hf s
  have ht := hkeep hs hinv
  exact ⟨fun _ => (whole_iff id p _).2 ⟨ht, hfix.params.trans hp, hfix.built id hb⟩, fun _ => ht⟩

theorem keepsInv_closed : StepClosed KeepsInv where
  refl s := ⟨fixed_composes.refl s, fun _ h => h⟩
  trans hf h1 h2 := ⟨fixed_composes.trans h1.1 h2.1, fun hs h => h2.2 hf (h1.2 hs h)⟩
  books _ _ _ _ _ _ _ := ⟨.of_insts, fun _ h => h.congr⟩
  env h := ⟨h.safe.fixed, fun hs hi => h.carries.inv hs hi⟩
  raise _ _ := ⟨.of_insts, fun _ h => h.congr⟩
  construct _ _ _ _ _ _ _ _ := ⟨construct_fixed .., fun hs h => construct_inv _ _ _ _ _ _ hs h⟩
  steps hh i s ha := by
    refine ⟨hostSteps_fixed (fun tEnd s => (hh tEnd s).1) ha, fun hs h => ?_⟩
    have keeps := hostSteps_keeps i fun tEnd => KeepsInv.keeps (hh tEnd) i.target s.params
    exact (keeps.weaken (fun _ h => h) fun t ht => ((whole_iff _ _ t).1 ht).1).holds hs
      ((whole_iff _ _ s).2 ⟨h, rfl, ha.built⟩)

/-- Settles O15: the environment, a capture and every command, host code in it included, keep the invariant. -/
theorem stepKeepsInvariant : Obligations.StepKeepsInvariant := fun _ _ h hst =>
  (keepsInv_closed.step hst).2 (running_of_step hst) h

/-- Settles O14: the boot state passes the checks of both invariants. -/
theorem resetSound : Obligations.ResetSound := ⟨checkInv_sound (by decide), checkBetween_sound (by decide)⟩

end Sys2Proof.Machine
end

section
/-! # The rings are bounded queues (20_memory.md R60 to R65)

The edge ring and the byte ring are one data structure with two kinds of values. The queue laws are proved once, for
slots that a function reads, and `byteQueue_eq_ringQueue` and `edgeQueue_eq_ringQueue` carry them over to both rings. -/

namespace Sys2Proof.Machine

/-! ## The count -/

/-- A ring is empty exactly where its indices meet (R61). -/
theorem ringCount_eq_zero_iff {n i o : Nat} (ho : o < n) : ringCount n i o = 0 ↔ i = o := by
  unfold ringCount; split <;> omega

/-- The compare of the model gives the modulo of R61: where the write index has wrapped round, one turn is added. -/
theorem ringCount_eq_emod {n i o : Nat} (hi : i < n) (ho : o < n) :
    (ringCount n i o : Int) = ((i : Int) - o) % n := by
  unfold ringCount
  split
  case isTrue hle =>
    rw [Int.emod_eq_of_lt (by omega) (by omega)]
    omega
  case isFalse hlt =>
    rw [← Int.add_emod_right, Int.emod_eq_of_lt (by omega) (by omega)]
    omega

/-- Settles O19: the compare gives the modulo, which is below `n` and 0 where the indices meet. -/
theorem ringCount_spec : Obligations.RingCount := fun _ _ _ hi ho =>
  ⟨ringCount_eq_emod hi ho, ringCount_lt hi, ringCount_eq_zero_iff ho⟩

/-! ## A ring of any kind of value -/

section Ring
variable {α : Type}

/-- `k` values of a ring with `n` slots, from index `i` on. -/
def ringWindow (slot : Nat → α) (n : Nat) : Nat → Nat → List α
  | 0, _ => []
  | k + 1, i => slot i :: ringWindow slot n k (ringNext n i)

/-- The values of a ring with write index `i` and read index `o`, oldest first. -/
def ringQueue (slot : Nat → α) (n i o : Nat) : List α := ringWindow slot n (ringCount n i o) o

theorem ringQueue_self {n i : Nat} (slot : Nat → α) (hi : i < n) : ringQueue slot n i i = [] := by
  rw [ringQueue, (ringCount_eq_zero_iff hi).2 rfl, ringWindow]

/-- The oldest value stands at the read index, and moving that index on leaves the others (R63). -/
theorem ringQueue_of_ne {n i o : Nat} (slot : Nat → α) (hi : i < n) (ho : o < n) (hne : i ≠ o) :
    ringQueue slot n i o = slot o :: ringQueue slot n i (ringNext n o) := by
  rw [ringQueue, ← ringCount_dequeue hi ho hne, ringWindow, ringQueue]

/-- No slot of the queue is the one at the write index, and that slot comes next after them. -/
theorem ringWindow_write {slot slot' : Nat → α} {n i k o : Nat} (hi : i < n) (ho : o < n)
    (hk : ringCount n i o = k) (same : ∀ j, j ≠ i → slot' j = slot j) :
    ringWindow slot' n (k + 1) o = ringWindow slot n k o ++ [slot' i] := by
  induction k generalizing o with
  | zero =>
    obtain rfl := (ringCount_eq_zero_iff ho).1 hk
    rfl
  | succ k ih =>
    have hne : i ≠ o := fun h => by simp [(ringCount_eq_zero_iff ho).2 h] at hk
    have hcount := ringCount_dequeue hi ho hne
    rw [ringWindow, ih (ringNext_lt ho) (by omega), same o hne.symm, ringWindow, List.cons_append]

/-- A write at the write index of a ring that is not full, and the move of that index, append the value (R62). -/
theorem ringQueue_write {slot slot' : Nat → α} {n i o : Nat} {v : α} (hi : i < n) (ho : o < n)
    (room : ringNext n i ≠ o) (stored : slot' i = v) (same : ∀ j, j ≠ i → slot' j = slot j) :
    ringQueue slot' n (ringNext n i) o = ringQueue slot n i o ++ [v] := by
  rw [ringQueue, ringCount_enqueue ho room, ringWindow_write hi ho rfl same, ringQueue, stored]

/-- What is read and what stays behind, for a ring that holds `c` and then `rest`. -/
theorem ringQueue_eq_cons {slot : Nat → α} {n i o : Nat} {c : α} {rest : List α} (hi : i < n) (ho : o < n)
    (h : ringQueue slot n i o = c :: rest) : slot o = c ∧ ringQueue slot n i (ringNext n o) = rest := by
  have hne : i ≠ o := by
    rintro rfl
    simp [ringQueue_self slot hi] at h
  rwa [ringQueue_of_ne slot hi ho hne, List.cons.injEq] at h

/-- A ring with room holds fewer than `n - 1` values, and a full one `n - 1` (R64). -/
theorem ringCount_succ_lt_iff {n i o : Nat} (hi : i < n) (ho : o < n) :
    ringCount n i o + 1 < n ↔ ringNext n i ≠ o := by
  have hlt := ringCount_lt (o := o) hi
  rw [Ne, ringNext_eq_iff hi ho]
  omega

end Ring

/-! ## The two rings of an instance -/

theorem byteWindow_eq_ringWindow (x : Inst) (k i : Nat) :
    byteWindow x k i = ringWindow (byteAt x) x.byteCap k i := by
  induction k generalizing i with
  | zero => rfl
  | succ k ih => rw [byteWindow, ringWindow, ih]

theorem edgeWindow_eq_ringWindow (x : Inst) (k i : Nat) :
    edgeWindow x k i = ringWindow (edgeAt x) x.edgeCap k i := by
  induction k generalizing i with
  | zero => rfl
  | succ k ih => rw [edgeWindow, ringWindow, ih]

theorem byteQueue_eq_ringQueue (x : Inst) : byteQueue x = ringQueue (byteAt x) x.byteCap x.inB x.outB :=
  byteWindow_eq_ringWindow ..

theorem edgeQueue_eq_ringQueue (x : Inst) : edgeQueue x = ringQueue (edgeAt x) x.edgeCap x.inE x.outE :=
  edgeWindow_eq_ringWindow ..

/-- The instance after Enqueue(Q, `b`) into a byte ring that is not full. -/
def storeByte (b : Byte) (x : Inst) : Inst :=
  { x with bytes := cellWrite unwrittenByte x.bytes x.inB b, inB := ringNext x.byteCap x.inB }

/-- The instance after Enqueue(E, `v`) into an edge ring that is not full. -/
def storeEdge (v : Nat) (x : Inst) : Inst :=
  { x with edges := cellWrite unwrittenEdge x.edges x.inE v, inE := ringNext x.edgeCap x.inE }

section Bytes
variable {x : Inst}

theorem enqueueByte_full (b : Byte) (full : ringNext x.byteCap x.inB = x.outB) :
    enqueueByte b x = some (latchByteOvf x) := if_pos full

theorem enqueueByte_room (b : Byte) (hi : x.inB < x.byteCap) (room : ringNext x.byteCap x.inB ≠ x.outB) :
    enqueueByte b x = some (storeByte b x) := (if_neg room).trans (if_pos hi)

theorem byteQueue_storeByte (b : Byte) (hi : x.inB < x.byteCap) (ho : x.outB < x.byteCap)
    (room : ringNext x.byteCap x.inB ≠ x.outB) : byteQueue (storeByte b x) = byteQueue x ++ [b] := by
  have stored : byteAt (storeByte b x) x.inB = b := cellRead_cellWrite_same ..
  have same : ∀ j, j ≠ x.inB → byteAt (storeByte b x) j = byteAt x j := fun _ => cellRead_cellWrite_other _ _ _
  rw [byteQueue_eq_ringQueue, byteQueue_eq_ringQueue]
  exact ringQueue_write hi ho room stored same

/-- Enqueue on the byte ring forms no index outside it and does what a bounded queue does. -/
theorem enqueueByte_pushes (b : Byte) (hi : x.inB < x.byteCap) (ho : x.outB < x.byteCap) :
    ∃ y, enqueueByte b x = some y ∧ x.PushesByte b y := by
  have hroom := ringCount_succ_lt_iff hi ho
  rw [← byteQueue_length] at hroom
  by_cases full : ringNext x.byteCap x.inB = x.outB
  · exact ⟨_, enqueueByte_full b full, rfl, fun h => absurd full (hroom.1 h), fun _ => ⟨rfl, rfl, rfl⟩⟩
  · exact ⟨_, enqueueByte_room b hi full, rfl, fun _ => ⟨byteQueue_storeByte b hi ho full, rfl⟩,
      fun h => absurd (hroom.2 full) h.not_gt⟩

/-- Reading at `outB` and moving it on takes the oldest byte out of the queue. -/
theorem byteQueue_advanceOutB (hi : x.inB < x.byteCap) (ho : x.outB < x.byteCap) {c : Byte} {rest : List Byte}
    (h : byteQueue x = c :: rest) : byteAt x x.outB = c ∧ byteQueue (advanceOutB x) = rest := by
  rw [byteQueue_eq_ringQueue] at h ⊢
  exact ringQueue_eq_cons hi ho h

end Bytes

section Edges
variable {x : Inst}

theorem enqueueEdge_full (v : Nat) (full : ringNext x.edgeCap x.inE = x.outE) :
    enqueueEdge v x = some (latchEdgeOvf x) := if_pos full

theorem enqueueEdge_room (v : Nat) (hi : x.inE < x.edgeCap) (room : ringNext x.edgeCap x.inE ≠ x.outE) :
    enqueueEdge v x = some (storeEdge v x) := (if_neg room).trans (if_pos hi)

theorem edgeQueue_storeEdge (v : Nat) (hi : x.inE < x.edgeCap) (ho : x.outE < x.edgeCap)
    (room : ringNext x.edgeCap x.inE ≠ x.outE) : edgeQueue (storeEdge v x) = edgeQueue x ++ [v] := by
  have stored : edgeAt (storeEdge v x) x.inE = v := cellRead_cellWrite_same ..
  have same : ∀ j, j ≠ x.inE → edgeAt (storeEdge v x) j = edgeAt x j := fun _ => cellRead_cellWrite_other _ _ _
  rw [edgeQueue_eq_ringQueue, edgeQueue_eq_ringQueue]
  exact ringQueue_write hi ho room stored same

/-- Enqueue on the edge ring forms no index outside it and does what a bounded queue does. -/
theorem enqueueEdge_pushes (v : Nat) (hi : x.inE < x.edgeCap) (ho : x.outE < x.edgeCap) :
    ∃ y, enqueueEdge v x = some y ∧ x.PushesEdge v y := by
  have hroom := ringCount_succ_lt_iff hi ho
  rw [← edgeQueue_length] at hroom
  by_cases full : ringNext x.edgeCap x.inE = x.outE
  · exact ⟨_, enqueueEdge_full v full, rfl, fun h => absurd full (hroom.1 h), fun _ => ⟨rfl, rfl, rfl⟩⟩
  · exact ⟨_, enqueueEdge_room v hi full, rfl, fun _ => ⟨edgeQueue_storeEdge v hi ho full, rfl⟩,
      fun h => absurd (hroom.2 full) h.not_gt⟩

/-- Reading at `outE` and moving it on takes the oldest word out of the queue. -/
theorem edgeQueue_advanceOutE (hi : x.inE < x.edgeCap) (ho : x.outE < x.edgeCap) {c : Nat} {rest : List Nat}
    (h : edgeQueue x = c :: rest) : edgeAt x x.outE = c ∧ edgeQueue (advanceOutE x) = rest := by
  rw [edgeQueue_eq_ringQueue] at h ⊢
  exact ringQueue_eq_cons hi ho h

end Edges

/-- Settles O20: each ring appends where it has room, latches where it has none, and gives its oldest value first. -/
theorem ringsAreQueues : Obligations.RingsAreQueues :=
  ⟨fun x b hi ho => ⟨enqueueByte_pushes b hi ho, byteQueue_length x ▸ ringCount_lt hi,
      fun _ _ => byteQueue_advanceOutB hi ho⟩,
    fun x v hi ho => ⟨enqueueEdge_pushes v hi ho, edgeQueue_length x ▸ ringCount_lt hi,
      fun _ _ => edgeQueue_advanceOutE hi ho⟩⟩

end Sys2Proof.Machine
end

section
/-! # Decoding and encoding agree (30_encoding.md R99 to R101)

Each operand reader accepts what the encoder writes and, by the lemmas above on what it accepts, nothing else. So does
the decoder, opcode by opcode. -/

namespace Sys2Proof

/-! ### Operands -/

@[simp] theorem toNat?_num (n : Nat) : (Operand.num n).toNat? = some n := by simp [Operand.toNat?]

@[simp] theorem toBool?_ofBool (b : Bool) : (ofBool b).toBool? = some b := by cases b <;> rfl

@[simp] theorem toCallback?_ofCallback (cb : Option Nat) : (ofCallback cb).toCallback? = some cb := by
  cases cb with
  | none => rfl
  | some n => simp [ofCallback, Operand.toCallback?]

@[simp] theorem toEvent?_ofEvent (ev : EdgeEvent) : (ofEvent ev).toEvent? = some ev := by
  cases ev with
  | packed w => simp [ofEvent, Operand.toEvent?]
  | pair ts level => cases level <;> simp [ofEvent, Operand.toEvent?]

/-- A reader of one operand that accepts only what `write` gives reads a list of one operand only as its own writing. -/
theorem oneOperand_some {α : Type} {read : Operand → Option α} {write : α → Operand}
    (hread : ∀ {a v}, read a = some v → a = write v) {mk : α → Instr} {P : List Operand → Instr → Prop}
    (hmk : ∀ v, P [write v] (mk v)) {a : Operand} {i : Instr} (h : (read a).map mk = some i) : P [a] i := by
  obtain ⟨v, hv, rfl⟩ := Option.map_eq_some_iff.1 h
  exact hread hv ▸ hmk v

/-! ### Opcodes and operand lists -/

theorem opcodeAssigned_opcode (i : Instr) : opcodeAssigned i.opcode.toNat = true := by cases i <;> rfl

/-- The host's opcodes are those of the operations it may issue (R103). -/
theorem opcodeHostIssuable_opcode (i : Instr) : opcodeHostIssuable i.opcode.toNat = i.hostIssuable := by
  cases i <;> rfl

theorem decodeOperands_operands (i : Instr) : decodeOperands i.opcode.toNat i.target i.operands = some i := by
  cases i with
  | write s bytes =>
    exact congrArg (Option.map (Instr.write s)) (bytesOfInts_map bytes)
  | _ => simp [decodeOperands, Instr.opcode, Instr.target, Instr.operands, Operand.toInt?]

/-- `op`, `s` and `args` are what the encoder writes for `i`. -/
def PartsOf (op s : Nat) (args : List Operand) (i : Instr) : Prop :=
  op = i.opcode.toNat ∧ s = i.target ∧ args = i.operands

theorem decodeOperands_some {op s : Nat} {args : List Operand} {i : Instr} (h : decodeOperands op s args = some i) :
    PartsOf op s args i := by
  unfold decodeOperands at h
  split at h
  case h_1 =>
    split at h
    · next rx tx inv nb ne hrx htx hinv hnb hne =>
      cases h
      rw [toNat_some hrx, toNat_some htx, toBool_some hinv, toNat_some hnb, toNat_some hne]
      exact ⟨rfl, rfl, rfl⟩
    · cases h
  case h_2 => exact oneOperand_some toInt_some (fun _ => ⟨rfl, rfl, rfl⟩) h
  case h_5 | h_6 => exact oneOperand_some toBool_some (fun _ => ⟨rfl, rfl, rfl⟩) h
  case h_14 => exact oneOperand_some toCallback_some (fun _ => ⟨rfl, rfl, rfl⟩) h
  case h_16 => exact oneOperand_some toBytes_some (fun _ => ⟨rfl, rfl, rfl⟩) h
  case h_19 => exact oneOperand_some toEvent_some (fun _ => ⟨rfl, rfl, rfl⟩) h
  case h_7 | h_21 | h_22 => exact oneOperand_some toNat_some (fun _ => ⟨rfl, rfl, rfl⟩) h
  case h_23 => cases h
  all_goals
    -- the operations without operands
    cases h
    exact ⟨rfl, rfl, rfl⟩

/-! ### Commands -/

theorem decode_encode (i : Instr) : decode (encode i) = .ok i := by
  simp [decode, encode, opcodeAssigned_opcode, decodeOperands_operands]

theorem decode_of_eq_encode {c : Command} {i : Instr} (h : c = encode i) : decode c = .ok i := h ▸ decode_encode i

theorem eq_encode_of_decode {c : Command} {i : Instr} (h : decode c = .ok i) : c = encode i := by
  unfold decode at h
  split at h
  · split at h
    · next hd =>
      cases h
      obtain ⟨hop, hinst, hargs⟩ := decodeOperands_some hd
      obtain ⟨op, inst, args⟩ := c
      exact congr (congr (congrArg Command.mk (BitVec.eq_of_toNat_eq hop)) hinst) hargs
    · cases h
  · cases h

/-- Settles O1: every operand reader accepts exactly what the encoder writes, and opcodes tell the operations apart but
for the two forms of SYNTH_STOP, which differ in the number of operands. -/
theorem decodeEncodeAgree : Obligations.DecodeEncodeAgree := fun _ _ =>
  ⟨eq_encode_of_decode, decode_of_eq_encode⟩

/-- Settles O2: the commands that stand for an operation are written as its encoding, and the decoder computes the two
that stand for none. -/
theorem decodedCommands : Obligations.DecodedCommands :=
  ⟨decode_of_eq_encode rfl, decode_of_eq_encode rfl, decode_of_eq_encode rfl, decode_of_eq_encode rfl,
    decode_of_eq_encode rfl, decode_of_eq_encode rfl, decode_of_eq_encode rfl, rfl, rfl⟩

end Sys2Proof
end

section
/-! # What a command of the host's main line does in a step (60_exceptions.md R297, R305) -/

namespace Sys2Proof.Machine

/-- Where no input change has come due and no capture runs, the step issues the command whose time has come. -/
theorem step_issues {s : State} {c : HostCommand} {rest : List HostCommand} (hf : s.fault = none)
    (hn : nextCapture (s.tau + 1) s = none) (hi : ∀ e ∈ s.inputs.head?, s.tau < e.time)
    (hq : s.hostQueue = c :: rest) (ht : c.time ≤ s.tau) : step s = issue exec c { s with hostQueue := rest } := by
  have main : captureOr exec (hostStep exec) s = issue exec c { s with hostQueue := rest } := by
    rw [captureOr_none hn, hostStep, hq]
    exact if_pos ht
  cases hin : s.inputs with
  | nil => simpa [step, stepWith, hf, hin] using main
  | cons e es =>
    have he : ¬ e.time ≤ s.tau := Nat.not_le_of_lt (hi e (by simp [hin]))
    simpa [step, stepWith, hf, hin, he] using main

/-- An operation that is not the host's raises `Fault(UNKNOWN_OPCODE)` before any other check (30_encoding.md R103). -/
theorem exec_notHostIssuable {i : Instr} {s : State} (h : i.hostIssuable = false) (hf : s.fault = none)
    (hs : s.issuer = .host) : exec i s = .next (s.raise .unknownOpcode) := by
  have internal (id : Nat) (body : State → State) :
      internalOperation id body s = .next (s.raise .unknownOpcode) := by
    simp [internalOperation, hf, hs]
  cases i with
  | capture id => exact internal ..
  | rxbits id => exact internal ..
  | replayEdge id ev => exact internal ..
  | synthStop id => exact internal ..
  | synthStopAt id now => exact internal ..
  | waitBitCycles id d => exact internal ..
  | _ => cases h

/-- A command that decodes is issued as its instruction, also where that instruction is not the host's to issue. -/
theorem issue_decodes {c : HostCommand} {s : State} {i : Instr} (hf : s.fault = none) (hd : decode c.cmd = .ok i) :
    issue exec c s = exec i { s with ctx := c.ctx, issuer := .host } := by
  have hop : opcodeHostIssuable c.cmd.op.toNat = i.hostIssuable := by
    rw [eq_encode_of_decode hd]
    exact opcodeHostIssuable_opcode i
  cases hi : i.hostIssuable with
  | true => exact issue_decoded (hop.trans hi) hd
  | false =>
    rw [issue_notHostIssuable (hop.trans hi)]
    exact (exec_notHostIssuable (s := { s with ctx := c.ctx, issuer := .host }) hi hf rfl).symm

/-- Settles O5: the step issues the command, and what it decodes to is the operation. -/
theorem stepRunsDecoded : Obligations.StepRunsDecoded := by
  rintro s s' c rest i hf hn hi hq ht hd rfl
  rw [step_issues hf hn hi hq ht]
  exact issue_decodes hf hd

/-- No postponed capture is due before the next cycle. -/
theorem dueCaptures_presentCommand (cmd : Command) (s : State) :
    dueCaptures (s.tau + 1) (presentCommand cmd s) = [] := by
  refine List.filterMap_eq_nil_iff.2 fun e he => ?_
  obtain ⟨e, -, rfl⟩ := List.mem_map.1 he
  cases hd : e.2.due with
  | none => simp [postponeDue, hd]
  | some d =>
    simp [postponeDue, hd, presentCommand]

/-- The step runs a command that has been presented to it. -/
theorem step_presentCommand {cmd : Command} {s : State} {i : Instr} (hf : s.fault = none) (hd : decode cmd = .ok i) :
    step (presentCommand cmd s) =
      exec i { presentCommand cmd s with hostQueue := s.hostQueue, ctx := .normal, issuer := .host } := by
  refine stepRunsDecoded (presentCommand cmd s) _ ⟨s.tau, .normal, 0, cmd⟩ s.hostQueue i hf ?_ ?_ rfl (Nat.le_refl _)
    hd rfl
  · show nextCapture (s.tau + 1) _ = none
    simp [nextCapture, dueCaptures_presentCommand, firstDue]
  · intro e he
    obtain ⟨e, -, rfl⟩ := List.mem_map.1 (List.mem_of_mem_head? he)
    exact Nat.lt_of_succ_le (Nat.le_max_left ..)

theorem decode_presentedWord {nbits w : Nat} {i : Instr} (h : decodeTableWord nbits w = some i) :
    decode (presentedWord nbits w) = .ok i := by
  unfold decodeTableWord at h
  split at h
  · next hw =>
    rw [presentedWord, if_pos hw]
    split at h
    · next hd => exact Option.some.inj h ▸ hd
    · cases h
  · cases h

/-- Settles O7: the word is presented as a command that nothing goes before. -/
theorem fetchedWordRuns : Obligations.FetchedWordRuns := fun _ _ _ _ hf hw =>
  step_presentCommand hf (decode_presentedWord hw)

/-- A command with an opcode that the host may not issue raises `Fault(UNKNOWN_OPCODE)` and does nothing else. -/
theorem step_notHostIssuable {s : State} {c : HostCommand} {rest : List HostCommand} (hf : s.fault = none)
    (hn : nextCapture (s.tau + 1) s = none) (hi : ∀ e ∈ s.inputs.head?, s.tau < e.time)
    (hq : s.hostQueue = c :: rest) (ht : c.time ≤ s.tau) (hop : opcodeHostIssuable c.cmd.op.toNat = false) :
    step s = .next { s with hostQueue := rest, ctx := c.ctx, issuer := .host, fault := some .unknownOpcode } :=
  (step_issues hf hn hi hq ht).trans (issue_notHostIssuable hop)

/-- Settles O8: an opcode outside the map is none of the host's. -/
theorem unassignedOpcodesFault : Obligations.UnassignedOpcodesFault := by
  rintro s s' c rest hf hn hi hq ht hop rfl
  refine step_notHostIssuable hf hn hi hq ht ?_
  simp only [List.mem_cons, List.not_mem_nil, or_false, not_or] at hop
  simp only [opcodeHostIssuable, opcodeAssigned, Bool.and_eq_false_iff, Bool.or_eq_false_iff, decide_eq_false_iff_not,
    beq_eq_false_iff_ne]
  omega

/-- Settles O9: the operations 0x40 to 0x44 refuse the host as their issuer, and a command with such an opcode does not
come to its operands. -/
theorem internalOpcodesFault : Obligations.InternalOpcodesFault := by
  constructor
  · intro s i hf hs hop
    refine exec_notHostIssuable ?_ hf hs
    rw [← opcodeHostIssuable_opcode, opcodeHostIssuable]
    have hlt : ¬ (encode i).op.toNat ≤ 0x20 := by omega
    exact (Bool.and_eq_false_iff).2 (.inr (decide_eq_false hlt))
  · rintro s s' c rest hf hn hi hq ht hop - rfl
    have hlt : ¬ c.cmd.op.toNat ≤ 0x20 := by omega
    exact step_notHostIssuable hf hn hi hq ht ((Bool.and_eq_false_iff).2 (.inr (decide_eq_false hlt)))

end Sys2Proof.Machine
end

section
/-! # The EdgeEvent word and the frames of a byte stream (30_encoding.md R90 to R96) -/

namespace Sys2Proof.Machine

/-! ### The EdgeEvent word -/

/-- Clearing bit 0 leaves the even number below (R92). -/
theorem tsOf_toNat {n : Nat} (c : BitVec n) : tsOf c.toNat = (c &&& ~~~1#n).toNat := by
  have shifted : tsOf c.toNat = c.toNat >>> 1 <<< 1 := by
    rw [tsOf, Nat.shiftLeft_eq, Nat.shiftRight_eq_div_pow]
    omega
  rw [shifted]
  refine Nat.eq_of_testBit_eq fun i => ?_
  rw [BitVec.testBit_toNat, BitVec.getLsbD_and, BitVec.getLsbD_not, BitVec.getLsbD_one, Nat.testBit_shiftLeft,
    Nat.testBit_shiftRight, BitVec.testBit_toNat]
  cases i with
  | zero => simp
  | succ i =>
    by_cases hi : i + 1 < n
    · simp [hi, Nat.add_comm 1 i]
    · simp [hi, Nat.add_comm 1 i, BitVec.getLsbD_of_ge c (i + 1) (by omega)]

theorem packEdge_eq_tsOf_add (v : Nat) (level : Bool) : packEdge v level = tsOf v + if level then 0 else 1 := rfl

theorem packEdge_toNat {n : Nat} (hn : 0 < n) (c : BitVec n) (level : Bool) :
    packEdge c.toNat level = ((c &&& ~~~1#n) ||| (if level then 0#n else 1#n)).toNat := by
  have even : (c &&& ~~~1#n).toNat = 2 * ((c &&& ~~~1#n).toNat / 2) := by
    rw [← tsOf_toNat, tsOf]
    omega
  rw [packEdge_eq_tsOf_add, tsOf_toNat, BitVec.toNat_or]
  cases level with
  | true => simp
  | false =>
    have one : (1#n).toNat = 1 := Nat.mod_eq_of_lt (Nat.one_lt_two_pow hn.ne')
    rw [if_neg Bool.false_ne_true, if_neg Bool.false_ne_true, one, even]
    exact Nat.two_pow_add_eq_or_of_lt (i := 1) (b := 1) (by decide) _

theorem levelOf_toNat {n : Nat} (c : BitVec n) (invert : Bool) :
    levelOf invert c.toNat = xor (!c.getLsbD 0) invert := by
  rw [levelOf, ← BitVec.testBit_toNat, Nat.testBit_zero]
  cases Nat.mod_two_eq_zero_or_one c.toNat with
  | inl h => simp [h]
  | inr h => simp [h]

theorem tsOf_packEdge (v : Nat) (level : Bool) : tsOf (packEdge v level) = tsOf v := by
  cases level <;> simp only [tsOf, packEdge, if_true, Bool.false_eq_true, if_false] <;> omega

theorem levelOf_packEdge (v : Nat) (level invert : Bool) : levelOf invert (packEdge v level) = xor level invert := by
  have parity : packEdge v level % 2 = if level then 0 else 1 := by
    cases level <;> simp only [packEdge, if_true, Bool.false_eq_true, if_false] <;> omega
  rw [levelOf, parity]
  cases level <;> rfl

/-- Settles O3: what holds of a word of any width holds of words of 32 and of 64 bits. -/
theorem edgeEventWords : Obligations.EdgeEventWords :=
  have word {n : Nat} (hn : 0 < n) (c : BitVec n) (level invert : Bool) :=
    And.intro (packEdge_toNat hn c level) (And.intro (tsOf_toNat c) (And.intro (levelOf_toNat c invert)
      (And.intro (tsOf_packEdge c.toNat level) (levelOf_packEdge c.toNat level invert))))
  ⟨word (by decide), word (by decide)⟩

/-! ### The slots of a byte stream -/

/-- The first frame gives the first ten slots. -/
theorem numberSlots_frame (j : Nat) (b : Byte) (bs : List Byte) :
    numberSlots j 0 (frame b) = (List.range 10).map fun k => (j + k / 10, k % 10, slotLevel (b :: bs) k) := rfl

/-- The slots of the later bytes of a stream are its own slots from 10 on. -/
theorem slotLevel_cons_add (b : Byte) (bs : List Byte) (k : Nat) : slotLevel (b :: bs) (10 + k) = slotLevel bs k := by
  have hdiv : (10 + k) / 10 = k / 10 + 1 := by omega
  have hmod : (10 + k) % 10 = k % 10 := by omega
  rw [slotLevel, slotLevel, hdiv, hmod, List.getElem?_cons_succ]

/-- The first byte of the stream has index `j`. -/
theorem frameSlots_eq_map (j : Nat) (bytes : List Byte) :
    frameSlots j bytes =
      (List.range (10 * bytes.length)).map fun k => (j + k / 10, k % 10, slotLevel bytes k) := by
  induction bytes generalizing j with
  | nil => rfl
  | cons b bs ih =>
    have rest : ∀ k, (j + (10 + k) / 10, (10 + k) % 10, slotLevel (b :: bs) (10 + k)) =
        (j + 1 + k / 10, k % 10, slotLevel bs k) := by
      intro k
      rw [slotLevel_cons_add]
      refine Prod.ext ?_ (Prod.ext ?_ rfl) <;> simp only <;> omega
    rw [List.length_cons, Nat.mul_succ, Nat.add_comm, List.range_add, List.map_append, List.map_map, frameSlots, ih,
      numberSlots_frame j b bs]
    exact congrArg _ (List.map_congr_left fun k _ => (rest k).symm)

/-- Settles O4: the stream of all bytes, of which the first has index 0. -/
theorem frameSlots_spec : Obligations.FrameSlots := fun bytes => by
  simpa using frameSlots_eq_map 0 bytes

/-! ### The slots one by one -/

section
variable {bytes : List Byte} {k m : Nat} {b : Byte}

theorem slotLevel_eq (hb : bytes[k / 10]? = some b) :
    slotLevel bytes k = if k % 10 = 0 then false else if k % 10 = 9 then true else b.getLsbD (k % 10 - 1) := by
  rw [slotLevel, hb]

theorem exists_byte (hm : m < 10 * bytes.length) : ∃ b, bytes[m / 10]? = some b :=
  ⟨_, List.getElem?_eq_getElem (Nat.div_lt_of_lt_mul hm)⟩

theorem slotLevel_start (hm : m < 10 * bytes.length) (h0 : m % 10 = 0) : slotLevel bytes m = false := by
  obtain ⟨b, hb⟩ := exists_byte hm
  rw [slotLevel_eq hb, if_pos h0]

theorem slotLevel_stop (hm : m < 10 * bytes.length) (h9 : m % 10 = 9) : slotLevel bytes m = true := by
  obtain ⟨b, hb⟩ := exists_byte hm
  rw [slotLevel_eq hb, if_neg (by omega), if_pos h9]

/-- The slots of the data bits that come after slot `k` in its byte. -/
theorem slotLevel_data {t : Nat} (hb : bytes[k / 10]? = some b) (ht : k % 10 + t < 8) :
    slotLevel bytes (k + t + 1) = b.getLsbD (k % 10 + t) := by
  rw [slotLevel_eq (b := b) (by rw [show (k + t + 1) / 10 = k / 10 by omega, hb]), if_neg (by omega),
    if_neg (by omega), show (k + t + 1) % 10 - 1 = k % 10 + t by omega]

/-- The level before slot `m`, "slot -1 being the idle level 1" (30_encoding.md R97). -/
def levelBefore (bytes : List Byte) (m : Nat) : Bool := if m = 0 then true else slotLevel bytes (m - 1)

theorem levelBefore_succ (bytes : List Byte) (m : Nat) : levelBefore bytes (m + 1) = slotLevel bytes m := rfl

theorem slotFlips_eq (bytes : List Byte) (m : Nat) :
    slotFlips bytes m = (slotLevel bytes m != levelBefore bytes m) := rfl

/-- A start bit always changes the line: a stop bit or the idle level stands before it. -/
theorem slotFlips_start (hm : m < 10 * bytes.length) (h0 : m % 10 = 0) : slotFlips bytes m = true := by
  have high : levelBefore bytes m = true := by
    cases m with
    | zero => rfl
    | succ m => exact slotLevel_stop (by omega) (by omega)
  rw [slotFlips_eq, slotLevel_start hm h0, high]
  rfl

/-- The slots below `m` at which the line changes. -/
def flipsBelow (bytes : List Byte) (m : Nat) : List Nat := (List.range m).filter (slotFlips bytes)

theorem flipsBelow_succ (bytes : List Byte) (m : Nat) :
    flipsBelow bytes (m + 1) = flipsBelow bytes m ++ if slotFlips bytes m then [m] else [] := by
  rw [flipsBelow, List.range_succ, List.filter_append, ← flipsBelow]
  cases hf : slotFlips bytes m <;> simp [hf]

end

end Sys2Proof.Machine
end

section
/-! # One edge replayed (41_decoder.md R143 to R151)

Where half a bit period and `c` cycles more have passed since the last accepted edge, the decoder first repeats the last
level for `c / B` bits. Either the edge's own level is a data bit then, or the byte has been filled before, is enqueued,
and the edge is at most the next start bit. -/

namespace Sys2Proof.Machine

/-! ### The loop of REPLAY_EDGE -/

/-- `ts` is `d` cycles after `last`. -/
theorem subW_eq {w : Width} {ts last d : Nat} (hd : d < w.modulus) (h : ts % w.modulus = (last + d) % w.modulus) :
    subW w ts last = d := by
  unfold subW
  cases w <;> simp only [Width.modulus] at * <;> omega

theorem subW_wrap {w : Width} {a d : Nat} (hd : d < w.modulus) : subW w (wrap w (a + d)) (wrap w a) = d := by
  refine subW_eq hd ?_
  rw [wrap, wrap, Nat.mod_mod, Nat.mod_add_mod]

theorem subW_addW {w : Width} {a d : Nat} (hd : d < w.modulus) : subW w (addW w a d) a = d :=
  subW_eq hd (Nat.mod_mod ..)

section
variable {w : Width} {ts c : Nat} {level : Bool} {x : Inst}

/-- An idle decoder takes every edge (R145, R152). -/
theorem replayEdge_idle (h : x.curBit = 8) :
    replayEdge w ts level x = some (idleStep level { x with lastTs := ts }) := by
  simp [replayEdge, replayLoop, h]

/-- An edge that is not too close is accepted (R145, R146). -/
theorem replayEdge_accepts (h : subW w ts x.lastTs = x.bitPeriod / 2 + c) :
    replayEdge w ts level x = replayLoop 10 level c { x with lastTs := ts } := by
  have hc : ((subW w ts x.lastTs : Nat) : Int) - (x.bitPeriod / 2 : Nat) = c := by omega
  simp only [replayEdge, hc]
  exact if_neg fun hneg => absurd hneg.1 (by omega)

theorem hiddenCount_eq (h7 : x.curBit ≤ 7) :
    hiddenCount x c = min (c / x.bitPeriod) (7 - x.curBit).toNat := by
  rw [hiddenCount, ← Int.natCast_ediv]
  split
  · rcases le_total ((c / x.bitPeriod : Nat) : Int) (7 - x.curBit) with hle | hle
    · rw [min_eq_left hle, min_eq_left (by omega), Int.toNat_natCast]
    · rw [min_eq_right hle, min_eq_right (by omega)]
  · next hlt =>
    rw [Nat.div_eq_of_lt (by omega)]
    exact (Nat.zero_min _).symm

/-- Fewer hidden bits than the byte lacks: the edge's level is a data bit, and the cycles are used up (R148, R150). -/
theorem replayLoop_takesBit (n : Nat) {h : Nat} (hb : 1 ≤ x.bitPeriod) (hlo : -1 ≤ x.curBit)
    (hh : c / x.bitPeriod = h) (hlt : x.curBit + h < 7) :
    replayLoop (n + 1) level c x = some (shiftExplicit level (shiftHidden h x)) := by
  have count : hiddenCount x c = h := by
    rw [hiddenCount_eq (by omega), hh]
    omega
  have left : (c : Int) - h * x.bitPeriod - x.bitPeriod < 0 := by
    have := Nat.lt_div_mul_add (a := c) hb
    rw [hh] at this
    rw [← Int.natCast_mul]
    omega
  have step : dataStep level c x =
      (shiftExplicit level (shiftHidden h x), (c : Int) - h * x.bitPeriod - x.bitPeriod) := by
    simp only [dataStep, count]
    exact if_pos hlt
  rw [replayLoop, if_pos ⟨hlo, by omega⟩, step]
  exact if_pos left

/-- A full accumulator is enqueued, and where a bit period is left the edge may be the next start bit (R151). -/
theorem replayLoop_full (n : Nat) {cycles : Int} {z : Inst} (h7 : x.curBit = 7) (hz : finalizeStep x = some z)
    (h8 : z.curBit = 8) :
    replayLoop (n + 2) level cycles x = some (if cycles < x.bitPeriod then z else idleStep level z) := by
  rw [replayLoop, if_neg (by omega), if_pos h7, hz]
  simp only [sub_neg]
  split
  · rfl
  · simp [replayLoop, h8]

/-- Hidden bits enough to fill the byte: it is enqueued (R148, R151, R153). -/
theorem replayLoop_fills (n : Nat) {g : Nat} {z : Inst} (hb : 1 ≤ x.bitPeriod) (hlo : -1 ≤ x.curBit)
    (hg : x.curBit + g = 7) (hc : g * x.bitPeriod ≤ c) (hz : finalizeStep (shiftHidden g x) = some z)
    (h8 : z.curBit = 8) :
    replayLoop (n + 3) level c x = some (if c < (g + 1) * x.bitPeriod then z else idleStep level z) := by
  have threshold : (c : Int) - (g * x.bitPeriod : Nat) < x.bitPeriod ↔ c < (g + 1) * x.bitPeriod := by
    rw [Nat.succ_mul]
    omega
  cases g with
  | zero =>
    have hx : shiftHidden 0 x = x := by
      cases hm : x.curByte.msb <;> simp [shiftHidden, hiddenFill, hm]
    rw [hx] at hz
    rw [replayLoop_full (n + 1) (by omega) hz h8]
    simp
  | succ g =>
    have hh : hiddenCount x c = g + 1 := by
      have := (Nat.le_div_iff_mul_le hb).2 hc
      rw [hiddenCount_eq (by omega)]
      omega
    have full : (shiftHidden (g + 1) x).curBit = 7 := hg
    have step : dataStep level c x = (shiftHidden (g + 1) x, (c : Int) - ((g + 1) * x.bitPeriod : Nat)) := by
      simp only [dataStep, hh, Int.natCast_mul]
      exact if_neg (by omega)
    have hc' : ¬ (c : Int) - ((g + 1) * x.bitPeriod : Nat) < 0 := by omega
    rw [replayLoop, if_pos ⟨hlo, by omega⟩, step]
    simp only [if_neg hc', replayLoop_full n full hz h8]
    exact congrArg some (if_congr threshold rfl rfl)

end

/-! ### The accumulator -/

/-- The accumulator holds the lowest `i` bits of `b` in its highest places. Shifting in `h` bits that are all `level`, as
the next `h` bits of `b` are, it holds `i + h` of them (R148 to R150). -/
theorem shiftIn_bits {b : Byte} {i h : Nat} {level : Bool} (hi : i + h ≤ 8)
    (hl : ∀ t, t < h → b.getLsbD (i + t) = level) :
    ((b <<< (8 - i)) >>> h) ||| hiddenFill level h = b <<< (8 - (i + h)) := by
  have fill (p : Nat) (hp : p < 8) : (hiddenFill level h).getLsbD p = (level && decide (8 ≤ p + h)) := by
    cases level with
    | false => simp [hiddenFill]
    | true =>
      have ones : (0xFF#8).getLsbD (p - (8 - h)) = true := by
        rw [show (0xFF#8) = BitVec.allOnes 8 from rfl, BitVec.getLsbD_allOnes]
        exact decide_eq_true (by omega)
      simp only [hiddenFill, if_true, BitVec.getLsbD_shiftLeft, ones, Bool.and_true, Bool.true_and, hp, decide_true]
      by_cases hq : 8 ≤ p + h
      · simp [hq, show ¬ p < 8 - h by omega]
      · simp [hq, show p < 8 - h by omega]
  refine BitVec.eq_of_getLsbD_eq fun p hp => ?_
  rw [BitVec.getLsbD_or, BitVec.getLsbD_ushiftRight, fill p hp, BitVec.getLsbD_shiftLeft, BitVec.getLsbD_shiftLeft]
  by_cases hq : 8 ≤ p + h
  · have bit : b.getLsbD (p - (8 - (i + h))) = level := by
      rw [show p - (8 - (i + h)) = i + (p + h - 8) by omega]
      exact hl _ (by omega)
    simp [hq, hp, bit, show ¬ h + p < 8 by omega, show ¬ p < 8 - (i + h) by omega]
  · have place : h + p - (8 - i) = p - (8 - (i + h)) := by omega
    have below : h + p < 8 - i ↔ p < 8 - (i + h) := by omega
    simp [hq, hp, place, below, show h + p < 8 by omega]

theorem explicitBit_eq_hiddenFill (level : Bool) : (if level then 0x80#8 else 0#8) = hiddenFill level 1 := by
  cases level <;> rfl

/-! ### A completed byte -/

theorem byteQueue_congr {x y : Inst} (hb : y.bytes = x.bytes) (hc : y.byteCap = x.byteCap) (hi : y.inB = x.inB)
    (ho : y.outB = x.outB) : byteQueue y = byteQueue x := by
  rw [byteQueue, byteQueue, hc, hi, ho]
  exact byteWindow_congr hb hc ..

/-- The instance after a finalize step with room in the byte ring (R151). -/
def finishByte (x : Inst) : Inst := { storeByte x.curByte x with curByte := 0#8, curBit := 8 }

theorem finalizeStep_room {x : Inst} (hi : x.inB < x.byteCap) (room : ringNext x.byteCap x.inB ≠ x.outB) :
    finalizeStep x = some (finishByte x) := by
  rw [finalizeStep, enqueueByte_room _ hi room]
  rfl

end Sys2Proof.Machine
end

section
/-! # A waveform received (41_decoder.md R156, R160; 30_encoding.md R97, R98)

Between two edges the decoder lags behind the line: after the edge of slot `k` it has taken the data bits of its byte up
to that slot and no more. The next edge, or the synthesized stop edge, brings it the bits the line has held since
(`Inst.Lags`). -/

namespace Sys2Proof.Machine

/-- The byte ring of `y` holds what that of `x` held, and then `sent`; the ring and the bit period are those of `x`. -/
structure Inst.Queued (x : Inst) (sent : List Byte) (y : Inst) : Prop where
  period : y.bitPeriod = x.bitPeriod
  cap : y.byteCap = x.byteCap
  inB : y.inB < y.byteCap
  outB : y.outB < y.byteCap
  queue : byteQueue y = byteQueue x ++ sent

/-- `y` has decoded `sent` since `x` and is idle. -/
structure Inst.IdleAfter (x : Inst) (sent : List Byte) (y : Inst) : Prop where
  queued : x.Queued sent y
  curBit : y.curBit = 8
  curByte : y.curByte = 0#8

/-- The last edge `y` has taken is that of slot `i` of byte `b`, the start bit or a data bit, at the counter value `ts`;
before `b` it has decoded `sent`. -/
structure Inst.InByte (x : Inst) (sent : List Byte) (b : Byte) (i ts : Nat) (y : Inst) : Prop where
  queued : x.Queued sent y
  curBit : y.curBit = (i : Int) - 1
  curByte : y.curByte = b <<< (8 - i)
  lastTs : y.lastTs = ts

section
variable {x y : Inst} {sent : List Byte} {b : Byte} {i ts : Nat}

/-- The decoder's own registers are free. -/
theorem Inst.Queued.congr (h : x.Queued sent y) {z : Inst} (hp : z.bitPeriod = y.bitPeriod := by exact rfl)
    (hb : z.bytes = y.bytes := by exact rfl) (hc : z.byteCap = y.byteCap := by exact rfl)
    (hi : z.inB = y.inB := by exact rfl) (ho : z.outB = y.outB := by exact rfl) : x.Queued sent z :=
  ⟨hp.trans h.period, hc.trans h.cap, hi ▸ hc ▸ h.inB, ho ▸ hc ▸ h.outB,
    (byteQueue_congr hb hc hi ho).trans h.queue⟩

theorem Inst.Queued.finishByte (h : x.Queued sent y) (room : (byteQueue x).length + sent.length + 1 < x.byteCap) :
    finalizeStep y = some (finishByte y) ∧ x.IdleAfter (sent ++ [y.curByte]) (Machine.finishByte y) := by
  have free : ringNext y.byteCap y.inB ≠ y.outB := by
    rw [← ringCount_succ_lt_iff h.inB h.outB, ← byteQueue_length, h.queue, List.length_append, h.cap]
    exact room
  refine ⟨finalizeStep_room h.inB free, ⟨h.period, h.cap, ringNext_lt h.inB, h.outB, ?_⟩, rfl, rfl⟩
  have stored : byteQueue (Machine.finishByte y) = byteQueue (storeByte y.curByte y) := byteQueue_congr rfl rfl rfl rfl
  rw [stored, byteQueue_storeByte _ h.inB h.outB free, h.queue, List.append_assoc]

theorem Inst.IdleAfter.setLastTs (h : x.IdleAfter sent y) (ts : Nat) : x.IdleAfter sent { y with lastTs := ts } :=
  ⟨h.queued.congr, h.curBit, h.curByte⟩

/-- A start level begins a byte, of which no bit has been taken (R152). -/
theorem Inst.IdleAfter.starts (h : x.IdleAfter sent y) (b : Byte) :
    x.InByte sent b 0 y.lastTs (idleStep false y) :=
  ⟨h.queued.congr, rfl, h.curByte.trans (by simp [BitVec.shiftLeft_eq_zero]), rfl⟩

/-- The level that hidden bits repeat is that of the last edge (R149). -/
theorem Inst.InByte.msb (h : x.InByte sent b i ts y) (hi : i ≤ 8) :
    y.curByte.msb = if i = 0 then false else b.getLsbD (i - 1) := by
  rw [h.curByte, BitVec.msb_eq_getLsbD_last, BitVec.getLsbD_shiftLeft]
  split
  · next h0 => simp [h0]
  · simp [show ¬ 7 < 8 - i by omega, show 7 - (8 - i) = i - 1 by omega]

/-- Hidden bits that repeat the last level, as the byte does. -/
theorem Inst.InByte.shiftHidden {g : Nat} (h : x.InByte sent b i ts y) (hg : i + g ≤ 8)
    (held : ∀ t, t < g → b.getLsbD (i + t) = y.curByte.msb) (ts' : Nat) :
    x.InByte sent b (i + g) ts' (Machine.shiftHidden g { y with lastTs := ts' }) := by
  refine ⟨h.queued.congr, ?_, ?_, rfl⟩
  · show y.curBit + g = _
    rw [h.curBit]
    omega
  · rw [← shiftIn_bits hg held, ← h.curByte]
    rfl

theorem Inst.InByte.shiftExplicit (h : x.InByte sent b i ts y) (hi : i < 8) :
    x.InByte sent b (i + 1) ts (Machine.shiftExplicit (b.getLsbD i) y) := by
  refine ⟨h.queued.congr, ?_, ?_, h.lastTs⟩
  · show y.curBit + 1 = _
    rw [h.curBit]
    omega
  · rw [← shiftIn_bits (i := i) (h := 1) hi fun t ht => by rw [show t = 0 by omega, Nat.add_zero],
      ← explicitBit_eq_hiddenFill, ← h.curByte]
    rfl

variable {w : Width} {ts' : Nat}

/-- An edge `n + 1` slots after the last one, and not after the last data bit, is `n + 1` data bits: the deviation is 0
(R160). -/
theorem Inst.InByte.takesBits {n : Nat} (h : x.InByte sent b i ts y) (hB : 2 ≤ x.bitPeriod)
    (hts : subW w ts' ts = (n + 1) * x.bitPeriod) (hn : i + n < 8)
    (held : ∀ t, t < n → b.getLsbD (i + t) = y.curByte.msb) :
    ∃ z, replayEdge w ts' (b.getLsbD (i + n)) y = some z ∧ x.InByte sent b (i + n + 1) ts' z := by
  obtain ⟨hp, hbit, hlast⟩ := And.intro h.queued.period (And.intro h.curBit h.lastTs)
  have hidden := h.shiftHidden (by omega) held ts'
  refine ⟨_, ?_, hidden.shiftExplicit hn⟩
  have hc : subW w ts' y.lastTs = y.bitPeriod / 2 + ((n + 1) * y.bitPeriod - y.bitPeriod / 2) := by
    rw [hlast, hts, hp, Nat.succ_mul]
    omega
  rw [replayEdge_accepts hc]
  refine replayLoop_takesBit (x := { y with lastTs := ts' }) 9 ?_ ?_ ?_ ?_
  · show 1 ≤ y.bitPeriod
    omega
  · show -1 ≤ y.curBit
    omega
  · show ((n + 1) * y.bitPeriod - y.bitPeriod / 2) / y.bitPeriod = n
    rw [hp]
    refine Nat.div_eq_of_lt_le ?_ ?_ <;> rw [Nat.succ_mul] <;> omega
  · show y.curBit + n < 7
    omega

/-- The edge that comes after the last data bit, sent or synthesized: the byte is complete (R151, R156). -/
theorem Inst.InByte.completes {c : Nat} {level : Bool} (h : x.InByte sent b i ts y) (hB : 1 ≤ x.bitPeriod)
    (room : (byteQueue x).length + sent.length + 1 < x.byteCap)
    (hts : subW w ts' ts = x.bitPeriod / 2 + c) (hi : i ≤ 8) (hc : (8 - i) * x.bitPeriod ≤ c)
    (held : ∀ t, t < 8 - i → b.getLsbD (i + t) = y.curByte.msb) :
    ∃ z, x.IdleAfter (sent ++ [b]) z ∧ z.lastTs = ts' ∧
      replayEdge w ts' level y = some (if c < (8 - i + 1) * x.bitPeriod then z else idleStep level z) := by
  obtain ⟨hp, hbit, hlast⟩ := And.intro h.queued.period (And.intro h.curBit h.lastTs)
  have hidden := h.shiftHidden (by omega) held ts'
  obtain ⟨hz, done⟩ := hidden.queued.finishByte room
  have full : (Machine.shiftHidden (8 - i) { y with lastTs := ts' }).curByte = b := by
    rw [hidden.curByte, show 8 - (i + (8 - i)) = 0 by omega, BitVec.shiftLeft_zero]
  rw [full] at done
  refine ⟨_, done, rfl, ?_⟩
  rw [replayEdge_accepts (c := c) (by rw [hlast, hts, hp]), ← hp]
  refine replayLoop_fills (x := { y with lastTs := ts' }) 7 ?_ ?_ ?_ ?_ hz rfl
  · show 1 ≤ y.bitPeriod
    omega
  · show -1 ≤ y.curBit
    omega
  · show y.curBit + (8 - i : Nat) = 7
    omega
  · show (8 - i) * y.bitPeriod ≤ c
    rw [hp]
    exact hc

/-- The edge of the stop bit completes the byte. -/
theorem Inst.InByte.stops (h : x.InByte sent b i ts y) (hB : 2 ≤ x.bitPeriod)
    (room : (byteQueue x).length + sent.length + 1 < x.byteCap) (hi : i ≤ 8)
    (hts : subW w ts' ts = (8 - i + 1) * x.bitPeriod)
    (held : ∀ t, t < 8 - i → b.getLsbD (i + t) = y.curByte.msb) :
    ∃ z, replayEdge w ts' true y = some z ∧ x.IdleAfter (sent ++ [b]) z := by
  rw [Nat.succ_mul] at hts
  obtain ⟨z, done, -, hz⟩ := h.completes (w := w) (ts' := ts') (level := true) (by omega) room
    (c := (8 - i) * x.bitPeriod + (x.bitPeriod - x.bitPeriod / 2)) (by omega) hi (Nat.le_add_right ..) held
  rw [if_pos (by rw [Nat.succ_mul]; omega)] at hz
  exact ⟨z, hz, done⟩

/-- Where the stop bit makes no edge, that of the next start bit completes the byte and begins the next one. -/
theorem Inst.InByte.startsNext (h : x.InByte sent b i ts y) (hB : 2 ≤ x.bitPeriod)
    (room : (byteQueue x).length + sent.length + 1 < x.byteCap) (hi : i ≤ 8)
    (hts : subW w ts' ts = (8 - i + 2) * x.bitPeriod)
    (held : ∀ t, t < 8 - i → b.getLsbD (i + t) = y.curByte.msb) (b' : Byte) :
    ∃ z, replayEdge w ts' false y = some z ∧ x.InByte (sent ++ [b]) b' 0 ts' z := by
  rw [Nat.add_mul] at hts
  obtain ⟨z, done, hl, hz⟩ := h.completes (w := w) (ts' := ts') (level := false) (by omega) room
    (c := (8 - i) * x.bitPeriod + (2 * x.bitPeriod - x.bitPeriod / 2)) (by omega) hi (Nat.le_add_right ..) held
  rw [if_neg (by rw [Nat.succ_mul (8 - i)]; omega)] at hz
  exact ⟨_, hz, hl ▸ done.starts b'⟩

end

/-! ### The decoder behind the line -/

/-- The level of slots `k` to `m - 1` is one. -/
def SlotsHold (bytes : List Byte) (k m : Nat) : Prop :=
  ∀ q, k ≤ q → q < m → slotLevel bytes q = slotLevel bytes k

theorem SlotsHold.succ {bytes : List Byte} {k m : Nat} (h : SlotsHold bytes k m) (hk : k < m)
    (hf : slotFlips bytes m = false) : SlotsHold bytes k (m + 1) := by
  intro q hkq hq
  rcases Nat.lt_succ_iff_lt_or_eq.1 hq with hlt | rfl
  · exact h q hkq hlt
  · obtain ⟨p, rfl⟩ : ∃ p, q = p + 1 := ⟨q - 1, by omega⟩
    rw [slotFlips_eq, levelBefore_succ, bne_eq_false_iff_eq] at hf
    rw [hf, h p (by omega) (by omega)]

/-- Slots 0 to `m - 1` of the waveform that begins at `t0` have passed, and `y` has taken the edge of slot `k`, in byte
`b`, since when the line has held its level. -/
structure Inst.Behind (x : Inst) (w : Width) (t0 : Nat) (bytes : List Byte) (k : Nat) (b : Byte) (m : Nat)
    (y : Inst) : Prop where
  passed : k < m
  sameByte : m ≤ 10 * (k / 10) + 10
  byte : bytes[k / 10]? = some b
  slot : k % 10 ≤ 8
  holds : SlotsHold bytes k m
  decoder : x.InByte (bytes.take (k / 10)) b (k % 10) (wrap w (t0 + k * x.bitPeriod)) y

/-- What the decoder knows when slots 0 to `m - 1` have passed: all they tell, or what those up to the last edge do. -/
inductive Inst.Lags (x : Inst) (w : Width) (t0 : Nat) (bytes : List Byte) (m : Nat) (y : Inst) : Prop
  | idle (hm : m % 10 = 0) (h : x.IdleAfter (bytes.take (m / 10)) y)
  | behind {k : Nat} {b : Byte} (h : x.Behind w t0 bytes k b m y)

/-- The edge of slot `m`, where there is one. -/
def edgeAtSlot (w : Width) (period t0 : Nat) (bytes : List Byte) (m : Nat) (y : Inst) : Option Inst :=
  if slotFlips bytes m then replayEdge w (wrap w (t0 + m * period)) (slotLevel bytes m) y else some y

theorem edgeAtSlot_flip {w : Width} {period t0 : Nat} {bytes : List Byte} {m : Nat} {y : Inst}
    (h : slotFlips bytes m = true) : edgeAtSlot w period t0 bytes m y =
      replayEdge w (wrap w (t0 + m * period)) (slotLevel bytes m) y := if_pos h

theorem edgeAtSlot_hold {w : Width} {period t0 : Nat} {bytes : List Byte} {m : Nat} {y : Inst}
    (h : slotFlips bytes m = false) : edgeAtSlot w period t0 bytes m y = some y :=
  if_neg (ne_true_of_eq_false h)

section
variable {x y : Inst} {w : Width} {t0 k m : Nat} {bytes : List Byte} {b : Byte}

/-- The edge of slot `m` has just been taken. -/
theorem Inst.InByte.behind (h : x.InByte (bytes.take (m / 10)) b (m % 10) (wrap w (t0 + m * x.bitPeriod)) y)
    (hb : bytes[m / 10]? = some b) (hi : m % 10 ≤ 8) : x.Behind w t0 bytes m b (m + 1) y :=
  ⟨Nat.lt_succ_self m, by omega, hb, hi, fun q _ _ => by rw [show q = m by omega], h⟩

/-- The line holds its level, and within the byte: the next one begins with an edge. -/
theorem Inst.Behind.hold (h : x.Behind w t0 bytes k b m y) (hm : m < 10 * bytes.length)
    (hf : slotFlips bytes m = false) : x.Behind w t0 bytes k b (m + 1) y := by
  refine { h with passed := h.passed.trans (Nat.lt_succ_self m), sameByte := ?_, holds := h.holds.succ h.passed hf }
  have := h.sameByte
  by_contra hlt
  rw [slotFlips_start hm (by omega)] at hf
  cases hf

/-- Data bits at whose slots the line has held its level repeat the last one. -/
theorem Inst.Behind.held {g : Nat} (h : x.Behind w t0 bytes k b m y) (hg : k + g < m) (hi : k % 10 + g ≤ 8) :
    ∀ t, t < g → b.getLsbD (k % 10 + t) = y.curByte.msb := by
  intro t ht
  have := h.slot
  rw [← slotLevel_data h.byte (by omega), h.holds _ (by omega) (by omega), h.decoder.msb h.slot, slotLevel_eq h.byte,
    if_neg (show ¬ k % 10 = 9 by omega)]

theorem Inst.Behind.taken (h : x.Behind w t0 bytes k b m y) :
    bytes.take (k / 10) ++ [b] = bytes.take (k / 10 + 1) := by
  rw [List.take_add_one, h.byte]
  rfl

theorem Inst.Behind.room (h : x.Behind w t0 bytes k b m y)
    (room : (byteQueue x).length + bytes.length < x.byteCap) :
    (byteQueue x).length + (bytes.take (k / 10)).length + 1 < x.byteCap := by
  have := (List.getElem?_eq_some_iff.1 h.byte).1
  rw [List.length_take]
  omega

/-- The slots since the last edge, as the counter shows them. -/
theorem Inst.Behind.elapsed {n : Nat} (h : x.Behind w t0 bytes k b m y) (hw : 10 * x.bitPeriod < w.modulus)
    (hn : m = k + n) :
    subW w (wrap w (t0 + m * x.bitPeriod)) (wrap w (t0 + k * x.bitPeriod)) = n * x.bitPeriod := by
  have near : n ≤ 10 := by
    have := h.sameByte
    omega
  rw [hn, Nat.add_mul, ← Nat.add_assoc]
  exact subW_wrap (lt_of_le_of_lt (Nat.mul_le_mul_right _ near) hw)

variable (hB : 2 ≤ x.bitPeriod) (hw : 10 * x.bitPeriod < w.modulus)
  (space : (byteQueue x).length + bytes.length < x.byteCap)
include hB hw

/-- An edge at a data bit. -/
theorem Inst.Behind.dataEdge (h : x.Behind w t0 bytes k b m y) (hd : m ≤ 10 * (k / 10) + 8) :
    ∃ z, replayEdge w (wrap w (t0 + m * x.bitPeriod)) (slotLevel bytes m) y = some z ∧
      x.Lags w t0 bytes (m + 1) z := by
  have hk := h.passed
  obtain ⟨n, rfl⟩ : ∃ n, m = k + n + 1 := ⟨m - k - 1, by omega⟩
  have hdiv : (k + n + 1) / 10 = k / 10 := by omega
  have hmod : (k + n + 1) % 10 = k % 10 + n + 1 := by omega
  obtain ⟨z, hz, hin⟩ := h.decoder.takesBits hB (h.elapsed (n := n + 1) hw rfl) (by omega)
    (h.held (by omega) (by omega))
  rw [← slotLevel_data h.byte (by omega)] at hz
  rw [← hmod, ← hdiv] at hin
  exact ⟨z, hz, .behind (hin.behind (hdiv ▸ h.byte) (by omega))⟩

include space

/-- An edge at the stop bit. -/
theorem Inst.Behind.stopEdge (h : x.Behind w t0 bytes k b m y) (hm : m < 10 * bytes.length)
    (hd : m = 10 * (k / 10) + 9) :
    ∃ z, replayEdge w (wrap w (t0 + m * x.bitPeriod)) (slotLevel bytes m) y = some z ∧
      x.Lags w t0 bytes (m + 1) z := by
  have hi := h.slot
  obtain ⟨z, hz, done⟩ := h.decoder.stops hB (h.room space) hi (h.elapsed hw (by omega))
    (h.held (by omega) (by omega))
  rw [h.taken, show k / 10 + 1 = (m + 1) / 10 by omega] at done
  rw [slotLevel_stop hm (by omega)]
  exact ⟨z, hz, .idle (by omega) done⟩

/-- An edge at the start bit of the next byte. -/
theorem Inst.Behind.startEdge (h : x.Behind w t0 bytes k b m y) (hm : m < 10 * bytes.length)
    (hd : m = 10 * (k / 10) + 10) :
    ∃ z, replayEdge w (wrap w (t0 + m * x.bitPeriod)) (slotLevel bytes m) y = some z ∧
      x.Lags w t0 bytes (m + 1) z := by
  have hi := h.slot
  have h0 : m % 10 = 0 := by omega
  obtain ⟨b', hb'⟩ := exists_byte hm
  obtain ⟨z, hz, hin⟩ := h.decoder.startsNext hB (h.room space) hi (h.elapsed hw (by omega))
    (h.held (by omega) (by omega)) b'
  rw [h.taken, show k / 10 + 1 = m / 10 by omega, ← h0] at hin
  rw [slotLevel_start hm h0]
  exact ⟨z, hz, .behind (hin.behind hb' (by omega))⟩

/-- One slot more. -/
theorem Inst.Lags.succ (h : x.Lags w t0 bytes m y) (hm : m < 10 * bytes.length) :
    ∃ z, edgeAtSlot w x.bitPeriod t0 bytes m y = some z ∧ x.Lags w t0 bytes (m + 1) z := by
  cases h with
  | idle h0 h =>
    obtain ⟨b, hb⟩ := exists_byte hm
    have begun := (h.setLastTs (wrap w (t0 + m * x.bitPeriod))).starts b
    rw [← h0] at begun
    refine ⟨_, ?_, .behind (begun.behind hb (by omega))⟩
    rw [edgeAtSlot_flip (slotFlips_start hm h0), slotLevel_start hm h0, replayEdge_idle h.curBit]
  | @behind k b h =>
    cases hf : slotFlips bytes m with
    | false => exact ⟨y, edgeAtSlot_hold hf, .behind (h.hold hm hf)⟩
    | true =>
      rw [edgeAtSlot_flip hf]
      have := h.sameByte
      rcases Nat.lt_trichotomy m (10 * (k / 10) + 9) with hd | hd | hd
      · exact h.dataEdge hB hw (by omega)
      · exact h.stopEdge hB hw space hm hd
      · exact h.startEdge hB hw space hm (by omega)

end

/-! ### The whole waveform -/

theorem replayAll_append (w : Width) (es fs : List (Nat × Bool)) (x : Inst) :
    replayAll w (es ++ fs) x = (replayAll w es x).bind (replayAll w fs) := by
  induction es generalizing x with
  | nil => rfl
  | cons e es ih =>
    simp only [List.cons_append, replayAll, Option.bind_assoc]
    exact Option.bind_congr fun y _ => ih y

/-- The edges of the first `m` slots of the waveform. -/
def slotEdges (w : Width) (period t0 : Nat) (bytes : List Byte) (m : Nat) : List (Nat × Bool) :=
  (flipsBelow bytes m).map fun k => (wrap w (t0 + k * period), slotLevel bytes k)

theorem waveEdges_eq_slotEdges (w : Width) (period t0 : Nat) (bytes : List Byte) :
    waveEdges w period t0 bytes = slotEdges w period t0 bytes (10 * bytes.length) := rfl

theorem replayAll_slotEdges_succ (w : Width) (period t0 : Nat) (bytes : List Byte) (m : Nat) (x : Inst) :
    replayAll w (slotEdges w period t0 bytes (m + 1)) x =
      (replayAll w (slotEdges w period t0 bytes m) x).bind (edgeAtSlot w period t0 bytes m) := by
  rw [slotEdges, flipsBelow_succ, List.map_append, replayAll_append, ← slotEdges]
  refine Option.bind_congr fun y _ => ?_
  cases hf : slotFlips bytes m <;> simp [edgeAtSlot, hf, replayAll]

/-- Replaying them leaves the decoder behind the line by what the line has held since the last one. -/
theorem replayAll_lags {x : Inst} {w : Width} {t0 m : Nat} {bytes : List Byte} (hB : 2 ≤ x.bitPeriod)
    (hw : 10 * x.bitPeriod < w.modulus) (space : (byteQueue x).length + bytes.length < x.byteCap)
    (start : x.IdleAfter [] x) (hm : m ≤ 10 * bytes.length) :
    ∃ y, replayAll w (slotEdges w x.bitPeriod t0 bytes m) x = some y ∧ x.Lags w t0 bytes m y := by
  induction m with
  | zero => exact ⟨x, rfl, .idle rfl start⟩
  | succ m ih =>
    obtain ⟨y, hy, hlag⟩ := ih (by omega)
    obtain ⟨z, hz, hlag'⟩ := hlag.succ hB hw space (by omega)
    exact ⟨z, by rw [replayAll_slotEdges_succ, hy, Option.bind_some, hz], hlag'⟩

/-! ### The synthesized stop edge -/

/-- Every legal `STOP_SYNTH_DELTA` reaches past the last data bit (00_scope.md R6). -/
theorem synthBound_le_synthDelta (p : Params) {k : Int} (hk : k ≤ 7) (period : Nat) :
    synthBound k period ≤ synthDelta p k period := by
  unfold synthDelta
  split
  · exact Nat.le_add_right ..
  · rw [synthBound, show (10 - k).toNat = (7 - k).toNat + 3 by omega, Nat.add_mul]
    omega

theorem subW_lt (w : Width) (a b : Nat) : subW w a b < w.modulus := Nat.mod_lt _ (width_modulus_pos w)

theorem idleStep_true (x : Inst) : idleStep true x = x := rfl

/-- The synthesized stop edge completes a byte all of whose missing data bits have the last level (41_decoder.md
R156). -/
theorem Inst.InByte.synthesized {x y : Inst} {sent : List Byte} {b : Byte} {i ts now : Nat} {p : Params}
    (h : x.InByte sent b i ts y) (hB : 1 ≤ x.bitPeriod) (room : (byteQueue x).length + sent.length + 1 < x.byteCap)
    (hi : i ≤ 8) (held : ∀ t, t < 8 - i → b.getLsbD (i + t) = y.curByte.msb)
    (due : y.curBit ≠ 8 → synthDelta p y.curBit y.bitPeriod < subW p.width now y.lastTs) :
    ∃ z, Machine.synthesized p now y = some z ∧ x.IdleAfter (sent ++ [b]) z := by
  have hbit := h.curBit
  have busy : y.curBit ≠ 8 := by omega
  have hdelta := synthBound_le_synthDelta p (show y.curBit ≤ 7 by omega) y.bitPeriod
  rw [synthBound, show (7 - y.curBit).toNat = 8 - i by omega, h.queued.period] at hdelta
  have hdue := due busy
  rw [h.queued.period] at hdue
  have hts : subW p.width (addW p.width y.lastTs (synthDelta p y.curBit x.bitPeriod)) ts =
      x.bitPeriod / 2 + (synthDelta p y.curBit x.bitPeriod - x.bitPeriod / 2) := by
    rw [h.lastTs, subW_addW (hdue.trans (subW_lt ..))]
    omega
  obtain ⟨z, done, -, hz⟩ := h.completes (level := true) hB room hts hi (by omega) held
  rw [idleStep_true, ite_self] at hz
  refine ⟨z, ?_, done⟩
  simp only [Machine.synthesized, h.queued.period, busy, hdue, ne_eq, not_false_eq_true, and_self, if_true]
  exact hz

/-- Settles O34: all slots of the waveform leave the decoder behind the line by the last byte at most, and what it
lacks of that one is filled by the synthesized edge. -/
theorem waveformReceived : Obligations.WaveformReceived := by
  intro p t0 now bytes x hB hw h8 h0 hi ho space
  have start : x.IdleAfter [] x := ⟨⟨rfl, rfl, hi, ho, (List.append_nil _).symm⟩, h8, h0⟩
  obtain ⟨y, hy, hlag⟩ := replayAll_lags (t0 := t0) hB hw space start (Nat.le_refl _)
  refine ⟨y, by rw [waveEdges_eq_slotEdges, hy], fun due => ?_⟩
  cases hlag with
  | idle hm h =>
    refine ⟨y, ?_, ?_, h.curBit⟩
    · simp [synthesized, h.curBit]
    · simpa using h.queued.queue
  | @behind k b h =>
    have hreach := h.sameByte
    have hslot := h.slot
    have hlen := (List.getElem?_eq_some_iff.1 h.byte).1
    obtain ⟨z, hz, done⟩ := h.decoder.synthesized (by omega) (h.room space) hslot (h.held (by omega) (by omega)) due
    rw [h.taken, List.take_of_length_le (by omega)] at done
    exact ⟨z, hz, done.queued.queue, done.curBit⟩

end Sys2Proof.Machine
end

section
/-! # The ideal draw (00_scope.md R12)

Draws that have run out stay so, whatever the environment does (`IdealKept`), and then every operation that waits for
nothing ends at the time it begins (`Instant`), also where it ends in a fault. -/

namespace Sys2Proof.Machine

/-- From `s` to `t` no draw but the ideal one has been taken. -/
def IdealKept (s t : State) : Prop := s.draws = .ideal → t.draws = .ideal

theorem idealKept_composes : Composes IdealKept := ⟨fun _ h => h, fun h1 h2 h => h2 (h1 h)⟩

theorem Composes.foldl {R : State → State → Prop} (h : Composes R) {α : Type} {f : State → α → State}
    (hf : ∀ s a, R s (f s a)) (l : List α) (s : State) : R s (l.foldl f s) := by
  induction l generalizing s with
  | nil => exact h.refl s
  | cons a l ih => exact h.trans (hf s a) (ih _)

theorem IdealKept.of_eq {s t : State} (h : t.draws = s.draws := by exact rfl) : IdealKept s t := fun hs => h.trans hs

theorem IdealKept.armAll (s : State) : IdealKept s (armAll s) := by
  refine idealKept_composes.foldl (fun t p h => ?_) _ s
  unfold armPin
  split
  · simp only [setPend_draws, h]; rfl
  · exact h

theorem IdealKept.noteTransitions (s0 s : State) : IdealKept s (noteTransitions s0 s) :=
  idealKept_composes.foldl (fun t p => by split <;> exact .of_eq) _ s

theorem IdealKept.captureStep (id : Nat) (s : State) : IdealKept s (captureStep id s) := by
  unfold Machine.captureStep captureBody State.applyInst
  split
  · refine idealKept_composes.trans ?_ (.armAll _)
    split <;> exact .of_eq
  · exact idealKept_composes.refl s

theorem IdealKept.nextCapture {bound : Nat} {s t : State} {c : Nat × Nat × Nat}
    (h : nextCapture bound s = some (c, t)) : IdealKept s t := by
  unfold Machine.nextCapture at h
  split at h <;> cases h
  · exact .of_eq
  · intro hs; simp only [hs]; rfl

theorem IdealKept.runCaptures (fuel bound : Nat) (s : State) : IdealKept s (runCaptures fuel bound s) := by
  induction fuel generalizing s with
  | zero => exact idealKept_composes.refl s
  | succ n ih =>
    simp only [Machine.runCaptures]
    split
    · exact idealKept_composes.refl s
    · cases hn : Machine.nextCapture bound s with
      | none => exact idealKept_composes.refl s
      | some r =>
        obtain ⟨c, t⟩ := r
        have later : IdealKept t (t.atTime c.1) := .of_eq
        exact idealKept_composes.trans (.nextCapture hn)
          (idealKept_composes.trans later (idealKept_composes.trans (.captureStep _ _) (ih _)))

theorem IdealKept.applyInput (c : InputChange) (s : State) : IdealKept s (applyInput c s) := by
  unfold Machine.applyInput
  refine idealKept_composes.trans ?_ (idealKept_composes.trans (.noteTransitions s _) (.armAll _))
  cases c.level <;> exact .of_eq

theorem IdealKept.passInputs (cs : List InputChange) (b t : Nat) (s : State) :
    IdealKept s (passInputs cs b t s) := by
  have last (s : State) : IdealKept s ((Machine.runCaptures (pendingTotal s) b s).atTime t) :=
    idealKept_composes.trans (.runCaptures _ b s) .of_eq
  induction cs generalizing s with
  | nil =>
    simp only [Machine.passInputs]
    split
    · exact idealKept_composes.refl s
    · exact last s
  | cons c cs ih =>
    simp only [Machine.passInputs]
    split
    · exact idealKept_composes.refl s
    · split
      · refine idealKept_composes.unlessStopped (.runCaptures _ _ s) ?_
        refine idealKept_composes.trans ?_ (idealKept_composes.trans (.applyInput c _) (ih _))
        exact .of_eq
      · exact last s

theorem IdealKept.advanceTo (t : Nat) (s : State) : IdealKept s (advanceTo t s) := .passInputs _ _ _ s

/-- Time never passes its target. -/
theorem passInputs_tau_le (cs : List InputChange) {b t : Nat} (hb : b ≤ t + 1) (s : State) :
    (passInputs cs b t s).tau ≤ max s.tau t := by
  have last (s : State) : ((runCaptures (pendingTotal s) b s).atTime t).tau ≤ max s.tau t := by
    have := runCaptures_tau (pendingTotal s) b s
    rw [atTime_tau]
    omega
  induction cs generalizing s with
  | nil =>
    simp only [passInputs]
    split
    · exact Nat.le_max_left ..
    · exact last s
  | cons c cs ih =>
    have before := runCaptures_tau (pendingTotal s) c.time s
    simp only [passInputs]
    split
    · exact Nat.le_max_left ..
    · split
      · split
        · omega
        · refine (ih _).trans ?_
          rw [applyInput_tau, atTime_tau]
          show max (max (runCaptures (pendingTotal s) c.time s).tau c.time) t ≤ _
          omega
      · exact last s

/-- Under the ideal draw no time has passed from `s` to `t`, and the draw is still ideal. -/
def Instant (s t : State) : Prop := s.draws = .ideal → t.tau = s.tau ∧ t.draws = .ideal

theorem instant_composes : Composes Instant where
  refl _ h := ⟨rfl, h⟩
  trans h1 h2 h := ⟨(h2 (h1 h).2).1.trans (h1 h).1, (h2 (h1 h).2).2⟩

theorem Instant.of_eq {s t : State} (ht : t.tau = s.tau := by exact rfl) (hd : t.draws = s.draws := by exact rfl) :
    Instant s t := fun h => ⟨ht, hd.trans h⟩

theorem IdealKept.instant {s t : State} (h : IdealKept s t) (ht : t.tau = s.tau) : Instant s t := fun hd => ⟨ht, h hd⟩

theorem Instant.advanceTo {t : Nat} {s : State} (h : t ≤ s.tau) : Instant s (advanceTo t s) := by
  refine (IdealKept.advanceTo t s).instant (Nat.le_antisymm ?_ (EnvSafe.advanceTo t s).env.tau)
  rw [Machine.advanceTo, Nat.max_eq_left h]
  exact (passInputs_tau_le s.inputs (Nat.le_refl _) s).trans_eq (Nat.max_self _)

theorem Instant.settle (s : State) : Instant s (settle s) := by
  unfold Machine.settle
  split
  · exact instant_composes.refl s
  · exact .advanceTo (Nat.le_refl _)

theorem Instant.armAll (s : State) : Instant s (armAll s) := (IdealKept.armAll s).instant (armAll_tau s)

theorem Instant.afterHal (s0 s : State) : Instant s (afterHal s0 s) :=
  instant_composes.trans ((IdealKept.noteTransitions s0 s).instant (noteTransitions_tau s0 s))
    (instant_composes.trans (.armAll _) (.settle _))

theorem tick_instant : Along Instant tick := by
  intro s h
  simp only [tick, h, Draws.ideal, takeDraw, if_true]
  exact Instant.advanceTo (s := { s with draws := .ideal }) (Nat.le_refl _) rfl

theorem applyInst_instant (id : Nat) (f : Inst → Option Inst) : Along Instant (State.applyInst id f) := by
  intro s
  unfold State.applyInst
  split <;> exact .of_eq

theorem replayOn_instant (id ts : Nat) (level : Bool) : Along Instant (replayOn id ts level) := fun s =>
  applyInst_instant id _ s

theorem modInst_instant (id : Nat) (f : Inst → Inst) : Along Instant (State.modInst id f) := fun _ => .of_eq

theorem synthAt_instant (id now : Nat) : Along Instant (synthAt id now) := by
  intro s
  refine instant_composes.unlessStopped (tick_instant s) ?_
  split
  · exact instant_composes.refl _
  · split
    · exact replayOn_instant id _ true _
    · exact instant_composes.refl _

theorem synthStop_instant (id : Nat) : Along Instant (synthStop id) := by
  intro s
  unfold synthStop
  split
  · exact instant_composes.refl s
  · exact instant_composes.unlessStopped (tick_instant s) (synthAt_instant id _ _)

theorem replayNext_instant (id : Nat) : Along Instant (replayNext id) := by
  intro s
  refine instant_composes.unlessStopped (tick_instant s) ?_
  split
  · exact instant_composes.runAll
      (.cons tick_instant (.cons (modInst_instant id _) (.cons (replayOn_instant id _ _) .nil))) _
  · exact .of_eq

theorem replayQueued_instant (id n : Nat) : Along Instant (replayQueued id n) := by
  induction n with
  | zero => exact instant_composes.refl
  | succ n ih =>
    intro s
    rw [replayQueued]
    split
    · exact instant_composes.refl s
    · exact instant_composes.trans (replayNext_instant id s) (ih _)

/-- A pass of the decoder takes no time. -/
theorem rxbits_instant (id : Nat) : Along Instant (rxbits id) := by
  intro s
  unfold rxbits
  split
  · exact instant_composes.trans (tick_instant s)
      (instant_composes.runAll (.cons (replayQueued_instant id _) (.cons (synthStop_instant id) .nil)) _)
  · exact instant_composes.refl s

end Sys2Proof.Machine
end

section
/-! # The ideal waveform (43_transmitter.md R212 to R226)

Under the ideal draw every micro-step of a WRITE takes no time, and a wait ends at its deadline, whatever the inputs and
the captures. So the time, the outputs and the deadline of the WRITE are known at each slot (`slotProgress`). -/

namespace Sys2Proof.Machine

/-- How far a WRITE has come: the time, the outputs so far, and the deadline and the last level of its instance. -/
structure TxProgress where
  tau : Nat
  outputs : List Output
  deadline : Nat
  prevLevel : Bool

/-- What a WRITE reads of its instance and nothing changes meanwhile. -/
def Inst.line (x : Inst) : Nat × Bool × Nat := (x.txPin, x.invert, x.bitPeriod)

/-- A WRITE on instance `id` that `s0` has begun has come as far as `g`, under the ideal draw. -/
structure State.Sending (s0 : State) (id : Nat) (g : TxProgress) (t : State) : Prop where
  core : t.Core
  built : t.constructed id = true
  ideal : t.Ideal
  params : t.params = s0.params
  line : (t.inst id).line = (s0.inst id).line
  tau : t.tau = g.tau
  outputs : t.outputs = g.outputs
  deadline : (t.inst id).deadline = g.deadline
  prevLevel : (t.inst id).prevLevel = g.prevLevel

/-- The operation takes the WRITE from `g` to `g'`, and raises no fault. -/
abbrev Sends (s0 : State) (id : Nat) (g : TxProgress) (f : State → State) (g' : TxProgress) : Prop :=
  Leads (fun _ => False) (s0.Sending id g) f (s0.Sending id g')

section
variable {s0 : State} {id : Nat} {g g' : TxProgress} {s t : State}

/-- Where no stop is allowed, the operation ends running. -/
theorem Leads.runs {P Q : State → Prop} {f : State → State} (h : Leads (fun _ => False) P f Q) (hs : s.fault = none)
    (hp : P s) : (f s).fault = none ∧ Q (f s) := by
  obtain ⟨hq, hstop⟩ := h s hs hp
  have ht : (f s).fault = none := not_not.1 hstop
  exact ⟨ht, hq ht⟩

/-! ### What the environment, the decoder and updates leave of it -/

/-- What only captures and the decoder have done is the passing of time. -/
theorem State.Sending.carry {k : Nat} (h : s0.Sending id g s) (hd : State.DecodeTo k s t) (hc : t.Core)
    (hi : IdealKept s t) : s0.Sending id { g with tau := t.tau } t where
  core := hc
  built := (hd.constructed id).trans h.built
  ideal := ⟨hi h.ideal.draws, fun c hc => h.ideal.queue c (hd.hostQueue ▸ hc)⟩
  params := hd.params.trans h.params
  line := (hd.project Inst.line (j := id)).trans h.line
  tau := rfl
  outputs := hd.outputs.trans h.outputs
  deadline := (hd.project (·.deadline) (j := id)).trans h.deadline
  prevLevel := (hd.project (·.prevLevel) (j := id)).trans h.prevLevel

theorem State.Sending.carryInstant {k : Nat} (h : s0.Sending id g s) (hd : State.DecodeTo k s t) (hc : t.Core)
    (hi : Instant s t) : s0.Sending id g t := by
  have ht := (hi h.ideal.draws).1.trans h.tau
  have hg : g = { g with tau := t.tau } := by rw [ht]
  exact hg ▸ h.carry hd hc fun hd => (hi hd).2

/-- The environment acts and no time passes. -/
theorem env_sends {f : State → State} (he : ∀ s, EnvSafe s (f s)) (hi : Along Instant f) : Sends s0 id g f g :=
  .of_running fun s hs h => ⟨((he s).safe h.core hs).2,
    h.carryInstant ((he s).env.decodeTo id) ((he s).safe h.core hs).1 (hi s)⟩

theorem tick_sends : Sends s0 id g tick g := env_sends EnvSafe.tick tick_instant

theorem rxbits_sends : Sends s0 id g (rxbits id) g := .of_running fun s hs h =>
  have safe := rxbits_safe h.core hs h.built
  ⟨safe.running, h.carryInstant safe.frame safe.sound (rxbits_instant id s)⟩

/-- Time passes, and the environment acts in it. -/
theorem advanceTo_sends {T : Nat} (h : s0.Sending id g s) (hs : s.fault = none) (hT : g.tau ≤ T) :
    (advanceTo T s).fault = none ∧ s0.Sending id { g with tau := T } (advanceTo T s) := by
  have safe := (EnvSafe.advanceTo T s).safe h.core hs
  have ht : (advanceTo T s).tau = T := by rw [advanceTo_tau T h.core hs, h.tau, Nat.max_eq_right hT]
  have later := h.carry ((EnvSafe.advanceTo T s).env.decodeTo id) safe.1 (.advanceTo T s)
  rw [ht] at later
  exact ⟨safe.2, later⟩

/-- An update of the instance's transmitter registers. -/
theorem State.Sending.modInst (h : s0.Sending id g s) {f : Inst → Inst}
    (hi : ∀ x, x.Inv s0.params → (f x).Inv s0.params) (hc : ∀ x, x.cellsWf → (f x).cellsWf := by exact fun _ h => h)
    (hl : ∀ x, (f x).line = x.line := by exact fun _ => rfl) :
    s0.Sending id { g with deadline := (f (s.inst id)).deadline, prevLevel := (f (s.inst id)).prevLevel }
      (s.modInst id f) := by
  have new := inst_modInst_same s id f h.built
  refine ⟨h.core.modInst id f fun x hx => ?_, by rw [constructed_modInst, h.built],
    ⟨h.ideal.draws, h.ideal.queue⟩, h.params, ?_, h.tau, h.outputs, by rw [new], by rw [new]⟩
  · obtain ⟨-, rfl⟩ := constructed_of_cellGet hx
    exact ⟨h.params ▸ hi _ (h.params ▸ h.core.inst h.built), hc _ (h.core.cells h.built)⟩
  · rw [new, hl, h.line]

/-- An update of registers that no slot depends on. -/
theorem modInst_sends {f : State → Inst → Inst} (hi : ∀ s x, x.Inv s0.params → (f s x).Inv s0.params)
    (hc : ∀ s x, x.cellsWf → (f s x).cellsWf := by exact fun _ _ h => h)
    (hl : ∀ s x, (f s x).line = x.line := by exact fun _ _ => rfl)
    (hd : ∀ s x, (f s x).deadline = x.deadline := by exact fun _ _ => rfl)
    (hp : ∀ s x, (f s x).prevLevel = x.prevLevel := by exact fun _ _ => rfl) :
    Sends s0 id g (fun s => s.modInst id (f s)) g := by
  refine .of_running fun s hs h => ⟨hs, ?_⟩
  have := h.modInst (hi s) (hc s) (hl s)
  rwa [hd, hp, h.deadline, h.prevLevel] at this

/-! ### HAL calls -/

theorem State.Sending.setIm (h : s0.Sending id g s) (m : Bool) : s0.Sending id g { s with im := m } :=
  { h with core := h.core.congr rfl rfl rfl rfl rfl rfl rfl, ideal := ⟨h.ideal.draws, h.ideal.queue⟩ }

theorem maskInterrupts_sends : Sends s0 id g maskInterrupts g :=
  tick_sends.then (g := fun t => { t with im := true }) (.of_running fun _ hs h => ⟨hs, h.setIm true⟩)

theorem unmaskInterrupts_sends : Sends s0 id g unmaskInterrupts g := by
  refine tick_sends.then (g := fun t => settle (armAll { t with im := false })) (.of_running fun s hs h => ?_)
  have env := (EnvSafe.armAll { s with im := false }).trans (.settle _)
  have safe := env.safe (h.setIm false).core hs
  exact ⟨safe.2, (h.setIm false).carryInstant (env.env.decodeTo id) safe.1
    (instant_composes.trans (.armAll _) (.settle _))⟩

theorem writePinLevel_sends (p : Nat) (v : Bool) :
    Sends s0 id g (writePinLevel p v) { g with outputs := .pinWrite g.tau p v :: g.outputs } := by
  refine tick_sends.then (g := fun t => afterHal t (pinWritten p v t)) (.of_running fun s hs h => ?_)
  have written : s0.Sending id { g with outputs := .pinWrite g.tau p v :: g.outputs } (pinWritten p v s) :=
    { h with
      core := pinWritten_core h.core
      ideal := ⟨h.ideal.draws, h.ideal.queue⟩
      outputs := by rw [← h.tau, ← h.outputs]; rfl }
  have env := EnvSafe.afterHal s (pinWritten p v s)
  have safe := env.safe written.core hs
  exact ⟨safe.2, written.carryInstant (env.env.decodeTo id) safe.1 (.afterHal _ _)⟩

/-- The transmit-enable pin is written where there is one (R215, R226). -/
theorem whenever_writePinLevel_sends (c : Bool) (p : Nat) (v : Bool) :
    Sends s0 id g (whenever c (writePinLevel p v))
      { g with outputs := (if c then [.pinWrite g.tau p v] else []) ++ g.outputs } := by
  cases c
  · exact .of_running fun s hs h => ⟨hs, h⟩
  · exact writePinLevel_sends p v

/-! ### Waits -/

theorem half_lt_modulus (w : Width) : w.half < w.modulus := by cases w <;> decide

/-- A deadline less than half the counter's range ahead is read as what it is (R223). -/
theorem State.Sending.cyclesTo {r : Nat} (h : s0.Sending id g s) (hr : r < s0.params.width.half) :
    cyclesTo (wrap s0.params.width (g.tau + r)) s = r := by
  rw [Machine.cyclesTo, State.counter, h.params, h.tau, subW_wrap (hr.trans (half_lt_modulus _)), signedW, if_pos hr]

/-- The spin is left at once: the draw `late` is 0 (R222). -/
theorem advanceTo_late_ideal (h : s.draws = .ideal) :
    advanceTo (s.tau + (takeDraw 0 s.draws.late).1)
      { s with draws := { s.draws with late := (takeDraw 0 s.draws.late).2 } } = advanceTo s.tau s := by
  rw [h]
  exact congrArg (fun d => advanceTo s.tau { s with draws := d }) h.symm

theorem spinUntil_sends {r : Nat} (hr : r < s0.params.width.half) :
    Sends s0 id g (spinUntil (wrap s0.params.width (g.tau + r))) { g with tau := g.tau + r } := by
  refine .of_running fun s hs h => ?_
  obtain ⟨hs1, h1⟩ := tick_sends.runs hs h
  obtain ⟨hs2, h2⟩ := advanceTo_sends h1 hs1 (Nat.le_add_right g.tau r)
  have spin : spinUntil (wrap s0.params.width (g.tau + r)) s =
      advanceTo (g.tau + r) (advanceTo (g.tau + r) (tick s)) := by
    simp only [spinUntil, (not_stopped_iff _).2 hs1, h1.cyclesTo hr, h1.tau, Int.toNat_natCast,
      (not_stopped_iff _).2 hs2, Bool.false_eq_true, if_false]
    rw [advanceTo_late_ideal h2.ideal.draws, h2.tau]
  rw [spin]
  exact advanceTo_sends (g := { g with tau := g.tau + r }) h2 hs2 (Nat.le_refl _)

/-- A yield in which host code issues nothing takes the whole microseconds it is asked for (60_exceptions.md R304). -/
theorem cooperativeYield_ideal {host : HostCode} (hh : ∀ tEnd u, u.HostWaits → host tEnd u = u) (us : Nat)
    (hs : s.fault = none) (h : s.Ideal) :
    cooperativeYield host us s = advanceTo (s.tau + us * cyclesPerMicro s.params) s := by
  have same : ({ s with draws := { s.draws with yieldFor :=
      (takeDraw (us * cyclesPerMicro s.params) s.draws.yieldFor).2 } } : State) = s := by
    rw [h.draws]
    exact congrArg (fun d => { s with draws := d }) h.draws.symm
  simp only [cooperativeYield, same]
  rw [runAll_cons_running _ _ hs, hh _ _ h.queue, runAll_cons_running _ _ hs, runAll_nil, h.draws]
  rfl

section
variable {host : HostCode} (hh : ∀ tEnd u, u.HostWaits → host tEnd u = u)
include hh

theorem cooperativeYield_sends (us : Nat) :
    Sends s0 id g (cooperativeYield host us) { g with tau := g.tau + us * cyclesPerMicro s0.params } := by
  refine .of_running fun s hs h => ?_
  rw [cooperativeYield_ideal hh us hs h.ideal, h.tau, h.params]
  exact advanceTo_sends h hs (Nat.le_add_right ..)

theorem yieldPortion_sends (micro : Nat) :
    Sends s0 id g (yieldPortion host id micro) { g with tau := g.tau + micro * cyclesPerMicro s0.params } :=
  .runAll (.cons (fun t => Leads.whenever _ unmaskInterrupts_sends t)
    (.cons (modInst_sends fun _ _ h => { h with })
      (.cons (cooperativeYield_sends hh micro)
        (.cons (modInst_sends fun _ _ h => { h with }) (.cons maskInterrupts_sends .nil)))))

/-- A wait ends at its deadline: the yield portion takes whole microseconds, and the spin what is left (R220 to
R222). -/
theorem waitBitCycles_sends {d r : Nat} (hr : r < s0.params.width.half)
    (hd : d = wrap s0.params.width (g.tau + r)) :
    Sends s0 id g (waitBitCycles host id d) { g with tau := g.tau + r } := by
  subst hd
  refine .of_running fun s hs h => ?_
  obtain ⟨hs1, h1⟩ := tick_sends.runs hs h
  have yields : Sends s0 id g
      (whenever (decide (0 < r / cyclesPerMicro s0.params)) (yieldPortion host id (r / cyclesPerMicro s0.params)))
      { g with tau := g.tau + r / cyclesPerMicro s0.params * cyclesPerMicro s0.params } := by
    by_cases hm : 0 < r / cyclesPerMicro s0.params
    · rw [decide_eq_true hm]
      exact yieldPortion_sends hh _
    · rw [decide_eq_false hm, Nat.eq_zero_of_not_pos hm, Nat.zero_mul]
      exact .of_running fun s hs h => ⟨hs, h⟩
  have whole := Nat.div_mul_le_self r (cyclesPerMicro s0.params)
  have spins := spinUntil_sends (s0 := s0) (id := id)
    (g := { g with tau := g.tau + r / cyclesPerMicro s0.params * cyclesPerMicro s0.params })
    (r := r - r / cyclesPerMicro s0.params * cyclesPerMicro s0.params) (by omega)
  simp only [Nat.add_assoc, Nat.add_sub_of_le whole] at spins
  have wait : waitBitCycles host id (wrap s0.params.width (g.tau + r)) s =
      runAll [whenever (decide (0 < r / cyclesPerMicro s0.params))
          (yieldPortion host id (r / cyclesPerMicro s0.params)),
        spinUntil (wrap s0.params.width (g.tau + r))] (tick s) := by
    simp only [waitBitCycles, h1.cyclesTo hr, h1.params, Int.toNat_natCast]
  rw [wait]
  exact (Leads.runAll (.cons yields (.cons spins .nil))).runs hs1 h1

/-! ### One slot -/

omit hh in
theorem nextDeadline_sends : Sends s0 id g (fun t => t.modInst id (nextDeadline t.params.width))
    { g with deadline := addW s0.params.width g.deadline (s0.inst id).bitPeriod } := by
  refine .of_running fun s hs h => ⟨hs, ?_⟩
  have period : (s.inst id).bitPeriod = (s0.inst id).bitPeriod := congrArg (·.2.2) h.line
  have next := h.modInst (f := nextDeadline s0.params.width) fun x hx =>
    { hx with deadline_lt := addW_lt s0.params.width x.deadline x.bitPeriod }
  simp only [nextDeadline, period, h.deadline, h.prevLevel] at next
  rw [h.params]
  exact next

omit hh in
/-- What a slot does, in terms of the progress it begins with. -/
theorem State.Sending.sendSlot (h : s0.Sending id g s) (hs : s.fault = none) (j i : Nat) (level : Bool) :
    ∃ u, u.fault = none ∧ s0.Sending id g u ∧
      Machine.sendSlot host id j i level s =
        runAll
          [whenever (decide (level ≠ g.prevLevel))
              (runAll
                [waitBitCycles host id g.deadline,
                  writePinLevel (s0.inst id).txPin (pinLevelOf (s0.inst id).invert level),
                  State.modInst id fun y => { y with prevLevel := level }]),
            fun t => t.modInst id (nextDeadline t.params.width)] u := by
  obtain ⟨hs1, h1⟩ := (modInst_sends (g := g) (f := fun _ y => { y with seq := .slot j i })
    fun _ _ h => { h with }).runs hs h
  refine ⟨_, hs1, h1, ?_⟩
  have line := h1.line
  simp only [Inst.line, Prod.mk.injEq] at line
  obtain ⟨pin, inv, -⟩ := line
  simp only [Machine.sendSlot, h1.prevLevel, h1.deadline, pin, inv]

omit hh in
theorem setPrevLevel_sends (level : Bool) :
    Sends s0 id g (State.modInst id fun y => { y with prevLevel := level }) { g with prevLevel := level } := by
  refine .of_running fun s hs h => ⟨hs, ?_⟩
  have set := h.modInst (f := fun y => { y with prevLevel := level }) fun _ hx => { hx with }
  rwa [h.deadline] at set

/-- A slot at which the line changes: the WRITE waits for its start and flips the pin (R217). -/
theorem sendSlot_sends_flip {r : Nat} (hr : r < s0.params.width.half) (j i : Nat) {level : Bool}
    (hd : g.deadline = wrap s0.params.width (g.tau + r)) (hl : level ≠ g.prevLevel) :
    Sends s0 id g (sendSlot host id j i level)
      { tau := g.tau + r
        outputs := .pinWrite (g.tau + r) (s0.inst id).txPin (pinLevelOf (s0.inst id).invert level) :: g.outputs
        deadline := addW s0.params.width g.deadline (s0.inst id).bitPeriod
        prevLevel := level } := by
  refine .of_running fun s hs h => ?_
  obtain ⟨u, hu, h1, e⟩ := h.sendSlot hs j i level
  have flips : Sends s0 id g
      (whenever true (runAll
        [waitBitCycles host id g.deadline, writePinLevel (s0.inst id).txPin (pinLevelOf (s0.inst id).invert level),
          State.modInst id fun y => { y with prevLevel := level }]))
      { g with
        tau := g.tau + r
        outputs := .pinWrite (g.tau + r) (s0.inst id).txPin (pinLevelOf (s0.inst id).invert level) :: g.outputs
        prevLevel := level } :=
    .runAll (.cons (waitBitCycles_sends hh hr hd) (.cons (writePinLevel_sends _ _)
      (.cons (setPrevLevel_sends level) .nil)))
  rw [e, decide_eq_true hl]
  exact (Leads.runAll (.cons flips (.cons nextDeadline_sends .nil))).runs hu h1

omit hh in
/-- A slot that repeats the level. -/
theorem sendSlot_sends_hold (j i : Nat) {level : Bool} (hl : level = g.prevLevel) :
    Sends s0 id g (sendSlot host id j i level)
      { g with deadline := addW s0.params.width g.deadline (s0.inst id).bitPeriod } := by
  refine .of_running fun s hs h => ?_
  obtain ⟨u, hu, h1, e⟩ := h.sendSlot hs j i level
  rw [e, decide_eq_false (not_not.2 hl)]
  exact (Leads.runAll (.cons (.of_running fun _ hs h => ⟨hs, h⟩) (.cons nextDeadline_sends .nil))).runs hu h1

end

end

/-! ### All slots -/

theorem sendSlots_append (host : HostCode) (id : Nat) (l k : List (Nat × Nat × Bool)) (s : State) :
    sendSlots host id (l ++ k) s = sendSlots host id k (sendSlots host id l s) := by
  induction l generalizing s with
  | nil => rfl
  | cons slot rest ih =>
    obtain ⟨j, i, level⟩ := slot
    simp only [List.cons_append, sendSlots]
    split
    · next hs => exact (sendSlots_stopped host id k hs).symm
    · exact ih _

/-- The pin writes of the first `m` slots of the waveform. -/
def slotWrites (x : Inst) (t0 : Nat) (bytes : List Byte) (m : Nat) : List Output :=
  (flipsBelow bytes m).map fun k =>
    .pinWrite (t0 + k * x.bitPeriod) x.txPin (pinLevelOf x.invert (slotLevel bytes k))

theorem waveform_eq_slotWrites (x : Inst) (t0 : Nat) (bytes : List Byte) :
    waveform x.txPin x.invert x.bitPeriod t0 bytes = slotWrites x t0 bytes (10 * bytes.length) := rfl

theorem slotWrites_succ (x : Inst) (t0 : Nat) (bytes : List Byte) (m : Nat) :
    slotWrites x t0 bytes (m + 1) = slotWrites x t0 bytes m ++
      if slotFlips bytes m then
        [.pinWrite (t0 + m * x.bitPeriod) x.txPin (pinLevelOf x.invert (slotLevel bytes m))] else [] := by
  rw [slotWrites, flipsBelow_succ, List.map_append, ← slotWrites]
  cases slotFlips bytes m <;> rfl

/-- The progress of a WRITE on `x` once it has passed the first `m` slots, the last of them that changed the line being
slot `k`. The waveform has begun at `t0`, with the outputs `outs` before it. -/
def slotProgress (w : Width) (x : Inst) (t0 : Nat) (outs : List Output) (bytes : List Byte) (k m : Nat) :
    TxProgress where
  tau := t0 + k * x.bitPeriod
  outputs := (slotWrites x t0 bytes m).reverse ++ outs
  deadline := wrap w (t0 + m * x.bitPeriod)
  prevLevel := levelBefore bytes m

/-- A WRITE that `s0` has begun has passed the first `m` slots. The line changes at every start bit, so the last change
is not farther back than the start bit of the last byte begun. -/
def State.Passed (s0 : State) (id t0 : Nat) (outs : List Output) (bytes : List Byte) (m : Nat) (s : State) : Prop :=
  ∃ k, k ≤ m ∧ m ≤ 10 * (k / 10) + 10 ∧
    s0.Sending id (slotProgress s0.params.width (s0.inst id) t0 outs bytes k m) s

theorem addW_wrap (w : Width) (a b : Nat) : addW w (wrap w a) b = wrap w (a + b) := Nat.mod_add_mod ..

section
variable {s0 : State} {id t0 : Nat} {outs : List Output} {bytes : List Byte} {host : HostCode}
  (hh : ∀ tEnd u, u.HostWaits → host tEnd u = u)
  (hB : 10 * (s0.inst id).bitPeriod < s0.params.width.half)
include hh hB

theorem sendSlot_passes {m : Nat} (hm : m < 10 * bytes.length) (j i : Nat) :
    Leads (fun _ => False) (s0.Passed id t0 outs bytes m) (sendSlot host id j i (slotLevel bytes m))
      (s0.Passed id t0 outs bytes (m + 1)) := by
  refine .of_running fun s hs ⟨k, hk, hend, h⟩ => ?_
  have next : addW s0.params.width (wrap s0.params.width (t0 + m * (s0.inst id).bitPeriod)) (s0.inst id).bitPeriod =
      wrap s0.params.width (t0 + (m + 1) * (s0.inst id).bitPeriod) := by
    rw [addW_wrap, Nat.succ_mul, Nat.add_assoc]
  cases hf : slotFlips bytes m with
  | true =>
    have due : t0 + k * (s0.inst id).bitPeriod + (m - k) * (s0.inst id).bitPeriod =
        t0 + m * (s0.inst id).bitPeriod := by
      rw [Nat.add_assoc, ← Nat.add_mul, Nat.add_sub_of_le hk]
    have near : (m - k) * (s0.inst id).bitPeriod < s0.params.width.half :=
      lt_of_le_of_lt (Nat.mul_le_mul_right _ (by omega)) hB
    have changed : slotLevel bytes m ≠ levelBefore bytes m := by rwa [slotFlips_eq, bne_iff_ne] at hf
    obtain ⟨ht, h'⟩ :=
      (sendSlot_sends_flip hh near j i (congrArg (wrap s0.params.width) due.symm) changed).runs hs h
    refine ⟨ht, m, Nat.le_succ m, by omega, ?_⟩
    simpa [slotProgress, slotWrites_succ, levelBefore_succ, hf, due, next] using h'
  | false =>
    have hend' : m + 1 ≤ 10 * (k / 10) + 10 := by
      by_contra hlt
      rw [slotFlips_start hm (by omega)] at hf
      cases hf
    have same : slotLevel bytes m = levelBefore bytes m := by rwa [slotFlips_eq, bne_eq_false_iff_eq] at hf
    obtain ⟨ht, h'⟩ := (sendSlot_sends_hold (host := host) j i same).runs hs h
    refine ⟨ht, k, by omega, hend', ?_⟩
    simpa [slotProgress, slotWrites_succ, levelBefore_succ, hf, same, next] using h'

/-- The WRITE passes the slots in order. -/
theorem sendSlots_passes {m : Nat} (hm : m ≤ 10 * bytes.length) :
    Leads (fun _ => False) (s0.Passed id t0 outs bytes 0)
      (sendSlots host id ((List.range m).map fun k => (k / 10, k % 10, slotLevel bytes k)))
      (s0.Passed id t0 outs bytes m) := by
  induction m with
  | zero => exact .of_running fun s hs h => ⟨hs, h⟩
  | succ m ih =>
    intro s hs h
    rw [List.range_succ, List.map_append, sendSlots_append]
    refine (ih (by omega)).comp (fun t ht h' => ?_) (fun _ => sendSlots_stopped host id _) s hs h
    rw [List.map_singleton, sendSlots_cons_running _ _ _ _ _ _ ht]
    exact sendSlot_passes hh hB (by omega) _ _ t ht h'

/-- The slots of the whole waveform, from its beginning. -/
theorem frameSlots_pass {g : TxProgress} :
    Leads (fun _ => False) (s0.Sending id { g with deadline := wrap s0.params.width g.tau, prevLevel := true })
      (sendSlots host id (frameSlots 0 bytes)) (s0.Passed id g.tau g.outputs bytes (10 * bytes.length)) := by
  rw [frameSlots_spec]
  refine (sendSlots_passes hh hB (Nat.le_refl _)).weaken (fun t h => ⟨0, Nat.le_refl _, Nat.zero_le _, ?_⟩)
    fun _ h => h
  simpa [slotProgress, slotWrites, flipsBelow, levelBefore] using h

/-- The wait after the last slot ends where the waveform does (R219). -/
theorem finalWait_sends :
    Leads (fun _ => False) (s0.Passed id t0 outs bytes (10 * bytes.length))
      (fun t => waitBitCycles host id (t.inst id).deadline t)
      (s0.Sending id { slotProgress s0.params.width (s0.inst id) t0 outs bytes 0 (10 * bytes.length) with
        tau := t0 + 10 * bytes.length * (s0.inst id).bitPeriod }) := by
  refine .of_running fun s hs ⟨k, hk, hend, h⟩ => ?_
  have due : t0 + k * (s0.inst id).bitPeriod + (10 * bytes.length - k) * (s0.inst id).bitPeriod =
      t0 + 10 * bytes.length * (s0.inst id).bitPeriod := by
    rw [Nat.add_assoc, ← Nat.add_mul, Nat.add_sub_of_le hk]
  have near : (10 * bytes.length - k) * (s0.inst id).bitPeriod < s0.params.width.half :=
    lt_of_le_of_lt (Nat.mul_le_mul_right _ (by omega)) hB
  have waits := (waitBitCycles_sends hh near (h.deadline.trans (congrArg (wrap s0.params.width) due.symm))).runs hs h
  simp only [slotProgress, due] at waits
  exact waits

end

/-! ### The whole WRITE -/

section
variable {s0 : State} {id : Nat} {g : TxProgress}

theorem beginWaveform_sends : Sends s0 id g (beginWaveform id)
    { g with deadline := wrap s0.params.width g.tau, prevLevel := true } := by
  refine .of_running fun s hs h => ?_
  have begun := h.modInst (f := fun y => { y with txBusy := true, prevLevel := true }) fun _ hx => { hx with }
  rw [h.deadline] at begun
  refine (tick_sends.then (g := fun t => t.modInst id fun y => { y with deadline := t.counter }) ?_).runs hs begun
  refine .of_running fun t ht h' => ⟨ht, ?_⟩
  have counter : t.counter = wrap s0.params.width g.tau := by rw [State.counter, h'.params, h'.tau]
  rw [counter]
  have read := h'.modInst (f := fun y => { y with deadline := wrap s0.params.width g.tau }) fun _ hx =>
    { hx with deadline_lt := wrap_lt _ _ }
  rwa [h'.prevLevel] at read

theorem ret_sends (r : Result) :
    Sends s0 id g (State.ret id r) { g with outputs := .returned g.tau id r :: g.outputs } :=
  .of_running fun s hs h => ⟨hs, { h with
    core := h.core.congr rfl rfl rfl rfl rfl rfl rfl
    ideal := ⟨h.ideal.draws, h.ideal.queue⟩
    outputs := by rw [← h.tau, ← h.outputs]; rfl }⟩

end

/-- The outputs of a WRITE on `x` from `t0` to `tEnd`, last one first. -/
def writeOutputs (x : Inst) (id t0 tEnd : Nat) (bytes : List Byte) (outs : List Output) : List Output :=
  .returned tEnd id (.natural bytes.length) ::
    ((if x.txEnableValid then [.pinWrite tEnd x.txEnablePin false] else []) ++
      (waveform x.txPin x.invert x.bitPeriod t0 bytes).reverse ++
      (if x.txEnableValid then [.pinWrite t0 x.txEnablePin true] else []) ++ outs)

theorem transmit_sends {s : State} {id : Nat} {bytes : List Byte} {host : HostCode} (hs : s.fault = none)
    (hc : s.Core) (hb : s.constructed id = true) (hi : s.Ideal) (hh : ∀ tEnd u, u.HostWaits → host tEnd u = u)
    (hB : 10 * (s.inst id).bitPeriod < s.params.width.half) :
    (transmit host id bytes s).fault = none ∧ s.Sending id
      { tau := s.tau + 10 * bytes.length * (s.inst id).bitPeriod
        outputs := writeOutputs (s.inst id) id s.tau (s.tau + 10 * bytes.length * (s.inst id).bitPeriod) bytes s.outputs
        deadline := wrap s.params.width (s.tau + 10 * bytes.length * (s.inst id).bitPeriod)
        prevLevel := levelBefore bytes (10 * bytes.length) } (transmit host id bytes s) := by
  have start : s.Sending id ⟨s.tau, s.outputs, (s.inst id).deadline, (s.inst id).prevLevel⟩ s :=
    ⟨hc, hb, hi, rfl, rfl, rfl, rfl, rfl, rfl⟩
  have saved (g : TxProgress) : Sends s id g (fun t => t.modInst id fun y => { y with savedMask := t.im }) g :=
    modInst_sends fun _ _ h => { h with }
  have idle (g : TxProgress) : Sends s id g (State.modInst id fun y => { y with txBusy := false, seq := .idle }) g :=
    modInst_sends fun _ _ h => { h with }
  have whole := Leads.runAll (P := s.Sending id ⟨s.tau, s.outputs, (s.inst id).deadline, (s.inst id).prevLevel⟩)
    (.cons (Leads.whenever (s.inst id).rxValid rxbits_sends)
      (.cons (whenever_writePinLevel_sends (s.inst id).txEnableValid (s.inst id).txEnablePin true)
        (.cons (saved _) (.cons maskInterrupts_sends (.cons beginWaveform_sends
          (.cons (frameSlots_pass (bytes := bytes) hh hB) (.cons (finalWait_sends hh hB)
            (.cons (fun t => Leads.whenever (!(t.inst id).savedMask) unmaskInterrupts_sends t)
              (.cons (whenever_writePinLevel_sends (s.inst id).txEnableValid (s.inst id).txEnablePin false)
                (.cons (idle _) (.cons (ret_sends (.natural bytes.length)) .nil)))))))))))
  obtain ⟨ht, sent⟩ := whole.runs hs start
  refine ⟨ht, ?_⟩
  simp only [slotProgress, ← waveform_eq_slotWrites] at sent
  simp only [writeOutputs, List.append_assoc]
  exact sent

/-- Settles O55: the WRITE passes every check, and `transmit` takes it through all slots to the end of the waveform. -/
theorem writeWaveform : Obligations.WriteWaveform := by
  rintro s id bytes x tEnd hc ha hi rfl htx hcfg hout hne hB rfl
  obtain ⟨-, sent⟩ := transmit_sends (bytes := bytes) ha.running hc ha.built hi
    (fun tEnd u hu => outerHost_waits s hu tEnd) hB
  have sends : write (outerHost s) id bytes s = transmit (outerHost s) id bytes s := by
    simp only [write]
    rw [if_neg (by rw [htx]; decide), if_neg (by rw [hcfg]; decide), if_neg fun h => h.2 (hout h.1), if_neg hne]
  refine ⟨transmit (outerHost s) id bytes s, ?_, sent.tau, sent.deadline, sent.outputs⟩
  rw [← sends]
  exact hostOperation_accepts ha _

end Sys2Proof.Machine
end

section
/-! # What CAPTURE does (40_capture.md R120 to R128)

Where its trigger holds, CAPTURE takes a transition away, enqueues one word, and draws the latency of the next capture.
The last of these (`Arms`) leaves every count of waiting transitions as it was. -/

namespace Sys2Proof.Machine

/-! ### The trigger -/

/-- The conditions of R120. -/
theorem triggered_eq_some_iff {s : State} {p id : Nat} (built : s.constructed id = true) (hp : (s.inst id).rxPin = p) :
    triggered s p = some id ↔
      cellGet s.reg p = some id ∧ s.im = false ∧ 1 ≤ (s.pend p).count ∧ (s.inst id).rxEnabled = true := by
  constructor
  · intro h
    obtain ⟨hreg, him, hpend, -, -, hen⟩ := triggered_some h
    exact ⟨hreg, him, hpend, hen⟩
  · rintro ⟨hreg, him, hpend, hen⟩
    simp [triggered, hreg, him, hpend, built, hp, hen]

/-- CAPTURE that the unit issues on a constructed instance is the capture agent's step. -/
theorem exec_capture {s : State} {id : Nat} (h : s.AcceptsInternal id) :
    exec (.capture id) s = .next (captureStep id s) := internalOperation_accepts h (captureStep id)

/-- Settles O24: each of the four conditions denies one that the trigger needs. -/
theorem noCaptureWithoutTrigger : Obligations.NoCaptureWithoutTrigger := by
  intro s id ha hno
  rw [exec_capture ha, captureStep, if_neg]
  rw [triggered_eq_some_iff ha.built rfl]
  rintro ⟨hreg, him, hpend, hen⟩
  rcases hno with masked | nothing | other | detached
  · simp [masked] at him
  · omega
  · exact other hreg
  · simp [detached] at hen

/-! ### The next capture's latency -/

/-- From `s` to `t` latencies of captures have been drawn, and no transition has come or gone. -/
structure Arms (s t : State) : Prop where
  rest : t = { s with pending := t.pending, draws := { s.draws with lat := t.draws.lat } }
  count : ∀ q, (t.pend q).count = (s.pend q).count

theorem arms_composes : Composes Arms where
  refl _ := ⟨rfl, fun _ => rfl⟩
  trans h1 h2 := ⟨h2.rest.trans (by rw [h1.rest]), fun q => (h2.count q).trans (h1.count q)⟩

theorem Arms.inst {s t : State} (h : Arms s t) (j : Nat) : t.inst j = s.inst j := by
  rw [h.rest]
  rfl

theorem armPin_arms (p : Nat) (s : State) : Arms s (armPin p s) := by
  unfold armPin
  split
  · refine ⟨rfl, fun q => ?_⟩
    rw [pend_setPend]
    split
    · next hq => rw [hq]
    · rfl
  · exact arms_composes.refl s

theorem armAll_arms (s : State) : Arms s (armAll s) := arms_composes.foldl (fun t p => armPin_arms p t) _ s

/-! ### The capture itself -/

theorem applyInst_eq_modInst {id : Nat} {f : Inst → Option Inst} {s : State} {y : Inst} (h : f (s.inst id) = some y) :
    s.applyInst id f = s.modInst id fun _ => y := by
  simp [State.applyInst, h]

/-- `pending[p]` after a capture (R123). -/
def pendingAfter (p : Nat) (s : State) : Pending := ⟨if s.params.coalesce then 0 else (s.pend p).count - 1, none⟩

/-- The word that a capture on pin `p` stores (R122). -/
def capturedWord (p : Nat) (s : State) : Nat := packEdge (wrap s.params.width s.tau) (s.lineLevel p)

/-- Where its trigger holds, CAPTURE takes the transition away, replaces the instance by what Enqueue gives, and arms. -/
theorem captureStep_triggered {s : State} {id p : Nat} {y : Inst} (ht : triggered s p = some id)
    (hy : enqueueEdge (capturedWord p s) (s.inst id) = some y) :
    captureStep id s = armAll ((s.setPend p (pendingAfter p s)).modInst id fun _ => y) := by
  obtain ⟨-, -, -, -, rfl, -⟩ := triggered_some ht
  rw [captureStep, if_pos ht]
  exact congrArg armAll (applyInst_eq_modInst hy)

/-- Settles O23: a sound instance whose receiver is attached has its indices inside its ring, so that Enqueue stores or
drops. -/
theorem captureStoresEdge : Obligations.CaptureStoresEdge := by
  intro s id p hc ha hp him hpend hreg hen
  have sound := hc.inst ha.built
  obtain ⟨hin, hout, -, -⟩ := sound.indices (sound.enabled_configured hen).2
  obtain ⟨y, hy, pushes⟩ := enqueueEdge_pushes (capturedWord p s) hin hout
  have ht := (triggered_eq_some_iff ha.built hp).2 ⟨hreg, him, hpend, hen⟩
  have arms : Arms _ (captureStep id s) := captureStep_triggered ht hy ▸ armAll_arms _
  have hid : (captureStep id s).inst id = y := (arms.inst id).trans (inst_modInst_same _ _ _ ha.built)
  refine ⟨captureStep id s, exec_capture ha, hid ▸ pushes, hid ▸ (enqueueEdge_capturedTo hy hen).rest,
    fun j hj => (arms.inst j).trans (inst_modInst_other _ _ hj), fun q => ?_, ?_⟩
  · rw [arms.count, modInst_pend, pend_setPend]
    split <;> rfl
  · rw [arms.rest]
    rfl

end Sys2Proof.Machine
end

section
/-! # What one edge does (41_decoder.md R144 to R153, R160, R161)

`replayEvent_eq` takes REPLAY_EDGE to `replayEdge` on the instance. An accepted edge either is a data bit
(`replayEdge_takesBit`) or finds the accumulator filled by the hidden bits and completes the byte
(`replayEdge_finishes`). What the decoder does not see is `outE`, and of the timestamps all but their distance
(`replayEdge_mapUnseen`). -/

namespace Sys2Proof.Machine

/-! ### Over the state -/

theorem modInst_sets {s : State} {id : Nat} (y : Inst) (built : s.constructed id = true) :
    State.Sets id y s (s.modInst id fun _ => y) :=
  ⟨rfl, inst_modInst_same s id _ built, fun _ hj => inst_modInst_other s _ hj, cellMod_keys s.insts id fun _ => y⟩

theorem applyInst_inst_other {id j : Nat} (f : Inst → Option Inst) (s : State) (hj : j ≠ id) :
    (s.applyInst id f).inst j = s.inst j := by
  unfold State.applyInst
  split
  · exact inst_modInst_other s _ hj
  · rfl

section
variable {s : State} {id : Nat} {ev : EdgeEvent} {y : Inst}

theorem exec_replayEdge (ha : s.AcceptsInternal id) : exec (.replayEdge id ev) s = .next (replayEvent id ev s) :=
  internalOperation_accepts ha (replayEvent id ev)

theorem replayEvent_eq (hts : eventTs ev < s.params.width.modulus)
    (hy : replayEdge s.params.width (eventTs ev) (eventLevel (s.inst id).invert ev) (s.inst id) = some y) :
    replayEvent id ev s = s.modInst id fun _ => y := by
  rw [replayEvent, wrap, Nat.mod_eq_of_lt hts]
  exact applyInst_eq_modInst hy

theorem replayEvent_sets (ha : s.AcceptsInternal id) (hts : eventTs ev < s.params.width.modulus)
    (hy : replayEdge s.params.width (eventTs ev) (eventLevel (s.inst id).invert ev) (s.inst id) = some y) :
    State.Sets id y s (replayEvent id ev s) :=
  replayEvent_eq hts hy ▸ modInst_sets y ha.built

end

/-! ### Discarded edges and start bits -/

section
variable {w : Width} {ts : Nat} {level : Bool} {x : Inst}

/-- Inside a byte an edge closer than half a bit period is discarded (R145). -/
theorem replayEdge_discards (hbit : x.curBit ≠ 8) (close : subW w ts x.lastTs < x.bitPeriod / 2) :
    replayEdge w ts level x = some x :=
  if_pos ⟨by omega, hbit⟩

theorem replayEdge_starts (h8 : x.curBit = 8) :
    replayEdge w ts level x = some { x with lastTs := ts, curBit := if level then 8 else -1 } := by
  rw [replayEdge_idle h8]
  cases level with
  | false => rfl
  | true => rw [idleStep_true, if_pos rfl, ← h8]

end

/-- Settles O29: both cases are those of the instance. -/
theorem replayDiscardsOrStarts : Obligations.ReplayDiscardsOrStarts := by
  rintro s id ev x ts ha rfl rfl hts
  exact ⟨_, exec_replayEdge ha, fun hbit close => replayEvent_sets ha hts (replayEdge_discards hbit close),
    fun h8 => replayEvent_sets ha hts (replayEdge_starts h8)⟩

/-! ### Data bits -/

section
variable {w : Width} {ts c : Nat} {level : Bool} {x : Inst}

/-- The accumulator of `x` after `h` hidden bits, as R149 writes it. -/
theorem shiftHidden_curByte (h : Nat) (x : Inst) : (shiftHidden h x).curByte =
    (x.curByte >>> h) ||| (if x.curByte.getLsbD 7 then 0xFF#8 <<< (8 - h) else 0#8) := by
  rw [shiftHidden, hiddenFill, BitVec.msb_eq_getLsbD_last]

/-- Where the hidden bits do not fill the byte, the edge's level is one more data bit (R148, R150). -/
theorem replayEdge_takesBit (hb : 1 ≤ x.bitPeriod) (hlo : -1 ≤ x.curBit)
    (hc : subW w ts x.lastTs = x.bitPeriod / 2 + c) (hlt : x.curBit + (c / x.bitPeriod : Nat) < 7) :
    replayEdge w ts level x = some (shiftExplicit level (shiftHidden (c / x.bitPeriod) { x with lastTs := ts })) := by
  rw [replayEdge_accepts hc]
  exact replayLoop_takesBit (x := { x with lastTs := ts }) 9 hb hlo rfl hlt

end

/-- Settles O30: the minimum is `cycles / B`, since the byte lacks more bits than `h`. -/
theorem replayShiftsDataBits : Obligations.ReplayShiftsDataBits := by
  rintro s id ev x ts cycles h ha rfl rfl hts hb hlo h6 hc hh hlt
  obtain rfl : h = cycles / (s.inst id).bitPeriod := by omega
  have taken := replayEvent_sets ha hts (replayEdge_takesBit hb hlo hc hlt)
  rw [shiftExplicit, shiftHidden_curByte] at taken
  exact ⟨_, exec_replayEdge ha, taken⟩

/-! ### A completed byte -/

/-- What Enqueue on the byte ring reads. -/
def Inst.byteRing (x : Inst) : ByteSlots × Nat × Nat × Nat × Bool := (x.bytes, x.byteCap, x.inB, x.outB, x.byteOvf)

/-- Enqueue on the byte ring does not see the other registers. -/
theorem Inst.PushesByte.congr {b : Byte} {x y x' y' : Inst} (h : x.PushesByte b y) (hx : x'.byteRing = x.byteRing)
    (hy : y'.byteRing = y.byteRing) : x'.PushesByte b y' := by
  simp only [Inst.byteRing, Prod.mk.injEq] at hx hy
  obtain ⟨xs, xcap, xi, xo, xovf⟩ := hx
  obtain ⟨ys, ycap, yi, yo, yovf⟩ := hy
  have qx := byteQueue_congr xs xcap xi xo
  have qy := byteQueue_congr ys ycap yi yo
  obtain ⟨outB, stored, dropped⟩ := h
  constructor <;> simpa only [qx, qy, xs, xcap, xi, xo, xovf, ys, yi, yo, yovf]

/-- From `x` to `y` the decoder has accepted an edge at `ts`, has enqueued byte `b` or lost it to the full ring, and
stands at bit `k` of the next byte (R146, R151, R152). -/
structure Inst.Finishes (x : Inst) (b : Byte) (ts : Nat) (k : Int) (y : Inst) : Prop where
  pushes : x.PushesByte b y
  rest : y = { x with
    lastTs := ts, curByte := 0#8, curBit := k, bytes := y.bytes, inB := y.inB, byteOvf := y.byteOvf }

section
variable {x y : Inst} {b : Byte} {ts : Nat}

theorem finalizeStep_finishes (h : x.Decodable) :
    ∃ y, finalizeStep x = some y ∧ x.Finishes x.curByte x.lastTs 8 y := by
  obtain ⟨z, hz, pushes⟩ := enqueueByte_pushes x.curByte h.ring.1 h.ring.2
  obtain ⟨y, hy, decodable, frame, h8, hlast⟩ := finalizeStep_spec h
  have hyz : y = { z with curByte := 0#8, curBit := 8 } := by
    simpa [finalizeStep, hz, eq_comm] using hy
  refine ⟨y, hy, pushes.congr rfl (by rw [hyz]; rfl), ?_⟩
  rw [← decodable.zero (.inr h8), ← h8, ← hlast]
  exact frame.rest

/-- A start level begins the next byte. -/
theorem Inst.Finishes.idleStep (h : x.Finishes b ts 8 y) (level : Bool) :
    x.Finishes b ts (if level then 8 else -1) (idleStep level y) := by
  cases level with
  | true => exact h
  | false => exact ⟨h.pushes.congr rfl rfl, congrArg (fun z : Inst => { z with curBit := -1 }) h.rest⟩

variable {w : Width} {c g : Nat} {level : Bool}

theorem Inst.Decodable.shiftHidden (h : x.Decodable) (hg : x.curBit + g = 7) (ts : Nat) :
    (Machine.shiftHidden g { x with lastTs := ts }).Decodable := by
  have full : (Machine.shiftHidden g { x with lastTs := ts }).curBit = 7 := hg
  exact ⟨by omega, by omega, h.ring, h.canonical⟩

/-- Where the hidden bits fill the byte, it is enqueued, and where a bit period is left the edge is examined as the next
start bit (R148, R151, R153). -/
theorem replayEdge_finishes (h : x.Decodable) (hb : 1 ≤ x.bitPeriod) (hg : x.curBit + g = 7)
    (hc : subW w ts x.lastTs = x.bitPeriod / 2 + c) (hle : g * x.bitPeriod ≤ c) :
    ∃ y, replayEdge w ts level x = some y ∧
      x.Finishes (shiftHidden g x).curByte ts
        (if x.bitPeriod ≤ c - g * x.bitPeriod ∧ level = false then -1 else 8) y := by
  obtain ⟨z, hz, done⟩ := finalizeStep_finishes (h.shiftHidden hg ts)
  have finishes : x.Finishes (shiftHidden g x).curByte ts 8 z := ⟨done.pushes.congr rfl rfl, done.rest⟩
  have h8 : z.curBit = 8 := by rw [done.rest]
  have left : c < (g + 1) * x.bitPeriod ↔ ¬ x.bitPeriod ≤ c - g * x.bitPeriod := by
    rw [Nat.succ_mul]
    omega
  refine ⟨_, (replayEdge_accepts hc).trans
    (replayLoop_fills (x := { x with lastTs := ts }) 7 hb h.range.1 hg hle hz h8), ?_⟩
  show x.Finishes _ ts _ (if c < (g + 1) * x.bitPeriod then z else Machine.idleStep level z)
  by_cases more : x.bitPeriod ≤ c - g * x.bitPeriod
  · have examined : ¬ c < (g + 1) * x.bitPeriod := fun hlt => left.1 hlt more
    cases level with
    | true => simpa [examined, idleStep_true] using finishes
    | false => simpa [examined, more] using finishes.idleStep false
  · simpa [left.2 more, more] using finishes

end

/-- Settles O31: an instance that can receive has its indices inside the byte ring. -/
theorem replayFinalizesByte : Obligations.ReplayFinalizesByte := by
  rintro s id ev x ts cycles h hc ha rfl hv rfl hts hb hlo h7 hcyc hh hfull
  have decodable := (hc.inst ha.built).decodable (hc.cells ha.built) hv
  have hle : h * (s.inst id).bitPeriod ≤ cycles := (Nat.le_div_iff_mul_le hb).1 (by omega)
  obtain ⟨y, hy, done⟩ := replayEdge_finishes decodable hb hfull hcyc hle
  have sets := replayEvent_sets ha hts hy
  rw [shiftHidden_curByte] at done
  exact ⟨_, exec_replayEdge ha, sets.inst ▸ sets, sets.inst ▸ done.pushes, sets.inst ▸ done.rest⟩

/-! ### The tolerance of one interval -/

/-- An accepted edge is taken as `n` slots, none of them the stop bit's, exactly where its hidden bits and its own make
`n`; where the byte is filled before, `curBit` ends as 8 or -1, which no data bit after the last one is. -/
theorem replayEdge_curBit {w : Width} {ts c n : Nat} {level : Bool} {x : Inst} (h : x.Decodable) (hb : 1 ≤ x.bitPeriod)
    (hn : 1 ≤ n) (h7 : x.curBit + n ≤ 7) (hc : subW w ts x.lastTs = x.bitPeriod / 2 + c) :
    ∃ y, replayEdge w ts level x = some y ∧ (y.curBit = x.curBit + n ↔ c / x.bitPeriod + 1 = n) := by
  have hlo := h.range.1
  by_cases hlt : x.curBit + (c / x.bitPeriod : Nat) < 7
  · refine ⟨_, replayEdge_takesBit hb hlo hc hlt, ?_⟩
    show x.curBit + (c / x.bitPeriod : Nat) + 1 = x.curBit + n ↔ _
    omega
  · obtain ⟨g, hg⟩ : ∃ g : Nat, x.curBit + g = 7 := ⟨(7 - x.curBit).toNat, by omega⟩
    have hle : g * x.bitPeriod ≤ c := (Nat.le_div_iff_mul_le hb).1 (by omega)
    obtain ⟨y, hy, done⟩ := replayEdge_finishes (level := level) h hb hg hc hle
    have outside : y.curBit = -1 ∨ y.curBit = 8 := by
      rw [done.rest]
      exact ite_eq_or_eq ..
    exact ⟨y, hy, by omega⟩

/-- Settles O32: an edge too close is discarded; the others are `(n * B + e - B / 2) / B + 1` slots. -/
theorem intervalTolerance : Obligations.IntervalTolerance := by
  rintro s id ev x ts n e hc ha rfl hv rfl hts hb hlo hn h7 hdelta
  have decodable := (hc.inst ha.built).decodable (hc.cells ha.built) hv
  obtain ⟨m, rfl⟩ : ∃ m, n = m + 1 := ⟨n - 1, by omega⟩
  have slots : ((m + 1 : Nat) : Int) * (s.inst id).bitPeriod =
      (m * (s.inst id).bitPeriod : Nat) + (s.inst id).bitPeriod := by
    push_cast
    ring
  rw [slots] at hdelta
  refine ⟨_, exec_replayEdge ha, ?_⟩
  by_cases close : subW s.params.width (eventTs ev) (s.inst id).lastTs < (s.inst id).bitPeriod / 2
  · rw [(replayEvent_sets ha hts (replayEdge_discards (by omega) close)).inst]
    omega
  · obtain ⟨c, hcyc⟩ := Nat.exists_eq_add_of_le (not_lt.1 close)
    obtain ⟨y, hy, hbit⟩ := replayEdge_curBit decodable hb hn h7 hcyc
    have count : c / (s.inst id).bitPeriod = m ↔
        m * (s.inst id).bitPeriod ≤ c ∧ c < m * (s.inst id).bitPeriod + (s.inst id).bitPeriod := by
      rw [Nat.div_eq_iff hb]
      omega
    rw [(replayEvent_sets ha hts hy).inst, hbit, Nat.succ_inj, count]
    omega

/-! ### Registers that the loop does not see -/

section
variable {x : Inst} {cycles : Int} (level : Bool)

theorem dataStep_takes (more : (shiftHidden (hiddenCount x cycles) x).curBit < 7) : dataStep level cycles x =
    (shiftExplicit level (shiftHidden (hiddenCount x cycles) x),
      cycles - hiddenCount x cycles * x.bitPeriod - x.bitPeriod) := if_pos more

theorem dataStep_fills (full : ¬ (shiftHidden (hiddenCount x cycles) x).curBit < 7) : dataStep level cycles x =
    (shiftHidden (hiddenCount x cycles) x, cycles - hiddenCount x cycles * x.bitPeriod) := if_neg full

end

/-- The instance with other values of `outE` and `lastTs`, which the loop of R143 neither reads nor writes. -/
def Inst.mapUnseen (f g : Nat → Nat) (x : Inst) : Inst := { x with outE := f x.outE, lastTs := g x.lastTs }

section
variable (f g : Nat → Nat) (level : Bool) (cycles : Int) (x : Inst)

theorem finalizeStep_mapUnseen :
    finalizeStep (x.mapUnseen f g) = (finalizeStep x).map (Inst.mapUnseen f g) := by
  simp only [finalizeStep, enqueueByte, apply_ite (Option.map _)]
  rfl

theorem dataStep_mapUnseen : dataStep level cycles (x.mapUnseen f g) =
    ((dataStep level cycles x).1.mapUnseen f g, (dataStep level cycles x).2) := by
  by_cases more : (shiftHidden (hiddenCount x cycles) x).curBit < 7
  · rw [dataStep_takes level more]
    exact dataStep_takes (x := x.mapUnseen f g) level more
  · rw [dataStep_fills level more]
    exact dataStep_fills (x := x.mapUnseen f g) level more

theorem idleStep_mapUnseen : idleStep level (x.mapUnseen f g) = (idleStep level x).mapUnseen f g := by
  cases level <;> rfl

theorem replayLoop_mapUnseen (n : Nat) :
    replayLoop n level cycles (x.mapUnseen f g) = (replayLoop n level cycles x).map (Inst.mapUnseen f g) := by
  induction n generalizing cycles x with
  | zero => rfl
  | succ n ih =>
    have hbit : (x.mapUnseen f g).curBit = x.curBit := rfl
    have hperiod : (x.mapUnseen f g).bitPeriod = x.bitPeriod := rfl
    simp only [replayLoop, hbit, hperiod, dataStep_mapUnseen, finalizeStep_mapUnseen, idleStep_mapUnseen, ih]
    split
    · split <;> rfl
    · split
      · cases finalizeStep x with
        | none => rfl
        | some y =>
          simp only [Option.map_some, ih]
          split <;> rfl
      · rfl

variable {f g level x} {w : Width} {ts : Nat}

/-- REPLAY_EDGE sees of the timestamps only how far they are apart (R144), and does not see `outE`. -/
theorem replayEdge_mapUnseen (h : subW w (g ts) (g x.lastTs) = subW w ts x.lastTs) :
    replayEdge w (g ts) level (x.mapUnseen f g) = (replayEdge w ts level x).map (Inst.mapUnseen f g) := by
  have hlast : (x.mapUnseen f g).lastTs = g x.lastTs := rfl
  simp only [replayEdge, hlast, h, apply_ite (Option.map _)]
  exact if_congr Iff.rfl rfl (replayLoop_mapUnseen f g level _ { x with lastTs := ts } 10)

end

theorem subW_addW_addW {w : Width} {a b : Nat} (c : Nat) (ha : a < w.modulus) (hb : b < w.modulus) :
    subW w (addW w a c) (addW w b c) = subW w a b := by
  unfold subW addW
  cases w <;> simp only [Width.modulus] at * <;> omega

/-- Settles O33: moved by `c` modulo `2^W`, the timestamps are as far apart as before. -/
theorem wrapInvariance : Obligations.WrapInvariance := fun w _ c _ _ hts hlast =>
  replayEdge_mapUnseen (f := id) (g := (addW w · c)) (subW_addW_addW c hts hlast)

end Sys2Proof.Machine
end

section
/-! # A decoder pass (41_decoder.md R140 to R142, R155 to R159, R164)

In a calm environment the micro-step boundaries of a pass are nothing, and it is a function of the instance: the queued
edges are replayed in order (`replayQueued_calm`), then `synthesized` says what SYNTH_STOP does (`synthStopAt_calm`). -/

namespace Sys2Proof.Machine

/-! ### The decoder runs -/

section
variable {s : State} {id : Nat}

theorem exec_rxbits (ha : s.AcceptsInternal id) : exec (.rxbits id) s = .next (rxbits id s) :=
  internalOperation_accepts ha (rxbits id)

theorem exec_synthStop (ha : s.AcceptsInternal id) : exec (.synthStop id) s = .next (synthStop id s) :=
  internalOperation_accepts ha (synthStop id)

theorem exec_synthStopAt (ha : s.AcceptsInternal id) (now : Nat) :
    exec (.synthStopAt id now) s = .next (synthStopAt id now s) :=
  internalOperation_accepts ha (synthStopAt id now)

theorem rxbits_disabled (hv : (s.inst id).rxValid = false) : rxbits id s = s := by
  rw [rxbits, if_neg (by simp [hv])]

theorem synthStop_idle (h8 : (s.inst id).curBit = 8) : synthStop id s = s := if_pos h8

theorem synthStopAt_idle (now : Nat) (h8 : (s.inst id).curBit = 8) : synthStopAt id now s = s := if_pos h8

/-- Before START there is no bit period, and the decoder is idle (00_scope.md R7). -/
theorem State.Core.idle_or_decoding (hc : s.Core) (ha : s.AcceptsInternal id) (hv : (s.inst id).rxValid = true) :
    (s.inst id).curBit = 8 ∨ s.Decoding id := by
  by_cases hb : (s.inst id).bitPeriod = 0
  · exact .inl ((hc.inst ha.built).idle_before_start hb).1
  · exact .inr ⟨hc, ha.running, ha.built, hv, hb⟩

end

/-- Settles O25: `DecodeSafe` is what each of the operations keeps. -/
theorem decoderRuns : Obligations.DecoderRuns := by
  intro s id hc ha
  have idle : DecodeSafe id s s := ⟨hc, ha.running, .refl id s⟩
  have runs {i : Instr} {t : State} (he : exec i s = .next t) (safe : DecodeSafe id s t) :
      ∃ t, exec i s = .next t ∧ t.fault = none ∧ t.Core ∧ State.DecodeTo id s t :=
    ⟨t, he, safe.running, safe.sound, safe.frame⟩
  refine ⟨runs (exec_rxbits ha) (rxbits_safe hc ha.running ha.built), fun hv => ?_, fun hv => ⟨?_, fun now => ?_⟩,
    fun ev _ hv hb => ?_⟩
  · rw [exec_rxbits ha, rxbits_disabled hv]
  · refine runs (exec_synthStop ha) ?_
    rcases hc.idle_or_decoding ha hv with h8 | hd
    · rw [synthStop_idle h8]
      exact idle
    · exact synthStop_safe hd
  · refine runs (exec_synthStopAt ha now) ?_
    rcases hc.idle_or_decoding ha hv with h8 | hd
    · rw [synthStopAt_idle now h8]
      exact idle
    · exact synthStopAt_safe now hd
  · have safe : DecodeSafe id s (replayEvent id ev s) :=
      replayOn_safe _ ⟨hc, ha.running, ha.built, hv, by omega⟩ (wrap_lt ..)
    exact ⟨_, exec_replayEdge ha, safe.running, safe.sound, safe.frame, applyInst_tau ..,
      fun _ hj => applyInst_inst_other _ _ hj⟩

/-! ### The synthesized stop edge -/

section
variable {p : Params} {now : Nat} {x : Inst}

/-- Every legal threshold leaves time for the missing data bits: the synthesized edge completes the byte (R156). -/
theorem synthesized_due (sound : x.Inv p) (cells : x.cellsWf) (hv : x.rxValid = true) (busy : x.curBit ≠ 8)
    (due : synthDelta p x.curBit x.bitPeriod < subW p.width now x.lastTs) :
    ∃ y, synthesized p now x = some y ∧
      x.Finishes (shiftHidden (7 - x.curBit).toNat x).curByte
        (addW p.width x.lastTs (synthDelta p x.curBit x.bitPeriod)) 8 y := by
  obtain ⟨hlo, hhi⟩ := sound.curBit_range
  have hb : 1 ≤ x.bitPeriod := Nat.one_le_iff_ne_zero.2 fun h0 => busy (sound.idle_before_start h0).1
  have reach := synthBound_le_synthDelta p (show x.curBit ≤ 7 by omega) x.bitPeriod
  rw [synthBound] at reach
  have elapsed : subW p.width (addW p.width x.lastTs (synthDelta p x.curBit x.bitPeriod)) x.lastTs =
      x.bitPeriod / 2 + (synthDelta p x.curBit x.bitPeriod - x.bitPeriod / 2) := by
    rw [subW_addW (due.trans (subW_lt ..))]
    omega
  obtain ⟨y, hy, done⟩ := replayEdge_finishes (level := true) (g := (7 - x.curBit).toNat) (sound.decodable cells hv) hb
    (by omega) elapsed (by omega)
  exact ⟨y, (if_pos ⟨busy, due⟩).trans hy, by simpa using done⟩

/-- After SYNTH_STOP the decoder is idle, or nothing has changed; no edge is taken. -/
theorem synthesized_idle_or_self (sound : x.Inv p) (cells : x.cellsWf) (hv : x.rxValid = true) :
    ∃ y, synthesized p now x = some y ∧ (y.curBit = 8 ∨ y = x) ∧ y.inE = x.inE ∧ y.outE = x.outE := by
  by_cases due : x.curBit ≠ 8 ∧ synthDelta p x.curBit x.bitPeriod < subW p.width now x.lastTs
  · obtain ⟨y, hy, done⟩ := synthesized_due sound cells hv due.1 due.2
    exact ⟨y, hy, .inl (by rw [done.rest]), by rw [done.rest], by rw [done.rest]⟩
  · exact ⟨x, if_neg due, .inr rfl, rfl, rfl⟩

end

/-! ### SYNTH_STOP in a calm environment -/

theorem State.Calm.tick {s : State} (h : s.Calm) : tick s = s := tick_calm h.inputs h.pending h.draws

theorem State.Calm.modInst {s : State} (h : s.Calm) (id : Nat) (f : Inst → Inst) : (s.modInst id f).Calm :=
  ⟨h.inputs, h.pending, h.draws, h.queue⟩

theorem modInst_self {s : State} (hc : s.Core) {id : Nat} (built : s.constructed id = true) :
    (s.modInst id fun _ => s.inst id) = s := by
  rw [← modInst_const (fun x => x) hc built]
  simp [State.modInst, cellMod]

/-- Where a pass runs in a calm environment (R140). There may be no bit period yet: then the decoder is idle and no edge is
queued (00_scope.md R7). -/
structure State.CalmDecoding (s : State) (id : Nat) : Prop where
  core : s.Core
  accepts : s.AcceptsInternal id
  calm : s.Calm
  valid : (s.inst id).rxValid = true

section
variable {s : State} {id : Nat}

theorem State.CalmDecoding.sound (h : s.CalmDecoding id) : (s.inst id).Inv s.params := h.core.inst h.accepts.built

theorem State.CalmDecoding.cells (h : s.CalmDecoding id) : (s.inst id).cellsWf := h.core.cells h.accepts.built

theorem State.CalmDecoding.ring (h : s.CalmDecoding id) :
    (s.inst id).inE < (s.inst id).edgeCap ∧ (s.inst id).outE < (s.inst id).edgeCap :=
  have ⟨hin, hout, _⟩ := h.sound.indices h.valid
  ⟨hin, hout⟩

theorem State.CalmDecoding.modInst (h : s.CalmDecoding id) {y : Inst}
    (safe : DecodeSafe id s (s.modInst id fun _ => y)) : (s.modInst id fun _ => y).CalmDecoding id :=
  ⟨safe.sound, ⟨safe.running, h.accepts.fromUnit, (constructed_modInst ..).trans h.accepts.built⟩, h.calm.modInst id _,
    by rw [safe.frame.inst]; exact h.valid⟩

/-- SYNTH_STOP reads the counter at the time it begins. -/
theorem synthStop_calm (h : s.Calm) (running : s.fault = none) : synthStop id s = synthStopAt id s.tau s := by
  simp only [synthStop, h.tick, (not_stopped_iff s).2 running, Bool.false_eq_true, if_false]
  rfl

/-- SYNTH_STOP while idle, with an edge queued, or before its threshold has passed (R155). -/
theorem synthStopAt_waits (h : s.CalmDecoding id) {now : Nat}
    (waits : (s.inst id).curBit = 8 ∨ (s.inst id).inE ≠ (s.inst id).outE ∨
      subW s.params.width (wrap s.params.width now) (s.inst id).lastTs ≤
        synthDelta s.params (s.inst id).curBit (s.inst id).bitPeriod) :
    synthStopAt id now s = s := by
  simp only [synthStopAt, synthAt, h.calm.tick, (not_stopped_iff s).2 h.accepts.running, Bool.false_eq_true, if_false]
  rcases waits with h8 | queued | early
  · rw [if_pos h8]
  · rw [if_pos queued, ite_self]
  · rw [if_neg early.not_gt, ite_self, ite_self]

/-- With no edge queued SYNTH_STOP does to the instance what `synthesized` says. -/
theorem synthStopAt_calm (h : s.CalmDecoding id) {now : Nat} {y : Inst} (hE : (s.inst id).inE = (s.inst id).outE)
    (hy : synthesized s.params (wrap s.params.width now) (s.inst id) = some y) :
    synthStopAt id now s = s.modInst id fun _ => y := by
  by_cases due : (s.inst id).curBit ≠ 8 ∧ synthDelta s.params (s.inst id).curBit (s.inst id).bitPeriod <
      subW s.params.width (wrap s.params.width now) (s.inst id).lastTs
  · simp only [synthStopAt, synthAt, h.calm.tick, (not_stopped_iff s).2 h.accepts.running, Bool.false_eq_true,
      if_false]
    rw [if_neg due.1, if_neg (not_not.2 hE), if_pos due.2]
    exact applyInst_eq_modInst ((if_pos due).symm.trans hy)
  · have same : s.inst id = y := Option.some.inj ((if_neg due).symm.trans hy)
    have waits := (not_and_or.1 due).imp not_not.1 not_lt.1
    rw [synthStopAt_waits h (waits.imp_right .inr), ← same, modInst_self h.core h.accepts.built]

end

/-- Settles O28: the two forms are one, at the counter value the operation takes. -/
theorem synthStopCompletesByte : Obligations.SynthStopCompletesByte := by
  rintro s id i x delta h n hc ha calm rfl hv rfl rfl hi
  have hd : s.CalmDecoding id := ⟨hc, ha, calm, hv⟩
  obtain ⟨now, he, rfl⟩ : ∃ now, exec i s = .next (synthStopAt id now s) ∧ n = wrap s.params.width now := by
    rcases hi with ⟨rfl, rfl⟩ | ⟨now, rfl, rfl⟩
    · exact ⟨s.tau, by rw [exec_synthStop ha, synthStop_calm calm ha.running], rfl⟩
    · exact ⟨now, exec_synthStopAt ha now, rfl⟩
  refine ⟨_, he, synthStopAt_waits hd, fun busy hE due => ?_⟩
  obtain ⟨y, hy, done⟩ := synthesized_due hd.sound hd.cells hv busy due
  have sets := modInst_sets y ha.built
  rw [← synthStopAt_calm hd hE hy] at sets
  rw [shiftHidden_curByte] at done
  exact ⟨sets.inst ▸ sets, sets.inst ▸ done.pushes, sets.inst ▸ done.rest⟩

/-! ### The queued edges -/

theorem queuedEdges_decodedTo {x y : Inst} (h : x.DecodedTo y) : queuedEdges y = queuedEdges x := by
  have window := edgeWindow_congr (x := x) (y := y) (by rw [h.rest]) (by rw [h.rest])
  have hin : y.inE = x.inE := by rw [h.rest]
  have hout : y.outE = x.outE := by rw [h.rest]
  have hcap : y.edgeCap = x.edgeCap := by rw [h.rest]
  have hinv : y.invert = x.invert := by rw [h.rest]
  simp only [queuedEdges, edgeQueue, window, hin, hout, hcap, hinv]

theorem queuedEdges_empty {x : Inst} (h : ringCount x.edgeCap x.inE x.outE = 0) : queuedEdges x = [] := by
  rw [queuedEdges, edgeQueue, h]
  rfl

/-- The oldest edge, and those that stay behind. -/
theorem queuedEdges_cons {x : Inst} (hi : x.inE < x.edgeCap) (ho : x.outE < x.edgeCap) (hne : x.inE ≠ x.outE) :
    queuedEdges x =
      (tsOf (edgeAt x x.outE), levelOf x.invert (edgeAt x x.outE)) :: queuedEdges (advanceOutE x) := by
  rw [queuedEdges, edgeQueue_eq_ringQueue, ringQueue_of_ne _ hi ho hne, List.map_cons, queuedEdges,
    edgeQueue_eq_ringQueue]
  rfl

theorem modInst_modInst_const (s : State) (id : Nat) (f : Inst → Inst) (y : Inst) :
    ((s.modInst id f).modInst id fun _ => y) = s.modInst id fun _ => y := by
  simp only [State.modInst, cellMod, List.map_map]
  congr 2
  funext e
  simp only [Function.comp]
  split <;> simp [*]

theorem replayEdge_setOutE {w : Width} {ts : Nat} {level : Bool} {x y : Inst} (o : Nat)
    (hy : replayEdge w ts level x = some y) :
    replayEdge w ts level { x with outE := o } = some { y with outE := o } :=
  (replayEdge_mapUnseen (f := fun _ => o) (g := id) rfl).trans (congrArg (Option.map _) hy)

section
variable {s : State} {id : Nat}

theorem replayNext_calm (h : s.CalmDecoding id) {y : Inst}
    (hy : replayEdge s.params.width (tsOf (edgeAt (s.inst id) (s.inst id).outE))
      (levelOf (s.inst id).invert (edgeAt (s.inst id) (s.inst id).outE)) (advanceOutE (s.inst id)) = some y) :
    replayNext id s = s.modInst id fun _ => y := by
  have hout := h.ring.2
  have running := h.accepts.running
  simp only [replayNext, h.calm.tick, (not_stopped_iff s).2 running, Bool.false_eq_true, if_false, if_pos hout]
  rw [runAll_cons_running _ _ running, h.calm.tick, runAll_cons_running _ _ running,
    runAll_cons_running (s := s.modInst id advanceOutE) _ _ running, runAll_nil, replayOn,
    ← modInst_modInst_const s id advanceOutE y]
  refine applyInst_eq_modInst ?_
  rw [inst_modInst_same s id _ h.accepts.built]
  exact hy

/-- One event of a pass: the oldest queued edge, replayed whatever the read index stands at. -/
theorem replayNext_replays (h : s.CalmDecoding id) (hne : (s.inst id).inE ≠ (s.inst id).outE) :
    ∃ y, replayNext id s = (s.modInst id fun _ => y) ∧ (s.modInst id fun _ => y).CalmDecoding id ∧
      (advanceOutE (s.inst id)).DecodedTo y ∧
      replayEdge s.params.width (tsOf (edgeAt (s.inst id) (s.inst id).outE))
        (levelOf (s.inst id).invert (edgeAt (s.inst id) (s.inst id).outE))
        { s.inst id with outE := (s.inst id).inE } = some { y with outE := y.inE } := by
  have hb : (s.inst id).bitPeriod ≠ 0 := fun h0 => hne (h.sound.idle_before_start h0).2.1
  have decodable := (advanceOutE_sound h.sound h.valid hb).decodable h.cells h.valid
  obtain ⟨y, hy, -, frame, -⟩ := replayEdge_spec s.params.width (tsOf (edgeAt (s.inst id) (s.inst id).outE))
    (levelOf (s.inst id).invert (edgeAt (s.inst id) (s.inst id).outE)) decodable
  have next := replayNext_calm h hy
  refine ⟨y, next, h.modInst (next ▸ replayNext_safe ⟨h.core, h.accepts.running, h.accepts.built, h.valid, hb⟩),
    frame, (replayEdge_setOutE _ hy).trans (congrArg (fun o => some { y with outE := o }) ?_)⟩
  rw [frame.rest]
  rfl

/-- A pass up to SYNTH_STOP: the queued edges in order (R141). -/
theorem replayQueued_calm {n : Nat} (h : s.CalmDecoding id)
    (hn : ringCount (s.inst id).edgeCap (s.inst id).inE (s.inst id).outE = n) :
    ∃ y, replayAll s.params.width (queuedEdges (s.inst id)) { s.inst id with outE := (s.inst id).inE } = some y ∧
      replayQueued id n s = (s.modInst id fun _ => y) ∧ (s.modInst id fun _ => y).CalmDecoding id ∧
      y.inE = y.outE := by
  induction n generalizing s with
  | zero =>
    have hE := (ringCount_eq_zero_iff h.ring.2).1 hn
    have same := modInst_self h.core h.accepts.built
    refine ⟨s.inst id, ?_, same.symm, same.symm ▸ h, hE⟩
    rw [queuedEdges_empty hn, hE]
    rfl
  | succ n ih =>
    obtain ⟨hin, hout⟩ := h.ring
    have hne : (s.inst id).inE ≠ (s.inst id).outE := fun hE => by simp [(ringCount_eq_zero_iff hout).2 hE] at hn
    obtain ⟨y, hnext, hs, frame, moved⟩ := replayNext_replays h hne
    have hid : (s.modInst id fun _ => y).inst id = y := inst_modInst_same s id _ h.accepts.built
    have count : ringCount y.edgeCap y.inE y.outE = n := by
      have := ringCount_dequeue hin hout hne
      rw [frame.rest]
      show ringCount (s.inst id).edgeCap (s.inst id).inE (ringNext (s.inst id).edgeCap (s.inst id).outE) = n
      omega
    obtain ⟨z, hz, hq, hzd, hE⟩ := ih hs (by rw [hid, count])
    rw [hid] at hz
    rw [modInst_modInst_const] at hq hzd
    refine ⟨z, ?_, ?_, hzd, hE⟩
    · rw [queuedEdges_cons hin hout hne, ← queuedEdges_decodedTo frame, replayAll, moved]
      exact hz
    · rw [replayQueued, if_neg (by simp [State.stopped, h.accepts.running]), hnext, hq]

end

/-- RXBITS in a calm environment: the queued edges, then SYNTH_STOP on an empty edge ring (R141). -/
theorem rxbits_calm {s : State} {id : Nat} (h : s.CalmDecoding id) :
    ∃ y, replayAll s.params.width (queuedEdges (s.inst id)) { s.inst id with outE := (s.inst id).inE } = some y ∧
      (s.modInst id fun _ => y).CalmDecoding id ∧ y.inE = y.outE ∧
      rxbits id s = synthStopAt id s.tau (s.modInst id fun _ => y) := by
  obtain ⟨y, hy, hq, hd, hE⟩ := replayQueued_calm h rfl
  refine ⟨y, hy, hd, hE, ?_⟩
  have running := h.accepts.running
  simp only [rxbits, h.valid, if_true, h.calm.tick]
  rw [runAll_cons_running _ _ running, hq, runAll_cons_running _ _ hd.accepts.running, runAll_nil,
    synthStop_calm hd.calm hd.accepts.running]
  rfl

/-- Settles O26: the pass ends in SYNTH_STOP, which does what `synthesized` says. -/
theorem rxbitsReplaysQueue : Obligations.RxbitsReplaysQueue := by
  intro s id hc ha calm hv
  obtain ⟨y, hy, hd, hE, he⟩ := rxbits_calm ⟨hc, ha, calm, hv⟩
  have hid : (s.modInst id fun _ => y).inst id = y := inst_modInst_same s id _ ha.built
  obtain ⟨z, hz, -⟩ := synthesized_idle_or_self (now := wrap s.params.width s.tau) hd.sound hd.cells hd.valid
  rw [synthStopAt_calm hd (by rw [hid]; exact hE) hz, modInst_modInst_const] at he
  rw [hid] at hz
  exact ⟨_, y, z, exec_rxbits ha, he ▸ modInst_sets z ha.built, hy, hz⟩

/-- SYNTH_STOP twice at one time is SYNTH_STOP once: the decoder is idle, or still before the threshold (R159). -/
theorem synthStopAt_twice {s : State} {id now : Nat} (h : s.CalmDecoding id) (hE : (s.inst id).inE = (s.inst id).outE) :
    synthStopAt id now (synthStopAt id now s) = synthStopAt id now s := by
  obtain ⟨y, hy, hidle, -⟩ := synthesized_idle_or_self (now := wrap s.params.width now) h.sound h.cells h.valid
  have once := synthStopAt_calm h hE hy
  rcases hidle with h8 | rfl
  · refine synthStopAt_idle now ?_
    rw [once, inst_modInst_same s id _ h.accepts.built]
    exact h8
  · rw [modInst_self h.core h.accepts.built] at once
    rw [once, once]

/-- A pass that finds no queued edge is SYNTH_STOP. -/
theorem rxbits_empty {s : State} {id : Nat} (h : s.CalmDecoding id) (hE : (s.inst id).inE = (s.inst id).outE) :
    rxbits id s = synthStopAt id s.tau s := by
  have running := h.accepts.running
  simp only [rxbits, h.valid, if_true, h.calm.tick, (ringCount_eq_zero_iff h.ring.2).2 hE]
  rw [runAll_cons_running _ _ running, replayQueued, runAll_cons_running _ _ running, runAll_nil,
    synthStop_calm h.calm running]

/-- Settles O27: the second pass finds no edge, and its SYNTH_STOP is one of the same time. -/
theorem rxbitsIdempotent : Obligations.RxbitsIdempotent := by
  intro s t id hc ha calm he
  obtain rfl : rxbits id s = t := by simpa [exec_rxbits ha] using he
  by_cases hv : (s.inst id).rxValid = true
  · have h : s.CalmDecoding id := ⟨hc, ha, calm, hv⟩
    obtain ⟨y, -, hd, hE, pass⟩ := rxbits_calm h
    have hid : (s.modInst id fun _ => y).inst id = y := inst_modInst_same s id _ ha.built
    rw [← hid] at hE
    obtain ⟨z, hz, -, hin, hout⟩ :=
      synthesized_idle_or_self (now := wrap s.params.width s.tau) hd.sound hd.cells hd.valid
    have ends : rxbits id s = s.modInst id fun _ => z := by
      rw [pass, synthStopAt_calm hd hE hz, modInst_modInst_const]
    have hd' : (rxbits id s).CalmDecoding id := ends ▸ h.modInst (ends ▸ rxbits_safe hc ha.running ha.built)
    have empty : ((rxbits id s).inst id).inE = ((rxbits id s).inst id).outE := by
      rw [ends, inst_modInst_same s id _ ha.built, hin, hout, hE]
    have now : (rxbits id s).tau = s.tau := by rw [ends, modInst_tau]
    rw [exec_rxbits hd'.accepts, rxbits_empty hd' empty, now, pass, synthStopAt_twice hd hE]
  · rw [rxbits_disabled (by simpa using hv), exec_rxbits ha, rxbits_disabled (by simpa using hv)]

end Sys2Proof.Machine
end

section
/-! # The read API (42_read_api.md R180 to R186)

READ, PEEK and PUMP begin with a decoder pass and a boundary: `State.Receiving.pass` says once where these lead. The
yield of AVAILABLE marks the instance while it lasts and unmarks it, so that from outside it is the environment's time
only (`markedYield_safe`). -/

namespace Sys2Proof.Machine

/-! ### One instance written, and the return -/

theorem modInst_keys (s : State) (id : Nat) (f : Inst → Inst) :
    (s.modInst id f).insts.map Prod.fst = s.insts.map Prod.fst := cellMod_keys s.insts id f

section
variable {s : State} {id : Nat} (f : Inst → Inst) (built : s.constructed id = true)
include built

theorem modInst_sets_apply : State.Sets id (f (s.inst id)) s (s.modInst id f) :=
  ⟨rfl, inst_modInst_same s id f built, fun _ hj => inst_modInst_other s f hj, modInst_keys s id f⟩

theorem modInst_ret_returns (r : Result) : State.Returns id r (f (s.inst id)) s ((s.modInst id f).ret id r) :=
  ⟨_, modInst_sets_apply f built, rfl⟩

end

/-- Settles O42: the operand is the one thing written before the return. -/
theorem onReceiveStores : Obligations.OnReceiveStores := fun _ id cb ha =>
  ⟨_, hostOperation_accepts ha fun t => (t.modInst id fun y => { y with rxCallback := cb }).ret id .nothing,
    modInst_ret_returns (fun y => { y with rxCallback := cb }) ha.built .nothing⟩

/-- Settles O41: the boundary is the environment's, and the latches are read and cleared after it. -/
theorem overflowReportsAndClears : Obligations.OverflowReportsAndClears := by
  intro s id hc ha
  have boundary := EnvSafe.tick s
  have running := (boundary.safe hc ha.running).2
  have built : (tick s).constructed id = true := (boundary.env.constructed id).trans ha.built
  refine ⟨readOverflow id (tick s), tick s, ?_, running, boundary.env, tick_tau hc ha.running,
    modInst_ret_returns clearOvf built _⟩
  refine (hostOperation_accepts ha _).trans ?_
  rw [runAll_cons_running _ _ ha.running, runAll_cons_running _ _ running, runAll_nil]

/-- Settles O35: each of the five asks `rxValid` first. -/
theorem disabledReceiveResults : Obligations.DisabledReceiveResults := by
  intro s id ha hv
  have off : ¬ (s.inst id).rxValid = true := by simp [hv]
  have answers {body : State → State} {r : Result} (h : body s = s.ret id r) :
      hostOperation id body s = .next (s.ret id r) := h ▸ hostOperation_accepts ha body
  exact ⟨answers (if_neg off), answers (if_neg off), answers (if_neg off), answers (if_neg off),
    answers (if_neg off)⟩

/-! ### The queued bytes -/

theorem queuedBytes_eq_length (x : Inst) : queuedBytes x = (byteQueue x).length := (byteQueue_length x).symm

theorem byteQueue_eq_nil_iff {x : Inst} (ho : x.outB < x.byteCap) : byteQueue x = [] ↔ x.inB = x.outB := by
  rw [← List.length_eq_zero_iff, byteQueue_length, ringCount_eq_zero_iff ho]

/-- Captures write no part of the byte ring (40_capture.md R123). -/
theorem byteQueue_capturedTo {x y : Inst} (h : x.CapturedTo y) : byteQueue y = byteQueue x := by
  rw [h.rest]
  exact byteQueue_congr rfl rfl rfl rfl

/-! ### An instance that can receive -/

/-- What the commands of the read API find when their entry checks have passed on a port that can receive. -/
structure State.Receiving (s : State) (id : Nat) : Prop where
  core : s.Core
  running : s.fault = none
  built : s.constructed id = true
  valid : (s.inst id).rxValid = true

theorem State.Accepts.receiving {s : State} {id : Nat} (ha : s.Accepts id) (hc : s.Core)
    (hv : (s.inst id).rxValid = true) : s.Receiving id := ⟨hc, ha.running, ha.built, hv⟩

theorem DecodeSafe.receiving {s t : State} {id : Nat} (h : DecodeSafe id s t) (hs : s.Receiving id) :
    t.Receiving id :=
  ⟨h.sound, h.running, (h.frame.constructed id).trans hs.built, by rw [h.frame.inst]; exact hs.valid⟩

section
variable {s : State} {id : Nat} (h : s.Receiving id)
include h

theorem State.Receiving.byteRing : (s.inst id).inB < (s.inst id).byteCap ∧ (s.inst id).outB < (s.inst id).byteCap :=
  ((h.core.inst h.built).indices h.valid).2.2

theorem State.Receiving.rxbits : DecodeSafe id s (rxbits id s) := rxbits_safe h.core h.running h.built

theorem State.Receiving.tick : DecodeSafe id s (tick s) := (EnvSafe.tick s).decodeSafe id h.core h.running

/-- A decoder pass, and the boundary before the accesses that follow it. -/
theorem State.Receiving.pass : DecodeSafe id s (Machine.tick (Machine.rxbits id s)) :=
  h.rxbits.trans (h.rxbits.receiving h).tick

theorem State.Receiving.pass_tau : (Machine.tick (Machine.rxbits id s)).tau =
    (Machine.rxbits id s).tau + (takeDraw 0 (Machine.rxbits id s).draws.overhead).1 :=
  tick_tau h.rxbits.sound h.rxbits.running

theorem State.Receiving.runAll_pass (fs : List (State → State)) :
    runAll (Machine.rxbits id :: Machine.tick :: fs) s = runAll fs (Machine.tick (Machine.rxbits id s)) := by
  rw [runAll_cons_running _ _ h.running, runAll_cons_running _ _ h.rxbits.running]

theorem State.Receiving.runAll_pass_then (f : State → State) :
    runAll [Machine.rxbits id, Machine.tick, f] s = f (Machine.tick (Machine.rxbits id s)) :=
  (h.runAll_pass [f]).trans (runAll_cons_running _ _ h.pass.running)

end

/-- A byte ring of `NB` slots holds `NB - 1` bytes at most (20_memory.md R64). -/
theorem DecodeSafe.byteQueue_length_lt {s t : State} {id : Nat} (ht : DecodeSafe id s t) (h : s.Receiving id) :
    (byteQueue (t.inst id)).length < (s.inst id).byteCap := by
  have cap : (t.inst id).byteCap = (s.inst id).byteCap := by rw [ht.frame.inst]
  rw [byteQueue_length, ← cap]
  exact ringCount_lt (ht.receiving h).byteRing.1

/-! ### READ and PEEK -/

section
variable {s : State} {id : Nat}

theorem readByte_valid (h : s.Receiving id) : readByte id s = takeByte id (tick (rxbits id s)) :=
  (if_pos h.valid).trans (h.runAll_pass_then (takeByte id))

theorem peekByte_valid (h : s.Receiving id) : peekByte id s = showByte id (tick (rxbits id s)) :=
  (if_pos h.valid).trans (h.runAll_pass_then (showByte id))

theorem takeByte_empty (h : s.Receiving id) (empty : byteQueue (s.inst id) = []) :
    takeByte id s = s.ret id (.integer (-1)) := if_pos ((byteQueue_eq_nil_iff h.byteRing.2).1 empty)

theorem showByte_empty (h : s.Receiving id) (empty : byteQueue (s.inst id) = []) :
    showByte id s = s.ret id (.integer (-1)) := if_pos ((byteQueue_eq_nil_iff h.byteRing.2).1 empty)

variable {b : Byte} {rest : List Byte}

theorem State.Receiving.inB_ne_outB (h : s.Receiving id) (queued : byteQueue (s.inst id) = b :: rest) :
    (s.inst id).inB ≠ (s.inst id).outB := fun he => by
  simp [(byteQueue_eq_nil_iff h.byteRing.2).2 he] at queued

theorem takeByte_cons (h : s.Receiving id) (queued : byteQueue (s.inst id) = b :: rest) :
    takeByte id s = (s.modInst id advanceOutB).ret id (.integer b.toNat) := by
  obtain ⟨hin, hout⟩ := h.byteRing
  rw [takeByte, if_neg (h.inB_ne_outB queued), if_pos hout, (byteQueue_advanceOutB hin hout queued).1]

theorem showByte_cons (h : s.Receiving id) (queued : byteQueue (s.inst id) = b :: rest) :
    showByte id s = s.ret id (.integer b.toNat) := by
  obtain ⟨hin, hout⟩ := h.byteRing
  rw [showByte, if_neg (h.inB_ne_outB queued), if_pos hout, (byteQueue_advanceOutB hin hout queued).1]

end

/-- Settles O36: the pass leads to a sound instance, whose byte ring gives its oldest byte. -/
theorem readTakesOldest : Obligations.ReadTakesOldest := by
  rintro s w u id hc ha hv rfl rfl
  have h := ha.receiving hc hv
  have hu := h.pass.receiving h
  have reads : exec (.read id) s = .next (takeByte id (tick (rxbits id s))) :=
    readByte_valid h ▸ hostOperation_accepts ha (readByte id)
  refine ⟨hu.running, h.pass.frame, h.pass_tau, _, reads, takeByte_empty hu, fun b rest queued => ?_⟩
  have taken : (takeByte id (tick (rxbits id s))).inst id = advanceOutB ((tick (rxbits id s)).inst id) := by
    rw [takeByte_cons hu queued, ret_inst, inst_modInst_same _ _ _ hu.built]
  rw [taken, takeByte_cons hu queued]
  exact ⟨modInst_ret_returns advanceOutB hu.built _, (byteQueue_advanceOutB hu.byteRing.1 hu.byteRing.2 queued).2⟩

/-- Settles O37: as READ, without the move of `outB`. -/
theorem peekShowsOldest : Obligations.PeekShowsOldest := by
  rintro s w u id hc ha hv rfl rfl
  have h := ha.receiving hc hv
  have hu := h.pass.receiving h
  have peeks : exec (.peek id) s = .next (showByte id (tick (rxbits id s))) :=
    peekByte_valid h ▸ hostOperation_accepts ha (peekByte id)
  refine ⟨hu.running, h.pass.frame, h.pass_tau, fun empty => ?_, fun b rest queued => ?_⟩
  · rw [peeks, showByte_empty hu empty]
  · rw [peeks, showByte_cons hu queued]

/-! ### FLUSH -/

theorem edgeQueue_eq_nil {x : Inst} (h : x.inE = x.outE) : edgeQueue x = [] := by
  simp [← List.length_eq_zero_iff, h, ringCount]

theorem flushBytes_empty (x : Inst) : byteQueue (flushBytes x) = [] := by
  simp [← List.length_eq_zero_iff, flushBytes, ringCount]

theorem edgeQueue_flushBytes (x : Inst) : edgeQueue (flushBytes x) = edgeQueue x :=
  edgeWindow_congr (x := x) (y := flushBytes x) rfl rfl ..

/-- A change that keeps every sound instance sound keeps the invariant. -/
theorem State.Core.modInst_of_inv {s : State} (h : s.Core) {id : Nat} {f : Inst → Inst}
    (hf : ∀ x, x.Inv s.params → x.cellsWf → (f x).Inv s.params ∧ (f x).cellsWf) : (s.modInst id f).Core :=
  h.modInst id f fun x hx => hf x (h.insts id x hx) (h.memory.2.1 _ (cellGet_mem hx))

theorem State.Receiving.flushEdges {s : State} {id : Nat} (h : s.Receiving id) :
    (s.modInst id flushEdges).Receiving id where
  core := h.core.modInst_of_inv fun _ hx hc => ⟨flushEdges_inv hx, hc⟩
  running := h.running
  built := (constructed_modInst ..).trans h.built
  valid := by rw [inst_modInst_same _ _ _ h.built]; exact h.valid

theorem flush_valid {s e : State} {id : Nat} (h : s.Receiving id) (he : e = (tick s).modInst id flushEdges)
    (hev : e.Receiving id) : flush id s = ((tick e).modInst id flushBytes).ret id .nothing := by
  subst he
  rw [flush, if_pos h.valid, runAll_cons_running _ _ h.running, runAll_cons_running _ _ h.tick.running,
    runAll_cons_running _ _ hev.running, runAll_cons_running _ _ hev.tick.running]
  exact runAll_cons_running _ _ hev.tick.running

/-- Settles O40: what is captured at the second boundary moves `inE` only, so that the edge ring is empty where it has
not moved. -/
theorem flushEmptiesRings : Obligations.FlushEmptiesRings := by
  intro s id hc ha valid
  have h := ha.receiving hc valid
  have hu := h.tick.receiving h
  obtain ⟨e, he⟩ : ∃ e, e = (tick s).modInst id flushEdges := ⟨_, rfl⟩
  have sets : State.Sets id (flushEdges ((tick s).inst id)) (tick s) e := he ▸ modInst_sets_apply flushEdges hu.built
  have hev : e.Receiving id := he ▸ hu.flushEdges
  have second := EnvSafe.tick e
  have hv := hev.tick.receiving hev
  have flushes := flush_valid h he hev
  have final : (flush id s).inst id = flushBytes ((tick e).inst id) := by
    rw [flushes, ret_inst, inst_modInst_same _ _ _ hv.built]
  refine ⟨flush id s, tick s, e, tick e, hostOperation_accepts ha _, hu.running, (EnvSafe.tick s).env, sets,
    edgeQueue_eq_nil (by rw [sets.inst]; rfl), hv.running, second.env,
    flushes ▸ modInst_ret_returns flushBytes hv.built .nothing, ?_, ?_, fun unmoved => ?_⟩
  · rw [final, flushBytes_empty]
  · rw [final, edgeQueue_flushBytes]
  · rw [final, edgeQueue_flushBytes]
    refine edgeQueue_eq_nil (unmoved.trans ?_)
    rw [(second.env.insts id).rest, sets.inst]
    rfl

/-! ### AVAILABLE -/

section
variable {host : HostCode} (hh : ∀ tEnd u, u.HostWaits → host tEnd u = u)
include hh

/-- A yield in which host code issues nothing lasts its draw (60_exceptions.md R304). -/
theorem cooperativeYield_tau (us : Nat) {s : State} (hq : s.HostWaits) (hc : s.Core) (hf : s.fault = none) :
    (cooperativeYield host us s).tau = s.tau + (takeDraw (us * cyclesPerMicro s.params) s.draws.yieldFor).1 := by
  have drawn := (EnvSafe.draws s { s.draws with
    yieldFor := (takeDraw (us * cyclesPerMicro s.params) s.draws.yieldFor).2 }).safe hc hf
  simp only [cooperativeYield]
  rw [runAll_cons_running _ _ drawn.2, hh _ _ (by exact hq), runAll_cons_running _ _ drawn.2, runAll_nil,
    advanceTo_tau _ drawn.1 drawn.2]
  exact Nat.max_eq_right (Nat.le_add_right ..)

end

/-- Sets or clears `inYield`. -/
abbrev markYield (id : Nat) (on : Bool) (s : State) : State := s.modInst id fun x => { x with inYield := on }

theorem markYield_core {s : State} (h : s.Core) (id : Nat) (on : Bool) : (markYield id on s).Core :=
  h.modInst_of_inv fun _ hx hc => ⟨{ hx with }, hc⟩

/-- What happens to an instance outside a yield while it is marked for one happens to it as if it were not. -/
theorem Inst.CapturedTo.unmarked {x y : Inst} (outside : x.inYield = false)
    (h : Inst.CapturedTo { x with inYield := true } y) : x.CapturedTo { y with inYield := false } := by
  refine ⟨?_, h.latch, fun hd => ?_⟩
  · rw [h.rest, ← outside]
  · rw [h.detached hd, ← outside]

theorem State.EnvTo.unmarked {s t : State} {id : Nat} (outside : (s.inst id).inYield = false)
    (built : s.constructed id = true) (h : (markYield id true s).EnvTo t) : s.EnvTo (markYield id false t) where
  __ := h
  keys := (modInst_keys t ..).trans (h.keys.trans (modInst_keys s ..))
  insts j := by
    have captured := h.insts j
    have built' : t.constructed id = true := by rw [h.constructed, markYield, constructed_modInst, built]
    by_cases hj : j = id
    · subst hj
      rw [markYield, inst_modInst_same _ _ _ built] at captured
      rw [markYield, inst_modInst_same _ _ _ built']
      exact captured.unmarked outside
    · rw [markYield, inst_modInst_other _ _ hj] at captured
      rwa [markYield, inst_modInst_other _ _ hj]

/-- The yield of AVAILABLE, with the mark set before it and cleared after it (R180). -/
def markedYield (host : HostCode) (id us : Nat) (s : State) : State :=
  markYield id false (cooperativeYield host us (markYield id true s))

section
variable {host : HostCode} (hh : ∀ tEnd u, u.HostWaits → host tEnd u = u) {s : State} {id : Nat}
include hh

/-- The yield itself is one of a marked instance. -/
theorem cooperativeYield_marked (us : Nat) (h : s.Receiving id) (hq : s.HostWaits) :
    EnvSafe (markYield id true s) (cooperativeYield host us (markYield id true s)) :=
  cooperativeYield_quiet us host hh hq h.running

/-- Before and after it the instance is unmarked, and only the environment has acted. -/
theorem markedYield_safe (us : Nat) (h : s.Receiving id) (outside : (s.inst id).inYield = false) (hq : s.HostWaits) :
    DecodeSafe id s (markedYield host id us s) :=
  have yielded := cooperativeYield_marked hh us h hq
  have ⟨core, running⟩ := yielded.safe (markYield_core h.core id true) h.running
  ⟨markYield_core core id false, running, (yielded.env.unmarked outside h.built).decodeTo id⟩

theorem availableRetry_eq (h : s.Receiving id) (outside : (s.inst id).inYield = false) (hq : s.HostWaits) :
    availableRetry host id s =
      rxbits id (markedYield host id (availYieldUs s.params (s.inst id).bitPeriod) s) := by
  have period : ((markYield id true s).inst id).bitPeriod = (s.inst id).bitPeriod := by
    rw [markYield, inst_modInst_same _ _ _ h.built]
  have yielded := (cooperativeYield_marked hh (availYieldUs s.params (s.inst id).bitPeriod) h hq).safe
    (markYield_core h.core id true) h.running
  have marked : (markYield id true s).fault = none := h.running
  rw [availableRetry, runAll_cons_running _ _ h.running, runAll_cons_running _ _ marked, modInst_params, period,
    runAll_cons_running _ _ yielded.2]
  exact runAll_cons_running _ _ (markedYield_safe hh _ h outside hq).running

end

/-- The boundary before the count, and the return. -/
theorem runAll_count {s : State} {id : Nat} (h : s.Receiving id) :
    runAll [tick, retCount id] s = (tick s).ret id (.natural (byteQueue (s.inst id)).length) := by
  rw [runAll_cons_running _ _ h.running, runAll_cons_running _ _ h.tick.running, runAll_nil, retCount,
    queuedBytes_eq_length, byteQueue_capturedTo ((EnvSafe.tick s).env.insts id)]

section
variable {host : HostCode} {s : State} {id : Nat} (h : s.Receiving id)
include h

/-- AVAILABLE where the first pass leaves bytes. -/
theorem available_queued (queued : byteQueue ((rxbits id s).inst id) ≠ []) : available host id s =
    (tick (rxbits id s)).ret id (.natural (byteQueue ((rxbits id s).inst id)).length) := by
  have hu := h.rxbits.receiving h
  have left : decide (queuedBytes ((rxbits id s).inst id) = 0) = false := by
    rw [queuedBytes_eq_length, decide_eq_false_iff_not, List.length_eq_zero_iff]
    exact queued
  rw [available, if_pos h.valid, runAll_cons_running _ _ h.running, runAll_cons_running _ _ hu.running, left,
    whenever_false, runAll_count hu]

/-- AVAILABLE where it leaves none: the second pass leads to `v`. -/
theorem available_empty {v : State} (empty : byteQueue ((rxbits id s).inst id) = [])
    (retry : availableRetry host id (rxbits id s) = v) (hv : v.Receiving id) :
    available host id s = (tick v).ret id (.natural (byteQueue (v.inst id)).length) := by
  have hu := h.rxbits.receiving h
  have nothing : decide (queuedBytes ((rxbits id s).inst id) = 0) = true := by
    rw [queuedBytes_eq_length, decide_eq_true_iff, List.length_eq_zero_iff]
    exact empty
  rw [available, if_pos h.valid, runAll_cons_running _ _ h.running, runAll_cons_running _ _ hu.running, nothing,
    whenever_true, retry, runAll_count hv]

end

/-- Settles O38: the two passes and the yield between them each lead to a sound instance, and the count takes its
boundary after the last of them. -/
theorem availableCounts : Obligations.AvailableCounts := by
  rintro s u a b c v id us hc ha hq valid rfl rfl rfl rfl rfl rfl
  have h := ha.receiving hc valid
  have first := h.rxbits
  have hu := first.receiving h
  have outside : ((rxbits id s).inst id).inYield = false := by rw [first.frame.inst]; exact ha.outside
  have waits : (rxbits id s).HostWaits := by rw [State.HostWaits, first.frame.hostQueue]; exact hq
  have quiet : ∀ tEnd t, t.HostWaits → outerHost s tEnd t = t := fun tEnd _ ht => outerHost_waits s ht tEnd
  have period : availYieldUs (rxbits id s).params ((rxbits id s).inst id).bitPeriod =
      availYieldUs s.params (s.inst id).bitPeriod := by rw [first.frame.params, first.frame.inst]
  generalize availYieldUs s.params (s.inst id).bitPeriod = us at *
  have marked := markYield_core hu.core id true
  have yielded := cooperativeYield_marked quiet us hu waits
  have between : DecodeSafe id (rxbits id s) (markedYield (outerHost s) id us (rxbits id s)) :=
    markedYield_safe quiet us hu outside waits
  have second := (between.receiving hu).rxbits
  have hv := second.receiving (between.receiving hu)
  have retry := period ▸ availableRetry_eq quiet hu outside waits
  refine ⟨fun queued => ⟨?_, hu.tick.running, (EnvSafe.tick _).env, tick_tau hu.core hu.running⟩,
    fun empty => ⟨?_, hv.tick.running, (EnvSafe.tick _).env, tick_tau hv.core hv.running⟩, hu.running, first.frame,
    (yielded.safe marked hu.running).2, yielded.env, ?_, hv.running, second.frame,
    (first.trans (between.trans second)).frame, first.byteQueue_length_lt h,
    (first.trans (between.trans second)).byteQueue_length_lt h⟩
  · exact (hostOperation_accepts ha _).trans (by rw [available_queued h queued])
  · exact (hostOperation_accepts ha _).trans (by rw [available_empty h empty retry hv]; rfl)
  · rw [← first.frame.params]
    exact cooperativeYield_tau quiet us waits marked hu.running

/-! ### PUMP -/

/-- The call of the receive callback that the host sees (60_exceptions.md R308). -/
def callbackSeen (id cb n : Nat) (s : State) : State := { s with outputs := .callback s.tau id cb n :: s.outputs }

theorem callReceiver_none {host : HostCode} {s : State} {id : Nat} (n : Nat) (hcb : (s.inst id).rxCallback = none) :
    callReceiver host id n s = s := by
  rw [callReceiver, hcb]

/-- A callback in which host code issues nothing is seen and returns. -/
theorem callReceiver_some {host : HostCode} (hh : ∀ tEnd u, u.HostWaits → host tEnd u = u) {s : State} {id cb : Nat}
    (n : Nat) (hcb : (s.inst id).rxCallback = some cb) (hq : s.HostWaits) (hf : s.fault = none) :
    callReceiver host id n s = callbackReturns (callbackSeen id cb n s) := by
  have seen : (callbackSeen id cb n s).fault = none := hf
  have waits : (callbackSeen id cb n s).HostWaits := hq
  have called : callReceiver host id n s = runAll [host none, callbackReturns] (callbackSeen id cb n s) := by
    rw [callReceiver, hcb]
    rfl
  rw [called, runAll_cons_running _ _ seen, hh none _ waits, runAll_cons_running _ _ seen, runAll_nil]

/-- PUMP with the counts of the queued bytes before and after the pass; the callback, if it is called, leads to `v`. -/
theorem pump_valid {host : HostCode} {s u v : State} {id : Nat} (h : s.Receiving id) (hu : u = tick (rxbits id s))
    (called : whenever
      (pumpFires s.params.onReceiveMode (byteQueue (s.inst id)).length (byteQueue (u.inst id)).length)
      (callReceiver host id (byteQueue (u.inst id)).length) u = v)
    (running : v.fault = none) : pump host id s = v.ret id .nothing := by
  subst hu
  rw [pump, if_pos h.valid, h.runAll_pass, runAll_cons_running _ _ h.pass.running, queuedBytes_eq_length,
    queuedBytes_eq_length, h.pass.frame.params, called, runAll_cons_running _ _ running, runAll_nil]

/-- Settles O39: `pumpFires` is the mode's condition, and the callback is the environment's time after the call is
seen. -/
theorem pumpCallsReceiver : Obligations.PumpCallsReceiver := by
  rintro s w u id hc ha hq hv rfl hu
  have h := ha.receiving hc hv
  have pass : DecodeSafe id s u := hu ▸ h.pass
  have callback : (u.inst id).rxCallback = (s.inst id).rxCallback := by rw [pass.frame.inst]
  have waits : u.HostWaits := by rw [State.HostWaits, pass.frame.hostQueue]; exact hq
  refine ⟨pass.running, pass.frame, hu ▸ h.pass_tau, fun cb hcb due => ?_, fun silent => ?_⟩
  · have fires : pumpFires s.params.onReceiveMode (byteQueue (s.inst id)).length
          (byteQueue (u.inst id)).length = true := by
      revert due
      cases s.params.onReceiveMode
      case newly => exact decide_eq_true
      case level => exact decide_eq_true
    have seen : (callbackSeen id cb (byteQueue (u.inst id)).length u).Core :=
      pass.sound.congr rfl rfl rfl rfl rfl rfl rfl
    have returns := callbackReturns_safe (callbackSeen id cb (byteQueue (u.inst id)).length u)
    have running := (returns.safe seen pass.running).2
    refine ⟨_, (hostOperation_accepts ha _).trans (congrArg _ (pump_valid h hu ?_ running)), running, returns.env,
      callbackReturns_tau seen pass.running⟩
    rw [fires, whenever_true, callReceiver_some (fun tEnd _ ht => outerHost_waits s ht tEnd) _ (callback.trans hcb)
      waits pass.running]
  · refine (hostOperation_accepts ha _).trans (congrArg _ (pump_valid h hu ?_ pass.running))
    rcases silent with unset | quiet
    · rw [whenever, callReceiver_none _ (callback.trans unset), ite_self]
    · have fires : pumpFires s.params.onReceiveMode (byteQueue (s.inst id)).length
            (byteQueue (u.inst id)).length = false := by
        revert quiet
        cases s.params.onReceiveMode
        case newly => exact fun le => decide_eq_false le.not_gt
        case level => exact fun zero => decide_eq_false zero.le.not_gt
      rw [fires, whenever_false]

end Sys2Proof.Machine
end

section
/-! # WRITE's checks (43_transmitter.md R212, R213, R229, R230) -/

namespace Sys2Proof.Machine

section
variable {s : State} {id : Nat} {bytes : List Byte}

theorem exec_write (ha : s.Accepts id) : exec (.write id bytes) s = .next (write (outerHost s) id bytes s) :=
  hostOperation_accepts ha _

/-- A WRITE that passes every check transmits. -/
theorem write_transmits (host : HostCode) (htx : (s.inst id).txValid = true) (hcfg : (s.inst id).fstate = .configured)
    (hout : (s.inst id).oneWire = true → (s.pin (s.inst id).txPin).mode = .output) (hne : bytes ≠ []) :
    write host id bytes s = transmit host id bytes s := by
  simp only [write]
  rw [if_neg (by rw [htx]; decide), if_neg (by rw [hcfg]; decide), if_neg fun h => h.2 (hout h.1), if_neg hne]

end

/-- Settles O53: each case denies the checks before its own. -/
theorem writeChecks : Obligations.WriteChecks := by
  rintro s id bytes x ha rfl
  rw [exec_write ha]
  simp only [write]
  refine ⟨fun htx => ?_, fun htx hcfg => ?_, fun htx hcfg hone hmode => ?_, fun htx hcfg hout hb => ?_⟩
  · rw [if_pos htx]
  · rw [if_neg (by rw [htx]; decide), if_pos hcfg]
    rfl
  · rw [if_neg (by rw [htx]; decide), if_neg (by rw [hcfg]; decide), if_pos ⟨hone, hmode⟩]
    rfl
  · rw [if_neg (by rw [htx]; decide), if_neg (by rw [hcfg]; decide), if_neg fun h => h.2 (hout h.1), if_pos hb]

end Sys2Proof.Machine
end

section
/-! # A wait is the environment's time only (43_transmitter.md R220 to R222)

In the yield portion of WAIT_BIT_CYCLES the mask and `inYield` are written, and both written back before the spin. So a
wait is followed up to the mask (`MaskRuns`), and ends in a state that the environment alone could have led to. -/

namespace Sys2Proof.Machine

/-- The state with interrupts masked. -/
def State.masked (s : State) : State := { s with im := true }

/-- From `s` to `t` the environment alone has acted, but for writes of the mask, and the machine runs on. -/
structure MaskRuns (s t : State) : Prop where
  sound : t.Core
  running : t.fault = none
  env : s.masked.EnvTo t.masked

/-- The instance waits in a WRITE, outside the yields of it, and host code issues nothing. -/
structure State.Waiting (s : State) (id : Nat) : Prop where
  core : s.Core
  running : s.fault = none
  built : s.constructed id = true
  outside : (s.inst id).inYield = false
  queue : s.HostWaits

section
variable {s t u : State} {id : Nat} {host : HostCode}

theorem MaskRuns.trans (h1 : MaskRuns s t) (h2 : MaskRuns t u) : MaskRuns s u :=
  ⟨h2.sound, h2.running, h1.env.trans h2.env⟩

/-- Where the mask is the same again, the environment alone has acted. -/
theorem MaskRuns.envTo (h : MaskRuns s t) (him : t.im = s.im) : s.EnvTo t := { h.env with im := him }

theorem EnvSafe.maskRuns (h : EnvSafe s t) (hc : s.Core) (hf : s.fault = none) : MaskRuns s t :=
  ⟨(h.safe hc hf).1, (h.safe hc hf).2, { h.env with im := rfl }⟩

theorem setIm_maskRuns (m : Bool) (hc : s.Core) (hf : s.fault = none) : MaskRuns s { s with im := m } :=
  ⟨hc.congr rfl rfl rfl rfl rfl rfl rfl, hf, .refl s.masked⟩

theorem MaskRuns.waiting (h : MaskRuns s t) (hs : s.Waiting id) : t.Waiting id where
  core := h.sound
  running := h.running
  built := (h.env.constructed id).trans hs.built
  outside := by
    have captured : (s.inst id).CapturedTo (t.inst id) := h.env.insts id
    rw [captured.rest, hs.outside]
  queue := by
    have queue : t.hostQueue = s.hostQueue := h.env.hostQueue
    rw [State.HostWaits, queue]
    exact hs.queue

/-! ### HAL calls -/

theorem tick_runs (h : s.Waiting id) : MaskRuns s (tick s) := (EnvSafe.tick s).maskRuns h.core h.running

theorem maskInterrupts_runs (h : s.Waiting id) : MaskRuns s (maskInterrupts s) := by
  rw [(maskInterrupts_spec h.core h.running).2.1]
  exact (tick_runs h).trans (setIm_maskRuns true (tick_runs h).sound (tick_runs h).running)

theorem unmaskInterrupts_runs (h : s.Waiting id) : MaskRuns s (unmaskInterrupts s) := by
  obtain ⟨-, delivered, -, -⟩ := unmaskInterrupts_spec h.core h.running
  have unmasked := setIm_maskRuns false (tick_runs h).sound (tick_runs h).running
  exact (tick_runs h).trans (unmasked.trans (delivered.maskRuns unmasked.sound unmasked.running))

/-- `if s.savedMask = 0 then unmaskInterrupts()` (R212, R220). -/
def unmaskUnlessFound (id : Nat) (s : State) : State := whenever (!(s.inst id).savedMask) unmaskInterrupts s

theorem unmaskUnlessFound_found (h : (s.inst id).savedMask = true) : unmaskUnlessFound id s = s := by
  rw [unmaskUnlessFound, h, Bool.not_true, whenever_false]

theorem unmaskUnlessFound_unmasks (h : (s.inst id).savedMask = false) :
    unmaskUnlessFound id s = unmaskInterrupts s := by
  rw [unmaskUnlessFound, h, Bool.not_false, whenever_true]

theorem unmaskUnlessFound_runs (h : s.Waiting id) : MaskRuns s (unmaskUnlessFound id s) := by
  cases hm : (s.inst id).savedMask with
  | true => rw [unmaskUnlessFound_found hm]; exact ⟨h.core, h.running, .refl _⟩
  | false => rw [unmaskUnlessFound_unmasks hm]; exact unmaskInterrupts_runs h

/-! ### The yield portion and the spin -/

/-- The whole microseconds that remain at the first reading of the counter (R220). -/
def wholeMicros (d : Nat) (s : State) : Nat := (cyclesTo d (tick s)).toNat / cyclesPerMicro (tick s).params

/-- The state in which the spin begins. -/
def spinStart (host : HostCode) (id d : Nat) (s : State) : State :=
  whenever (decide (0 < wholeMicros d s)) (yieldPortion host id (wholeMicros d s)) (tick s)

section
variable (hh : ∀ tEnd u, u.HostWaits → host tEnd u = u)
include hh

theorem markYield_yields (h : s.Waiting id) (us : Nat) :
    EnvSafe (markYield id true s) (cooperativeYield host us (markYield id true s)) :=
  cooperativeYield_quiet us host hh h.queue h.running

theorem markedYield_runs (h : s.Waiting id) (us : Nat) : MaskRuns s (markedYield host id us s) := by
  have yielded := markYield_yields hh h us
  obtain ⟨core, running⟩ := yielded.safe (markYield_core h.core id true) h.running
  exact ⟨markYield_core core id false, running,
    { yielded.env.unmarked h.outside h.built with im := rfl }⟩

theorem yieldPortion_eq (h : s.Waiting id) (us : Nat) : yieldPortion host id us s =
    maskInterrupts (markedYield host id us (unmaskUnlessFound id s)) := by
  have unmasked := unmaskUnlessFound_runs h
  have hu := unmasked.waiting h
  have marked : (markYield id true (unmaskUnlessFound id s)).fault = none := unmasked.running
  have yielded := (markYield_yields hh hu us).safe (markYield_core hu.core id true) marked
  have cleared := (markedYield_runs hh hu us).running
  rw [yieldPortion, runAll_cons_running _ _ h.running]
  change runAll _ (unmaskUnlessFound id s) = _
  rw [runAll_cons_running _ _ unmasked.running]
  change runAll _ (markYield id true (unmaskUnlessFound id s)) = _
  rw [runAll_cons_running _ _ marked, runAll_cons_running _ _ yielded.2]
  exact runAll_cons_running _ _ cleared

theorem yieldPortion_runs (h : s.Waiting id) (us : Nat) :
    MaskRuns s (yieldPortion host id us s) ∧ (yieldPortion host id us s).im = true := by
  have unmasked := unmaskUnlessFound_runs h
  have yielded := markedYield_runs hh (unmasked.waiting h) us
  have hy := yielded.waiting (unmasked.waiting h)
  rw [yieldPortion_eq hh h]
  refine ⟨unmasked.trans (yielded.trans (maskInterrupts_runs hy)), ?_⟩
  rw [(maskInterrupts_spec hy.core hy.running).2.1]

theorem spinStart_runs (h : s.Waiting id) (him : s.im = true) (d : Nat) :
    MaskRuns s (spinStart host id d s) ∧ (spinStart host id d s).im = true := by
  rw [spinStart]
  cases decide (0 < wholeMicros d s) with
  | true =>
    obtain ⟨yielded, masked⟩ := yieldPortion_runs hh ((tick_runs h).waiting h) (wholeMicros d s)
    exact ⟨(tick_runs h).trans yielded, masked⟩
  | false => exact ⟨tick_runs h, (EnvSafe.tick s).env.im.trans him⟩

theorem waitBitCycles_eq (h : s.Waiting id) (him : s.im = true) (d : Nat) :
    waitBitCycles host id d s = spinUntil d (spinStart host id d s) := by
  have hs1 := (tick_runs h).running
  have hs2 := (spinStart_runs hh h him d).1.running
  rw [waitBitCycles]
  exact (runAll_cons_running _ _ hs1).trans (runAll_cons_running _ _ hs2)

/-- A wait leaves the machine running and sound, and nothing but the environment has acted. -/
theorem waitBitCycles_runs (h : s.Waiting id) (him : s.im = true) (d : Nat) :
    MaskRuns s (waitBitCycles host id d s) ∧ s.EnvTo (waitBitCycles host id d s) := by
  obtain ⟨start, masked⟩ := spinStart_runs hh h him d
  have spin := spinUntil_safe d (spinStart host id d s)
  have whole := start.trans (spin.maskRuns start.sound start.running)
  rw [waitBitCycles_eq hh h him]
  exact ⟨whole, whole.envTo (spin.env.im.trans (masked.trans him.symm))⟩

end

end

end Sys2Proof.Machine
end

section
/-! # When a wait ends (43_transmitter.md R220 to R223)

Each boundary takes the next draw `d`, the yield portion the draw `y` between its boundaries, and the spin the time to
the deadline as its first reading has it (`spinUntil_tau`). What that reading makes of a deadline that the first one has
seen `r` cycles away is `signedW_subW_later`. -/

namespace Sys2Proof.Machine

/-! ### Cycles to a deadline -/

section
variable {w : Width} {d : Nat}

theorem signedW_subW_range (w : Width) (a b : Nat) :
    -(w.half : Int) ≤ signedW w (subW w a b) ∧ signedW w (subW w a b) < w.half := by
  have h := subW_lt w a b
  unfold signedW
  split <;> cases w <;> simp only [Width.half, Width.modulus] at * <;> omega

/-- At the cycles to a deadline from a reading of the counter, the counter shows the deadline. -/
theorem add_signedW_subW_emod (hd : d < w.modulus) (now : Nat) :
    ((now : Int) + signedW w (subW w d (now % w.modulus))) % w.modulus = d := by
  unfold signedW subW
  split <;> cases w <;> simp only [Width.modulus] at * <;> omega

/-- A deadline that one reading of the counter has `r` cycles away, a later reading has nearer by the time between the
two, unless it is more than half the range past by then (R223). -/
theorem signedW_subW_later {call later : Nat} {r : Int} (hd : d < w.modulus)
    (hr : r = signedW w (subW w d (call % w.modulus))) (hle : call ≤ later) (near : (later : Int) ≤ call + r + w.half) :
    signedW w (subW w d (later % w.modulus)) = call + r - later := by
  have shown := add_signedW_subW_emod hd call
  have shown' := add_signedW_subW_emod hd later
  have range := signedW_subW_range w d (call % w.modulus)
  have range' := signedW_subW_range w d (later % w.modulus)
  rw [← hr] at shown range
  generalize signedW w (subW w d (later % w.modulus)) = e at *
  cases w <;> simp only [Width.half, Width.modulus] at * <;> omega

end

/-! ### Draws -/

/-- The `k`-th draw `d` from here on, 0 where the list has run out. -/
def overheadAt (s : State) (k : Nat) : Nat := (s.draws.overhead[k]?).getD 0

/-- From `s` to `t` the main line has taken `n` draws `d` and none of `late`, and `c` cycles have passed. -/
structure Spends (n c : Nat) (s t : State) : Prop where
  tau : t.tau = s.tau + c
  overhead : t.draws.overhead = s.draws.overhead.drop n
  late : t.draws.late = s.draws.late

section
variable {n m c e k us : Nat} {s t u : State} {id : Nat} {host : HostCode}

theorem takeDraw_zero (l : List Nat) : takeDraw 0 l = ((l[0]?).getD 0, l.drop 1) := by
  cases l <;> rfl

theorem Spends.trans (h1 : Spends n c s t) (h2 : Spends m e t u) : Spends (n + m) (c + e) s u :=
  ⟨by rw [h2.tau, h1.tau, Nat.add_assoc], by rw [h2.overhead, h1.overhead, List.drop_drop], h2.late.trans h1.late⟩

theorem overheadAt_spends (h : Spends n c s t) (k : Nat) : overheadAt t k = overheadAt s (n + k) := by
  rw [overheadAt, h.overhead, List.getElem?_drop, overheadAt]

/-- What takes no draw of the main line and no time. -/
theorem CaptureDraws.spends (h : CaptureDraws s t) (ht : t.tau = s.tau) : Spends 0 0 s t := ⟨ht, h.overhead, h.late⟩

theorem tick_spends (h : s.Waiting id) : Spends 1 (overheadAt s 0) s (tick s) := by
  have drawn := CaptureDraws.tick s
  have tau := tick_tau h.core h.running
  rw [takeDraw_zero] at drawn tau
  exact ⟨tau, drawn.overhead, drawn.late⟩

theorem maskInterrupts_spends (h : s.Waiting id) :
    Spends 1 (overheadAt s 0) s (maskInterrupts s) := by
  rw [(maskInterrupts_spec h.core h.running).2.1]
  exact { tick_spends h with }

/-- After the boundary of `unmaskInterrupts` only captures run, at the time of the call. -/
theorem unmaskInterrupts_captures (h : s.Waiting id) :
    CaptureDraws (tick s) (unmaskInterrupts s) ∧
      (unmaskInterrupts s).tau = (tick s).tau := by
  have unmasked := setIm_maskRuns false (tick_runs h).sound (tick_runs h).running
  obtain ⟨core, running⟩ := (EnvSafe.armAll { tick s with im := false }).safe unmasked.sound unmasked.running
  have eq : unmaskInterrupts s = settle (armAll { tick s with im := false }) := by
    rw [unmaskInterrupts, (not_stopped_iff _).2 (tick_runs h).running]
    rfl
  rw [eq, settle_tau core running, armAll_tau]
  have same : CaptureDraws (tick s) { tick s with im := false } := .of_eq rfl
  exact ⟨same.trans ((CaptureDraws.armAll _).trans (.settle _)), rfl⟩

theorem unmaskInterrupts_spends (h : s.Waiting id) :
    Spends 1 (overheadAt s 0) s (unmaskInterrupts s) := by
  obtain ⟨captures, tau⟩ := unmaskInterrupts_captures h
  exact (tick_spends h).trans (captures.spends tau)

/-! ### The yield portion -/

/-- The draw `y` of a yield for so many microseconds (60_exceptions.md R304). -/
def yieldTime (us : Nat) (s : State) : Nat := (takeDraw (us * cyclesPerMicro s.params) s.draws.yieldFor).1

theorem yieldTime_congr (us : Nat) (hp : t.params = s.params) (hd : t.draws.yieldFor = s.draws.yieldFor) :
    yieldTime us t = yieldTime us s := by
  rw [yieldTime, hp, hd, yieldTime]

section
variable (hh : ∀ tEnd u, u.HostWaits → host tEnd u = u)
include hh

theorem markedYield_spends (h : s.Waiting id) (us : Nat) :
    Spends 0 (yieldTime us s) s (markedYield host id us s) := by
  have marked : (markYield id true s).fault = none := h.running
  have waits : (markYield id true s).HostWaits := h.queue
  have core := markYield_core h.core id true
  refine ⟨cooperativeYield_tau hh us waits core marked, ?_, ?_⟩
  all_goals
    simp only [markedYield, modInst_draws, cooperativeYield]
    rw [runAll_cons_running _ _ (by exact marked), hh _ _ (by exact waits), runAll_cons_running _ _ (by exact marked),
      runAll_nil]
  · exact (CaptureDraws.advanceTo _ _).overhead
  · exact (CaptureDraws.advanceTo _ _).late

/-- Where WRITE has found interrupts masked: the yield and the boundary of `maskInterrupts`. -/
theorem yieldPortion_spends_found (h : s.Waiting id) (us : Nat) (hm : (s.inst id).savedMask = true) :
    Spends 1 (yieldTime us s + overheadAt s 0) s (yieldPortion host id us s) := by
  have yields := markedYield_spends hh h us
  have masks := maskInterrupts_spends ((markedYield_runs hh h us).waiting h)
  rw [overheadAt_spends yields] at masks
  rw [yieldPortion_eq hh h, unmaskUnlessFound_found hm]
  simpa only [Nat.zero_add] using yields.trans masks

/-- Where it has not: the boundary of `unmaskInterrupts` besides. -/
theorem yieldPortion_spends_unmasks (h : s.Waiting id) (us : Nat) (hm : (s.inst id).savedMask = false) :
    Spends 2 (overheadAt s 0 + yieldTime us s + overheadAt s 1) s (yieldPortion host id us s) := by
  have unmasks := unmaskInterrupts_spends h
  have hu := (unmaskInterrupts_runs h).waiting h
  have yields := markedYield_spends hh hu us
  have masks := maskInterrupts_spends ((markedYield_runs hh hu us).waiting hu)
  have same : yieldTime us (unmaskInterrupts s) = yieldTime us s :=
    yieldTime_congr us (unmaskInterrupts_runs h).env.params
      ((unmaskInterrupts_captures h).1.yieldFor.trans (CaptureDraws.tick s).yieldFor)
  rw [overheadAt_spends (unmasks.trans yields)] at masks
  rw [yieldPortion_eq hh h, unmaskUnlessFound_unmasks hm]
  rw [same] at yields
  exact (unmasks.trans yields).trans masks

end

/-! ### The spin -/

theorem advanceTo_draws_tau (hc : s.Core) (hf : s.fault = none) (d : Draws) (n : Nat) :
    (advanceTo (s.tau + n) { s with draws := d }).tau = s.tau + n := by
  obtain ⟨core, running⟩ := (EnvSafe.draws s d).safe hc hf
  rw [advanceTo_tau _ core running]
  exact Nat.max_eq_right (Nat.le_add_right ..)

/-- The spin reads the counter after a boundary, and is left `late` after the deadline as that reading has it. -/
theorem spinUntil_tau (h : s.Waiting id) (d : Nat) : (spinUntil d s).tau =
    (tick s).tau + (cyclesTo d (tick s)).toNat + (takeDraw 0 s.draws.late).1 := by
  have h1 := tick_runs h
  have reached := EnvSafe.advanceTo ((tick s).tau + (cyclesTo d (tick s)).toNat) (tick s)
  obtain ⟨core, running⟩ := reached.safe h1.sound h1.running
  have late := (CaptureDraws.advanceTo ((tick s).tau + (cyclesTo d (tick s)).toNat)
    (tick s)).late.trans (CaptureDraws.tick s).late
  have tau : (advanceTo ((tick s).tau + (cyclesTo d (tick s)).toNat) (tick s)).tau =
      (tick s).tau + (cyclesTo d (tick s)).toNat := by
    rw [advanceTo_tau _ h1.sound h1.running]
    exact Nat.max_eq_right (Nat.le_add_right ..)
  simp only [spinUntil, (not_stopped_iff _).2 h1.running, (not_stopped_iff _).2 running, Bool.false_eq_true, if_false]
  rw [advanceTo_draws_tau core running, tau, late]

end

/-! ### The whole wait -/

theorem cyclesPerMicro_pos {p : Params} (h : p.legal = true) : 0 < cyclesPerMicro p :=
  Nat.div_pos (of_decide_eq_true h) (by decide)

/-- WAIT_BIT_CYCLES that the unit issues with a W-bit deadline. -/
theorem exec_waitBitCycles {s : State} {id d : Nat} (ha : s.AcceptsInternal id) (hd : d < s.params.width.modulus) :
    exec (.waitBitCycles id d) s = .next (waitBitCycles (outerHost s) id d s) := by
  have whole : wrap s.params.width d = d := Nat.mod_eq_of_lt hd
  refine (internalOperation_accepts ha _).trans ?_
  rw [whole]

section
variable {s : State} {id d : Nat} {host : HostCode} (hh : ∀ tEnd u, u.HostWaits → host tEnd u = u)

/-- The first reading of the counter comes after one boundary. -/
theorem cyclesTo_tick (h : s.Waiting id) (d : Nat) : cyclesTo d (tick s) =
    signedW s.params.width (subW s.params.width d ((s.tau + overheadAt s 0) % s.params.width.modulus)) := by
  have same : (tick s).params = s.params := (tick_runs h).env.params
  rw [cyclesTo, State.counter, same, (tick_spends h).tau, wrap]

include hh

/-- The three ways to the spin: without a yield portion, with one that leaves interrupts masked, and with one that does
not. -/
theorem spinStart_spends (h : s.Waiting id) {micro y : Nat} (hmicro : micro = wholeMicros d s)
    (hy : y = yieldTime micro s) :
    (micro = 0 → Spends 1 (overheadAt s 0) s (spinStart host id d s)) ∧
      (0 < micro → (s.inst id).savedMask = true →
        Spends 2 (overheadAt s 0 + (y + overheadAt s 1)) s (spinStart host id d s)) ∧
      (0 < micro → (s.inst id).savedMask = false →
        Spends 3 (overheadAt s 0 + (overheadAt s 1 + y + overheadAt s 2)) s (spinStart host id d s)) := by
  subst hmicro
  have h1 := (tick_runs h).waiting h
  have ticks := tick_spends h
  have found : ((tick s).inst id).savedMask = (s.inst id).savedMask :=
    ((EnvSafe.tick s).env.decodeTo id).project (·.savedMask) (j := id)
  have same : yieldTime (wholeMicros d s) (tick s) = y :=
    (yieldTime_congr _ (tick_runs h).env.params (CaptureDraws.tick s).yieldFor).trans hy.symm
  refine ⟨fun zero => ?_, fun pos hm => ?_, fun pos hm => ?_⟩ <;> rw [spinStart]
  · rw [zero]
    exact ticks
  · rw [decide_eq_true pos, whenever_true]
    have yields := yieldPortion_spends_found hh h1 (wholeMicros d s) (found.trans hm)
    rw [same, overheadAt_spends ticks] at yields
    exact ticks.trans yields
  · rw [decide_eq_true pos, whenever_true]
    have yields := yieldPortion_spends_unmasks hh h1 (wholeMicros d s) (found.trans hm)
    rw [same, overheadAt_spends ticks, overheadAt_spends ticks] at yields
    exact ticks.trans yields

/-- The spin reads the counter first at `tS`, and ends `late` after the deadline as that reading has it. -/
theorem waitBitCycles_tau (h : s.Waiting id) (him : s.im = true) {n c tS : Nat}
    (start : Spends n c s (spinStart host id d s)) (htS : tS = s.tau + c + overheadAt s n) :
    (waitBitCycles host id d s).tau =
      tS + (signedW s.params.width (subW s.params.width d (tS % s.params.width.modulus))).toNat +
        (takeDraw 0 s.draws.late).1 := by
  have started := (spinStart_runs hh h him d).1
  have hu := started.waiting h
  have params : (spinStart host id d s).params = s.params := started.env.params
  have first : tS = (spinStart host id d s).tau + overheadAt (spinStart host id d s) 0 := by
    rw [htS, start.tau, overheadAt_spends start, Nat.add_zero]
  rw [waitBitCycles_eq hh h him, spinUntil_tau hu, cyclesTo_tick hu, (tick_spends hu).tau, ← first, params, start.late]

end

/-- Settles O56: `waitBitCycles_tau` gives the return in terms of the spin's first reading, and `signedW_subW_later`
what that reading is while the deadline does not yet read as being in the future again. -/
theorem waitReachesDeadline : Obligations.WaitReachesDeadline := by
  rintro s id d call y tY tS late remaining ov hc ha hq him outside hd hov rfl rfl hrem rfl cases
  have h : s.Waiting id := ⟨hc, ha.running, ha.built, outside, hq⟩
  have quiet : ∀ tEnd u, u.HostWaits → outerHost s tEnd u = u := fun tEnd u hu => outerHost_waits s hu tEnd
  have hov' : ov = overheadAt s := hov
  subst hov'
  obtain ⟨runs, env⟩ := waitBitCycles_runs quiet h him d
  have pos : 0 < cyclesPerMicro s.params := cyclesPerMicro_pos hc.legal
  have micros : remaining.toNat / cyclesPerMicro s.params = wholeMicros d s := by
    rw [wholeMicros, cyclesTo_tick h, ← hrem, show (tick s).params = s.params from (tick_runs h).env.params]
  generalize hy : (takeDraw (remaining.toNat / cyclesPerMicro s.params * cyclesPerMicro s.params)
    s.draws.yieldFor).1 = y at cases
  obtain ⟨without, found, unmasks⟩ := spinStart_spends quiet h micros hy.symm
  have yields (le : (cyclesPerMicro s.params : Int) ≤ remaining) : 0 < remaining.toNat / cyclesPerMicro s.params :=
    Nat.div_pos (by omega) pos
  have tau : (waitBitCycles (outerHost s) id d s).tau = tS + (signedW s.params.width
      (subW s.params.width d (tS % s.params.width.modulus))).toNat + (takeDraw 0 s.draws.late).1 := by
    rcases cases with ⟨lt, hY, hS⟩ | ⟨le, hm, hY, hS⟩ | ⟨le, hm, hY, hS⟩
    · exact waitBitCycles_tau quiet h him (without (Nat.div_eq_of_lt (by omega))) (by omega)
    · exact waitBitCycles_tau quiet h him (found (yields le) hm) (by omega)
    · exact waitBitCycles_tau quiet h him (unmasks (yields le) hm) (by omega)
  have later : s.tau + overheadAt s 0 ≤ tS := by omega
  have reached (near : (tS : Int) ≤ (s.tau + overheadAt s 0 : Nat) + remaining + s.params.width.half) :
      (waitBitCycles (outerHost s) id d s).tau =
        max (s.tau + overheadAt s 0 + remaining.toNat) tS + (takeDraw 0 s.draws.late).1 := by
    rw [tau, signedW_subW_later hd hrem later near]
    omega
  refine ⟨_, exec_waitBitCycles ha hd, runs.running, env, reached, tau, fun ideal => ?_⟩
  have prompt (k : Nat) : overheadAt s k = 0 := by
    rw [overheadAt, ideal]
    rfl
  have range := signedW_subW_range s.params.width d ((s.tau + overheadAt s 0) % s.params.width.modulus)
  rw [← hrem] at range
  have whole := Nat.div_mul_le_self remaining.toNat (cyclesPerMicro s.params)
  rw [ideal] at hy
  change remaining.toNat / cyclesPerMicro s.params * cyclesPerMicro s.params = y at hy
  simp only [prompt] at cases reached
  rw [reached (by omega), ideal]
  change max _ tS + 0 = _
  omega

end Sys2Proof.Machine
end

section
/-! # WRITE completes (43_transmitter.md R212, R218, R228, R232, R233)

Whatever the draws, the inputs and the captures, a WRITE is followed by what they cannot change (`WriteView`): the mask,
the registers of its instance that neither they nor the decoder write, and the pins. All the rest stays as the WRITE has
found it (`State.WritesTo`). -/

namespace Sys2Proof.Machine

/-! ### What stays -/

/-- From `s` to `t` a WRITE on instance `id` has run: only mask, pins, outputs and its own instance are written. -/
structure State.WritesTo (id : Nat) (s t : State) : Prop where
  params : t.params = s.params
  attached : t.attached = s.attached
  reg : t.reg = s.reg
  ctx : t.ctx = s.ctx
  issuer : t.issuer = s.issuer
  wires : t.wires = s.wires
  hostQueue : t.hostQueue = s.hostQueue
  tau : s.tau ≤ t.tau
  keys : t.insts.map Prod.fst = s.insts.map Prod.fst
  others : State.OthersCapture id s t

theorem writesTo_composes (id : Nat) : Composes (State.WritesTo id) where
  refl _ := ⟨rfl, rfl, rfl, rfl, rfl, rfl, rfl, Nat.le_refl _, rfl, fun _ _ => .refl _⟩
  trans h1 h2 :=
    ⟨h2.params.trans h1.params, h2.attached.trans h1.attached, h2.reg.trans h1.reg, h2.ctx.trans h1.ctx,
      h2.issuer.trans h1.issuer, h2.wires.trans h1.wires, h2.hostQueue.trans h1.hostQueue,
      Nat.le_trans h1.tau h2.tau, h2.keys.trans h1.keys, fun j hj => (h1.others j hj).trans (h2.others j hj)⟩

theorem State.DecodeTo.writesTo {id : Nat} {s t : State} (h : State.DecodeTo id s t) : State.WritesTo id s t :=
  ⟨h.params, h.attached, h.reg, h.ctx, h.issuer, h.wires, h.hostQueue, h.tau, h.keys, h.others⟩

theorem modInst_writesTo (id : Nat) (f : Inst → Inst) : Along (State.WritesTo id) (State.modInst id f) := fun s =>
  ⟨rfl, rfl, rfl, rfl, rfl, rfl, rfl, Nat.le_refl _, modInst_keys s id f, fun _ hj => by
    rw [inst_modInst_other s f hj]
    exact .refl _⟩

/-! ### What is followed -/

/-- The registers of an instance that neither captures nor the decoder write, without the two that walk along the
slots. -/
def Inst.lasting (x : Inst) : Inst :=
  { x with
    edges := [], inE := 0, edgeOvf := false, outE := 0, curBit := 0, curByte := 0#8, lastTs := 0, bytes := [], inB := 0,
    byteOvf := false, deadline := 0, seq := .idle }

theorem Inst.eq_of_lasting {x y : Inst} (h : y.lasting = x.lasting) :
    y = { x with
      edges := y.edges, inE := y.inE, edgeOvf := y.edgeOvf, outE := y.outE, curBit := y.curBit, curByte := y.curByte,
      lastTs := y.lastTs, bytes := y.bytes, inB := y.inB, byteOvf := y.byteOvf, deadline := y.deadline,
      seq := y.seq } := by
  cases x
  cases y
  simpa [Inst.lasting] using h

/-- The pins after the latch of pin `p` is written. -/
def latchPin (p : Nat) (v : Bool) (pins : Nat → Pin) : Nat → Pin := Function.update pins p { pins p with latch := v }

section
variable (p : Nat) (v : Bool) (pins : Nat → Pin)

@[simp] theorem latchPin_mode (q : Nat) : (latchPin p v pins q).mode = (pins q).mode := by
  unfold latchPin
  by_cases h : q = p
  · rw [h, Function.update_self]
  · rw [Function.update_of_ne h]

@[simp] theorem latchPin_latch : (latchPin p v pins p).latch = v := by
  rw [latchPin, Function.update_self]

theorem latchPin_other {q : Nat} (h : q ≠ p) : latchPin p v pins q = pins q := Function.update_of_ne h ..

theorem latchPin_drivePin (u : Bool) : latchPin p v (latchPin p u pins) = latchPin p v pins := by
  simp only [latchPin, Function.update_self, Function.update_idem]

end

/-- What is followed of a WRITE: the mask, the instance's lasting registers, the pins. -/
structure WriteView where
  im : Bool
  own : Inst
  pins : Nat → Pin

/-- The view after a slot of the given level. -/
def WriteView.afterSlot (level : Bool) (g : WriteView) : WriteView :=
  { g with
    own := { g.own with prevLevel := level }
    pins := if level = g.own.prevLevel then g.pins else latchPin g.own.txPin (pinLevelOf g.own.invert level) g.pins }

/-- The view once the first `m` slots have passed: the line has the level of the last one (R217). -/
def WriteView.atSlot (bytes : List Byte) (g : WriteView) : Nat → WriteView
  | 0 => { g with own := { g.own with prevLevel := true } }
  | m + 1 =>
    { g with
      own := { g.own with prevLevel := slotLevel bytes m }
      pins := latchPin g.own.txPin (pinLevelOf g.own.invert (slotLevel bytes m)) g.pins }

theorem WriteView.atSlot_im (bytes : List Byte) (g : WriteView) (m : Nat) : (g.atSlot bytes m).im = g.im := by
  cases m <;> rfl

theorem WriteView.atSlot_inYield (bytes : List Byte) (g : WriteView) (m : Nat) :
    (g.atSlot bytes m).own.inYield = g.own.inYield := by
  cases m <;> rfl

/-- Slot `m` takes the view on: the first slot always flips the line, and of two flips in a row the later one counts. -/
theorem WriteView.afterSlot_atSlot {bytes : List Byte} {m : Nat} (hm : m < 10 * bytes.length) (g : WriteView) :
    (g.atSlot bytes m).afterSlot (slotLevel bytes m) = g.atSlot bytes (m + 1) := by
  cases m with
  | zero =>
    have start : slotLevel bytes 0 = false := slotLevel_start hm rfl
    simp [WriteView.afterSlot, WriteView.atSlot, start]
  | succ k =>
    by_cases hl : slotLevel bytes (k + 1) = slotLevel bytes k
    · simp [WriteView.afterSlot, WriteView.atSlot, hl]
    · simp [WriteView.afterSlot, WriteView.atSlot, hl, latchPin_drivePin]

/-- A WRITE on instance `id` that began in `s0` has come to `t`, where the view is `g`. -/
structure State.Writing (s0 : State) (id : Nat) (g : WriteView) (t : State) : Prop where
  core : t.Core
  frame : State.WritesTo id s0 t
  im : t.im = g.im
  own : (t.inst id).lasting = g.own
  pins : t.pin = g.pins

/-- The operation takes the WRITE from view `g` to `g'`, and raises no fault. -/
abbrev Writes (s0 : State) (id : Nat) (g : WriteView) (f : State → State) (g' : WriteView) : Prop :=
  Leads (fun _ => False) (s0.Writing id g) f (s0.Writing id g')

section
variable {s0 : State} {id : Nat} {g : WriteView} {s t : State}

/-- What only captures and the decoder have done is not seen. -/
theorem State.Writing.carry (h : s0.Writing id g s) (hd : State.DecodeTo id s t) (hc : t.Core) : s0.Writing id g t where
  core := hc
  frame := (writesTo_composes id).trans h.frame hd.writesTo
  im := hd.im.trans h.im
  own := (hd.project Inst.lasting (j := id)).trans h.own
  pins := by
    rw [← h.pins]
    funext q
    rw [State.pin, hd.pins, State.pin]

/-- What is read of a lasting register. -/
theorem State.Writing.reads {α : Type} (h : s0.Writing id g s) (f : Inst → α)
    (hf : ∀ x : Inst, f x.lasting = f x := by exact fun _ => rfl) : f (s.inst id) = f g.own := by
  rw [← h.own, hf]

theorem env_writes {f : State → State} (he : ∀ s, EnvSafe s (f s)) : Writes s0 id g f g := .of_running fun s hs h =>
  have safe := (he s).safe h.core hs
  ⟨safe.2, h.carry ((he s).env.decodeTo id) safe.1⟩

theorem State.Writing.setIm (h : s0.Writing id g s) (m : Bool) :
    s0.Writing id { g with im := m } { s with im := m } where
  core := h.core.congr rfl rfl rfl rfl rfl rfl rfl
  frame := { h.frame with }
  im := rfl
  own := h.own
  pins := h.pins

theorem maskInterrupts_writes : Writes s0 id g maskInterrupts { g with im := true } :=
  (env_writes EnvSafe.tick).then (g := fun t => { t with im := true }) (.of_running fun _ hs h => ⟨hs, h.setIm true⟩)

theorem unmaskInterrupts_writes : Writes s0 id g unmaskInterrupts { g with im := false } := by
  refine (env_writes EnvSafe.tick).then (g := fun t => settle (armAll { t with im := false }))
    (.of_running fun s hs h => ?_)
  exact (env_writes fun u => (EnvSafe.armAll u).trans (.settle _)).runs (s := { s with im := false }) hs (h.setIm false)

/-- The mask is brought back where it has been found unset, and kept where it has not (R218). -/
theorem unmaskUnlessFound_writes (him : g.im = true) :
    Writes s0 id g (unmaskUnlessFound id) { g with im := g.own.savedMask } := by
  intro s hs h
  have found := h.reads (·.savedMask)
  cases hm : g.own.savedMask <;> rw [hm] at found
  · rw [unmaskUnlessFound_unmasks found]
    exact unmaskInterrupts_writes s hs h
  · have same : { g with im := true } = g := by rw [← him]
    rw [unmaskUnlessFound_found found, same]
    exact ⟨fun _ => h, fun hf => hf hs⟩

theorem writePinLevel_writes (p : Nat) (v : Bool) :
    Writes s0 id g (writePinLevel p v) { g with pins := latchPin p v g.pins } := by
  refine (env_writes EnvSafe.tick).then (g := fun t => afterHal t (pinWritten p v t)) (.of_running fun s hs h => ?_)
  have written : s0.Writing id { g with pins := latchPin p v g.pins } (pinWritten p v s) :=
    { core := pinWritten_core h.core
      frame := { h.frame with }
      im := h.im
      own := h.own
      pins := by
        funext q
        change (s.setPin p { s.pin p with latch := v }).pin q = _
        rw [pin_setPin, ← h.pins]
        exact (Function.update_apply s.pin p _ q).symm }
  exact (env_writes (EnvSafe.afterHal s)).runs (s := pinWritten p v s) hs written

theorem whenever_writePinLevel_writes (c : Bool) (p : Nat) (v : Bool) :
    Writes s0 id g (whenever c (writePinLevel p v)) { g with pins := if c then latchPin p v g.pins else g.pins } := by
  cases c
  · exact .of_running fun s hs h => ⟨hs, h⟩
  · exact writePinLevel_writes p v

section
variable (hb : s0.constructed id = true)
include hb

theorem State.Writing.built (h : s0.Writing id g s) : s.constructed id = true :=
  (constructed_of_keys h.frame.keys id).trans hb

theorem rxbits_writes : Writes s0 id g (rxbits id) g := .of_running fun _ hs h =>
  have safe := rxbits_safe h.core hs (h.built hb)
  ⟨safe.running, h.carry safe.frame safe.sound⟩

/-- A write of the instance's transmitter registers. -/
theorem State.Writing.modInst (h : s0.Writing id g s) {f : Inst → Inst} {y : Inst}
    (hl : (f (s.inst id)).lasting = y) (hi : ∀ x, x.Inv s.params → (f x).Inv s.params)
    (hc : ∀ x, x.cellsWf → (f x).cellsWf := by exact fun _ h => h) :
    s0.Writing id { g with own := y } (s.modInst id f) where
  core := h.core.modInst_of_inv fun x hx hw => ⟨hi x hx, hc x hw⟩
  frame := (writesTo_composes id).trans h.frame (modInst_writesTo id f s)
  im := h.im
  own := by rw [inst_modInst_same s id f (h.built hb)]; exact hl
  pins := h.pins

/-- `savedMask <- IM`. -/
theorem saveMask_writes : Writes s0 id g (fun t => t.modInst id fun y => { y with savedMask := t.im })
    { g with own := { g.own with savedMask := g.im } } := .of_running fun s hs h =>
  ⟨hs, h.modInst hb (by rw [← h.own, ← h.im]; rfl) fun _ hx => { hx with }⟩

theorem setPrevLevel_writes (level : Bool) : Writes s0 id g (State.modInst id fun y => { y with prevLevel := level })
    { g with own := { g.own with prevLevel := level } } := .of_running fun s hs h =>
  ⟨hs, h.modInst hb (by rw [← h.own]; rfl) fun _ hx => { hx with }⟩

theorem nextDeadline_writes : Writes s0 id g (fun t => t.modInst id (nextDeadline t.params.width)) g :=
  .of_running fun s hs h => ⟨hs, h.modInst hb (by rw [← h.own]; rfl) fun x hx =>
    { hx with deadline_lt := addW_lt s.params.width x.deadline x.bitPeriod }⟩

theorem beginWaveform_writes : Writes s0 id g (beginWaveform id)
    { g with own := { g.own with txBusy := true, prevLevel := true } } := by
  refine .of_running fun s hs h => ?_
  have begun : s0.Writing id { g with own := { g.own with txBusy := true, prevLevel := true } }
      (s.modInst id fun y => { y with txBusy := true, prevLevel := true }) :=
    h.modInst hb (by rw [← h.own]; rfl) fun _ hx => { hx with }
  refine ((env_writes EnvSafe.tick).then (g := fun t => t.modInst id fun y => { y with deadline := t.counter })
    ?_).runs (s := s.modInst id fun y => { y with txBusy := true, prevLevel := true }) hs begun
  exact .of_running fun t ht h' => ⟨ht, h'.modInst hb h'.own fun _ hx =>
    { hx with deadline_lt := wrap_lt _ _ }⟩

/-- The end of the WRITE: the sequencer is idle (R212). -/
theorem endWaveform_writes :
    Leads (fun _ => False) (s0.Writing id g) (State.modInst id fun y => { y with txBusy := false, seq := .idle })
      (fun t => s0.Writing id { g with own := { g.own with txBusy := false } } t ∧ (t.inst id).seq = .idle) :=
  .of_running fun s hs h => ⟨hs, h.modInst hb (by rw [← h.own]; rfl) fun _ hx => { hx with }, by
    rw [inst_modInst_same s id _ (h.built hb)]⟩

/-! ### Waits and slots -/

section
variable {host : HostCode} (hh : ∀ tEnd u, u.HostWaits → host tEnd u = u) (hq : s0.HostWaits)
  (him : g.im = true) (outside : g.own.inYield = false)
include hh hq him outside

theorem waitBitCycles_writes (d : Nat) : Writes s0 id g (waitBitCycles host id d) g := by
  refine .of_running fun s hs h => ?_
  have waits : s.Waiting id :=
    { core := h.core
      running := hs
      built := h.built hb
      outside := (h.reads (·.inYield)).trans outside
      queue := by rw [State.HostWaits, h.frame.hostQueue]; exact hq }
  obtain ⟨runs, env⟩ := waitBitCycles_runs hh waits (h.im.trans him) d
  exact ⟨runs.running, h.carry (env.decodeTo id) runs.sound⟩

theorem sendSlot_writes (j i : Nat) (level : Bool) :
    Writes s0 id g (sendSlot host id j i level) (g.afterSlot level) := by
  refine .of_running fun s hs h => ?_
  simp only [sendSlot]
  have walked : s0.Writing id g (s.modInst id fun y => { y with seq := .slot j i }) :=
    h.modInst hb (by rw [← h.own]; rfl) fun _ hx => { hx with }
  have running : (s.modInst id fun y => { y with seq := .slot j i }).fault = none := hs
  generalize (s.modInst id fun y => { y with seq := .slot j i }) = u at *
  rw [walked.reads (·.prevLevel), walked.reads (·.txPin), walked.reads (·.invert)]
  have flips (d : Nat) : Writes s0 id g
      (whenever (decide (level ≠ g.own.prevLevel)) (runAll
        [waitBitCycles host id d, writePinLevel g.own.txPin (pinLevelOf g.own.invert level),
          State.modInst id fun y => { y with prevLevel := level }])) (g.afterSlot level) := by
    by_cases hl : level = g.own.prevLevel
    · rw [decide_eq_false (not_not.2 hl), WriteView.afterSlot, if_pos hl, hl]
      exact .of_running fun _ hs h => ⟨hs, h⟩
    · rw [decide_eq_true hl, WriteView.afterSlot, if_neg hl]
      exact .runAll (.cons (waitBitCycles_writes hb hh hq him outside d) (.cons (writePinLevel_writes _ _)
        (.cons (setPrevLevel_writes hb level) .nil)))
  exact (Leads.runAll (.cons (flips _) (.cons (nextDeadline_writes hb) .nil))).runs running walked

/-- The slots of the whole waveform. -/
theorem sendSlots_writes {bytes : List Byte} {m : Nat} (hm : m ≤ 10 * bytes.length) :
    Writes s0 id (g.atSlot bytes 0)
      (sendSlots host id ((List.range m).map fun k => (k / 10, k % 10, slotLevel bytes k))) (g.atSlot bytes m) := by
  induction m with
  | zero => exact .of_running fun s hs h => ⟨hs, h⟩
  | succ m ih =>
    intro s hs h
    rw [List.range_succ, List.map_append, sendSlots_append]
    refine (ih (by omega)).comp (fun t ht h' => ?_) (fun _ => sendSlots_stopped host id _) s hs h
    have sent := sendSlot_writes (g := g.atSlot bytes m) hb hh hq (by rw [WriteView.atSlot_im, him])
      (by rw [WriteView.atSlot_inYield, outside]) (m / 10) (m % 10) (slotLevel bytes m)
    rw [WriteView.afterSlot_atSlot (by omega)] at sent
    rw [List.map_singleton, sendSlots_cons_running _ _ _ _ _ _ ht]
    exact sent t ht h'

end

end

end

/-! ### The whole WRITE -/

/-- The view once all slots have passed: the line is idle, for every frame ends with the stop level (R232). -/
theorem WriteView.atSlot_last {bytes : List Byte} (hne : bytes ≠ []) (g : WriteView) :
    g.atSlot bytes (10 * bytes.length) =
      { g with
        own := { g.own with prevLevel := true }
        pins := latchPin g.own.txPin (pinLevelOf g.own.invert true) g.pins } := by
  have some := List.length_pos_iff.2 hne
  have stop : slotLevel bytes (10 * bytes.length - 1) = true := slotLevel_stop (by omega) (by omega)
  rw [show 10 * bytes.length = 10 * bytes.length - 1 + 1 by omega, WriteView.atSlot, stop]

/-- The pins after a WRITE of the instance (R215, R232). -/
def pinsWritten (x : Inst) (pins : Nat → Pin) : Nat → Pin :=
  let asserted := if x.txEnableValid then latchPin x.txEnablePin true pins else pins
  let idle := latchPin x.txPin (pinLevelOf x.invert true) asserted
  if x.txEnableValid then latchPin x.txEnablePin false idle else idle

section
variable (x : Inst) (pins : Nat → Pin)

theorem pinsWritten_mode (q : Nat) : (pinsWritten x pins q).mode = (pins q).mode := by
  unfold pinsWritten
  cases x.txEnableValid <;> simp

theorem pinsWritten_other {q : Nat} (hq : q ∉ x.txPin :: if x.txEnableValid then [x.txEnablePin] else []) :
    pinsWritten x pins q = pins q := by
  unfold pinsWritten
  cases hen : x.txEnableValid <;> rw [hen] at hq <;> simp at hq <;> simp [latchPin_other, hq]

theorem pinsWritten_txPin (distinct : x.txEnableValid = true → x.txEnablePin ≠ x.txPin) :
    (pinsWritten x pins x.txPin).latch = !x.invert := by
  unfold pinsWritten
  cases hen : x.txEnableValid
  · simp [pinLevelOf]
  · simp [latchPin_other _ _ _ (distinct hen).symm, pinLevelOf]

theorem pinsWritten_txEnablePin (hen : x.txEnableValid = true) : (pinsWritten x pins x.txEnablePin).latch = false := by
  simp [pinsWritten, hen]

end

/-- A WRITE that transmits ends with the mask it has found, its pins written, and its instance idle again. -/
theorem transmit_writes {s : State} {id : Nat} {bytes : List Byte} {host : HostCode} (hc : s.Core) (ha : s.Accepts id)
    (hq : s.HostWaits) (hh : ∀ tEnd u, u.HostWaits → host tEnd u = u) (hne : bytes ≠ []) :
    (transmit host id bytes s).fault = none ∧
      s.Writing id
        { im := s.im
          own := { (s.inst id).lasting with prevLevel := true, savedMask := s.im, txBusy := false }
          pins := pinsWritten (s.inst id) s.pin } (transmit host id bytes s) ∧
      ((transmit host id bytes s).inst id).seq = .idle ∧
      (transmit host id bytes s).result = some (.natural bytes.length) := by
  have start : s.Writing id ⟨s.im, (s.inst id).lasting, s.pin⟩ s :=
    ⟨hc, (writesTo_composes id).refl s, rfl, rfl, rfl⟩
  have slots (g : WriteView) (him : g.im = true) (outside : g.own.inYield = false) :
      Writes s id (g.atSlot bytes 0) (sendSlots host id (frameSlots 0 bytes)) (g.atSlot bytes (10 * bytes.length)) := by
    rw [frameSlots_spec]
    exact sendSlots_writes ha.built hh hq him outside (Nat.le_refl _)
  have waits (g : WriteView) (him : g.im = true) (outside : g.own.inYield = false) :
      Writes s id g (fun t => waitBitCycles host id (t.inst id).deadline t) g :=
    fun t => waitBitCycles_writes ha.built hh hq him outside (t.inst id).deadline t
  have returns (g : WriteView) :
      Leads (fun _ => False) (fun t => s.Writing id g t ∧ (t.inst id).seq = .idle)
        (State.ret id (.natural bytes.length))
        (fun t => s.Writing id g t ∧ (t.inst id).seq = .idle ∧ t.result = some (.natural bytes.length)) :=
    .of_running fun t ht ⟨h, hseq⟩ => ⟨ht, ⟨h.core.congr rfl rfl rfl rfl rfl rfl rfl, { h.frame with }, h.im, h.own,
      h.pins⟩, hseq, rfl⟩
  have begun := slots ⟨true, { (s.inst id).lasting with savedMask := s.im, txBusy := true, prevLevel := true },
    if (s.inst id).txEnableValid then latchPin (s.inst id).txEnablePin true s.pin else s.pin⟩ rfl ha.outside
  rw [WriteView.atSlot_last hne] at begun
  exact (Leads.runAll (P := s.Writing id ⟨s.im, (s.inst id).lasting, s.pin⟩)
    (.cons (Leads.whenever _ (rxbits_writes ha.built))
      (.cons (whenever_writePinLevel_writes (s.inst id).txEnableValid (s.inst id).txEnablePin true)
        (.cons (saveMask_writes ha.built) (.cons maskInterrupts_writes (.cons (beginWaveform_writes ha.built)
          (.cons begun (.cons (waits _ rfl ha.outside) (.cons (unmaskUnlessFound_writes rfl)
            (.cons (whenever_writePinLevel_writes (s.inst id).txEnableValid (s.inst id).txEnablePin false)
              (.cons (endWaveform_writes ha.built) (.cons (returns _) .nil)))))))))))).runs ha.running start

/-- Settles O54: the WRITE passes every check, and `transmit_writes` follows it to its return. -/
theorem writeCompletes : Obligations.WriteCompletes := by
  rintro s id bytes x hc ha hq rfl htx hcfg hout hne
  obtain ⟨running, written, hseq, hret⟩ := transmit_writes (bytes := bytes) hc ha hq
    (fun tEnd u hu => outerHost_waits s hu tEnd) hne
  have frame := written.frame
  have pins (q : Nat) : (transmit (outerHost s) id bytes s).pin q = pinsWritten (s.inst id) s.pin q :=
    congrFun written.pins q
  have own := Inst.eq_of_lasting
    (x := { s.inst id with txBusy := false, prevLevel := true, savedMask := s.im }) written.own
  rw [hseq] at own
  refine ⟨transmit (outerHost s) id bytes s, ?_, ⟨running, frame.params, frame.ctx, frame.issuer, frame.wires,
    frame.hostQueue, frame.tau, frame.keys⟩, hret, written.im, frame.reg, frame.attached, fun q => ?_,
    fun q hout => ?_, fun distinct => ?_, fun hen => ?_, own, frame.others⟩
  · rw [exec_write ha, write_transmits _ htx hcfg hout hne]
  · rw [pins, pinsWritten_mode]
  · rw [pins, pinsWritten_other _ _ hout]
  · rw [pins, pinsWritten_txPin _ _ distinct]
  · rw [pins, pinsWritten_txEnablePin _ _ hen]

end Sys2Proof.Machine
end

section
/-! # How many transitions wait, and what the mask holds back (60_exceptions.md R291, R292)

A write of `pending[p]` changes the number of waiting transitions (`pendingTotal`) by what it changes the count of the
pin. While interrupts are masked no capture is triggered. -/

namespace Sys2Proof.Machine

/-! ### How many transitions wait -/

section
variable {m : List (Nat × Pending)} {k : Nat} {v : Pending}

/-- The transitions that a list of cells counts. -/
def countSum (m : List (Nat × Pending)) : Nat := (m.map fun e => e.2.count).sum

theorem countSum_cons (e : Nat × Pending) (m : List (Nat × Pending)) : countSum (e :: m) = e.2.count + countSum m := rfl

theorem Pending.clear_count : Pending.clear.count = 0 := rfl

theorem cellRead_clear_of_lt (h : ∀ e ∈ m, k < e.1) : cellRead Pending.clear m k = Pending.clear := by
  rw [cellRead]
  cases hg : cellGet m k with
  | none => rfl
  | some v => exact absurd (h _ (cellGet_mem hg)) (Nat.lt_irrefl k)

theorem cellRead_cons (e : Nat × Pending) (m : List (Nat × Pending)) (k : Nat) :
    cellRead Pending.clear (e :: m) k = if e.1 = k then e.2 else cellRead Pending.clear m k := by
  rw [cellRead, cellGet]
  split <;> rfl

theorem countSum_cellSet (h : Cells.rising m) :
    countSum (cellSet m k v) + (cellRead Pending.clear m k).count = countSum m + v.count := by
  induction m with
  | nil => exact Nat.add_comm ..
  | cons e m ih =>
    obtain ⟨above, rising⟩ := List.pairwise_cons.1 h
    rw [cellSet]
    split_ifs with hlt heq
    · have absent : cellRead Pending.clear (e :: m) k = Pending.clear :=
        cellRead_clear_of_lt fun a ha => by
          rcases List.mem_cons.1 ha with rfl | ha
          · exact hlt
          · exact hlt.trans (above a ha)
      simp only [absent, countSum_cons, Pending.clear_count]
      omega
    · simp only [cellRead_cons, if_pos heq.symm, countSum_cons]
      omega
    · rw [cellRead_cons, if_neg (Ne.symm heq), countSum_cons, countSum_cons]
      have := ih rising
      omega

theorem countSum_cellDel (h : Cells.rising m) :
    countSum (cellDel m k) + (cellRead Pending.clear m k).count = countSum m := by
  induction m with
  | nil => rfl
  | cons e m ih =>
    obtain ⟨above, rising⟩ := List.pairwise_cons.1 h
    have rest := ih rising
    by_cases heq : e.1 = k
    · rw [cellRead_clear_of_lt fun a ha => heq ▸ above a ha] at rest
      have del : cellDel (e :: m) k = cellDel m k := by simp [cellDel, heq]
      rw [del, cellRead_cons, if_pos heq, countSum_cons]
      rw [Pending.clear_count] at rest
      omega
    · have del : cellDel (e :: m) k = e :: cellDel m k := by simp [cellDel, heq]
      rw [del, cellRead_cons, if_neg heq, countSum_cons, countSum_cons]
      omega

end

section
variable {s t : State} {p : Nat}

theorem pendingTotal_setPend (h : Cells.rising s.pending) (p : Nat) (v : Pending) :
    pendingTotal (s.setPend p v) + (s.pend p).count = pendingTotal s + v.count := by
  change countSum (cellWrite Pending.clear s.pending p v) + (cellRead Pending.clear s.pending p).count =
    countSum s.pending + v.count
  rw [cellWrite]
  split
  · next hv => rw [countSum_cellDel h, hv]; rfl
  · exact countSum_cellSet h

theorem count_le_pendingTotal (h : Cells.rising s.pending) (p : Nat) : (s.pend p).count ≤ pendingTotal s := by
  have := pendingTotal_setPend h p Pending.clear
  rw [Pending.clear_count] at this
  omega

theorem setPend_pending_rising (h : Cells.rising s.pending) (p : Nat) (v : Pending) :
    Cells.rising (s.setPend p v).pending := by
  rw [setPend_pending, cellWrite]
  split
  · exact cellDel_rising p h
  · exact cellSet_rising p v h

/-- The latencies drawn, as many transitions wait as before. -/
theorem armAll_pendingTotal (h : Cells.rising s.pending) : pendingTotal (armAll s) = pendingTotal s := by
  have step (t : State) (q : Nat) (ht : Cells.rising t.pending) :
      Cells.rising (armPin q t).pending ∧ pendingTotal (armPin q t) = pendingTotal t := by
    unfold armPin
    split
    · refine ⟨setPend_pending_rising (s := { t with draws := _ }) ht q _, ?_⟩
      have := pendingTotal_setPend (s := { t with draws := { t.draws with lat := (takeDraw 0 t.draws.lat).2 } }) ht q
        { t.pend q with due := some (t.tau + (takeDraw 0 t.draws.lat).1) }
      exact Nat.add_right_cancel this
    · exact ⟨ht, rfl⟩
  have fold (l : List Nat) (t : State) (ht : Cells.rising t.pending) :
      pendingTotal (l.foldl (fun t q => armPin q t) t) = pendingTotal t := by
    induction l generalizing t with
    | nil => rfl
    | cons q l ih => exact (ih _ (step t q ht).1).trans (step t q ht).2
  exact fold _ s h

end

/-! ### Where interrupts are masked -/

section
variable {s : State}

theorem triggered_masked (him : s.im = true) (p : Nat) : triggered s p = none := by
  cases h : triggered s p with
  | none => rfl
  | some id =>
    obtain ⟨-, him', -⟩ := triggered_some h
    rw [him] at him'
    cases him'

theorem runCaptures_masked (him : s.im = true) (fuel bound : Nat) : runCaptures fuel bound s = s := by
  have due : dueCaptures bound s = [] := by
    refine List.filterMap_eq_nil_iff.2 fun e _ => ?_
    simp only [triggered_masked him, Option.map_none, ite_self]
    split <;> rfl
  cases fuel with
  | zero => rfl
  | succ n => simp [runCaptures, nextCapture, due, firstDue]

/-- A boundary under the ideal draw at which nothing comes due is nothing. -/
theorem tick_masked (him : s.im = true) (hi : s.inputs = []) (hd : s.draws = .ideal) : tick s = s := by
  have same : ({ s with draws := { s.draws with
      overhead := (takeDraw 0 s.draws.overhead).2, hold := (takeDraw 0 s.draws.hold).2 } } : State) = s := by
    rw [hd]
    exact congrArg (fun d => { s with draws := d }) hd.symm
  simp only [tick, same]
  rw [hd]
  change advanceTo s.tau s = s
  rw [advanceTo, hi, passInputs, runCaptures_masked him]
  split
  · rfl
  · simp [State.atTime]

end

end Sys2Proof.Machine
end

section
/-! # Transitions that cannot be captured (60_exceptions.md R291)

With no input change to come, what waits on a pin stays as it is as long as interrupts are masked, or where nothing waits
(`State.Still`), whatever is captured of other pins. -/

namespace Sys2Proof.Machine

/-- What a capture writes of an instance (40_capture.md R123). -/
def Inst.captured (x : Inst) : EdgeSlots × Nat × Bool := (x.edges, x.inE, x.edgeOvf)

theorem Inst.CapturedTo.eq_of_captured {x y z : Inst} (hy : x.CapturedTo y) (hz : x.CapturedTo z)
    (h : y.captured = z.captured) : y = z := by
  simp only [Inst.captured, Prod.mk.injEq] at h
  obtain ⟨edges, inE, edgeOvf⟩ := h
  rw [hy.rest, hz.rest, edges, inE, edgeOvf]

/-- With no input change to come, `n` transitions wait on pin `p` of instance `j`, of which none can be captured, and
the instance has captured `r`. -/
structure State.Still (p j n : Nat) (r : EdgeSlots × Nat × Bool) (s : State) : Prop where
  inputs : s.inputs = []
  rxPin : (s.inst j).rxPin = p
  count : (s.pend p).count = n
  captured : (s.inst j).captured = r
  closed : s.im = true ∨ n = 0

/-- So it stays from `s` to `t`. -/
def StillKept (p j : Nat) (s t : State) : Prop := ∀ n r, s.Still p j n r → t.Still p j n r

theorem stillKept_composes (p j : Nat) : Composes (StillKept p j) :=
  ⟨fun _ _ _ h => h, fun h1 h2 n r h => h2 n r (h1 n r h)⟩

section
variable {p j : Nat}

/-- An update of draws, time and the like. -/
theorem StillKept.of_eq {s t : State} (hi : t.inputs = s.inputs := by exact rfl)
    (hq : t.pending = s.pending := by exact rfl) (hx : t.insts = s.insts := by exact rfl)
    (hm : t.im = s.im := by exact rfl) : StillKept p j s t := by
  have inst : t.inst j = s.inst j := by rw [State.inst, hx, State.inst]
  have pend : t.pend p = s.pend p := by rw [State.pend, hq, State.pend]
  exact fun n r h => ⟨hi.trans h.inputs, inst ▸ h.rxPin, pend ▸ h.count, inst ▸ h.captured, hm ▸ h.closed⟩

theorem Arms.stillKept {s t : State} (h : Arms s t) : StillKept p j s t := by
  have inputs : t.inputs = s.inputs := by rw [h.rest]
  have im : t.im = s.im := by rw [h.rest]
  exact fun n r still => ⟨inputs.trans still.inputs, h.inst j ▸ still.rxPin, (h.count p).trans still.count,
    h.inst j ▸ still.captured, im ▸ still.closed⟩

theorem armAll_stillKept : Along (StillKept p j) armAll := fun s => (armAll_arms s).stillKept

/-- A capture that its trigger allows is one of another pin and another instance. -/
theorem captureStep_stillKept (k : Nat) : Along (StillKept p j) (captureStep k) := by
  intro s n r h
  rw [captureStep]
  split
  · next ht =>
    obtain ⟨-, unmasked, waits, -, -, -⟩ := triggered_some ht
    have pin : p ≠ (s.inst k).rxPin := by
      rintro e
      rcases h.closed with him | rfl
      · rw [him] at unmasked; cases unmasked
      · rw [← e, h.count] at waits; cases waits
    have other : j ≠ k := by rintro rfl; exact pin h.rxPin.symm
    refine armAll_stillKept _ n r ?_
    have taken : (s.setPend (s.inst k).rxPin (pendingAfter (s.inst k).rxPin s)).Still p j n r :=
      ⟨h.inputs, h.rxPin, by rw [pend_setPend, if_neg pin]; exact h.count, h.captured, h.closed⟩
    have same (f : Inst → Option Inst) := applyInst_inst_other f
      (s.setPend (s.inst k).rxPin (pendingAfter (s.inst k).rxPin s)) other
    refine ⟨?_, (congrArg Inst.rxPin (same _)).trans taken.rxPin, ?_,
      (congrArg Inst.captured (same _)).trans taken.captured, ?_⟩
    all_goals unfold State.applyInst
    · split <;> exact taken.inputs
    · split <;> exact taken.count
    · split <;> exact taken.closed
  · exact h

theorem nextCapture_stillKept {bound : Nat} {s t : State} {c : Nat × Nat × Nat}
    (h : nextCapture bound s = some (c, t)) : StillKept p j s t := by
  unfold nextCapture at h
  split at h <;> cases h <;> exact .of_eq

theorem runCaptures_stillKept (fuel bound : Nat) : Along (StillKept p j) (runCaptures fuel bound) := by
  induction fuel with
  | zero => exact (stillKept_composes p j).refl
  | succ n ih =>
    intro s
    rw [runCaptures]
    split
    · exact (stillKept_composes p j).refl s
    · cases hn : nextCapture bound s with
      | none => exact (stillKept_composes p j).refl s
      | some c =>
        have later : StillKept p j c.2 (c.2.atTime c.1.1) := .of_eq
        exact (stillKept_composes p j).trans (nextCapture_stillKept hn)
          ((stillKept_composes p j).trans later
            ((stillKept_composes p j).trans (captureStep_stillKept _ _) (ih _)))

/-- The passing of time with no input change to come. -/
theorem passInputs_stillKept (bound t : Nat) : Along (StillKept p j) fun s => passInputs s.inputs bound t s := by
  intro s n r h
  have passes : passInputs s.inputs bound t s =
      if s.stopped then s else (runCaptures (pendingTotal s) bound s).atTime t := by
    rw [h.inputs, passInputs]
  have later : StillKept p j (runCaptures (pendingTotal s) bound s)
      ((runCaptures (pendingTotal s) bound s).atTime t) := .of_eq
  simp only [passes]
  split
  · exact h
  · exact later n r (runCaptures_stillKept _ _ s n r h)

theorem advanceTo_stillKept (t : Nat) : Along (StillKept p j) (advanceTo t) := fun s => passInputs_stillKept _ _ s

theorem settle_stillKept : Along (StillKept p j) settle := by
  intro s
  rw [settle]
  split
  · exact (stillKept_composes p j).refl s
  · exact advanceTo_stillKept _ s

theorem tick_stillKept : Along (StillKept p j) tick := by
  intro s
  have drawn : StillKept p j s { s with draws := { s.draws with
      overhead := (takeDraw 0 s.draws.overhead).2, hold := (takeDraw 0 s.draws.hold).2 } } := .of_eq
  simp only [tick]
  split
  · exact (stillKept_composes p j).trans drawn (advanceTo_stillKept _ _)
  · exact (stillKept_composes p j).trans drawn
      ((stillKept_composes p j).trans (passInputs_stillKept _ _ _) (settle_stillKept _))

theorem maskInterrupts_stillKept : Along (StillKept p j) maskInterrupts := fun s =>
  (stillKept_composes p j).unlessStopped (tick_stillKept s) fun _ _ h => { h with closed := .inl rfl }

theorem spinUntil_stillKept (d : Nat) : Along (StillKept p j) (spinUntil d) := fun s =>
  have drawn (u : State) (l : List Nat) : StillKept p j u { u with draws := { u.draws with late := l } } := .of_eq
  (stillKept_composes p j).unlessStopped (tick_stillKept s) ((stillKept_composes p j).unlessStopped
    (advanceTo_stillKept _ _) ((stillKept_composes p j).trans (drawn _ _) (advanceTo_stillKept _ _)))

theorem markYield_stillKept (id : Nat) (on : Bool) : Along (StillKept p j) (markYield id on) := fun s _ _ h =>
  have marked {α : Type} (g : Inst → α) (hg : ∀ x : Inst, g { x with inYield := on } = g x) :
      g ((markYield id on s).inst j) = g (s.inst j) := modInst_project g hg s id j
  ⟨h.inputs, (marked Inst.rxPin fun _ => rfl).trans h.rxPin, h.count,
    (marked Inst.captured fun _ => rfl).trans h.captured, h.closed⟩

section
variable {host : HostCode} (hh : ∀ tEnd u, u.HostWaits → host tEnd u = u) {s : State} {id : Nat} (h : s.Waiting id)
include hh h

theorem markedYield_stillKept (us : Nat) : StillKept p j s (markedYield host id us s) := by
  have waits : (markYield id true s).HostWaits := h.queue
  have running : (markYield id true s).fault = none := h.running
  have yields : StillKept p j (markYield id true s) (cooperativeYield host us (markYield id true s)) := by
    rw [cooperativeYield, runAll_cons_running _ _ (by exact running), hh _ _ (by exact waits),
      runAll_cons_running _ _ (by exact running), runAll_nil]
    have drawn (l : List Nat) : StillKept p j (markYield id true s)
        { markYield id true s with draws := { (markYield id true s).draws with yieldFor := l } } := .of_eq
    exact (stillKept_composes p j).trans (drawn _) (advanceTo_stillKept _ _)
  exact (stillKept_composes p j).trans (markYield_stillKept id true s)
    ((stillKept_composes p j).trans yields (markYield_stillKept id false _))

/-- From the unmasking on, what can no longer be captured stays. -/
theorem yieldPortion_stillKept (us : Nat) :
    StillKept p j (unmaskUnlessFound id s) (yieldPortion host id us s) := by
  rw [yieldPortion_eq hh h]
  exact (stillKept_composes p j).trans (markedYield_stillKept hh ((unmaskUnlessFound_runs h).waiting h) us)
    (maskInterrupts_stillKept _)

/-- Nothing is captured in a wait without a yield portion, or in a WRITE that has found interrupts masked. -/
theorem waitBitCycles_stillKept (him : s.im = true) (d : Nat)
    (hm : (s.inst id).savedMask = true ∨ wholeMicros d s = 0) : StillKept p j s (waitBitCycles host id d s) := by
  rw [waitBitCycles_eq hh h him]
  refine (stillKept_composes p j).trans ?_ (spinUntil_stillKept d _)
  have ticked := (tick_runs h).waiting h
  have found : ((tick s).inst id).savedMask = (s.inst id).savedMask :=
    ((EnvSafe.tick s).env.decodeTo id).project (·.savedMask) (j := id)
  rw [spinStart]
  rcases Nat.eq_zero_or_pos (wholeMicros d s) with zero | pos
  · rw [zero]
    exact tick_stillKept s
  · have masked := found.trans (hm.resolve_right pos.ne')
    have yields := yieldPortion_stillKept hh ticked (wholeMicros d s) (p := p) (j := j)
    rw [unmaskUnlessFound_found masked] at yields
    rw [decide_eq_true pos]
    exact (stillKept_composes p j).trans (tick_stillKept s) yields

end

end

end Sys2Proof.Machine
end

section
/-! # A transition that can be captured now (60_exceptions.md R291)

With no input change to come and under the ideal draw, a transition that can be captured (`State.Awaits`) is captured
before time passes on: each capture that goes first takes a transition away, and there are only so many. -/

namespace Sys2Proof.Machine

/-- One transition waits on pin `p` of instance `j`, whose state is `x`; it can be captured from `due` on, or as soon as
its latency is drawn, and would be captured as `word` at the present time `tau`. No other draw is to come. -/
structure State.Awaits (p j tau : Nat) (x : Inst) (word : Nat) (due : Option Nat) (s : State) : Prop where
  inputs : s.inputs = []
  ideal : s.draws = .ideal
  tau : s.tau = tau
  pend : s.pend p = ⟨1, due⟩
  trigger : triggered s p = some j
  inst : s.inst j = x
  word : capturedWord p s = word

section
variable {p j tau word : Nat} {x : Inst} {due : Option Nat} {s t : State}

/-- What the trigger of pin `p` and the word captured there read. -/
theorem State.Awaits.congr {due' : Option Nat} (h : s.Awaits p j tau x word due) (hi : t.inputs = s.inputs)
    (hd : t.draws = .ideal) (ht : t.tau = s.tau) (hq : t.pend p = ⟨1, due'⟩) (hr : t.reg = s.reg) (hm : t.im = s.im)
    (hb : t.constructed j = s.constructed j) (hx : t.inst j = s.inst j) (hp : t.params = s.params)
    (hl : t.lineLevel p = s.lineLevel p) : t.Awaits p j tau x word due' := by
  obtain ⟨reg, im, -, built, rxPin, enabled⟩ := triggered_some h.trigger
  refine ⟨hi.trans h.inputs, hd, ht.trans h.tau, hq, ?_, hx.trans h.inst, ?_⟩
  · rw [triggered_eq_some_iff (hb.trans built) (hx ▸ rxPin), hr, hm, hq, hx]
    exact ⟨reg, im, Nat.le_refl 1, enabled⟩
  · rw [← h.word, capturedWord, capturedWord, hp, ht, hl]

/-- The latency is drawn where it has not been: it is 0. -/
theorem armPin_awaits (q : Nat) (h : s.Awaits p j tau x word due) :
    (armPin q s).Awaits p j tau x word (if q = p then some (due.getD tau) else due) := by
  by_cases arms : (triggered s q).isSome = true ∧ (s.pend q).due = none
  · rw [armPin, if_pos arms, h.ideal]
    refine h.congr rfl rfl rfl ?_ rfl rfl rfl rfl rfl rfl
    rw [pend_setPend]
    by_cases e : q = p
    · subst e
      have undrawn : due = none := by rw [h.pend] at arms; exact arms.2
      rw [if_pos rfl, if_pos rfl, h.pend, undrawn, h.tau]
      rfl
    · rw [if_neg (Ne.symm e), if_neg e]
      exact h.pend
  · rw [armPin, if_neg arms]
    by_cases e : q = p
    · subst e
      cases due with
      | none => exact absurd ⟨by rw [h.trigger]; rfl, by rw [h.pend]⟩ arms
      | some d => rw [if_pos rfl]; exact h
    · rw [if_neg e]
      exact h

theorem armPins_awaits (l : List Nat) (h : s.Awaits p j tau x word due) :
    (l.foldl (fun t q => armPin q t) s).Awaits p j tau x word (if p ∈ l then some (due.getD tau) else due) := by
  induction l generalizing s due with
  | nil => exact h
  | cons q l ih =>
    have armed := ih (armPin_awaits q h)
    rw [List.foldl_cons]
    by_cases e : q = p
    · subst e
      simpa using armed
    · simpa [e, Ne.symm e] using armed

theorem armAll_awaits (h : s.Awaits p j tau x word due) : (armAll s).Awaits p j tau x word (some (due.getD tau)) := by
  have listed : p ∈ s.pending.map Prod.fst := by
    rw [← cellGet_isSome_iff]
    by_contra absent
    have unlisted : s.pend p = Pending.clear := by
      rw [State.pend, cellRead, Option.not_isSome_iff_eq_none.1 absent]
      rfl
    have pend := h.pend
    rw [unlisted] at pend
    cases pend
  have armed := armPins_awaits (s.pending.map Prod.fst) h
  rwa [if_pos listed] at armed

/-! ### One capture -/

/-- The next capture is one of those due. -/
theorem nextCapture_mem {bound : Nat} {c : Nat × Nat × Nat} (h : nextCapture bound s = some (c, t)) :
    c ∈ dueCaptures bound s := by
  have first : ∀ a ∈ firstDue (dueCaptures bound s), a ∈ dueCaptures bound s := fun a ha => (List.mem_filter.1 ha).1
  unfold nextCapture at h
  split at h
  · cases h
  · next c' he => cases h; exact first _ (by rw [he]; exact List.mem_singleton_self _)
  · next a as _ he =>
    cases h
    refine first _ ?_
    rw [he, List.getD_eq_getElem?_getD]
    cases hg : (a :: as)[(takeDraw 0 s.draws.order).1 % (as.length + 1)]? with
    | none => simp
    | some b => exact List.mem_of_getElem? hg

theorem mem_dueCaptures {bound : Nat} {c : Nat × Nat × Nat} (h : c ∈ dueCaptures bound s) :
    s.tau ≤ c.1 ∧ triggered s c.2.1 = some c.2.2 := by
  simp only [dueCaptures, List.mem_filterMap] at h
  obtain ⟨e, -, he⟩ := h
  split at he
  · split at he
    · obtain ⟨id, ht, rfl⟩ := Option.map_eq_some_iff.1 he
      exact ⟨Nat.le_max_left .., ht⟩
    · cases he
  · cases he

/-- The transition that waits is due. -/
theorem State.Awaits.mem_dueCaptures (h : s.Awaits p j tau x word (some tau)) :
    (tau, p, j) ∈ dueCaptures (s.tau + 1) s := by
  refine List.mem_filterMap.2 ⟨(p, ⟨1, some tau⟩), ?_, ?_⟩
  · have pend := h.pend
    rw [State.pend, cellRead] at pend
    cases hg : cellGet s.pending p with
    | none => rw [hg] at pend; cases pend
    | some v =>
      rw [hg] at pend
      exact pend ▸ cellGet_mem hg
  · simp [h.tau, h.trigger]

theorem earliestDue_attained {cs : List (Nat × Nat × Nat)} (h : cs ≠ []) : ∃ c ∈ cs, c.1 = earliestDue cs := by
  induction cs with
  | nil => exact absurd rfl h
  | cons c cs ih =>
    cases cs with
    | nil => exact ⟨c, List.mem_cons_self, rfl⟩
    | cons d ds =>
      obtain ⟨e, he, least⟩ := ih (List.cons_ne_nil d ds)
      rcases Nat.le_total c.1 (earliestDue (d :: ds)) with le | le
      · exact ⟨c, List.mem_cons_self, (Nat.min_eq_left le).symm⟩
      · exact ⟨e, List.mem_cons_of_mem c he, least.trans (Nat.min_eq_right le).symm⟩

theorem nextCapture_ne_none {bound : Nat} (h : dueCaptures bound s ≠ []) : nextCapture bound s ≠ none := by
  obtain ⟨c, hc, first⟩ := earliestDue_attained h
  have listed : c ∈ firstDue (dueCaptures bound s) := List.mem_filter.2 ⟨hc, decide_eq_true first⟩
  intro hn
  unfold nextCapture at hn
  split at hn
  · next empty => rw [empty] at listed; cases listed
  · cases hn
  · cases hn

theorem nextCapture_ideal {bound : Nat} {c : Nat × Nat × Nat} (hd : s.draws = .ideal)
    (h : nextCapture bound s = some (c, t)) : t = s := by
  unfold nextCapture at h
  split at h <;> cases h
  · rfl
  · rw [hd]
    exact congrArg (fun d => { s with draws := d }) hd.symm

/-- Under the ideal draw the captures due now are taken in their order, at the present time. -/
theorem State.Awaits.nextCapture (h : s.Awaits p j tau x word (some tau)) :
    ∃ c, Machine.nextCapture (tau + 1) s = some (c, s) ∧ c.1 = tau ∧ triggered s c.2.1 = some c.2.2 := by
  have due := h.mem_dueCaptures
  rw [h.tau] at due
  obtain ⟨⟨c, t⟩, hn⟩ := Option.ne_none_iff_exists'.1 (nextCapture_ne_none (List.ne_nil_of_mem due))
  obtain ⟨late, trigger⟩ := Machine.mem_dueCaptures (nextCapture_mem hn)
  have early := (nextCapture_lt hn).1
  have same := nextCapture_ideal h.ideal hn
  rw [h.tau] at late
  exact ⟨c, by rw [hn, same], by omega, trigger⟩

/-- Enqueue stores or drops where an instance can receive: its indices are inside its ring. -/
theorem State.Core.enqueues {k : Nat} (hc : s.Core) (built : s.constructed k = true)
    (enabled : (s.inst k).rxEnabled = true) (v : Nat) :
    ∃ y, enqueueEdge v (s.inst k) = some y ∧ (s.inst k).PushesEdge v y := by
  have sound := hc.inst built
  obtain ⟨hin, hout, -, -⟩ := sound.indices (sound.enabled_configured enabled).2
  exact enqueueEdge_pushes v hin hout

/-- A triggered capture in a sound state. -/
theorem State.Core.captures {k q : Nat} (hc : s.Core) (ht : triggered s q = some k) :
    ∃ y, captureStep k s = armAll ((s.setPend q (pendingAfter q s)).modInst k fun _ => y) := by
  obtain ⟨-, -, -, built, -, enabled⟩ := triggered_some ht
  obtain ⟨y, hy, -⟩ := hc.enqueues built enabled (capturedWord q s)
  exact ⟨y, captureStep_triggered ht hy⟩

/-- A capture takes a transition away. -/
theorem captureStep_pendingTotal {k q : Nat} (hc : s.Core) (ht : triggered s q = some k) :
    pendingTotal (captureStep k s) < pendingTotal s := by
  obtain ⟨y, e⟩ := hc.captures ht
  obtain ⟨-, -, waits, -⟩ := triggered_some ht
  have rising : Cells.rising s.pending := hc.memory.2.2.2.1.1
  have armed := armAll_pendingTotal (s := (s.setPend q (pendingAfter q s)).modInst k fun _ => y)
    (setPend_pending_rising rising q _)
  have taken := pendingTotal_setPend rising q (pendingAfter q s)
  have fewer : (pendingAfter q s).count < (s.pend q).count := by
    simp only [pendingAfter]
    split <;> omega
  rw [e, armed]
  change pendingTotal (s.setPend q (pendingAfter q s)) < _
  omega

/-- A capture of another instance leaves the transition as it is. -/
theorem captureStep_awaits {k q : Nat} (hc : s.Core) (h : s.Awaits p j tau x word (some tau))
    (ht : triggered s q = some k) (hk : k ≠ j) : (captureStep k s).Awaits p j tau x word (some tau) := by
  obtain ⟨y, e⟩ := hc.captures ht
  have other : p ≠ q := by
    rintro rfl
    rw [h.trigger] at ht
    exact hk (Option.some.inj ht).symm
  have taken : ((s.setPend q (pendingAfter q s)).modInst k fun _ => y).Awaits p j tau x word (some tau) :=
    h.congr rfl h.ideal rfl (by rw [modInst_pend, pend_setPend, if_neg other]; exact h.pend) rfl rfl
      (constructed_modInst ..) (inst_modInst_other _ _ hk.symm) rfl rfl
  exact e ▸ armAll_awaits taken

/-- The capture of the instance itself ends the wait. -/
theorem captureStep_still (h : s.Awaits p j tau x word (some tau)) {y : Inst}
    (hy : enqueueEdge word x = some y) : (captureStep j s).Still p j 0 y.captured := by
  have hy' : enqueueEdge (capturedWord p s) (s.inst j) = some y := by rw [h.word, h.inst]; exact hy
  obtain ⟨-, -, -, built, rxPin, enabled⟩ := triggered_some h.trigger
  rw [captureStep_triggered h.trigger hy']
  refine armAll_stillKept _ 0 _ ⟨h.inputs, ?_, ?_, ?_, .inr rfl⟩
  · rw [inst_modInst_same (s.setPend p _) j _ built, (enqueueEdge_capturedTo hy' enabled).rest]
    exact rxPin
  · rw [modInst_pend, pend_setPend, if_pos rfl, pendingAfter, h.pend]
    split <;> rfl
  · rw [inst_modInst_same (s.setPend p _) j _ built]

/-! ### All captures due -/

/-- Captures run until the transition is captured. -/
theorem runCaptures_still (fuel : Nat) {y : Inst} (hc : s.Core) (hf : s.fault = none)
    (h : s.Awaits p j tau x word (some tau)) (hy : enqueueEdge word x = some y) (enough : pendingTotal s ≤ fuel) :
    (runCaptures fuel (tau + 1) s).Still p j 0 y.captured := by
  induction fuel generalizing s with
  | zero =>
    have := count_le_pendingTotal hc.memory.2.2.2.1.1 p
    rw [h.pend] at this
    exact absurd (this.trans enough) (Nat.not_succ_le_zero 0)
  | succ n ih =>
    obtain ⟨c, hn, now, trigger⟩ := h.nextCapture
    have present : s.atTime c.1 = s := by
      rw [now, State.atTime, h.tau, Nat.max_self, ← h.tau]
    rw [runCaptures, (not_stopped_iff s).2 hf, hn]
    simp only [Bool.false_eq_true, if_false, present]
    by_cases hk : c.2.2 = j
    · rw [hk]
      exact runCaptures_stillKept _ _ _ 0 _ (captureStep_still h hy)
    · obtain ⟨core, running⟩ := (EnvSafe.captureStep c.2.2 s).safe hc hf
      have fewer := captureStep_pendingTotal hc trigger
      exact ih core running (captureStep_awaits hc h trigger hk) (by omega)

theorem settle_still {y : Inst} (hc : s.Core) (hf : s.fault = none) (h : s.Awaits p j tau x word (some tau))
    (hy : enqueueEdge word x = some y) : (settle s).Still p j 0 y.captured := by
  have due : (dueCaptures (s.tau + 1) s).isEmpty = false := by
    rw [List.isEmpty_eq_false_iff]
    exact List.ne_nil_of_mem h.mem_dueCaptures
  have passes : settle s = (runCaptures (pendingTotal s) (tau + 1) s).atTime tau := by
    rw [settle, due, advanceTo, h.inputs, passInputs, (not_stopped_iff s).2 hf, Nat.max_self, h.tau]
    rfl
  have later : StillKept p j (runCaptures (pendingTotal s) (tau + 1) s)
      ((runCaptures (pendingTotal s) (tau + 1) s).atTime tau) := .of_eq
  rw [passes]
  exact later 0 _ (runCaptures_still _ hc hf h hy (Nat.le_refl _))

end

/-! ### The yield portion of a wait -/

/-- Unmasking, with which the yield portion begins, captures what waits for the mask, at the time of the call (R221). -/
theorem unmaskInterrupts_still {s : State} {p j : Nat} {y : Inst} (hc : s.Core) (hf : s.fault = none)
    (him : s.im = true) (hi : s.inputs = []) (hd : s.draws = .ideal) (hq : s.pend p = ⟨1, none⟩)
    (hreg : cellGet s.reg p = some j) (built : s.constructed j = true) (hp : (s.inst j).rxPin = p)
    (enabled : (s.inst j).rxEnabled = true) (hy : enqueueEdge (capturedWord p s) (s.inst j) = some y) :
    (unmaskInterrupts s).Still p j 0 y.captured := by
  have awaits : ({ s with im := false } : State).Awaits p j s.tau (s.inst j) (capturedWord p s) none :=
    ⟨hi, hd, rfl, hq, (triggered_eq_some_iff (s := { s with im := false }) built hp).2
      ⟨hreg, rfl, Nat.le_of_eq (congrArg Pending.count hq).symm, enabled⟩, rfl, rfl⟩
  obtain ⟨core, running⟩ := (EnvSafe.armAll { s with im := false }).safe (hc.congr rfl rfl rfl rfl rfl rfl rfl) hf
  have delivers : unmaskInterrupts s = settle (armAll { s with im := false }) := by
    rw [unmaskInterrupts, tick_masked him hi hd, (not_stopped_iff s).2 hf]
    rfl
  rw [delivers]
  exact settle_still core running (armAll_awaits awaits) hy

/-- Settles O57: the yield portion begins with `unmaskInterrupts_still`, and what follows it, or the whole wait where
there is none, captures nothing more. -/
theorem yieldPortionUnmasks : Obligations.YieldPortionUnmasks := by
  intro s id d p j remaining hc ha hideal hi him outside hd hrem hq hreg built hp enabled
  have h : s.Waiting id := ⟨hc, ha.running, ha.built, outside, hideal.queue⟩
  have quiet : ∀ tEnd u, u.HostWaits → outerHost s tEnd u = u := fun tEnd u hu => outerHost_waits s hu tEnd
  have ticked := tick_masked him hi hideal.draws
  have pos : 0 < cyclesPerMicro s.params := cyclesPerMicro_pos hc.legal
  have micros : wholeMicros d s = remaining.toNat / cyclesPerMicro s.params := by
    rw [wholeMicros, ticked, hrem]
    rfl
  obtain ⟨runs, env⟩ := waitBitCycles_runs quiet h him d
  refine ⟨_, exec_waitBitCycles ha hd, runs.running, env.im.trans him, fun hm le => ?_, fun no => ?_⟩
  · obtain ⟨y, hy, pushes⟩ := hc.enqueues built enabled (capturedWord p s)
    have captured := unmaskInterrupts_still hc ha.running him hi hideal.draws hq hreg built hp enabled hy
    have yields := yieldPortion_stillKept quiet h (wholeMicros d s) (p := p) (j := j)
    rw [unmaskUnlessFound_unmasks hm] at yields
    have whole : 0 < wholeMicros d s := by
      rw [micros]
      exact Nat.div_pos (by omega) pos
    have ends : (waitBitCycles (outerHost s) id d s).Still p j 0 y.captured := by
      rw [waitBitCycles_eq quiet h him, spinStart, decide_eq_true whole, whenever_true, ticked]
      exact spinUntil_stillKept d _ 0 _ (yields 0 _ captured)
    have same := (env.insts j).eq_of_captured (enqueueEdge_capturedTo hy enabled) ends.captured
    exact ⟨ends.count, same ▸ pushes⟩
  · have start : s.Still p j 1 (s.inst j).captured := ⟨hi, hp, congrArg Pending.count hq, rfl, .inl him⟩
    have ends := waitBitCycles_stillKept quiet h him d (p := p) (j := j)
      (no.imp_right fun lt => by rw [micros]; exact Nat.div_eq_of_lt (by omega)) 1 _ start
    exact ⟨ends.count, (env.insts j).eq_of_captured (.refl _) ends.captured⟩

end Sys2Proof.Machine
end

section
/-! # What the facade commands write (44_port_facade.md R244 to R257)

Beside an instance, a facade command writes modes and latches of pins, the pin registry and the attached pins. A
`FacadeView` holds these as the command's own micro-steps have left them, and `State.Facading` says that a state has
them, with everything else as the command has found it but for captures. The environment keeps the view of any
state (`State.Facading.carry`); each step of a command moves it by what the step writes. -/

namespace Sys2Proof.Machine

/-! ### The view -/

/-- `x.rxEnabled <- on`. -/
def setRxEnabled (on : Bool) (x : Inst) : Inst := { x with rxEnabled := on }

/-- What is followed of a facade command: the pins, the registry, the attached pins, the command's own instance, and
which other one it has disabled in order to take its pin over (R253). -/
structure FacadeView where
  pins : List (Nat × Pin)
  reg : List (Nat × Nat)
  attached : List Nat
  own : Inst
  evicted : Option Nat

namespace FacadeView

/-- The view of a state in which a command on instance `id` begins. -/
def start (id : Nat) (s : State) : FacadeView := ⟨s.pins, s.reg, s.attached, s.inst id, none⟩

def setOwn (x : Inst) (g : FacadeView) : FacadeView := { g with own := x }

def pin (g : FacadeView) (p : Nat) : Pin := cellRead Pin.boot g.pins p

def setPin (p : Nat) (v : Pin) (g : FacadeView) : FacadeView := { g with pins := cellWrite Pin.boot g.pins p v }

theorem pin_setPin (p : Nat) (v : Pin) (g : FacadeView) (q : Nat) :
    (g.setPin p v).pin q = if q = p then v else g.pin q := cellRead_cellWrite ..

/-- A latch is written, then the mode of its pin (R247, R254, R257). -/
def drive (p : Nat) (v : Bool) (m : PinMode) (g : FacadeView) : FacadeView :=
  let h := g.setPin p { g.pin p with latch := v }
  h.setPin p { h.pin p with mode := m }

theorem pin_drive (p : Nat) (v : Bool) (m : PinMode) (g : FacadeView) (q : Nat) :
    (g.drive p v m).pin q = if q = p then ⟨m, v⟩ else g.pin q := by
  by_cases h : q = p <;> simp [drive, pin_setPin, h]

/-- The pin is detached and its registry entry removed. -/
def unlink (p : Nat) (g : FacadeView) : FacadeView :=
  { g with attached := g.attached.filter fun q => q ≠ p, reg := cellDel g.reg p }

/-- The pin is attached and registered for instance `id`. -/
def link (p id : Nat) (g : FacadeView) : FacadeView :=
  { g with reg := cellSet g.reg p id, attached := pinInsert g.attached p }

/-- The pin's previous owner, if it is another instance, is replaced (R253). That `evicted` names `id` itself where that
is the owner says nothing of any other instance. -/
def evict (p id : Nat) (g : FacadeView) : FacadeView :=
  { g with
    evicted := cellGet g.reg p
    attached := if (cellGet g.reg p).any (· ≠ id) then g.attached.filter fun q => q ≠ p else g.attached }

/-- Instance `id`, not attached, takes pin `p` over in the idle state (R252, R253). -/
def attach (p id : Nat) (g : FacadeView) : FacadeView :=
  (((g.setPin p { g.pin p with mode := .inputPullup }).evict p id).link p id).setOwn
    (setRxEnabled true (decoderIdle g.own))

/-- Instance `id`, if it owns pin `p`, gives it up (R252). -/
def leave (p id : Nat) (g : FacadeView) : FacadeView :=
  if g.own.rxEnabled = true ∧ cellGet g.reg p = some id then g.unlink p else g

end FacadeView

/-- A facade command on instance `id` that began in `s0` has come to `t`, where the view is `g`. -/
structure State.Facading (s0 : State) (id : Nat) (g : FacadeView) (t : State) : Prop where
  core : t.Core
  runs : s0.RunsTo t
  im : t.im = s0.im
  built : t.constructed id = true
  pending : PendingKept s0 t
  pins : t.pins = g.pins
  reg : t.reg = g.reg
  attached : t.attached = g.attached
  own : g.own.CapturedTo (t.inst id)
  others : ∀ j, j ≠ id → ∃ z, (s0.inst j).CapturedTo z ∧
    t.inst j = if g.evicted = some j then setRxEnabled false z else z

section
variable {s0 : State} {id : Nat} {g : FacadeView} {s t : State}

theorem State.Accepts.facading {s : State} {id : Nat} (ha : s.Accepts id) (hc : s.Core) :
    s.Facading id (.start id s) s where
  core := hc
  runs := ⟨ha.running, rfl, rfl, rfl, rfl, rfl, Nat.le_refl _, rfl⟩
  im := rfl
  built := ha.built
  pending := pendingKept_composes.refl s
  pins := rfl
  reg := rfl
  attached := rfl
  own := .refl _
  others _ _ := ⟨_, .refl _, rfl⟩

/-! ### What is read of a state with the view -/

theorem State.Facading.pin (h : s0.Facading id g t) (q : Nat) : t.pin q = g.pin q := by
  rw [State.pin, h.pins, FacadeView.pin]

/-- A detached instance captures nothing. -/
theorem State.Facading.own_eq (h : s0.Facading id g t) (off : g.own.rxEnabled = false) : t.inst id = g.own :=
  h.own.detached off

/-- No transition waits on a pin that is not attached (60_exceptions.md R290). -/
theorem State.Facading.pend_detached (h : s0.Facading id g t) (h0 : s0.PendingSound) {p : Nat}
    (hp : p ∉ g.attached) : (t.pend p).count = 0 := by
  by_contra hne
  exact hp (h.attached ▸ (h.pending h0).attached p (Nat.one_le_iff_ne_zero.2 hne))

theorem State.Facading.othersCapture (h : s0.Facading id g t) (he : g.evicted = none) :
    State.OthersCapture id s0 t := by
  intro j hj
  obtain ⟨z, hz, e⟩ := h.others j hj
  rw [he, if_neg nofun] at e
  exact e ▸ hz

/-! ### The steps of a command -/

theorem State.Facading.runAll_cons (h : s0.Facading id g s) (f : State → State) (fs : List (State → State)) :
    runAll (f :: fs) s = runAll fs (f s) := runAll_cons_running f fs h.runs.running

/-- The environment moves no view. -/
theorem State.Facading.carry (h : s0.Facading id g s) (m : EnvMove s t) : s0.Facading id g t := by
  obtain ⟨core, running⟩ := m.safe.safe h.core h.runs.running
  have env := m.safe.env
  have runs := h.runs
  refine ⟨core, ⟨running, env.params.trans runs.params, env.ctx.trans runs.ctx, env.issuer.trans runs.issuer,
    env.wires.trans runs.wires, env.hostQueue.trans runs.hostQueue, Nat.le_trans runs.tau env.tau,
    env.keys.trans runs.keys⟩, env.im.trans h.im, (env.constructed id).trans h.built,
    pendingKept_composes.trans h.pending m.pending, env.pins.trans h.pins, env.reg.trans h.reg,
    env.attached.trans h.attached, h.own.trans (env.insts id), fun j hj => ?_⟩
  obtain ⟨z, hz, e⟩ := h.others j hj
  have captured := env.insts j
  by_cases he : g.evicted = some j
  · rw [if_pos he] at e
    exact ⟨z, hz, by rw [if_pos he, captured.detached (by rw [e]; rfl), e]⟩
  · rw [if_neg he] at e
    exact ⟨_, hz.trans (e ▸ captured), (if_neg he).symm⟩

theorem State.Facading.tick (h : s0.Facading id g s) : s0.Facading id g (tick s) := h.carry (.tick s)

/-- A step that writes no instance, and no field the view leaves out but the waiting transitions. -/
theorem State.Facading.update {pins : List (Nat × Pin)} {reg : List (Nat × Nat)} {attached : List Nat}
    (h : s0.Facading id g s) (core : t.Core) (pending : PendingKept s t) (hpins : t.pins = pins) (hreg : t.reg = reg)
    (hattached : t.attached = attached) (hf : t.fault = s.fault := by exact rfl)
    (hp : t.params = s.params := by exact rfl) (hc : t.ctx = s.ctx := by exact rfl)
    (hi : t.issuer = s.issuer := by exact rfl) (hw : t.wires = s.wires := by exact rfl)
    (hq : t.hostQueue = s.hostQueue := by exact rfl) (ht : t.tau = s.tau := by exact rfl)
    (hm : t.im = s.im := by exact rfl) (hinsts : t.insts = s.insts := by exact rfl) :
    s0.Facading id { g with pins := pins, reg := reg, attached := attached } t := by
  have same : ∀ j, t.inst j = s.inst j := fun j => by simp only [State.inst, hinsts]
  have runs := h.runs
  refine ⟨core, ⟨hf.trans runs.running, hp.trans runs.params, hc.trans runs.ctx, hi.trans runs.issuer,
    hw.trans runs.wires, hq.trans runs.hostQueue, ht ▸ runs.tau, by rw [hinsts, runs.keys]⟩, hm.trans h.im,
    by rw [State.constructed, hinsts]; exact h.built, pendingKept_composes.trans h.pending pending, hpins, hreg,
    hattached, same id ▸ h.own, fun j hj => same j ▸ h.others j hj⟩

theorem State.Facading.ret (h : s0.Facading id g s) (r : Result) : s0.Facading id g (s.ret id r) :=
  h.update (h.core.congr rfl rfl rfl rfl rfl rfl rfl) .of_eq h.pins h.reg h.attached

/-- The command returns to the host. -/
theorem State.Facading.returns {f : State → State} (h0 : s.fault = none) (h : s0.Facading id g (f s)) (r : Result) :
    runAll [f, State.ret id r] s = (f s).ret id r := by
  rw [runAll_cons_running _ _ h0, h.runAll_cons, runAll_nil]

/-! Pins -/

theorem State.Facading.writePinLevel (h : s0.Facading id g s) (p : Nat) (v : Bool) :
    s0.Facading id (g.setPin p { g.pin p with latch := v }) (writePinLevel p v s) := by
  have ticked := h.tick
  have written := ticked.update (t := pinWritten p v (Machine.tick s)) (pinWritten_core ticked.core) .of_eq rfl
    ticked.reg ticked.attached
  have calls : Machine.writePinLevel p v s = afterHal (Machine.tick s) (pinWritten p v (Machine.tick s)) :=
    if_neg (by simp [State.stopped, ticked.runs.running])
  rw [calls, FacadeView.setPin, ← ticked.pin, ← ticked.pins]
  exact written.carry (.afterHal _ _)

theorem State.Facading.setPinMode (h : s0.Facading id g s) (p : Nat) (m : PinMode) :
    s0.Facading id (g.setPin p { g.pin p with mode := m }) (setPinMode p m s) := by
  have ticked := h.tick
  have written := ticked.update (t := modeWritten p m (Machine.tick s)) (modeWritten_core ticked.core) .of_eq rfl
    ticked.reg ticked.attached
  have calls : Machine.setPinMode p m s = afterHal (Machine.tick s) (modeWritten p m (Machine.tick s)) :=
    if_neg (by simp [State.stopped, ticked.runs.running])
  rw [calls, FacadeView.setPin, ← ticked.pin, ← ticked.pins]
  exact written.carry (.afterHal _ _)

theorem State.Facading.drive (h : s0.Facading id g s) (p : Nat) (v : Bool) (m : PinMode) :
    s0.Facading id (g.drive p v m) (Machine.setPinMode p m (Machine.writePinLevel p v s)) :=
  (h.writePinLevel p v).setPinMode p m

/-! Registry and attached pins -/

theorem State.Facading.registerPin (h : s0.Facading id g s) (p : Nat) :
    s0.Facading id { g with reg := cellSet g.reg p id } (registerPin p id s) := by
  obtain ⟨-, -, m3, m4, m5, m6, m7⟩ := h.core.memory
  exact h.update (h.core.of_lists rfl rfl m3 m4 (cellSet_rising p id m5) m6 m7) .of_eq h.pins
    (congrArg (cellSet · p id) h.reg) h.attached

theorem State.Facading.unregisterPin (h : s0.Facading id g s) (p : Nat) :
    s0.Facading id { g with reg := cellDel g.reg p } (unregisterPin p s) := by
  obtain ⟨-, -, m3, m4, m5, m6, m7⟩ := h.core.memory
  exact h.update (h.core.of_lists rfl rfl m3 m4 (cellDel_rising p m5) m6 m7) .of_eq h.pins
    (congrArg (cellDel · p) h.reg) h.attached

theorem PendingKept.attach (p : Nat) (s : State) :
    PendingKept s { s with attached := pinInsert s.attached p } := fun h =>
  ⟨fun q hq => (mem_pinInsert _ _ _).2 (.inr (h.attached q hq)), h.coalesced⟩

theorem PendingKept.detach (p : Nat) (s : State) :
    PendingKept s { s.setPend p Pending.clear with attached := s.attached.filter fun q => q ≠ p } := by
  intro h
  have cleared : (s.setPend p Pending.clear).PendingSound := PendingKept.setPend_le (Nat.zero_le _) h
  refine ⟨fun q (hq : 1 ≤ ((s.setPend p Pending.clear).pend q).count) => ?_, cleared.coalesced⟩
  have other : q ≠ p := by
    rintro rfl
    rw [pend_setPend_same] at hq
    exact absurd hq (by decide)
  exact List.mem_filter.2 ⟨cleared.attached q hq, by simpa using other⟩

theorem State.Facading.detachInterrupt (h : s0.Facading id g s) (p : Nat) :
    s0.Facading id { g with attached := g.attached.filter fun q => q ≠ p } (detachInterrupt p s) := by
  obtain ⟨-, calls, core, -⟩ := detachInterrupt_spec p h.core h.runs.running
  rw [calls] at core ⊢
  exact h.tick.update core (.detach p _) h.tick.pins h.tick.reg (by rw [h.tick.attached])

/-- A pin is attached with no transition waiting on it. -/
theorem State.Facading.attachEdgeInterrupt (h : s0.Facading id g s) (p : Nat) :
    s0.Facading id { g with attached := pinInsert g.attached p } (attachEdgeInterrupt p s) ∧
      (s0.PendingSound → p ∉ g.attached → ((attachEdgeInterrupt p s).pend p).count = 0) := by
  obtain ⟨-, calls, core, -⟩ := attachEdgeInterrupt_spec p h.core h.runs.running
  rw [calls] at core ⊢
  exact ⟨h.tick.update core (.attach p _) h.tick.pins h.tick.reg (by rw [h.tick.attached]),
    fun h0 hp => h.tick.pend_detached h0 hp⟩

/-! Instances -/

/-- The command writes registers of its own instance. -/
theorem State.Facading.modInst (h : s0.Facading id g s) (f : Inst → Inst)
    (hinv : (s.inst id).Inv s0.params → (f (s.inst id)).Inv s0.params)
    (hcells : ∀ x, x.cellsWf → (f x).cellsWf := by exact fun _ h => h) :
    s0.Facading id (g.setOwn (f (s.inst id))) (s.modInst id f) where
  core := h.core.modInst id f fun x hx => by
    obtain ⟨hb, rfl⟩ := constructed_of_cellGet hx
    exact ⟨h.runs.params ▸ hinv (h.runs.params ▸ h.core.inst hb), hcells _ (h.core.cells hb)⟩
  runs := { h.runs with keys := (modInst_keys s id f).trans h.runs.keys }
  im := h.im
  built := (constructed_modInst s id f id).trans h.built
  pending := pendingKept_composes.trans h.pending .of_eq
  pins := h.pins
  reg := h.reg
  attached := h.attached
  own := by rw [inst_modInst_same s id f h.built]; exact .refl _
  others j hj := by rw [inst_modInst_other s f hj]; exact h.others j hj

/-- The same where the instance is detached, so that its view is exact. -/
theorem State.Facading.modOwn (h : s0.Facading id g s) (off : g.own.rxEnabled = false) (f : Inst → Inst)
    (hinv : g.own.Inv s0.params → (f g.own).Inv s0.params)
    (hcells : ∀ x, x.cellsWf → (f x).cellsWf := by exact fun _ h => h) :
    s0.Facading id (g.setOwn (f g.own)) (s.modInst id f) := by
  rw [← h.own_eq off] at hinv ⊢
  exact h.modInst f hinv hcells

theorem setRxEnabled_false_inv {p : Params} {x : Inst} (h : x.Inv p) : (setRxEnabled false x).Inv p :=
  { h with enabled_configured := nofun }

theorem setRxEnabled_true_inv {p : Params} {x : Inst} (h : x.Inv p) (hc : x.fstate = .configured)
    (hv : x.rxValid = true) : (setRxEnabled true x).Inv p :=
  { h with enabled_configured := fun _ => ⟨hc, hv⟩ }

/-- Disabling an identifier never constructed changes nothing. -/
theorem inst_disable (s : State) (k : Nat) :
    (s.modInst k (setRxEnabled false)).inst k = setRxEnabled false (s.inst k) := by
  by_cases hb : s.constructed k = true
  · exact inst_modInst_same s k _ hb
  · have hb : s.constructed k = false := by simpa using hb
    rw [modInst_unbuilt _ hb, inst_blank hb]
    rfl

/-- Another instance is disabled. -/
theorem State.Facading.disableOther (h : s0.Facading id g s) (he : g.evicted = none) {other : Nat}
    (hne : other ≠ id) :
    s0.Facading id { g with evicted := some other } (s.modInst other (setRxEnabled false)) where
  core := h.core.modInst_of_inv fun _ hx hc => ⟨setRxEnabled_false_inv hx, hc⟩
  runs := { h.runs with keys := (modInst_keys s other _).trans h.runs.keys }
  im := h.im
  built := (constructed_modInst s other _ id).trans h.built
  pending := pendingKept_composes.trans h.pending .of_eq
  pins := h.pins
  reg := h.reg
  attached := h.attached
  own := by rw [inst_modInst_other s _ hne.symm]; exact h.own
  others j hj := by
    have captured := h.othersCapture he j hj
    by_cases e : other = j
    · subst e
      exact ⟨_, captured, by rw [inst_disable, if_pos rfl]⟩
    · exact ⟨_, captured, by rw [inst_modInst_other s _ (Ne.symm e), if_neg (by simpa using e)]⟩

end

/-! ### Taking a pin over (R253) -/

section
variable {s0 : State} {id : Nat} {g : FacadeView} {s : State} {p : Nat}

theorem evictOwner_none (h : ∀ other, cellGet s.reg p = some other → other = id) : evictOwner p id s = s := by
  unfold evictOwner
  split
  · next other ho => rw [if_pos (h other ho)]
  · rfl

theorem evictOwner_other {other : Nat} (h : cellGet s.reg p = some other) (hne : other ≠ id) :
    evictOwner p id s = runAll [tick, State.modInst other (setRxEnabled false), detachInterrupt p] s := by
  rw [evictOwner, h]
  exact if_neg hne

theorem FacadeView.evict_none (h : ∀ other, cellGet g.reg p = some other → other = id) :
    g.evict p id = { g with evicted := cellGet g.reg p } := by
  have unowned : ¬(cellGet g.reg p).any (· ≠ id) = true := by
    cases ho : cellGet g.reg p with
    | none => exact nofun
    | some other => simp [h other ho]
  rw [evict, if_neg unowned]

theorem FacadeView.evict_other {other : Nat} (h : cellGet g.reg p = some other) (hne : other ≠ id) :
    g.evict p id = { g with evicted := some other, attached := g.attached.filter fun q => q ≠ p } := by
  rw [evict, h, if_pos (by simpa using hne)]

/-- The pin's previous owner is disabled before it loses the pin. -/
theorem State.Facading.evictOwner (h : s0.Facading id g s) (he : g.evicted = none) (p : Nat) :
    s0.Facading id (g.evict p id) (evictOwner p id s) := by
  by_cases hown : ∀ other, cellGet g.reg p = some other → other = id
  · rw [FacadeView.evict_none hown, evictOwner_none (h.reg ▸ hown)]
    refine { h with others := fun j hj => ⟨_, h.othersCapture he j hj, ?_⟩ }
    exact (if_neg fun ho => hj (hown j ho)).symm
  · simp only [not_forall] at hown
    obtain ⟨other, ho, hne⟩ := hown
    have disabled := h.tick.disableOther he hne
    rw [FacadeView.evict_other ho hne, evictOwner_other (h.reg ▸ ho) hne, h.runAll_cons, h.tick.runAll_cons,
      disabled.runAll_cons]
    exact disabled.detachInterrupt p

/-! ### Attaching and detaching the receiver (R252) -/

theorem attachReceiver_detached (off : (s.inst id).rxEnabled = false) (hp : (s.inst id).rxPin = p) :
    attachReceiver id s =
      runAll [State.modInst id decoderIdle, setPinMode p .inputPullup, evictOwner p id, registerPin p id,
        attachEdgeInterrupt p, State.modInst id (setRxEnabled true)] s := by
  subst hp
  exact if_neg (by simp [off])

/-- An instance that is not attached takes its pin over. -/
theorem State.Facading.attachReceiver (h : s0.Facading id g s) (off : g.own.rxEnabled = false)
    (hv : g.own.rxValid = true) (hc : g.own.fstate = .configured) (he : g.evicted = none) (hp : g.own.rxPin = p) :
    s0.Facading id (g.attach p id) (attachReceiver id s) ∧
      (attachReceiver id s).inst id = (g.attach p id).own ∧
      (s0.PendingSound → p ∉ (g.evict p id).attached → ((attachReceiver id s).pend p).count = 0) := by
  have idle := h.modOwn off decoderIdle decoderIdle_inv
  have owned := ((idle.setPinMode p .inputPullup).evictOwner he p).registerPin p
  obtain ⟨linked, quiet⟩ := owned.attachEdgeInterrupt p
  have enabled := linked.modOwn off (setRxEnabled true) fun hi => setRxEnabled_true_inv hi hc hv
  rw [attachReceiver_detached (h.own_eq off ▸ off) (h.own_eq off ▸ hp), h.runAll_cons, idle.runAll_cons,
    (idle.setPinMode p .inputPullup).runAll_cons, ((idle.setPinMode p .inputPullup).evictOwner he p).runAll_cons,
    owned.runAll_cons, linked.runAll_cons]
  refine ⟨enabled, ?_, quiet⟩
  exact (inst_modInst_same _ id _ linked.built).trans (congrArg (setRxEnabled true) (linked.own_eq off))

theorem detachReceiver_eq (hp : (s.inst id).rxPin = p) :
    detachReceiver id s =
      runAll [whenever (decide ((s.inst id).rxEnabled = true ∧ cellGet s.reg p = some id))
        (runAll [detachInterrupt p, unregisterPin p]), State.modInst id (setRxEnabled false)] s := by
  subst hp
  rfl

theorem Inst.CapturedTo.rxPin {x y : Inst} (h : x.CapturedTo y) : y.rxPin = x.rxPin := by rw [h.rest]

theorem Inst.CapturedTo.rxEnabled {x y : Inst} (h : x.CapturedTo y) : y.rxEnabled = x.rxEnabled := by rw [h.rest]

theorem FacadeView.leave_own : (g.leave p id).own = g.own := by
  unfold leave
  split <;> rfl

/-- The steps of ENABLE_RX(false) that depend on the registry. -/
theorem State.Facading.leave (h : s0.Facading id g s) (p : Nat) :
    s0.Facading id (g.leave p id) (whenever (decide ((s.inst id).rxEnabled = true ∧ cellGet s.reg p = some id))
      (runAll [Machine.detachInterrupt p, Machine.unregisterPin p]) s) := by
  rw [h.own.rxEnabled, h.reg, FacadeView.leave]
  split
  · next on =>
    rw [decide_eq_true on, whenever_true, h.runAll_cons, (h.detachInterrupt p).runAll_cons]
    exact (h.detachInterrupt p).unregisterPin p
  · next off => exact decide_eq_false off ▸ h

/-- ENABLE_RX(false) on an instance that can receive and is configured. -/
theorem State.Facading.detachReceiver (h : s0.Facading id g s) (hp : g.own.rxPin = p) :
    ∃ z, g.own.CapturedTo z ∧
      s0.Facading id ((g.leave p id).setOwn (setRxEnabled false z)) (detachReceiver id s) := by
  have left := h.leave p
  refine ⟨_, FacadeView.leave_own ▸ left.own, ?_⟩
  rw [detachReceiver_eq (h.own.rxPin.trans hp), h.runAll_cons, left.runAll_cons, runAll_nil]
  exact left.modInst (setRxEnabled false) setRxEnabled_false_inv

/-- A receiver that is not attached has no part in the registry to give up. -/
theorem FacadeView.leave_off (off : g.own.rxEnabled = false) : g.leave p id = g := if_neg (by simp [off])

theorem enableRx_none (on : Bool) (h : (s.inst id).rxValid = false ∨ (s.inst id).fstate ≠ .configured) :
    enableRx id on s = s := if_pos h

theorem enableRx_true (hv : (s.inst id).rxValid = true) (hc : (s.inst id).fstate = .configured) :
    enableRx id true s = attachReceiver id s := if_neg (by simp [hv, hc])

theorem enableRx_false (hv : (s.inst id).rxValid = true) (hc : (s.inst id).fstate = .configured) :
    enableRx id false s = detachReceiver id s := if_neg (by simp [hv, hc])

/-- Only a configured instance that can receive is attached (R240). -/
theorem detached_of_unable {params : Params} {x : Inst} (h : x.Inv params)
    (unable : x.rxValid = false ∨ x.fstate ≠ .configured) : x.rxEnabled = false := by
  by_contra on
  obtain ⟨hc, hv⟩ := h.enabled_configured (by simpa using on)
  rcases unable with disabled | unconfigured
  · rw [hv] at disabled
    cases disabled
  · exact unconfigured hc

/-- ENABLE_RX(false) leaves the instance detached, and gives its pin up where it owns it. -/
theorem State.Facading.disableRx (h : s0.Facading id g s) (hp : g.own.rxPin = p) :
    ∃ z, g.own.CapturedTo z ∧
      s0.Facading id ((g.leave p id).setOwn (setRxEnabled false z)) (enableRx id false s) := by
  by_cases hr : (s.inst id).rxValid = false ∨ (s.inst id).fstate ≠ .configured
  · have off := detached_of_unable (h.core.inst h.built) hr
    have same : setRxEnabled false (s.inst id) = s.inst id := by rw [setRxEnabled, ← off]
    refine ⟨_, h.own, ?_⟩
    rw [enableRx_none false hr, FacadeView.leave_off (h.own.rxEnabled ▸ off), same]
    exact { h with own := .refl _ }
  · simp only [not_or, Bool.not_eq_false, not_not] at hr
    rw [enableRx_false hr.1 hr.2]
    exact h.detachReceiver hp

end

end Sys2Proof.Machine
end

section
/-! # ENABLE_RX, STOP and DESTRUCT (44_port_facade.md R250 to R253)

Where these commands have an effect, the view that `State.Facading.attachReceiver` or `State.Facading.disableRx` ends
with says all of it; what is left is to read the view. -/

namespace Sys2Proof.Machine

/-! ### What the view says of the registry -/

/-- Two views differ in registry and attachment at pin `p` only. -/
def FacadeView.SameLinks (p : Nat) (g g' : FacadeView) : Prop :=
  ∀ q, q ≠ p → cellGet g'.reg q = cellGet g.reg q ∧ (q ∈ g'.attached ↔ q ∈ g.attached)

/-- Pin `p` is attached, if it is, for another instance than `id`. -/
def FacadeView.Free (p id : Nat) (g : FacadeView) : Prop :=
  p ∈ g.attached → ∃ other, other ≠ id ∧ cellGet g.reg p = some other

section
variable {g g' : FacadeView} {p id : Nat}

theorem FacadeView.SameLinks.trans {g'' : FacadeView} (h1 : g.SameLinks p g') (h2 : g'.SameLinks p g'') :
    g.SameLinks p g'' := fun q hq => ⟨(h2 q hq).1.trans (h1 q hq).1, (h2 q hq).2.trans (h1 q hq).2⟩

theorem FacadeView.sameLinks_unlink : g.SameLinks p (g.unlink p) := fun q hq =>
  ⟨(cellGet_cellDel ..).trans (if_neg hq), by simp [unlink, hq]⟩

theorem FacadeView.sameLinks_leave : g.SameLinks p (g.leave p id) := by
  unfold leave
  split
  · exact sameLinks_unlink
  · exact fun _ _ => ⟨rfl, .rfl⟩

theorem FacadeView.sameLinks_attach : g.SameLinks p (g.attach p id) := fun q hq => by
  refine ⟨cellGet_cellSet_other _ _ hq, (mem_pinInsert ..).trans ?_⟩
  rw [or_iff_right hq, evict]
  split <;> simp [hq, setPin]

theorem FacadeView.pin_leave (q : Nat) : (g.leave p id).pin q = g.pin q := by
  unfold leave
  split <;> rfl

theorem FacadeView.leave_evicted : (g.leave p id).evicted = g.evicted := by
  unfold leave
  split <;> rfl

/-- Giving its pin up takes no pin from another instance. -/
theorem FacadeView.leave_owner {j : Nat} (hj : j ≠ id) :
    cellGet (g.leave p id).reg p = some j ↔ cellGet g.reg p = some j := by
  unfold leave
  split
  · next own => simp [unlink, cellGet_cellDel, own.2, hj.symm]
  · exact .rfl

theorem FacadeView.leave_owned (on : g.own.rxEnabled = true) (owns : cellGet g.reg p = some id) :
    g.leave p id = g.unlink p := if_pos ⟨on, owns⟩

theorem FacadeView.pin_attach (q : Nat) :
    (g.attach p id).pin q = if q = p then ⟨.inputPullup, (g.pin p).latch⟩ else g.pin q :=
  pin_setPin p { g.pin p with mode := .inputPullup } g q

/-- The eviction leaves no attachment of the pin behind. -/
theorem FacadeView.Free.evicted (h : g.Free p id) : p ∉ (g.evict p id).attached := by
  unfold evict
  intro hp
  split at hp
  · simp at hp
  · next unowned =>
    obtain ⟨other, hne, ho⟩ := h hp
    exact unowned (by simp [ho, hne])

end

section
variable {s0 s t : State} {id p : Nat} {g : FacadeView}

theorem State.Facading.sameRegistry (h : s0.Facading id g t) (hl : (FacadeView.start id s0).SameLinks p g) :
    State.SameRegistry p s0 t := fun q hq => by
  rw [h.reg, h.attached]
  exact hl q hq

/-- What a view says in which the pin is unlinked. -/
theorem State.Facading.unlinked {g0 : FacadeView} (h : s0.Facading id g t) (hr : g.reg = (g0.unlink p).reg)
    (ha : g.attached = (g0.unlink p).attached) : cellGet t.reg p = none ∧ p ∉ t.attached := by
  rw [h.reg, h.attached, hr, ha, FacadeView.unlink, cellGet_cellDel]
  simp

theorem State.Facading.attach_owner (h : s0.Facading id (g.attach p id) t) : cellGet t.reg p = some id := by
  rw [h.reg]
  exact cellGet_cellSet_same ..

theorem State.Facading.attach_attached (h : s0.Facading id (g.attach p id) t) : p ∈ t.attached := by
  rw [h.attached]
  exact (mem_pinInsert ..).2 (.inl rfl)

/-- Of the other instances only the pin's owner is disabled (R253). -/
theorem State.Facading.othersEvict (h : s0.Facading id (g.attach p id) t)
    (ho : ∀ j, j ≠ id → (cellGet g.reg p = some j ↔ cellGet s0.reg p = some j)) :
    State.OthersEvict p id s0 t := by
  intro j hj
  obtain ⟨z, hz, e⟩ := h.others j hj
  exact ⟨z, hz, e.trans (if_congr (ho j hj) rfl rfl)⟩

/-- An enabled receiver owns its pin (R253). -/
theorem State.Inv.owns (h : s.Inv) (built : s.constructed id = true) (on : (s.inst id).rxEnabled = true) :
    cellGet s.reg (s.inst id).rxPin = some id := h.registry.owned id built on

/-- Once its own instance has given it up, the pin is attached for another instance at most. -/
theorem State.Inv.leave_free (h : s.Inv) (built : s.constructed id = true) :
    ((FacadeView.start id s).leave (s.inst id).rxPin id).Free (s.inst id).rxPin id := by
  intro hp
  by_cases on : (s.inst id).rxEnabled = true
  · rw [FacadeView.leave_owned on (h.owns built on)] at hp
    simp [FacadeView.unlink] at hp
  · rw [FacadeView.leave_off (Bool.eq_false_iff.2 on)] at hp ⊢
    obtain ⟨other, ho⟩ := Option.isSome_iff_exists.1 ((h.registry.attached _).1 hp)
    refine ⟨other, ?_, ho⟩
    rintro rfl
    exact on (h.registry.owner _ _ ho).2.2

end

/-! ### ENABLE_RX(true) -/

section
variable {s : State} {id : Nat} {f : State → State}

/-- A facade command that the entry checks accept runs its steps and returns. -/
theorem hostOperation_returns {g : FacadeView} (ha : s.Accepts id) (h : s.Facading id g (f s)) :
    hostOperation id (runAll [f, State.ret id .nothing]) s = .next ((f s).ret id .nothing) := by
  rw [hostOperation_accepts ha, h.returns ha.running]

/-- One without effect only returns. -/
theorem hostOperation_returns_unchanged (ha : s.Accepts id) (h : f s = s) :
    hostOperation id (runAll [f, State.ret id .nothing]) s = .next (s.ret id .nothing) := by
  rw [hostOperation_accepts ha, runAll_cons_running _ _ ha.running, h, runAll_cons_running _ _ ha.running, runAll_nil]

/-- An instance that is attached already stays attached. -/
theorem attachReceiver_attached (on : (s.inst id).rxEnabled = true)
    (owns : cellGet s.reg (s.inst id).rxPin = some id) : attachReceiver id s = s := if_pos ⟨on, owns⟩

end

/-- Settles O47: the instance is detached when it takes its pin over, so that it has captured nothing since. -/
theorem enableRxAttaches : Obligations.EnableRxAttaches := by
  rintro s id x hi ha rfl
  refine ⟨fun none => hostOperation_returns_unchanged ha ?_, fun hv hc off => ?_⟩
  · by_cases able : (s.inst id).rxValid = false ∨ (s.inst id).fstate ≠ .configured
    · exact enableRx_none true able
    · have on := (or_assoc.2 none).resolve_left able
      simp only [not_or, Bool.not_eq_false, not_not] at able
      rw [enableRx_true able.1 able.2, attachReceiver_attached on (hi.owns ha.built on)]
  · obtain ⟨h, own, quiet⟩ := (ha.facading hi.core).attachReceiver (p := (s.inst id).rxPin) off hv hc rfl rfl
    have free := hi.leave_free ha.built
    rw [FacadeView.leave_off off] at free
    rw [← enableRx_true hv hc] at h own quiet
    refine ⟨_, hostOperation_returns ha h, (h.ret _).runs, rfl, h.im, own, ?_, fun q hq => ?_, h.attach_owner,
      h.attach_attached, quiet ((registry_iff s).1 hi.registry).2 free.evicted,
      h.sameRegistry FacadeView.sameLinks_attach, h.othersEvict fun _ _ => .rfl⟩
    · exact (h.pin _).trans ((FacadeView.pin_attach _).trans (if_pos rfl))
    · exact (h.pin q).trans ((FacadeView.pin_attach q).trans (if_neg (by simpa using hq)))

/-! ### ENABLE_RX(false), STOP, DESTRUCT -/

/-- ENABLE_RX(false) writes nothing of a state in which the instance is detached (R252). -/
theorem enableRx_false_detached {s : State} {id : Nat} (built : s.constructed id = true)
    (off : (s.inst id).rxEnabled = false) (running : s.fault = none) :
    State.Sets id (s.inst id) s (enableRx id false s) := by
  by_cases able : (s.inst id).rxValid = false ∨ (s.inst id).fstate ≠ .configured
  · rw [enableRx_none false able]
    exact ⟨rfl, rfl, fun _ _ => rfl, rfl⟩
  · simp only [not_or, Bool.not_eq_false, not_not] at able
    have same : setRxEnabled false (s.inst id) = s.inst id := by rw [setRxEnabled, ← off]
    have sets := modInst_sets_apply (setRxEnabled false) built
    rw [enableRx_false able.1 able.2, detachReceiver_eq rfl, runAll_cons_running _ _ running,
      decide_eq_false (by simp [off]), whenever_false, runAll_cons_running _ _ running, runAll_nil]
    exact same ▸ sets

/-- Settles O48: STOP runs the very steps of ENABLE_RX(false), and their view has the pin unlinked. -/
theorem stopDetaches : Obligations.StopDetaches := by
  rintro s id x hi ha rfl
  obtain ⟨z, hz, h⟩ := (ha.facading hi.core).disableRx (p := (s.inst id).rxPin) rfl
  have runs := hostOperation_returns ha h
  refine ⟨rfl, fun off => ⟨_, runs, _, enableRx_false_detached ha.built off ha.running, rfl⟩, fun on => ?_⟩
  have unlinked := FacadeView.leave_owned (g := .start id s) on (hi.owns ha.built on)
  rw [unlinked] at h
  obtain ⟨unowned, unattached⟩ := h.unlinked rfl rfl
  exact ⟨_, z, runs, (h.ret _).runs, rfl, h.im, h.pins, hz, h.own_eq rfl, unowned, unattached,
    h.pend_detached ((registry_iff s).1 hi.registry).2 (h.attached ▸ unattached),
    h.sameRegistry FacadeView.sameLinks_unlink, h.othersCapture rfl⟩

/-- `s.fstate <- TornDown`. -/
def tearDown (x : Inst) : Inst := { x with fstate := .tornDown }

/-- Settles O49: the facade state is written after the steps of ENABLE_RX(false). -/
theorem destructTearsDown : Obligations.DestructTearsDown := by
  intro s id hi ha
  obtain ⟨z, -, h⟩ := (ha.facading hi.core).disableRx rfl
  have torn := modInst_sets_apply tearDown h.built
  refine ⟨((enableRx id false s).modInst id tearDown).ret id .nothing, _, hostOperation_returns ha h,
    (hostOperation_accepts ha _).trans (congrArg _ ?_), h.runs.running, rfl, torn.inst, torn.others, torn.keys⟩
  rw [runAll_cons_running _ _ ha.running, h.runAll_cons]
  exact runAll_cons_running _ _ h.runs.running

end Sys2Proof.Machine
end

section
/-! # START (44_port_facade.md R244 to R248)

START detaches the receiver, restarts and configures the instance with the transmit pin idle, and attaches the receiver
again. From the first of these on the instance captures nothing, so that the view stays exact to the end. -/

namespace Sys2Proof.Machine

/-! ### The bit period (R245) -/

theorem bitPeriodOf_eq_zero (p : Params) {baud : Int} (h : baud ≤ 0 ∨ p.fHz < baud) : bitPeriodOf p baud = 0 := by
  unfold bitPeriodOf
  split
  · rfl
  · exact Nat.div_eq_of_lt (by omega)

theorem bitPeriodOf_eq_div (p : Params) {baud : Int} (h : 0 < baud) : bitPeriodOf p baud = p.fHz / baud.toNat :=
  if_neg (by omega)

theorem bitPeriodOf_pos (p : Params) {baud : Int} (h : 0 < baud) (hle : baud ≤ p.fHz) : 0 < bitPeriodOf p baud := by
  rw [bitPeriodOf_eq_div p h]
  exact Nat.div_pos (by omega) (by omega)

theorem start_badBaud {s : State} {id : Nat} {baud : Int} (h : bitPeriodOf s.params baud = 0) :
    start id baud s = s.raise .badBaud := if_pos h

/-! ### Up to `fstate <- Configured` -/

/-- `s.fstate <- Configured`. -/
def setConfigured (x : Inst) : Inst := { x with fstate := .configured }

/-- The instance when START has configured it and has not yet attached its receiver. -/
def startedInst (period : Nat) (x : Inst) : Inst := setConfigured (restartInst period (setRxEnabled false x))

/-- The transmit pin of a two-pin port drives the idle level (R247). -/
def FacadeView.driveIdle (x : Inst) (g : FacadeView) : FacadeView :=
  { g with
    pins := if x.txValid && !x.oneWire then (g.drive x.txPin (pinLevelOf x.invert true) .output).pins else g.pins }

/-- The view when START has configured the instance, which has come to `z` before it was detached. -/
def FacadeView.started (id period : Nat) (s : State) (z : Inst) : FacadeView :=
  (((FacadeView.start id s).leave (s.inst id).rxPin id).driveIdle (s.inst id)).setOwn (startedInst period z)

theorem setConfigured_inv {p : Params} {x : Inst} (h : x.Inv p) (hB : 1 ≤ x.bitPeriod) (off : x.rxEnabled = false) :
    (setConfigured x).Inv p :=
  { h with
    period_configured := fun _ => hB
    enabled_configured := fun on => by rw [show x.rxEnabled = true from on] at off; cases off }

section
variable {s0 s : State} {id : Nat} {g : FacadeView}

theorem State.Facading.driveIdle (h : s0.Facading id g s) (x : Inst) :
    s0.Facading id (g.driveIdle x) (whenever (x.txValid && !x.oneWire)
      (runAll [Machine.writePinLevel x.txPin (pinLevelOf x.invert true), Machine.setPinMode x.txPin .output]) s) := by
  unfold FacadeView.driveIdle
  cases x.txValid && !x.oneWire
  · exact h
  · rw [if_pos rfl, whenever_true, h.runAll_cons, (h.writePinLevel _ _).runAll_cons, runAll_nil]
    exact h.drive x.txPin (pinLevelOf x.invert true) .output

/-- START asks whether the instance is configured before ENABLE_RX does. -/
theorem whenever_configured_enableRx (on : Bool) :
    whenever (decide ((s.inst id).fstate = .configured)) (enableRx id on) s = enableRx id on s := by
  by_cases hc : (s.inst id).fstate = .configured
  · rw [decide_eq_true hc, whenever_true]
  · rw [decide_eq_false hc, whenever_false, enableRx_none on (.inr hc)]

end

section
variable {s : State} {id : Nat} {baud : Int}

/-- START up to the last but two of its steps. -/
theorem start_configures (hc : s.Core) (ha : s.Accepts id) (hpos : 0 < bitPeriodOf s.params baud) :
    ∃ z u, (s.inst id).CapturedTo z ∧ s.Facading id (.started id (bitPeriodOf s.params baud) s z) u ∧
      start id baud s = runAll [whenever (s.inst id).rxValid (enableRx id true), State.ret id .nothing] u := by
  obtain ⟨z, hz, detached⟩ := (ha.facading hc).disableRx (p := (s.inst id).rxPin) rfl
  have restarted := detached.tick.modOwn rfl (restartInst (bitPeriodOf s.params baud)) fun hi =>
    restartInst_inv hi (bitPeriodOf_le _ _) hpos.ne'
  have driven := restarted.driveIdle (s.inst id)
  have configured := driven.modOwn rfl setConfigured fun hi => setConfigured_inv hi hpos rfl
  refine ⟨z, _, hz, configured, ?_⟩
  refine (if_neg hpos.ne').trans ?_
  rw [runAll_cons_running _ _ ha.running, whenever_configured_enableRx, detached.runAll_cons, detached.tick.runAll_cons,
    restarted.runAll_cons]
  exact driven.runAll_cons _ _

/-- START of an instance that cannot receive. -/
theorem start_disabled (hc : s.Core) (ha : s.Accepts id) (hpos : 0 < bitPeriodOf s.params baud)
    (hv : (s.inst id).rxValid = false) :
    ∃ z u, (s.inst id).CapturedTo z ∧ s.Facading id (.started id (bitPeriodOf s.params baud) s z) u ∧
      start id baud s = u.ret id .nothing := by
  obtain ⟨z, u, hz, h, runs⟩ := start_configures hc ha hpos
  refine ⟨z, u, hz, h, runs.trans ?_⟩
  rw [hv, h.runAll_cons]
  exact h.runAll_cons _ _

/-- START of one that can. -/
theorem start_attaches (hc : s.Core) (ha : s.Accepts id) (hpos : 0 < bitPeriodOf s.params baud)
    (hv : (s.inst id).rxValid = true) :
    ∃ z u g, (s.inst id).CapturedTo z ∧ g = FacadeView.started id (bitPeriodOf s.params baud) s z ∧
      s.Facading id (g.attach (s.inst id).rxPin id) u ∧ u.inst id = (g.attach (s.inst id).rxPin id).own ∧
      (s.PendingSound → g.Free (s.inst id).rxPin id → (u.pend (s.inst id).rxPin).count = 0) ∧
      start id baud s = u.ret id .nothing := by
  obtain ⟨z, u, hz, h, runs⟩ := start_configures hc ha hpos
  have own := h.own_eq rfl
  have valid : z.rxValid = true := by rw [hz.rest]; exact hv
  obtain ⟨attached, same, quiet⟩ := h.attachReceiver rfl valid rfl FacadeView.leave_evicted hz.rxPin
  refine ⟨z, _, _, hz, rfl, attached, same, fun h0 free => quiet h0 free.evicted, runs.trans ?_⟩
  rw [hv, h.runAll_cons, whenever_true, enableRx_true (own ▸ valid) (own ▸ rfl)]
  exact attached.runAll_cons _ _

end

/-! ### The whole effect -/

theorem setRxEnabled_startedInst {x z : Inst} (hz : x.CapturedTo z) (period : Nat) (on : Bool) :
    setRxEnabled on (startedInst period z) =
      { x with
        fstate := .configured, bitPeriod := period, inE := 0, outE := 0, inB := 0, outB := 0, edgeOvf := false,
        byteOvf := false, curBit := 8, curByte := 0#8, rxEnabled := on, edges := z.edges } := by
  rw [hz.rest]
  rfl

/-- A two-pin port's transmit pin, and no other. -/
def Inst.idlePins (x : Inst) : List Nat := if x.txValid && !x.oneWire then [x.txPin] else []

theorem FacadeView.pin_driveIdle (x : Inst) (g : FacadeView) (q : Nat) :
    (g.driveIdle x).pin q = if q ∈ x.idlePins then ⟨.output, !x.invert⟩ else g.pin q := by
  have driven := pin_drive x.txPin (pinLevelOf x.invert true) .output g q
  unfold driveIdle Inst.idlePins
  cases x.txValid && !x.oneWire
  · rfl
  · exact driven.trans (if_congr (by simp) (by simp [pinLevelOf]) rfl)

theorem FacadeView.pin_started (id period : Nat) (s : State) (z : Inst) (q : Nat) :
    (started id period s z).pin q =
      if q ∈ (s.inst id).idlePins then ⟨.output, !(s.inst id).invert⟩ else s.pin q :=
  (pin_driveIdle ..).trans (if_congr .rfl rfl (pin_leave q))

/-- Settles O45: the bit period is 0 just where the rule refuses the baud rate, and START keeps what it has written. -/
theorem startBitPeriod : Obligations.StartBitPeriod := by
  intro s id baud hc ha
  have runs := hostOperation_accepts ha (start id baud)
  refine ⟨fun bad => runs.trans (congrArg _ (start_badBaud (bitPeriodOf_eq_zero _ bad))), fun hpos hle => ?_⟩
  have period := bitPeriodOf_pos s.params hpos hle
  have quotient : ((bitPeriodOf s.params baud : Nat) : Int) = (s.params.fHz : Int) / baud := by
    rw [bitPeriodOf_eq_div _ hpos, Int.natCast_div, Int.toNat_of_nonneg hpos.le]
  suffices ∃ t, start id baud s = t ∧ t.fault = none ∧ (t.inst id).bitPeriod = bitPeriodOf s.params baud by
    obtain ⟨t, starts, running, hB⟩ := this
    exact ⟨t, runs.trans (congrArg _ starts), running, by rw [hB]; exact period, by rw [hB, quotient]⟩
  cases hv : (s.inst id).rxValid
  · obtain ⟨z, u, -, h, starts⟩ := start_disabled hc ha period hv
    exact ⟨_, starts, h.runs.running, congrArg Inst.bitPeriod (h.own_eq rfl)⟩
  · obtain ⟨z, u, g, -, rfl, h, own, -, starts⟩ := start_attaches hc ha period hv
    exact ⟨_, starts, h.runs.running, congrArg Inst.bitPeriod own⟩

/-- Settles O46: the view that START ends with, read with and without a receiver. -/
theorem startConfigures : Obligations.StartConfigures := by
  rintro s id baud x hi ha rfl hpos hle
  have runs := hostOperation_accepts ha (start id baud)
  have period := bitPeriodOf_pos s.params hpos hle
  have drives (htx : (s.inst id).txValid = true) (two : (s.inst id).oneWire = false) :
      (s.inst id).txPin ∈ (s.inst id).idlePins := by simp [Inst.idlePins, htx, two]
  rw [← bitPeriodOf_eq_div s.params hpos]
  cases hv : (s.inst id).rxValid
  · have off : (s.inst id).rxEnabled = false := detached_of_unable (hi.core.inst ha.built) (.inl hv)
    obtain ⟨z, u, hz, h, starts⟩ := start_disabled hi.core ha period hv
    have links := FacadeView.leave_off (g := .start id s) (p := (s.inst id).rxPin) (id := id) off
    have own := (h.own_eq rfl).trans (setRxEnabled_startedInst hz (bitPeriodOf s.params baud) false)
    refine ⟨_, runs.trans (congrArg _ starts), (h.ret _).runs, rfl, h.im, ?_, fun htx two => ?_, nofun, fun _ => ?_,
      fun q hq => ?_, h.sameRegistry FacadeView.sameLinks_leave, nofun,
      fun _ => h.othersCapture FacadeView.leave_evicted⟩
    · rw [ret_inst, own, hv]
    · exact (h.pin _).trans ((FacadeView.pin_started ..).trans (if_pos (drives htx two)))
    · exact ⟨h.reg.trans (congrArg FacadeView.reg links), h.attached.trans (congrArg FacadeView.attached links)⟩
    · exact (h.pin q).trans ((FacadeView.pin_started ..).trans (if_neg fun hm => hq (List.mem_append_left _ hm)))
  · obtain ⟨z, u, g, hz, rfl, h, same, quiet, starts⟩ := start_attaches hi.core ha period hv
    have own := same.trans (setRxEnabled_startedInst hz (bitPeriodOf s.params baud) true)
    have apart : (s.inst id).rxPin ∉ (s.inst id).idlePins := fun hp => by
      simp only [Inst.idlePins, (hi.core.inst ha.built).oneWire_iff] at hp
      split at hp <;> simp_all
    refine ⟨_, runs.trans (congrArg _ starts), (h.ret _).runs, rfl, h.im, ?_, fun htx two => ?_, fun _ => ⟨?_,
      h.attach_owner, h.attach_attached, quiet ((registry_iff s).1 hi.registry).2 (hi.leave_free ha.built)⟩, nofun,
      fun q hq => ?_, h.sameRegistry (FacadeView.sameLinks_leave.trans FacadeView.sameLinks_attach),
      fun _ => h.othersEvict fun _ => FacadeView.leave_owner, nofun⟩
    · rw [ret_inst, own, hv]
    · have other : (s.inst id).txPin ≠ (s.inst id).rxPin := fun e => apart (e ▸ drives htx two)
      exact (h.pin _).trans ((FacadeView.pin_attach _).trans ((if_neg other).trans
        ((FacadeView.pin_started ..).trans (if_pos (drives htx two)))))
    · refine (h.pin _).trans ((FacadeView.pin_attach _).trans ((if_pos rfl).trans ?_))
      rw [FacadeView.pin_started, if_neg apart]
    · obtain ⟨hidle, hrx⟩ := not_or.1 (mt List.mem_append.2 hq)
      exact (h.pin q).trans ((FacadeView.pin_attach q).trans ((if_neg (by simpa using hrx)).trans
        ((FacadeView.pin_started ..).trans (if_neg hidle))))

end Sys2Proof.Machine
end

section
/-! # ENABLE_TX and SET_TX_ENABLE_PIN (44_port_facade.md R254 to R257) -/

namespace Sys2Proof.Machine

section
variable {s : State} {id : Nat}

theorem enableTx_none (on : Bool)
    (h : (s.inst id).oneWire = false ∨ (s.inst id).txValid = false ∨ (s.inst id).fstate ≠ .configured) :
    enableTx id on s = s := if_pos h

variable (one : (s.inst id).oneWire = true) (htx : (s.inst id).txValid = true)
  (hc : (s.inst id).fstate = .configured)
include one htx hc

theorem enableTx_true :
    enableTx id true s =
      runAll [enableRx id false, writePinLevel (s.inst id).txPin (pinLevelOf (s.inst id).invert true),
        setPinMode (s.inst id).txPin .output] s := if_neg (by simp [one, htx, hc])

theorem enableTx_false :
    enableTx id false s =
      runAll [writePinLevel (s.inst id).txPin (pinLevelOf (s.inst id).invert true),
        setPinMode (s.inst id).txPin .inputPullup, enableRx id true] s := if_neg (by simp [one, htx, hc])

end

section
variable {s0 s : State} {id : Nat} {g : FacadeView}

/-- The pins of a state in whose view one pin has been driven last. -/
theorem State.Facading.drive_pin {p : Nat} {v : Bool} {m : PinMode} (h : s0.Facading id g s) {g0 : FacadeView}
    (hg : g.pin = (g0.drive p v m).pin) (h0 : g0.pin = s0.pin) : s.pin p = ⟨m, v⟩ ∧ State.SamePins [p] s0 s := by
  have driven (q : Nat) : s.pin q = if q = p then ⟨m, v⟩ else s0.pin q := by
    rw [h.pin, hg, FacadeView.pin_drive, h0]
  exact ⟨(driven p).trans (if_pos rfl), fun q hq => (driven q).trans (if_neg (by simpa using hq))⟩

end

/-- Settles O51: the registers are written before the pin is driven, and captures write neither. -/
theorem setTxEnablePinEffect : Obligations.SetTxEnablePinEffect := by
  intro s id pin hc ha
  refine ⟨fun hp => ?_, fun hp => ?_⟩
  · have valid : pinValid s.params pin = true := by simpa [pinValid] using hp
    have named := (ha.facading hc).modInst (fun y => { y with txEnablePin := pin, txEnableValid := true })
      fun hi => { hi with txEnable_valid := fun _ => valid }
    have h := named.drive pin false .output
    obtain ⟨driven, others⟩ := h.drive_pin rfl rfl
    have runs : setTxEnablePin id pin s = _ := (if_pos valid).trans ((runAll_cons_running _ _ ha.running).trans
      ((named.runAll_cons _ _).trans ((named.writePinLevel pin false).runAll_cons _ _)))
    rw [runAll_nil] at runs
    rw [← runs] at h driven others
    exact ⟨_, hostOperation_returns ha h, (h.ret _).runs, rfl, h.im, h.reg, h.attached, driven, others, h.own,
      h.othersCapture rfl⟩
  · have invalid : ¬pinValid s.params pin = true := by simpa [pinValid] using hp
    have runs : setTxEnablePin id pin s = s.modInst id fun y => { y with txEnableValid := false } := if_neg invalid
    refine ⟨_, ?_, modInst_ret_returns (fun y => { y with txEnableValid := false }) ha.built .nothing⟩
    refine (hostOperation_accepts ha _).trans (congrArg _ ?_)
    rw [runAll_cons_running _ _ ha.running, runs]
    exact runAll_cons_running _ _ ha.running

/-! ### ENABLE_TX of a one-wire port -/

/-- The view when ENABLE_TX(false) has released the line. -/
def FacadeView.released (id : Nat) (s : State) : FacadeView :=
  (FacadeView.start id s).drive (s.inst id).txPin (pinLevelOf (s.inst id).invert true) .inputPullup

section
variable {s : State} {id : Nat} (hi : s.Inv) (ha : s.Accepts id) (one : (s.inst id).oneWire = true)
  (htx : (s.inst id).txValid = true) (hcfg : (s.inst id).fstate = .configured)
include hi ha one htx hcfg

omit htx hcfg in
/-- The receiver's pin is the transmit pin (10_state.md R22). -/
theorem State.Inv.oneWire_pin : (s.inst id).rxPin = (s.inst id).txPin := by
  simpa [(hi.core.inst ha.built).oneWire_iff] using one

/-- ENABLE_TX(true) detaches the receiver and drives the line idle (R254). -/
theorem enableTx_true_facading :
    ∃ z, (s.inst id).CapturedTo z ∧
      s.Facading id
        ((((FacadeView.start id s).leave (s.inst id).txPin id).setOwn (setRxEnabled false z)).drive (s.inst id).txPin
          (pinLevelOf (s.inst id).invert true) .output)
        (enableTx id true s) := by
  obtain ⟨z, hz, detached⟩ := (ha.facading hi.core).disableRx (p := (s.inst id).txPin) (hi.oneWire_pin ha one)
  refine ⟨z, hz, ?_⟩
  rw [enableTx_true one htx hcfg, runAll_cons_running _ _ ha.running, detached.runAll_cons,
    (detached.writePinLevel _ _).runAll_cons, runAll_nil]
  exact detached.drive ..

/-- ENABLE_TX(false) releases the line, and what follows is ENABLE_RX(true). -/
theorem enableTx_false_releases :
    ∃ u, s.Facading id (.released id s) u ∧ enableTx id false s = enableRx id true u := by
  have start := ha.facading hi.core
  have released := start.drive (s.inst id).txPin (pinLevelOf (s.inst id).invert true) .inputPullup
  refine ⟨_, released, ?_⟩
  rw [enableTx_false one htx hcfg, runAll_cons_running _ _ ha.running, (start.writePinLevel _ _).runAll_cons,
    released.runAll_cons, runAll_nil]

/-- ENABLE_TX(false) of an instance that cannot receive, or receives already. -/
theorem enableTx_false_facading (stays : (s.inst id).rxEnabled = true ∨ (s.inst id).rxValid = false) :
    s.Facading id (.released id s) (enableTx id false s) := by
  obtain ⟨u, released, runs⟩ := enableTx_false_releases hi ha one htx hcfg
  have captured : (s.inst id).CapturedTo (u.inst id) := released.own
  suffices enableRx id true u = u by rwa [runs, this]
  rcases stays with on | disabled
  · obtain ⟨-, hv⟩ := (hi.core.inst ha.built).enabled_configured on
    rw [enableRx_true (by rw [captured.rest, hv]) (by rw [captured.rest, hcfg])]
    refine attachReceiver_attached (captured.rxEnabled.trans on) ?_
    rw [released.reg, captured.rxPin]
    exact hi.owns ha.built on
  · exact enableRx_none true (.inl (by rw [captured.rest, disabled]))

/-- ENABLE_TX(false) of an instance that can receive and is detached (R254). -/
theorem enableTx_false_attaches (off : (s.inst id).rxEnabled = false) (hv : (s.inst id).rxValid = true) :
    s.Facading id ((FacadeView.released id s).attach (s.inst id).txPin id) (enableTx id false s) ∧
      (enableTx id false s).inst id = setRxEnabled true (decoderIdle (s.inst id)) := by
  obtain ⟨u, released, runs⟩ := enableTx_false_releases hi ha one htx hcfg
  have own : u.inst id = s.inst id := released.own_eq off
  obtain ⟨attached, same, -⟩ := released.attachReceiver off hv hcfg rfl (hi.oneWire_pin ha one)
  rw [runs, enableRx_true (own ▸ hv) (own ▸ hcfg)]
  exact ⟨attached, same⟩

end

/-- Settles O50: on a one-wire port the transmit pin is the receiver's, so that the line is turned by driving it and
detaching or attaching the receiver. -/
theorem enableTxTurnsLine : Obligations.EnableTxTurnsLine := by
  rintro s id x hi ha rfl
  have idle : pinLevelOf (s.inst id).invert true = !(s.inst id).invert := by simp [pinLevelOf]
  refine ⟨fun on none => hostOperation_returns_unchanged ha (enableTx_none on none), fun one htx hcfg => ⟨?_, ?_⟩⟩
  · obtain ⟨z, hz, h⟩ := enableTx_true_facading hi ha one htx hcfg
    obtain ⟨driven, others⟩ := h.drive_pin rfl (funext FacadeView.pin_leave)
    refine ⟨_, z, hostOperation_returns ha h, (h.ret _).runs, rfl, h.im, idle ▸ driven, others, hz, h.own_eq rfl,
      fun on => ?_, fun off => ?_, h.sameRegistry FacadeView.sameLinks_leave,
      h.othersCapture FacadeView.leave_evicted⟩
    · have owns := hi.oneWire_pin ha one ▸ hi.owns ha.built on
      have unlinked := FacadeView.leave_owned (g := .start id s) on owns
      have reg := congrArg FacadeView.reg unlinked
      have attached := congrArg FacadeView.attached unlinked
      exact h.unlinked reg attached
    · have kept := FacadeView.leave_off (g := .start id s) (p := (s.inst id).txPin) (id := id) off
      exact ⟨h.reg.trans (congrArg FacadeView.reg kept), h.attached.trans (congrArg FacadeView.attached kept)⟩
  · by_cases joins : (s.inst id).rxEnabled = false ∧ (s.inst id).rxValid = true
    · obtain ⟨off, hv⟩ := joins
      obtain ⟨h, own⟩ := enableTx_false_attaches hi ha one htx hcfg off hv
      have pins (q : Nat) := (h.pin q).trans (FacadeView.pin_attach q)
      refine ⟨_, s.inst id, hostOperation_returns ha h, (h.ret _).runs, rfl, h.im, ?_, fun q hq => ?_, .refl _,
        fun stays => ?_, fun _ _ => ⟨own, h.attach_owner, h.attach_attached,
          h.sameRegistry FacadeView.sameLinks_attach, h.othersEvict fun _ _ => .rfl⟩⟩
      · rw [ret_pin, pins, if_pos rfl, FacadeView.released, FacadeView.pin_drive, if_pos rfl, idle]
      · have hq : q ≠ (s.inst id).txPin := by simpa using hq
        rw [ret_pin, pins, if_neg hq, FacadeView.released, FacadeView.pin_drive, if_neg hq]
        rfl
      · simp [off, hv] at stays
    · have stays : (s.inst id).rxEnabled = true ∨ (s.inst id).rxValid = false := by
        simpa only [not_and_or, Bool.not_eq_false, Bool.not_eq_true] using joins
      have h := enableTx_false_facading hi ha one htx hcfg stays
      obtain ⟨driven, others⟩ := h.drive_pin rfl rfl
      exact ⟨_, _, hostOperation_returns ha h, (h.ret _).runs, rfl, h.im, idle ▸ driven, others, h.own, fun _ =>
        ⟨rfl, h.reg, h.attached, h.othersCapture rfl⟩, fun off hv => absurd ⟨off, hv⟩ joins⟩

end Sys2Proof.Machine
end

section
/-! # CONSTRUCT and BAUDRATE (44_port_facade.md R241 to R243, R249) -/

namespace Sys2Proof.Machine

section
variable {s : State} (id rx tx nb ne : Nat) (inv : Bool)

theorem exec_construct_interrupt (running : s.fault = none) (hctx : s.ctx = .interrupt) :
    exec (.construct id rx tx inv nb ne) s = .next (s.raise .wrongContext) := by
  change constructOperation (construct id rx tx inv nb ne) s = _
  rw [constructOperation, running]
  exact if_pos hctx

theorem exec_construct_normal (running : s.fault = none) (hctx : s.ctx = .normal) :
    exec (.construct id rx tx inv nb ne) s = .next (construct id rx tx inv nb ne s) := by
  change constructOperation (construct id rx tx inv nb ne) s = _
  rw [constructOperation, running]
  exact if_neg (by simp [hctx])

/-- A new identifier: the boundary, the instance, the return (R241; 70_reset_and_hazards.md R325). -/
theorem construct_new (hc : s.Core) (running : s.fault = none) (new : s.constructed id = false) :
    construct id rx tx inv nb ne s =
      ((tick s).putInst id (freshInst s.params rx tx inv nb ne)).ret id .nothing := by
  have ticked := EnvSafe.tick s
  have still := (ticked.safe hc running).2
  rw [construct, if_neg (by simp [new]), runAll_cons_running _ _ running, runAll_cons_running _ _ still,
    ticked.env.params]
  exact runAll_cons_running _ _ still

end

/-- Settles O44: the two checks, in their order. -/
theorem constructChecks : Obligations.ConstructChecks := fun _ id rx tx nb ne inv running =>
  ⟨exec_construct_interrupt id rx tx nb ne inv running, fun hctx built =>
    (exec_construct_normal id rx tx nb ne inv running hctx).trans (congrArg _ (if_pos built))⟩

/-- Settles O43: the instance is `freshInst`, whose registers are those of the rule. -/
theorem constructCreates : Obligations.ConstructCreates := by
  intro s id rx tx nb ne inv hc running hctx new
  have ticked := EnvSafe.tick s
  have creates := construct_new id rx tx nb ne inv hc running new
  refine ⟨_, tick s, freshInst s.params rx tx inv nb ne,
    (exec_construct_normal id rx tx nb ne inv running hctx).trans (congrArg _ creates), (ticked.safe hc running).2,
    ticked.env, tick_tau hc running, rfl, ?_, ?_, fun j hj => ⟨?_, ?_⟩, rfl, rfl, rfl, rfl, rfl, rfl, ?_, ?_, ?_, rfl, rfl,
    rfl, rfl, rfl, rfl, rfl, rfl, rfl, rfl, rfl, rfl, rfl, rfl, rfl, rfl, rfl⟩
  · simp [constructed_putInst]
  · rw [ret_inst, inst_putInst, if_pos rfl]
  · rw [ret_inst, inst_putInst, if_neg hj]
  · rw [ret_constructed, constructed_putInst, decide_eq_false hj, Bool.false_or, ticked.env.constructed]
  · simp [freshInst]
  · simp [freshInst, pinValid, and_assoc]
  · simp [freshInst, pinValid]

/-- Settles O52: `baudOf` is the quotient where there is a bit period. -/
theorem baudrateReports : Obligations.BaudrateReports := by
  intro s id ha
  have runs : exec (.baudrate id) s = .next (s.ret id (.natural (baudOf s.params (s.inst id).bitPeriod))) :=
    hostOperation_accepts ha fun t => t.ret id (.natural (baudOf t.params (t.inst id).bitPeriod))
  refine ⟨fun started => ?_, fun unstarted => ?_⟩
  · rw [runs, baudOf, if_pos started]
  · rw [runs, baudOf, if_neg (by omega)]

end Sys2Proof.Machine
end

section
/-! # A stopped machine, and the entry checks (60_exceptions.md R283, R285, R297) -/

namespace Sys2Proof.Machine

/-! ### No operation runs in a stopped state -/

section
variable {s : State} {code : FaultCode} (h : s.fault = some code) (id : Nat) (body : State → State)
include h

theorem hostOperation_stopped : hostOperation id body s = .fault (.stopped code) := by
  rw [hostOperation, h]

theorem constructOperation_stopped : constructOperation body s = .fault (.stopped code) := by
  rw [constructOperation, h]

theorem internalOperation_stopped : internalOperation id body s = .fault (.stopped code) := by
  rw [internalOperation, h]

theorem exec_stopped (i : Instr) : exec i s = .fault (.stopped code) := by
  cases i with
  | construct => exact constructOperation_stopped h _
  | capture | rxbits | replayEdge | synthStop | synthStopAt | waitBitCycles => exact internalOperation_stopped h _ _
  | onReceive id cb => exact hostOperation_stopped h id (hostSteps (outerHost s) (.onReceive id cb))
  | _ => exact hostOperation_stopped h _ _

end

/-- Settles O10: `step` and each kind of operation look at `fault` first. -/
theorem stoppedStaysStopped : Obligations.StoppedStaysStopped := fun _ _ h => ⟨step_stopped h, exec_stopped h⟩

/-! ### The entry checks -/

/-- A host command but CONSTRUCT is its steps behind the entry checks. -/
theorem exec_eq_hostOperation {i : Instr} (hi : i.hostIssuable = true) (hop : (encode i).op ≠ 0x01#8) (s : State) :
    exec i s = hostOperation i.target (hostSteps (outerHost s) i) s := by
  cases i with
  | construct => exact absurd rfl hop
  | capture | rxbits | replayEdge | synthStop | synthStopAt | waitBitCycles => cases hi
  | _ => rfl

/-- A command that an entry check refuses raises its fault and does nothing else. -/
theorem hostOperation_raises {s : State} {id : Nat} {code : FaultCode} (running : s.fault = none)
    (refused : entryFault id s = some code) (body : State → State) :
    hostOperation id body s = .next (s.raise code) := by
  rw [hostOperation, running]
  simp only [refused]

/-- Settles O11: each check comes to its turn where those before it pass. -/
theorem entryChecksInOrder : Obligations.EntryChecksInOrder := by
  intro i s running hi hop
  rw [exec_eq_hostOperation hi hop]
  have raises {code : FaultCode} (refused : entryFault i.target s = some code) :=
    hostOperation_raises running refused (hostSteps (outerHost s) i)
  exact ⟨fun interrupt => raises (by simp [entryFault, interrupt]),
    fun normal unbuilt => raises (by simp [entryFault, normal, unbuilt]),
    fun normal built torn => raises (by simp [entryFault, normal, built, torn]),
    fun normal built alive yields => raises (by simp [entryFault, normal, built, alive, yields])⟩

end Sys2Proof.Machine
end

section
/-! # Faults are precise (60_exceptions.md R283)

A host command that passes its entry checks completes, but for the checks that START and WRITE begin with: this says
`State.Precise` of each command, from what is already known of it. The facade commands are followed by their view
(`State.Facading`), which needs no pin registry. -/

namespace Sys2Proof.Machine

/-- The answer to a command issued in `s`: it has ended without a fault, or it has raised one and done nothing else. -/
def State.Precise (s : State) (o : Out) : Prop :=
  (∃ t, o = .next t ∧ t.fault = none) ∨ ∃ code, o = .next (s.raise code)

section
variable {s t : State} {o : Out}

theorem State.Precise.fault_eq {code : FaultCode} (h : s.Precise o) (ends : o = .next t) (hf : t.fault = some code) :
    t = s.raise code := by
  obtain ⟨u, completes, running⟩ | ⟨c, raises⟩ := h
  · cases ends.symm.trans completes
    rw [running] at hf
    cases hf
  · cases ends.symm.trans raises
    cases hf
    rfl

theorem State.Precise.of_completes (h : o = .next t) (running : t.fault = none) : s.Precise o := .inl ⟨t, h, running⟩

theorem State.Returns.fault {id : Nat} {r : Result} {y : Inst} (h : State.Returns id r y s t) : t.fault = s.fault := by
  obtain ⟨u, sets, rfl⟩ := h
  rw [ret_fault, sets.rest]

end

/-! ### The facade commands -/

section
variable {s0 s : State} {id : Nat} {g : FacadeView}

/-- ENABLE_RX(true) on an instance that can receive and is configured, whatever the registry says of its pin. -/
theorem State.Facading.joinReceiver (h : s0.Facading id g s) (he : g.evicted = none)
    (hv : (s.inst id).rxValid = true) (hc : (s.inst id).fstate = .configured) :
    ∃ g', s0.Facading id g' (Machine.attachReceiver id s) := by
  by_cases stays : (s.inst id).rxEnabled = true ∧ cellGet s.reg (s.inst id).rxPin = some id
  · exact ⟨g, (attachReceiver_attached stays.1 stays.2).symm ▸ h⟩
  · have idle := h.modInst decoderIdle decoderIdle_inv
    have pulledUp := idle.setPinMode (s.inst id).rxPin .inputPullup
    have evicted := pulledUp.evictOwner he (s.inst id).rxPin
    have owned := evicted.registerPin (s.inst id).rxPin
    have linked := (owned.attachEdgeInterrupt (s.inst id).rxPin).1
    have enabled := linked.modInst (setRxEnabled true) fun hi =>
      setRxEnabled_true_inv hi (by rw [linked.own.rest]; exact hc) (by rw [linked.own.rest]; exact hv)
    rw [Machine.attachReceiver, if_neg stays, h.runAll_cons, idle.runAll_cons, pulledUp.runAll_cons,
      evicted.runAll_cons, owned.runAll_cons, linked.runAll_cons]
    exact ⟨_, enabled⟩

theorem State.Facading.enableRx (h : s0.Facading id g s) (he : g.evicted = none) (on : Bool) :
    ∃ g', s0.Facading id g' (Machine.enableRx id on s) := by
  cases on with
  | false =>
    obtain ⟨z, -, disabled⟩ := h.disableRx rfl
    exact ⟨_, disabled⟩
  | true =>
    by_cases unable : (s.inst id).rxValid = false ∨ (s.inst id).fstate ≠ .configured
    · exact ⟨g, (enableRx_none true unable).symm ▸ h⟩
    · simp only [not_or, Bool.not_eq_false, not_not] at unable
      obtain ⟨hv, hc⟩ := unable
      exact enableRx_true hv hc ▸ h.joinReceiver he hv hc

end

section
variable {s : State} {id : Nat} (ha : s.Accepts id)
include ha

theorem facade_precise {f : State → State} (h : ∃ g, s.Facading id g (f s)) :
    s.Precise (hostOperation id (runAll [f, State.ret id .nothing]) s) := by
  obtain ⟨g, h⟩ := h
  exact .of_completes (hostOperation_returns ha h) h.runs.running

section
variable (hc : s.Core)
include hc

theorem enableRx_precise (on : Bool) : s.Precise (exec (.enableRx id on) s) :=
  facade_precise ha ((ha.facading hc).enableRx rfl on)

theorem stop_precise : s.Precise (exec (.stop id) s) := enableRx_precise ha hc false

theorem destruct_precise : s.Precise (exec (.destruct id) s) := by
  obtain ⟨z, -, h⟩ := (ha.facading hc).disableRx rfl
  have torn : ((enableRx id false s).modInst id tearDown).fault = none := h.runs.running
  refine .of_completes (t := ((enableRx id false s).modInst id tearDown).ret id .nothing)
    ((hostOperation_accepts ha _).trans (congrArg _ ?_)) torn
  rw [runAll_cons_running _ _ ha.running, h.runAll_cons]
  exact runAll_cons_running _ _ torn

theorem enableTx_facading (on : Bool) : ∃ g, s.Facading id g (enableTx id on s) := by
  have start := ha.facading hc
  by_cases unable : (s.inst id).oneWire = false ∨ (s.inst id).txValid = false ∨ (s.inst id).fstate ≠ .configured
  · rw [enableTx_none on unable]
    exact ⟨_, start⟩
  · simp only [not_or, Bool.not_eq_false, not_not] at unable
    obtain ⟨one, htx, hcfg⟩ := unable
    cases on with
    | true =>
      obtain ⟨z, -, detached⟩ := start.disableRx rfl
      rw [enableTx_true one htx hcfg, start.runAll_cons, detached.runAll_cons,
        (detached.writePinLevel _ _).runAll_cons, runAll_nil]
      exact ⟨_, detached.drive ..⟩
    | false =>
      have released := start.drive (s.inst id).txPin (pinLevelOf (s.inst id).invert true) .inputPullup
      rw [enableTx_false one htx hcfg, start.runAll_cons, (start.writePinLevel _ _).runAll_cons,
        released.runAll_cons, runAll_nil]
      exact released.enableRx rfl true

theorem enableTx_precise (on : Bool) : s.Precise (exec (.enableTx id on) s) :=
  facade_precise ha (enableTx_facading ha hc on)

theorem setTxEnablePin_precise (pin : Nat) : s.Precise (exec (.setTxEnablePin id pin) s) := by
  obtain ⟨valid, invalid⟩ := setTxEnablePinEffect s id pin hc ha
  by_cases hp : pin ∈ s.params.validPins
  · obtain ⟨t, runs, frame, -⟩ := valid hp
    exact .of_completes runs frame.running
  · obtain ⟨t, runs, returns⟩ := invalid hp
    exact .of_completes runs (returns.fault.trans ha.running)

/-- START raises `Fault(BAD_BAUD)` at once, or completes (44_port_facade.md R245). -/
theorem start_precise (baud : Int) : s.Precise (exec (.start id baud) s) := by
  obtain ⟨bad, good⟩ := startBitPeriod s id baud hc ha
  by_cases refused : baud ≤ 0 ∨ s.params.fHz < baud
  · exact .inr ⟨_, bad refused⟩
  · obtain ⟨t, runs, running, -⟩ := good (by omega) (by omega)
    exact .of_completes runs running

end

theorem baudrate_precise : s.Precise (exec (.baudrate id) s) :=
  .of_completes (hostOperation_accepts ha _) ha.running

end

/-- CONSTRUCT raises the fault of one of its two checks at once, or completes (44_port_facade.md R243). -/
theorem construct_precise {s : State} (hc : s.Core) (running : s.fault = none) (id rx tx : Nat) (inv : Bool)
    (nb ne : Nat) : s.Precise (exec (.construct id rx tx inv nb ne) s) := by
  obtain ⟨wrongContext, instanceExists⟩ := constructChecks s id rx tx nb ne inv running
  cases hctx : s.ctx with
  | interrupt => exact .inr ⟨_, wrongContext hctx⟩
  | normal =>
    cases built : s.constructed id with
    | true => exact .inr ⟨_, instanceExists hctx built⟩
    | false =>
      obtain ⟨t, u, x, runs, still, -, -, created, -⟩ := constructCreates s id rx tx nb ne inv hc running hctx built
      exact .of_completes runs (by rw [created]; exact still)

/-! ### The read API -/

/-- A callback in which host code issues nothing stops no machine. -/
theorem callReceiver_running {host : HostCode} (hh : ∀ tEnd u, u.HostWaits → host tEnd u = u) {s : State} (id n : Nat)
    (hc : s.Core) (running : s.fault = none) (hq : s.HostWaits) : (callReceiver host id n s).fault = none := by
  cases hcb : (s.inst id).rxCallback with
  | none => rwa [callReceiver_none n hcb]
  | some cb =>
    have seen : (callbackSeen id cb n s).Core := hc.congr rfl rfl rfl rfl rfl rfl rfl
    rw [callReceiver_some hh n hcb hq running]
    exact ((callbackReturns_safe _).safe seen running).2

section
variable {s : State} {id : Nat} (ha : s.Accepts id)
include ha

theorem onReceive_precise (cb : Option Nat) : s.Precise (exec (.onReceive id cb) s) := by
  obtain ⟨t, runs, returns⟩ := onReceiveStores s id cb ha
  exact .of_completes runs (returns.fault.trans ha.running)

variable (hc : s.Core)
include hc

theorem overflow_precise : s.Precise (exec (.overflow id) s) := by
  obtain ⟨t, u, runs, running, -, -, returns⟩ := overflowReportsAndClears s id hc ha
  exact .of_completes runs (returns.fault.trans running)

theorem read_precise : s.Precise (exec (.read id) s) := by
  cases hv : (s.inst id).rxValid with
  | false =>
    obtain ⟨-, returns, -⟩ := disabledReceiveResults s id ha hv
    exact .of_completes returns ha.running
  | true =>
    obtain ⟨running, -, -, t, runs, empty, queued⟩ := readTakesOldest s _ _ id hc ha hv rfl rfl
    refine .of_completes runs ?_
    cases hb : byteQueue ((tick (rxbits id s)).inst id) with
    | nil => rw [empty hb]; exact running
    | cons b rest => exact (queued b rest hb).1.fault.trans running

theorem peek_precise : s.Precise (exec (.peek id) s) := by
  cases hv : (s.inst id).rxValid with
  | false =>
    obtain ⟨-, -, returns, -⟩ := disabledReceiveResults s id ha hv
    exact .of_completes returns ha.running
  | true =>
    obtain ⟨running, -, -, empty, queued⟩ := peekShowsOldest s _ _ id hc ha hv rfl rfl
    cases hb : byteQueue ((tick (rxbits id s)).inst id) with
    | nil => exact .of_completes (empty hb) running
    | cons b rest => exact .of_completes (queued b rest hb) running

theorem flush_precise : s.Precise (exec (.flush id) s) := by
  cases hv : (s.inst id).rxValid with
  | false =>
    obtain ⟨-, -, -, returns, -⟩ := disabledReceiveResults s id ha hv
    exact .of_completes returns ha.running
  | true =>
    obtain ⟨t, u, e, v, runs, -, -, -, -, running, -, returns, -⟩ := flushEmptiesRings s id hc ha hv
    exact .of_completes runs (returns.fault.trans running)

variable (hq : s.HostWaits)
include hq

theorem available_precise : s.Precise (exec (.available id) s) := by
  cases hv : (s.inst id).rxValid with
  | false =>
    obtain ⟨returns, -⟩ := disabledReceiveResults s id ha hv
    exact .of_completes returns ha.running
  | true =>
    obtain ⟨queued, empty, -⟩ := availableCounts s _ _ _ _ _ id _ hc ha hq hv rfl rfl rfl rfl rfl rfl
    by_cases hb : byteQueue ((rxbits id s).inst id) = []
    · obtain ⟨runs, running, -⟩ := empty hb
      exact .of_completes runs running
    · obtain ⟨runs, running, -⟩ := queued hb
      exact .of_completes runs running

theorem pump_precise : s.Precise (exec (.pump id) s) := by
  cases hv : (s.inst id).rxValid with
  | false =>
    obtain ⟨-, -, -, -, returns⟩ := disabledReceiveResults s id ha hv
    exact .of_completes returns ha.running
  | true =>
    have h := ha.receiving hc hv
    have waits : (tick (rxbits id s)).HostWaits := by rw [State.HostWaits, h.pass.frame.hostQueue]; exact hq
    have called (fires : Bool) (n : Nat) :
        (whenever fires (callReceiver (outerHost s) id n) (tick (rxbits id s))).fault = none := by
      cases fires with
      | false => exact h.pass.running
      | true =>
        exact callReceiver_running (fun tEnd _ ht => outerHost_waits s ht tEnd) id n h.pass.sound h.pass.running waits
    exact .of_completes ((hostOperation_accepts ha _).trans (congrArg _ (pump_valid h rfl rfl (called ..))))
      (called ..)

/-! ### WRITE -/

/-- WRITE raises the fault of one of its two checks at once, or completes (43_transmitter.md R212). -/
theorem write_precise (bytes : List Byte) : s.Precise (exec (.write id bytes) s) := by
  obtain ⟨unable, notStarted, notEnabled, nothing⟩ := writeChecks s id bytes _ ha rfl
  cases htx : (s.inst id).txValid with
  | false => exact .of_completes (unable htx) ha.running
  | true =>
    cases hst : (s.inst id).fstate with
    | tornDown => exact absurd hst ha.alive
    | unconfigured => exact .inr ⟨_, notStarted htx hst⟩
    | configured =>
      by_cases hout : (s.inst id).oneWire = true → (s.pin (s.inst id).txPin).mode = .output
      · by_cases hb : bytes = []
        · exact .of_completes (nothing htx hst hout hb) ha.running
        · obtain ⟨t, runs, frame, -⟩ := writeCompletes s id bytes _ hc ha hq rfl htx hst hout hb
          exact .of_completes runs frame.running
      · obtain ⟨one, hmode⟩ := Classical.not_imp.1 hout
        exact .inr ⟨_, notEnabled htx hst one hmode⟩

end

/-! ### Every host command -/

/-- A command that an entry check refuses is precise, so that only those accepted need a proof. -/
theorem hostOperation_precise {s : State} {id : Nat} {body : State → State} (running : s.fault = none)
    (accepted : s.Accepts id → s.Precise (hostOperation id body s)) : s.Precise (hostOperation id body s) := by
  cases h : entryFault id s with
  | some code => exact .inr ⟨code, hostOperation_raises running h body⟩
  | none => exact accepted (entryFault_none running h)

theorem exec_precise {i : Instr} {s : State} (hc : s.Core) (hq : s.HostWaits) (running : s.fault = none)
    (hi : i.hostIssuable = true) : s.Precise (exec i s) := by
  cases i with
  | construct id rx tx inv nb ne => exact construct_precise hc running id rx tx inv nb ne
  | start id baud => exact hostOperation_precise running fun ha => start_precise ha hc baud
  | stop id => exact hostOperation_precise running fun ha => stop_precise ha hc
  | destruct id => exact hostOperation_precise running fun ha => destruct_precise ha hc
  | enableRx id on => exact hostOperation_precise running fun ha => enableRx_precise ha hc on
  | enableTx id on => exact hostOperation_precise running fun ha => enableTx_precise ha hc on
  | setTxEnablePin id pin => exact hostOperation_precise running fun ha => setTxEnablePin_precise ha hc pin
  | baudrate id => exact hostOperation_precise running fun ha => baudrate_precise ha
  | available id => exact hostOperation_precise running fun ha => available_precise ha hc hq
  | read id => exact hostOperation_precise running fun ha => read_precise ha hc
  | peek id => exact hostOperation_precise running fun ha => peek_precise ha hc
  | flush id => exact hostOperation_precise running fun ha => flush_precise ha hc
  | overflow id => exact hostOperation_precise running fun ha => overflow_precise ha hc
  | onReceive id cb =>
    exact hostOperation_precise (body := hostSteps (outerHost s) (.onReceive id cb)) running fun ha =>
      onReceive_precise ha cb
  | pump id => exact hostOperation_precise running fun ha => pump_precise ha hc hq
  | write id bytes => exact hostOperation_precise running fun ha => write_precise ha hc hq bytes
  | capture | rxbits | replayEdge | synthStop | synthStopAt | waitBitCycles => cases hi

/-- Settles O12: a machine that runs answers every host command with precision, and a stopped one answers none. -/
theorem faultsArePrecise : Obligations.FaultsArePrecise := by
  intro i s t code hc hq hi ends faulted
  cases running : s.fault with
  | none => exact (exec_precise hc hq running hi).fault_eq ends faulted
  | some stopped =>
    rw [exec_stopped running] at ends
    cases ends

end Sys2Proof.Machine
end

section
/-! # Line levels, input changes and due captures (60_exceptions.md R290 to R296, R301 to R303)

A change that has come due is the step (`step_input_due`), and otherwise a capture that is due. -/

namespace Sys2Proof.Machine

/-! ### Line levels -/

section
variable {s : State} {p : Nat}

/-- The one output wired to a pin is its source. -/
theorem wiredSource_eq_some {q : Nat} (hw : (q, p) ∈ s.wires) (hout : (s.pin q).mode = .output)
    (only : ∀ r, (r, p) ∈ s.wires → (s.pin r).mode = .output → r = q) : wiredSource s p = some q := by
  unfold wiredSource
  cases hfind : s.wires.find? fun w => w.2 = p ∧ (s.pin w.1).mode = .output with
  | none => exact absurd (List.find?_eq_none.1 hfind _ hw) (by simp [hout])
  | some w =>
    obtain ⟨r, p'⟩ := w
    obtain ⟨rfl, hr⟩ : p' = p ∧ (s.pin r).mode = .output := by simpa using List.find?_some hfind
    exact congrArg some (only r (List.mem_of_find?_eq_some hfind) hr)

/-- A pin to which no output is wired has none. -/
theorem wiredSource_eq_none (unwired : ∀ q, (q, p) ∈ s.wires → (s.pin q).mode ≠ .output) : wiredSource s p = none := by
  refine Option.map_eq_none_iff.2 (List.find?_eq_none.2 ?_)
  rintro ⟨q, p'⟩ hw
  simp only [decide_eq_true_eq, not_and]
  rintro rfl
  exact unwired q hw

end

/-- Settles O21: the wired source, if there is one, decides the level of an input before anything else does. -/
theorem lineLevels : Obligations.LineLevels := by
  intro s p
  refine ⟨fun hout => if_pos hout, fun q hin hw hout only => ?_, fun hin unwired => ?_⟩
  · rw [State.lineLevel, if_neg hin, inputLevel, wiredSource_eq_some hw hout only]
  · rw [State.lineLevel, if_neg hin, inputLevel, wiredSource_eq_none unwired]
    refine ⟨fun level driven => ?_, fun undriven pullup => ?_⟩
    · simp only [driven]
    · simp only [undriven, if_pos pullup]

/-! ### Due captures -/

/-- Where no input change has come due, the capture agent is asked first. -/
theorem step_no_input_due {s : State} (running : s.fault = none) (hi : ∀ e ∈ s.inputs.head?, s.tau < e.time) :
    step s = captureOr exec (hostStep exec) s := by
  rw [step, stepWith, running]
  cases hin : s.inputs with
  | nil => rfl
  | cons e es => exact if_neg (Nat.not_le_of_lt (hi e (by rw [hin]; rfl)))

/-- Settles O6: the capture agent has the step, and a capture for it. -/
theorem stepRunsDueCapture : Obligations.StepRunsDueCapture := fun _ _ _ _ _ running hi due =>
  (step_no_input_due running hi).trans (captureOr_some due)

/-! ### What an input change drives -/

/-- The environment has begun or ceased to drive the pin. -/
def drivenBy (c : InputChange) (s : State) : State :=
  { s with
    driven := match c.level with
      | some level => cellSet s.driven c.pin level
      | none => cellDel s.driven c.pin }

theorem applyInput_eq (c : InputChange) (s : State) :
    applyInput c s = armAll (noteTransitions s (drivenBy c s)) := by
  unfold applyInput drivenBy
  cases c.level <;> rfl

theorem cellGet_drivenBy (c : InputChange) (s : State) (p : Nat) :
    cellGet (drivenBy c s).driven p = if p = c.pin then c.level else cellGet s.driven p := by
  unfold drivenBy
  cases c.level with
  | none => exact cellGet_cellDel ..
  | some level => exact cellGet_cellSet ..

/-! ### The transitions it makes -/

/-- `pending[p]` with one transition more, or 1 with `COALESCE` (R292). -/
def State.countNoted (s : State) (p : Nat) : Nat := if s.params.coalesce then 1 else (s.pend p).count + 1

theorem notePending_count (p : Nat) (s : State) (q : Nat) :
    ((notePending p s).pend q).count = if q = p then s.countNoted p else (s.pend q).count := by
  rw [notePending, pend_setPend]
  split <;> rfl

/-- The pins of a list whose level differs from what it was get a transition each. -/
def noteEach (s0 s : State) (l : List Nat) (t : State) : State :=
  l.foldl (fun t p => if s0.lineLevel p = s.lineLevel p then t else notePending p t) t

theorem noteTransitions_eq (s0 s : State) : noteTransitions s0 s = noteEach s0 s s.attached s := rfl

/-- From `s` to `t` only the waiting transitions have changed. -/
def PendingOnly (s t : State) : Prop := t = { s with pending := t.pending }

theorem pendingOnly_composes : Composes PendingOnly where
  refl _ := rfl
  trans h1 h2 := h2.trans (by rw [h1])

theorem noteEach_pendingOnly (s0 s : State) (l : List Nat) : Along PendingOnly (noteEach s0 s l) :=
  pendingOnly_composes.foldl (fun t p => by
    split
    · exact pendingOnly_composes.refl t
    · exact rfl) l

theorem noteEach_count (s0 s : State) {l : List Nat} (distinct : l.Nodup) (t : State) (q : Nat) :
    ((noteEach s0 s l t).pend q).count =
      if q ∈ l ∧ s.lineLevel q ≠ s0.lineLevel q then t.countNoted q else (t.pend q).count := by
  induction l generalizing t with
  | nil => rfl
  | cons p l ih =>
    obtain ⟨absent, distinct⟩ := List.nodup_cons.1 distinct
    rw [noteEach, List.foldl_cons, ← noteEach, ih distinct]
    by_cases same : s0.lineLevel p = s.lineLevel p
    · rw [if_pos same]
      refine if_congr ?_ rfl rfl
      rw [List.mem_cons]
      refine ⟨fun h => ⟨.inr h.1, h.2⟩, fun h => ⟨h.1.resolve_left ?_, h.2⟩⟩
      rintro rfl
      exact h.2 same.symm
    · rw [if_neg same, notePending_count]
      by_cases hq : q = p
      · subst hq
        rw [if_neg fun h => absent h.1, if_pos rfl, if_pos ⟨List.mem_cons_self, Ne.symm same⟩]
      · have noted : (notePending p t).countNoted q = t.countNoted q := by
          simp only [State.countNoted, notePending_count, if_neg hq]
          rfl
        rw [noted, if_neg hq]
        refine if_congr ?_ rfl rfl
        rw [List.mem_cons, or_iff_right hq]

/-! ### The step of an input change -/

/-- Asking whether a command goes first costs a draw at most. -/
theorem commandFirst_draws (c : InputChange) (s : State) : ∃ d, (commandFirst c s).2 = { s with draws := d } := by
  unfold commandFirst
  split
  · exact ⟨_, rfl⟩
  · exact ⟨s.draws, rfl⟩

/-- An input change that has come due, and that no command goes before, is the step. -/
theorem step_input_due {s : State} {c : InputChange} {rest : List InputChange} (running : s.fault = none)
    (hin : s.inputs = c :: rest) (due : c.time ≤ s.tau) (first : (commandFirst c s).1 = false) :
    ∃ d, step s = .next (applyInput c { s with inputs := rest, draws := d }) := by
  obtain ⟨d, drawn⟩ := commandFirst_draws c s
  refine ⟨d, ?_⟩
  simp only [step, stepWith, running, hin, if_pos due, first, drawn, Bool.false_eq_true, if_false]

/-- What an input change does, with the pins it finds attached listed once each. -/
theorem applyInput_effect (c : InputChange) {s t : State} (distinct : s.attached.Nodup) (ht : t = applyInput c s) :
    t = { s with driven := t.driven, pending := t.pending, draws := t.draws } ∧
      t.driven = (drivenBy c s).driven ∧
      ∀ p, (t.pend p).count =
        if p ∈ s.attached ∧ t.lineLevel p ≠ s.lineLevel p then s.countNoted p else (s.pend p).count := by
  rw [applyInput_eq, noteTransitions_eq] at ht
  have notes := noteEach_pendingOnly s (drivenBy c s) s.attached (drivenBy c s)
  have arms : Arms (noteEach s (drivenBy c s) s.attached (drivenBy c s)) t := ht ▸ armAll_arms _
  have frame : t = { drivenBy c s with pending := t.pending, draws := t.draws } := by rw [arms.rest, notes]
  have level (p : Nat) : t.lineLevel p = (drivenBy c s).lineLevel p := by rw [frame]; rfl
  refine ⟨by rw [frame]; rfl, by rw [frame], fun p => ?_⟩
  rw [arms.count, level]
  exact noteEach_count s (drivenBy c s) distinct (drivenBy c s) p

/-- Settles O22: the change is the step, and the draw that has put it first is all that has happened before it. -/
theorem inputChangeSetsPending : Obligations.InputChangeSetsPending := by
  intro s c rest hc running hin due first
  obtain ⟨-, -, -, -, -, -, rising⟩ := hc.memory
  obtain ⟨d, steps⟩ := step_input_due running hin due first
  obtain ⟨frame, driven, counts⟩ := applyInput_effect c (s := { s with inputs := rest, draws := d })
    (rising.imp ne_of_lt) rfl
  exact ⟨_, steps, frame, fun p => by rw [driven]; exact cellGet_drivenBy .., counts⟩

end Sys2Proof.Machine
end

section
/-! # The boot state (70_reset_and_hazards.md R321) -/

namespace Sys2Proof.Machine

/-- Settles O13: a field of `State.reset` is read off, and a map with no cell reads as unlisted everywhere. -/
theorem resetState : Obligations.ResetState :=
  ⟨rfl, rfl, rfl, rfl, fun _ => rfl, fun _ => rfl, fun _ => rfl⟩

end Sys2Proof.Machine
end

section
/-! # Only waits take time (70_reset_and_hazards.md R325)

`Instant` is carried from the micro-steps to every operation that waits for nothing. PUMP alone hands the main line to
host code as well; that this code issues nothing is part of `QuietInstant`, which is carried along PUMP. -/

namespace Sys2Proof.Machine

/-! ### HAL calls -/

theorem writePinLevel_instant (p : Nat) (v : Bool) : Along Instant (writePinLevel p v) := fun s =>
  have written : Instant (tick s) (pinWritten p v (tick s)) := .of_eq
  instant_composes.unlessStopped (tick_instant s) (instant_composes.trans written (.afterHal _ _))

theorem setPinMode_instant (p : Nat) (m : PinMode) : Along Instant (setPinMode p m) := fun s =>
  have written : Instant (tick s) (modeWritten p m (tick s)) := .of_eq
  instant_composes.unlessStopped (tick_instant s) (instant_composes.trans written (.afterHal _ _))

theorem attachEdgeInterrupt_instant (p : Nat) : Along Instant (attachEdgeInterrupt p) := fun s =>
  instant_composes.unlessStopped (tick_instant s) .of_eq

theorem detachInterrupt_instant (p : Nat) : Along Instant (detachInterrupt p) := fun s =>
  instant_composes.unlessStopped (tick_instant s) .of_eq

/-- A transmit pin is driven before it becomes an output (44_port_facade.md R247, R254, R257). -/
theorem drivePin_instant (p : Nat) (v : Bool) : Along Instant (runAll [writePinLevel p v, setPinMode p .output]) :=
  instant_composes.runAll (.cons (writePinLevel_instant p v) (.cons (setPinMode_instant p .output) .nil))

/-! ### The port facade -/

theorem ret_instant (id : Nat) (r : Result) : Along Instant (State.ret id r) := fun _ => .of_eq

/-- The facade commands return to the host once their steps are done. -/
theorem runAll_ret_instant {f : State → State} (hf : Along Instant f) (id : Nat) (r : Result) :
    Along Instant (runAll [f, State.ret id r]) :=
  instant_composes.runAll (.cons hf (.cons (ret_instant id r) .nil))

theorem construct_instant (id rxPin txPin : Nat) (invert : Bool) (bufCap edgeCap : Nat) :
    Along Instant (construct id rxPin txPin invert bufCap edgeCap) := by
  intro s
  unfold construct
  split
  · exact .of_eq
  · exact instant_composes.runAll
      (.cons tick_instant (.cons (fun _ => .of_eq) (.cons (ret_instant id _) .nil))) s

theorem evictOwner_instant (p id : Nat) : Along Instant (evictOwner p id) := by
  intro s
  unfold evictOwner
  split
  · split
    · exact instant_composes.refl s
    · exact instant_composes.runAll
        (.cons tick_instant (.cons (modInst_instant _ _) (.cons (detachInterrupt_instant p) .nil))) s
  · exact instant_composes.refl s

theorem attachReceiver_instant (id : Nat) : Along Instant (attachReceiver id) := by
  intro s
  simp only [attachReceiver]
  split
  · exact instant_composes.refl s
  · exact instant_composes.runAll
      (.cons (modInst_instant id _) (.cons (setPinMode_instant _ _) (.cons (evictOwner_instant _ id)
        (.cons (fun _ => .of_eq) (.cons (attachEdgeInterrupt_instant _) (.cons (modInst_instant id _) .nil)))))) s

theorem detachReceiver_instant (id : Nat) : Along Instant (detachReceiver id) := fun s =>
  have detaches := instant_composes.runAll
    (.cons (detachInterrupt_instant (s.inst id).rxPin)
      (.cons (f := unregisterPin (s.inst id).rxPin) (fun _ => .of_eq) .nil))
  instant_composes.runAll
    (.cons (instant_composes.whenever _ detaches) (.cons (modInst_instant id _) .nil)) s

theorem enableRx_instant (id : Nat) (on : Bool) : Along Instant (enableRx id on) := by
  intro s
  simp only [enableRx]
  split
  · exact instant_composes.refl s
  · split
    · exact attachReceiver_instant id s
    · exact detachReceiver_instant id s

theorem start_instant (id : Nat) (baud : Int) : Along Instant (start id baud) := by
  intro s
  simp only [start]
  split
  · exact .of_eq
  · exact instant_composes.runAll
      (.cons (instant_composes.whenever _ (enableRx_instant id false)) (.cons tick_instant
        (.cons (modInst_instant id _) (.cons (instant_composes.whenever _ (drivePin_instant _ _))
          (.cons (modInst_instant id _) (.cons (instant_composes.whenever _ (enableRx_instant id true))
            (.cons (ret_instant id _) .nil))))))) s

theorem destruct_instant (id : Nat) : Along Instant
    (runAll [enableRx id false, State.modInst id fun y => { y with fstate := .tornDown }, State.ret id .nothing]) :=
  instant_composes.runAll
    (.cons (enableRx_instant id false) (.cons (modInst_instant id _) (.cons (ret_instant id _) .nil)))

theorem enableTx_instant (id : Nat) (on : Bool) : Along Instant (enableTx id on) := by
  intro s
  simp only [enableTx]
  split
  · exact instant_composes.refl s
  · split
    · exact instant_composes.runAll (.cons (enableRx_instant id false)
        (.cons (writePinLevel_instant _ _) (.cons (setPinMode_instant _ _) .nil))) s
    · exact instant_composes.runAll (.cons (writePinLevel_instant _ _)
        (.cons (setPinMode_instant _ _) (.cons (enableRx_instant id true) .nil))) s

theorem setTxEnablePin_instant (id pin : Nat) : Along Instant (setTxEnablePin id pin) := by
  intro s
  unfold setTxEnablePin
  split
  · exact instant_composes.runAll (.cons (modInst_instant id _)
      (.cons (writePinLevel_instant pin false) (.cons (setPinMode_instant pin .output) .nil))) s
  · exact modInst_instant id _ s

/-! ### The decoder and the read API -/

theorem synthStopAt_instant (id now : Nat) : Along Instant (synthStopAt id now) := by
  intro s
  unfold synthStopAt
  split
  · exact instant_composes.refl s
  · exact synthAt_instant id _ s

theorem takeByte_instant (id : Nat) : Along Instant (takeByte id) := by
  intro s
  simp only [takeByte]
  split
  · exact ret_instant id _ s
  · split <;> exact .of_eq

theorem showByte_instant (id : Nat) : Along Instant (showByte id) := by
  intro s
  simp only [showByte]
  split
  · exact ret_instant id _ s
  · split <;> exact .of_eq

theorem readByte_instant (id : Nat) : Along Instant (readByte id) := by
  intro s
  unfold readByte
  split
  · exact instant_composes.runAll (.cons (rxbits_instant id) (.cons tick_instant (.cons (takeByte_instant id) .nil))) s
  · exact ret_instant id _ s

theorem peekByte_instant (id : Nat) : Along Instant (peekByte id) := by
  intro s
  unfold peekByte
  split
  · exact instant_composes.runAll (.cons (rxbits_instant id) (.cons tick_instant (.cons (showByte_instant id) .nil))) s
  · exact ret_instant id _ s

theorem flush_instant (id : Nat) : Along Instant (flush id) := by
  intro s
  unfold flush
  split
  · exact instant_composes.runAll (.cons tick_instant (.cons (modInst_instant id _)
      (.cons tick_instant (.cons (modInst_instant id _) (.cons (ret_instant id _) .nil))))) s
  · exact ret_instant id _ s

theorem readOverflow_instant (id : Nat) : Along Instant (readOverflow id) := fun _ => .of_eq

theorem overflow_instant (id : Nat) : Along Instant (runAll [tick, readOverflow id]) :=
  instant_composes.runAll (.cons tick_instant (.cons (readOverflow_instant id) .nil))

theorem captureStep_instant (id : Nat) : Along Instant (captureStep id) := fun s =>
  (IdealKept.captureStep id s).instant (captureStep_tau id s)

/-! ### PUMP -/

/-- No time has passed from `s` to `t`, and the environment of `State.Ideal` is still there: the ideal draw, and host
code that issues nothing. -/
def QuietInstant (s t : State) : Prop := s.Ideal → t.tau = s.tau ∧ t.Ideal

theorem quietInstant_composes : Composes QuietInstant where
  refl _ h := ⟨rfl, h⟩
  trans h1 h2 h := ⟨(h2 (h1 h).2).1.trans (h1 h).1, (h2 (h1 h).2).2⟩

/-- An operation that takes no command from the queue. -/
theorem Instant.quiet {s t : State} (h : Instant s t) (hq : t.hostQueue = s.hostQueue := by exact rfl) :
    QuietInstant s t := fun hi =>
  ⟨(h hi.draws).1, (h hi.draws).2, by rw [State.HostWaits, hq]; exact hi.queue⟩

theorem EnvSafe.quietInstant {s t : State} (h : EnvSafe s t) (hi : Instant s t) : QuietInstant s t :=
  hi.quiet h.env.hostQueue

theorem rxbits_quietInstant (id : Nat) : Along QuietInstant (rxbits id) := fun s =>
  (rxbits_instant id s).quiet (rxbits_decodes id s).frame.hostQueue

/-- A callback returns at once: its draw is 0 (60_exceptions.md R308). -/
theorem callbackReturns_instant : Along Instant callbackReturns := by
  intro s h
  simp only [callbackReturns, h, Draws.ideal, takeDraw]
  exact Instant.advanceTo (s := { s with draws := .ideal }) (Nat.le_refl _) rfl

section
variable {host : HostCode} (hh : ∀ tEnd u, u.HostWaits → host tEnd u = u)
include hh

theorem host_quietInstant (tEnd : Option Nat) : Along QuietInstant (host tEnd) := fun s h => by
  rw [hh tEnd s h.queue]
  exact ⟨rfl, h⟩

theorem callReceiver_quietInstant (id n : Nat) : Along QuietInstant (callReceiver host id n) := by
  intro s
  unfold callReceiver
  split
  · next cb _ =>
    have seen : QuietInstant s (callbackSeen id cb n s) := Instant.quiet .of_eq
    have returns : Along QuietInstant callbackReturns := fun u =>
      (callbackReturns_safe u).quietInstant (callbackReturns_instant u)
    exact quietInstant_composes.trans seen
      (quietInstant_composes.runAll (.cons (host_quietInstant hh none) (.cons returns .nil)) _)
  · exact quietInstant_composes.refl s

theorem pump_quietInstant (id : Nat) : Along QuietInstant (pump host id) := by
  have returned : Along QuietInstant (State.ret id .nothing) := fun s => (ret_instant id _ s).quiet
  intro s
  unfold pump
  split
  · exact quietInstant_composes.runAll
      (.cons (rxbits_quietInstant id)
        (.cons (fun t => (EnvSafe.tick t).quietInstant (tick_instant t))
          (.cons (fun t => quietInstant_composes.whenever _ (callReceiver_quietInstant hh id _) t)
            (.cons returned .nil)))) s
  · exact returned s

end

/-! ### Entry checks and dispatch -/

/-- What an internal operation can do, whoever issues it. -/
theorem internalOperation_next {id : Nat} {body : State → State} {s t : State}
    (h : internalOperation id body s = .next t) : (∃ c, t = s.raise c) ∨ t = body s := by
  unfold internalOperation at h
  split at h
  · cases h
  · split_ifs at h <;> cases h
    · exact .inl ⟨_, rfl⟩
    · exact .inl ⟨_, rfl⟩
    · exact .inr rfl

section
variable {id : Nat} {body : State → State} {s t : State} (hb : (body s).tau = s.tau)
include hb

theorem hostOperation_tau (h : hostOperation id body s = .next t) : t.tau = s.tau := by
  obtain ⟨c, rfl⟩ | ⟨-, rfl⟩ := hostOperation_next h
  · exact raise_tau s c
  · exact hb

theorem constructOperation_tau (h : constructOperation body s = .next t) : t.tau = s.tau := by
  obtain ⟨c, rfl⟩ | ⟨-, rfl⟩ := constructOperation_next h
  · exact raise_tau s c
  · exact hb

theorem internalOperation_tau (h : internalOperation id body s = .next t) : t.tau = s.tau := by
  obtain ⟨c, rfl⟩ | rfl := internalOperation_next h
  · exact raise_tau s c
  · exact hb

end

/-- Settles O58: an entry check that fails raises its fault at once, and the steps of every operation but the three that
wait are instant. -/
theorem idealDrawTakesNoTime : Obligations.IdealDrawTakesNoTime := by
  intro i s t _ ideal notWrite notAvailable notWait ends
  have still {f : State → State} (hf : Along Instant f) : (f s).tau = s.tau := (hf s ideal.draws).1
  cases i with
  | construct id rx tx inv nb ne => exact constructOperation_tau (still (construct_instant id rx tx inv nb ne)) ends
  | start id baud => exact hostOperation_tau (still (start_instant id baud)) ends
  | stop id => exact hostOperation_tau (still (runAll_ret_instant (enableRx_instant id false) id _)) ends
  | destruct id => exact hostOperation_tau (still (destruct_instant id)) ends
  | enableRx id on => exact hostOperation_tau (still (runAll_ret_instant (enableRx_instant id on) id _)) ends
  | enableTx id on => exact hostOperation_tau (still (runAll_ret_instant (enableTx_instant id on) id _)) ends
  | setTxEnablePin id pin =>
    exact hostOperation_tau (still (runAll_ret_instant (setTxEnablePin_instant id pin) id _)) ends
  | baudrate id => exact hostOperation_tau rfl ends
  | available id => exact absurd rfl (notAvailable id)
  | read id => exact hostOperation_tau (still (readByte_instant id)) ends
  | peek id => exact hostOperation_tau (still (peekByte_instant id)) ends
  | flush id => exact hostOperation_tau (still (flush_instant id)) ends
  | overflow id => exact hostOperation_tau (still (overflow_instant id)) ends
  | onReceive id cb => exact hostOperation_tau (body := hostSteps (outerHost s) (.onReceive id cb)) rfl ends
  | pump id =>
    have waits (tEnd : Option Nat) (u : State) (hu : u.HostWaits) : outerHost s tEnd u = u := outerHost_waits s hu tEnd
    exact hostOperation_tau (pump_quietInstant waits id s ideal).1 ends
  | write id bytes => exact absurd rfl (notWrite id bytes)
  | capture id => exact internalOperation_tau (still (captureStep_instant id)) ends
  | rxbits id => exact internalOperation_tau (still (rxbits_instant id)) ends
  | replayEdge id ev => exact internalOperation_tau (applyInst_tau id _ s) ends
  | synthStop id => exact internalOperation_tau (still (synthStop_instant id)) ends
  | synthStopAt id now => exact internalOperation_tau (still (synthStopAt_instant id now)) ends
  | waitBitCycles id d => exact absurd rfl (notWait id d)

end Sys2Proof.Machine
end
